-- ==== Sys2Proof/Word.lean ====
section
/-! DEFINITION. The word types of the engine: bytes, 16-bit addresses (memory, port, device handle),
64-bit command words and 64-bit absolute ticks (00_scope.md R15, 20_memory.md R81, 30_encoding.md R116). -/

namespace Sys2Proof

/-- u8: a data byte. -/
abbrev Byte := BitVec 8

/-- u16: a memory address, a port address or a device handle (R81, R41). -/
abbrev Addr := BitVec 16

/-- A 64-bit command word (R116). -/
abbrev CmdWord := BitVec 64

/-- u64: an absolute tick count, or a frame number (R145, R30). -/
abbrev Tick := BitVec 64

end Sys2Proof
end

