-- ==== Sys2Proof/Syntax.lean ====
section
/-! DEFINITION. The 22 operations of the opcode map (30_encoding.md R118), one constructor for each row of
spec/opcode_table.json, with the operands of that row. Fields that the row fixes to a constant
(the reserved fields of R122, and `n = 4` of IORD and IOWR, R119) are no operands. -/

namespace Sys2Proof

inductive Instr where
  | mfetch (a : Addr) (n : BitVec 8)
  | mread (a : Addr) (n : BitVec 8)
  | mwrite (a : Addr) (d : Byte) (n : BitVec 8)
  | minternal (a : Addr) (n : BitVec 8)
  | iord (p : Addr)
  | iowr (p : Addr) (d : Byte)
  | qtslin (line cycle : BitVec 12)
  | qlints (t : BitVec 24)
  | qtsabs (t : BitVec 24)
  | qcont (t : BitVec 24)
  | qcontio (t : BitVec 24) (p : Addr)
  | qfloat (t : BitVec 24)
  | hattach (h : Addr) (pos : BitVec 8)
  | hdetach (h : Addr)
  | hlookup (h : Addr)
  | hpage (v : Byte)
  | hflags
  | hsnapsave
  | hsnapload
  | hrenderv
  | hwrap (e : Bool)
  | hswitch
deriving DecidableEq, Repr

end Sys2Proof
end

