-- ==== Sys2Proof/WellFormed.lean ====
section
/-! DEFINITION. Which instructions have an encoding: the value constraints of 30_encoding.md R119 and R123. -/

namespace Sys2Proof

/-- R119, R123: the phase count of a memory request is 1 to 15. -/
def phasesOk (n : BitVec 8) : Bool := decide (1 ≤ n.toNat ∧ n.toNat ≤ 15)

/-- The instructions that some command word decodes to. -/
def WellFormed : Instr → Bool
  | .mfetch _ n => phasesOk n
  | .mread _ n => phasesOk n
  | .mwrite _ _ n => phasesOk n
  | .minternal _ n => phasesOk n
  | .iord _ => true
  | .iowr _ _ => true
  | .qtslin _ _ => true
  | .qlints _ => true
  | .qtsabs _ => true
  | .qcont _ => true
  | .qcontio _ _ => true
  | .qfloat _ => true
  | .hattach _ _ => true
  | .hdetach _ => true
  | .hlookup _ => true
  | .hpage _ => true
  | .hflags => true
  | .hsnapsave => true
  | .hsnapload => true
  | .hrenderv => true
  | .hwrap _ => true
  | .hswitch => true

end Sys2Proof
end

