-- ==== Sys2Proof/Decode.lean ====
section
/-! DEFINITION. The command word (30_encoding.md R116): its fields, the total decoder (R121 to R125, R307), which
refuses by name, and the encoder, both written from the opcode map R118 and the reserved fields of R122. -/

namespace Sys2Proof

/-- Why a word or a command is refused (R127). -/
inductive Reason where
  | unknownOpcode
  | reservedField
  | badField
deriving DecidableEq, Repr

/-- The five fields of a command word (R116). -/
structure Fields where
  op : BitVec 8
  arg : BitVec 24
  a : BitVec 16
  d : BitVec 8
  n : BitVec 8
deriving DecidableEq, Repr

/-- R116: op[63:56] arg[55:32] a[31:16] d[15:8] n[7:0]. -/
def fieldsOf (w : CmdWord) : Fields :=
  { op := w.extractLsb' 56 8, arg := w.extractLsb' 32 24, a := w.extractLsb' 16 16,
    d := w.extractLsb' 8 8, n := w.extractLsb' 0 8 }

/-- The word with these fields (R116). -/
def pack (f : Fields) : CmdWord := f.op ++ f.arg ++ f.a ++ f.d ++ f.n

/-- R116: `line ++ cycle` as `arg[23:12] = line`, `arg[11:0] = cycle`. -/
def argLine (arg : BitVec 24) : BitVec 12 := arg.extractLsb' 12 12

def argCycle (arg : BitVec 24) : BitVec 12 := arg.extractLsb' 0 12

def joinLineCycle (line cycle : BitVec 12) : BitVec 24 := line ++ cycle

/-- R122, R123: the reserved fields first, then the value constraints. -/
def checked (reservedZero valueOk : Bool) (i : Instr) : Except Reason Instr :=
  if reservedZero then (if valueOk then .ok i else .error .badField) else .error .reservedField

/-- R118, R121 to R124: the operation of a word's fields, or the reason it is refused. -/
def decodeFields (f : Fields) : Except Reason Instr :=
  let argZ := f.arg == 0
  let aZ := f.a == 0
  let dZ := f.d == 0
  let nZ := f.n == 0
  if f.op = 0x01#8 then checked (argZ && dZ) (phasesOk f.n) (.mfetch f.a f.n)
  else if f.op = 0x02#8 then checked (argZ && dZ) (phasesOk f.n) (.mread f.a f.n)
  else if f.op = 0x03#8 then checked argZ (phasesOk f.n) (.mwrite f.a f.d f.n)
  else if f.op = 0x04#8 then checked (argZ && dZ) (phasesOk f.n) (.minternal f.a f.n)
  else if f.op = 0x05#8 then checked (argZ && dZ) (f.n == 4#8) (.iord f.a)
  else if f.op = 0x06#8 then checked argZ (f.n == 4#8) (.iowr f.a f.d)
  else if f.op = 0x10#8 then checked (aZ && dZ && nZ) true (.qtslin (argLine f.arg) (argCycle f.arg))
  else if f.op = 0x11#8 then checked (aZ && dZ && nZ) true (.qlints f.arg)
  else if f.op = 0x12#8 then checked (aZ && dZ && nZ) true (.qtsabs f.arg)
  else if f.op = 0x14#8 then checked (aZ && dZ && nZ) true (.qcont f.arg)
  else if f.op = 0x15#8 then checked (dZ && nZ) true (.qcontio f.arg f.a)
  else if f.op = 0x16#8 then checked (aZ && dZ && nZ) true (.qfloat f.arg)
  else if f.op = 0x20#8 then checked (argZ && dZ) true (.hattach f.a f.n)
  else if f.op = 0x21#8 then checked (argZ && dZ && nZ) true (.hdetach f.a)
  else if f.op = 0x22#8 then checked (argZ && dZ && nZ) true (.hlookup f.a)
  else if f.op = 0x23#8 then checked (argZ && aZ && nZ) true (.hpage f.d)
  else if f.op = 0x24#8 then checked (argZ && aZ && dZ && nZ) true .hflags
  else if f.op = 0x25#8 then checked (argZ && aZ && dZ && nZ) true .hsnapsave
  else if f.op = 0x26#8 then checked (argZ && aZ && dZ && nZ) true .hsnapload
  else if f.op = 0x27#8 then checked (argZ && aZ && dZ && nZ) true .hrenderv
  else if f.op = 0x28#8 then
    checked (argZ && aZ && nZ && (f.d.extractLsb' 1 7 == 0)) true (.hwrap (f.d.getLsbD 0))
  else if f.op = 0x29#8 then checked (argZ && aZ && dZ && nZ) true .hswitch
  else .error .unknownOpcode

/-- R121: decoding is total on every 64-bit word. The custom opcodes 0x80 to 0xFF (R125) are refused here;
a wrapper that defines one is asked before this decoder is (Machine/Admission.lean). -/
def decode (w : CmdWord) : Except Reason Instr := decodeFields (fieldsOf w)

/-- R118, R122: the fields of an instruction's word; a field that is no operand is zero, and `n` of IORD and IOWR is 4. -/
def encodeFields : Instr → Fields
  | .mfetch a n => { op := 0x01, arg := 0, a := a, d := 0, n := n }
  | .mread a n => { op := 0x02, arg := 0, a := a, d := 0, n := n }
  | .mwrite a d n => { op := 0x03, arg := 0, a := a, d := d, n := n }
  | .minternal a n => { op := 0x04, arg := 0, a := a, d := 0, n := n }
  | .iord p => { op := 0x05, arg := 0, a := p, d := 0, n := 4 }
  | .iowr p d => { op := 0x06, arg := 0, a := p, d := d, n := 4 }
  | .qtslin line cycle => { op := 0x10, arg := joinLineCycle line cycle, a := 0, d := 0, n := 0 }
  | .qlints t => { op := 0x11, arg := t, a := 0, d := 0, n := 0 }
  | .qtsabs t => { op := 0x12, arg := t, a := 0, d := 0, n := 0 }
  | .qcont t => { op := 0x14, arg := t, a := 0, d := 0, n := 0 }
  | .qcontio t p => { op := 0x15, arg := t, a := p, d := 0, n := 0 }
  | .qfloat t => { op := 0x16, arg := t, a := 0, d := 0, n := 0 }
  | .hattach h pos => { op := 0x20, arg := 0, a := h, d := 0, n := pos }
  | .hdetach h => { op := 0x21, arg := 0, a := h, d := 0, n := 0 }
  | .hlookup h => { op := 0x22, arg := 0, a := h, d := 0, n := 0 }
  | .hpage v => { op := 0x23, arg := 0, a := 0, d := v, n := 0 }
  | .hflags => { op := 0x24, arg := 0, a := 0, d := 0, n := 0 }
  | .hsnapsave => { op := 0x25, arg := 0, a := 0, d := 0, n := 0 }
  | .hsnapload => { op := 0x26, arg := 0, a := 0, d := 0, n := 0 }
  | .hrenderv => { op := 0x27, arg := 0, a := 0, d := 0, n := 0 }
  | .hwrap e => { op := 0x28, arg := 0, a := 0, d := if e then 1 else 0, n := 0 }
  | .hswitch => { op := 0x29, arg := 0, a := 0, d := 0, n := 0 }

/-- The command word of a well-formed instruction. -/
def encode (i : Instr) : CmdWord := pack (encodeFields i)

/-! ## Assembler (R129) -/

/-- R129: the value of an optional `key=value` operand, or its default. -/
def optionalOperand (given : Option (String × Nat)) (key : String) (default : Nat) : Option Nat :=
  match given with
  | none => some default
  | some (k, v) => if k = key then some v else none

/-- R129: a memory request `a [n=default]` (FETCH, RD and their mnemonics). -/
def asmPhases (mk : Addr → BitVec 8 → Instr) (a : Nat) (given : Option (String × Nat)) (default : Nat) : Option Instr :=
  (optionalOperand given "n" default).map (fun n => mk (BitVec.ofNat 16 a) (BitVec.ofNat 8 n))

/-- R129: the operation of one line, whose mnemonic, positional operands and optional operand are already told apart;
pseudo-instructions among them. Out-of-band operands (`HSNAPLOAD image`, `HSWITCH params`) are not in the word. -/
def assemble (mnemonic : String) (ops : List Nat) (given : Option (String × Nat)) : Option Instr :=
  match mnemonic, ops with
  | "MFETCH", [a] => asmPhases .mfetch a given 4
  | "MREAD", [a] => asmPhases .mread a given 3
  | "MWRITE", [a, d] => asmPhases (fun x n => .mwrite x (BitVec.ofNat 8 d) n) a given 3
  | "MINTERNAL", [a] => asmPhases .minternal a given 1
  | "IORD", [p] => some (.iord (BitVec.ofNat 16 p))
  | "IOWR", [p, d] => some (.iowr (BitVec.ofNat 16 p) (BitVec.ofNat 8 d))
  | "QTSLIN", [l, c] => some (.qtslin (BitVec.ofNat 12 l) (BitVec.ofNat 12 c))
  | "QLINTS", [t] => some (.qlints (BitVec.ofNat 24 t))
  | "QTSABS", [t] => some (.qtsabs (BitVec.ofNat 24 t))
  | "QCONT", [t] => some (.qcont (BitVec.ofNat 24 t))
  | "QCONTIO", [t, p] => some (.qcontio (BitVec.ofNat 24 t) (BitVec.ofNat 16 p))
  | "QFLOAT", [t] => some (.qfloat (BitVec.ofNat 24 t))
  | "HATTACH", [h] => (optionalOperand given "pos" 0xFF).map (fun k => .hattach (BitVec.ofNat 16 h) (BitVec.ofNat 8 k))
  | "HDETACH", [h] => some (.hdetach (BitVec.ofNat 16 h))
  | "HLOOKUP", [h] => some (.hlookup (BitVec.ofNat 16 h))
  | "HPAGE", [d] => some (.hpage (BitVec.ofNat 8 d))
  | "HFLAGS", [] => some .hflags
  | "HSNAPSAVE", [] => some .hsnapsave
  | "HSNAPLOAD", [] => some .hsnapload
  | "HRENDERV", [] => some .hrenderv
  | "HWRAP", [e] => some (.hwrap (e % 2 == 1))
  | "HSWITCH", [] => some .hswitch
  | "FETCH", [a] => some (.mfetch (BitVec.ofNat 16 a) 4)
  | "RD", [a] => some (.mread (BitVec.ofNat 16 a) 3)
  | "WR", [a, v] => some (.mwrite (BitVec.ofNat 16 a) (BitVec.ofNat 8 v) 3)
  | "IDLE", [a, k] => some (.minternal (BitVec.ofNat 16 a) (BitVec.ofNat 8 k))
  | "OUT", [p, v] => some (.iowr (BitVec.ofNat 16 p) (BitVec.ofNat 8 v))
  | "IN", [p] => some (.iord (BitVec.ofNat 16 p))
  | "BORDER", [c] => some (.iowr 0x00FE (BitVec.ofNat 8 c))
  | "PAGE", [v] => some (.iowr 0x7FFD (BitVec.ofNat 8 v))
  | _, _ => none

/-- What the decoder reads from a command word whose bits are `w`, numbered as spec/opcode_table.json numbers them
(bit 0 is bit 0 of the word). Every command word is exactly 64 bits (R128). -/
def decodeTableWord (nbits w : Nat) : Option Instr :=
  if nbits ≤ 64 ∧ w < 2 ^ nbits then (decode (BitVec.ofNat 64 w)).toOption else none

end Sys2Proof
end

