-- ==== Sys2Proof/Machine/Memory.lean ====
section
/-! DEFINITION. The page store as plain data (10_state.md R39, 20_memory.md R82): a list of (key, byte) pairs in one
canonical form. The key of offset `off` of page `p` is `p * WINDOW_SIZE + off`. -/

namespace Sys2Proof.Machine

/-- The cells of the page store that do not read as `Memory.unlisted`. -/
abbrev Memory := List Host.Cell

/-- What a byte reads as that no cell lists (DESIGN CHOICE, notes/assumptions 3: the spec draws RAM bytes at
construction and takes the ROM images from the host; the reference runs have 0x00). -/
def Memory.unlisted : Byte := 0

/-- The byte at a key. -/
def Memory.read : Memory → Nat → Byte
  | [], _ => Memory.unlisted
  | (k, b) :: rest, a => if k = a then b else if a < k then Memory.unlisted else Memory.read rest a

/-- The cell list of one byte: none where the byte is what an unlisted key reads as. -/
def Memory.cell (a : Nat) (v : Byte) : Memory := if v = Memory.unlisted then [] else [(a, v)]

/-- Store a byte at a key, keeping the canonical form. -/
def Memory.write : Memory → Nat → Byte → Memory
  | [], a, v => Memory.cell a v
  | (k, b) :: rest, a, v =>
    if k = a then Memory.cell a v ++ rest
    else if a < k then Memory.cell a v ++ ((k, b) :: rest)
    else (k, b) :: Memory.write rest a v

/-- Keys above `lo` strictly rising, no cell equal to what an unlisted key reads as. -/
def Memory.wfAbove : Nat → Memory → Bool
  | _, [] => true
  | lo, (k, b) :: rest => decide (lo ≤ k) && decide (b ≠ Memory.unlisted) && Memory.wfAbove (k + 1) rest

/-- The canonical form. -/
def Memory.wf (m : Memory) : Bool := Memory.wfAbove 0 m

/-- The canonical memory that holds the listed bytes, a later one over an earlier one. -/
def Memory.ofCells (cells : List Host.Cell) : Memory :=
  cells.foldl (fun m c => Memory.write m c.1 c.2) []

end Sys2Proof.Machine
end

