-- ==== Sys2Proof/Config.lean ====
section
/-! DEFINITION. What an implementation fixes and what the spec leaves open: the chipset parameter record P
(00_scope.md R12), the plain-data forms of device and wrapper implementations, and the free values, constants with no
body about which nothing can be proved (93_implementation_defined.md part 1; notes/assumptions 7 to 10, 16, 23). -/

namespace Sys2Proof

/-- Timing scheme (R12, R217). -/
inductive Scheme where
  | early
  | late
deriving DecidableEq, Repr

/-- The paging port of P (R12 `PAGING`); the spec gives one port layout, that of R131. -/
inductive PagingPort where
  | port7FFD
deriving DecidableEq, Repr

/-- A page descriptor of P (R12, R85). The page id is a number (notes/assumptions 14); of two descriptors with one id the
first counts (notes/assumptions 31). -/
structure PageDesc where
  id : Nat
  size : Nat
  contended : Bool
  writable : Bool
deriving DecidableEq, Repr

/-- A function from the paging register to a page id: the entry of `pages` that the `width` bits of the register
from bit `lo` select. With `lo = 0` and `width = 8` it is any function of the register (notes/assumptions 14). -/
structure PageSel where
  lo : Nat
  width : Nat
  pages : List Nat
deriving DecidableEq, Repr

/-- Audio sources: EAR, MIC and the channels of the devices (R256). -/
inductive Source where
  | ear
  | mic
  | dev (id : Addr) (k : Nat)
deriving DecidableEq, Repr

/-- A parameter that the spec leaves OPEN (R13): given by whoever supplies the record, or unknown. -/
inductive Setting (α : Type) where
  | given (v : α)
  | unknown
deriving DecidableEq, Repr

/-- The part of STEP_H between 0 and STEP_K (R260): the linear ramp of the spec's illustration, or an open one. -/
inductive StepShape where
  | ramp
  | unknown (k : Nat)
deriving DecidableEq, Repr

/-- The geometry of the pixel buffer (R12 VIS_LINE_FIRST, VIS_LINES, VIS_H_FIRST, VIS_H_COUNT). -/
structure Geometry where
  lineFirst : Nat
  lines : Nat
  hFirst : Int
  hCount : Nat
deriving DecidableEq, Repr

/-- The parameter record P of R12. `N_WINDOWS` is derived from `windowSize`; `STRICT` and `SCHEME` stand in
`EngineCfg` (R35); `INT_TS` has an entry for each scheme, none where the scheme is not defined (R13). `stepKPred` is
`STEP_K - 1`: no record has the excluded `STEP_K = 0` (R260). -/
structure Params where
  cpl : Nat
  lpf : Nat
  eof : Nat
  intEarly : Option Nat
  intLate : Option Nat
  intPulse : Nat
  contStart : Nat
  contLines : Nat
  contCycles : Nat
  contPattern : Vector Nat 8
  fetchStart : Nat
  idleBus : Byte
  ioDataOffset : Nat
  windowSize : Nat
  pages : List PageDesc
  map : List PageSel
  paging : Option PagingPort
  screenPage : PageSel
  displayLine0 : Nat
  pixCycle0 : Nat
  vis : Geometry
  flashPeriod : Nat
  cpuHz : Nat
  sampleRate : Setting Nat
  stepShape : StepShape
  stepKPred : Setting Nat
  amps : List (Source × Rat)
  ampOther : Setting Rat
deriving DecidableEq, Repr

/-- A device's declared clock representation (R148). -/
inductive ClockRepr where
  | frame
  | abs64
  | lin32
deriving DecidableEq, Repr

/-- An instant in a device's own representation (R148). -/
inductive DevTime where
  | frame (f : Tick) (line cycle : Nat)
  | abs64 (a : Tick)
  | lin32 (a : BitVec 32)
deriving DecidableEq, Repr

/-- An edge a device reports with the result of one of its four operations (R256). -/
structure DevEdge where
  chan : Nat
  time : DevTime
  level : Nat
deriving DecidableEq, Repr

/-- The opaque state of a device (R41), as plain data. -/
abbrev DevState := List Nat

/-- What a device operation gives: its result, the device's new state and its edges (R197, R256). -/
structure DevReply (α : Type) where
  ret : α
  dev : DevState
  edges : List DevEdge
deriving DecidableEq, Repr, Inhabited

/-- An edge of a scripted device: on channel `chan`, `delay` cycles after the instant of the call. -/
structure ScriptEdge where
  chan : Nat
  delay : Nat
  level : Nat
deriving DecidableEq, Repr

/-- A scripted device claims a read of a port that agrees with `value` on the bits of `mask`. -/
structure ReadRule where
  mask : Addr
  value : Addr
  answer : Byte
  edges : List ScriptEdge
deriving DecidableEq, Repr

/-- A scripted device forwards `v xor flip` for a write to a port that agrees with `value` on `mask`;
`record` puts the port, the value and the instant into the device's state. -/
structure WriteRule where
  mask : Addr
  value : Addr
  flip : Byte
  record : Bool
  edges : List ScriptEdge
deriving DecidableEq, Repr

structure DevScript where
  reads : List ReadRule
  writes : List WriteRule
  atBoundary : List ScriptEdge
deriving DecidableEq, Repr

/-- The four operations of a device implementation (R197): those of an implementation of which nothing is known, or of
a script like the illustrative devices of 95_test_vectors.md P4 and P5 (notes/assumptions 7). -/
inductive DevOps where
  | external (k : Nat)
  | scripted (d : DevScript)
deriving DecidableEq, Repr

/-- The device implementation that HATTACH takes out of band (R272). -/
structure DevImpl where
  init : DevState
  clock : ClockRepr
  nch : Nat
  ops : DevOps
deriving DecidableEq, Repr

/-- The state of one wrapper (R288), as plain data. -/
abbrev WrapState := List Nat

/-- What a pixel function may read beside its wrapper's state and the inner instance's index (R246, R287, R291): the pixel's
position, its two cache bytes and, where the attribute byte flashes, the flash phase (0 where it does not). -/
structure PixelIn where
  y : Nat
  px : Nat
  bmp : Byte
  att : Byte
  phase : Nat
deriving DecidableEq, Repr

/-- A scripted wrapper (notes/assumptions 8): it reads the head of its state, writes its head, adds `pixelAdd` to the
inner index, and has a geometry, a map override and custom opcodes where it gives them. -/
structure WrapScript where
  readMask : Addr
  readValue : Addr
  writeMask : Addr
  writeValue : Addr
  pixelAdd : Option Nat
  geometry : Option Geometry
  map : Option (List PageSel)
  customRead : List (BitVec 8)
  customWrite : List (BitVec 8)
deriving DecidableEq, Repr

/-- A wrapper implementation (R284): one of which nothing is known, or a scripted one. -/
inductive WrapImpl where
  | external (k : Nat)
  | scripted (w : WrapScript)
deriving DecidableEq, Repr

/-- Which HOST_IN answers the chipset port (R196): the open host input, or a constant one as in 95_test_vectors.md. -/
inductive HostInput where
  | unknown
  | fixed (k : BitVec 5) (e : BitVec 1)
deriving DecidableEq, Repr

/-- Whether a custom opcode only reads the wrapper's state or writes it (R289). -/
inductive CustomKind where
  | reads
  | writes
deriving DecidableEq, Repr

namespace Config

/-! Free values. None has a body: a theorem about the model holds for every value of each of them. -/

/-- HOST_IN (R196, K8): keyboard bits and tape level for a high address byte and an absolute instant. -/
opaque hostIn : BitVec 8 → Tick → BitVec 5 × BitVec 1

/-- SAMPLE_RATE where the record leaves it open (R13, K6). -/
opaque sampleRate : Nat

/-- STEP_K - 1 where the record leaves STEP_K open (R13, K5; R260: STEP_K is at least 1). -/
opaque stepKPred : Nat

/-- STEP_H strictly between 0 and STEP_K (R260, K5), for a numbered open shape. -/
opaque stepShape : Nat → Rat → Rat

/-- AMP of a source where the record leaves it open (R13, K6). -/
opaque amp : Source → Rat

/-- GAIN and SYNTH of the frame with a given number, where the host's render arguments are open (R261, R267, K6, K7). -/
opaque gain : Tick → Rat
opaque synth : Tick → Bool

/-- The four operations of external device implementation `k` (R197, K14). -/
opaque devRead : Nat → DevState → Addr → DevTime → DevReply (Option Byte)
opaque devWrite : Nat → DevState → Addr → Byte → DevTime → DevReply Byte
opaque devAdvance : Nat → DevState → DevTime → DevReply Unit
opaque devBoundary : Nat → DevState → DevReply Unit

/-- The parts of external wrapper implementation `k` (R284, K13). -/
opaque wrapSelR : Nat → Addr → Bool
opaque wrapSelW : Nat → Addr → Bool
opaque wrapRead : Nat → WrapState → Addr → Nat → Byte
opaque wrapWrite : Nat → WrapState → Addr → Byte → Nat → WrapState
opaque wrapPixel : Nat → WrapState → PixelIn → Nat → Option Nat
opaque wrapGeometry : Nat → WrapState → Option Geometry
opaque wrapMap : Nat → WrapState → Byte → Nat → Option Nat
opaque wrapCustom : Nat → BitVec 8 → Option CustomKind
opaque wrapCustomRun : Nat → WrapState → CmdWord → WrapState × Nat

/-- The drawn S.ula of the construction that `withFetchWord` supplies with an HSWITCH word (R321, K1). -/
opaque drawnUla : Byte

/-- The value of `x div 0`, which R15 does not state, where R14 lets a parameter be 0 (FLASH_PERIOD, CPU_HZ). -/
opaque divByZero : Nat → Nat

/-- The sample position of a tick where CPU_HZ is 0 (R259 divides by it; R14 does not exclude it). -/
opaque posByZero : Nat → Rat

/-- What a page reads as at an offset of WINDOW_SIZE or more, which a display fetch of a small-window record can
name (R236) and R82 does not give. -/
opaque beyondPage : Nat → Nat → Byte

end Config

end Sys2Proof
end

