-- ==== Sys2Proof/Machine/Params.lean ====
section
/-! DEFINITION. The parameter record P: derived values, its well-formedness (00_scope.md R14) and the two reference
configurations ZX48 and ZX128 (R13). -/

namespace Sys2Proof

/-- Division with the value at 0 left open (R15: `x div y` is for `y > 0`; notes/assumptions 16). -/
def divOpen (x y : Nat) : Nat := if y = 0 then Config.divByZero x else x / y

/-- The page id that a selector names for a value of the paging register. -/
def PageSel.pick (sel : PageSel) (paging : Byte) : Nat :=
  sel.pages.getD ((paging.toNat / 2 ^ sel.lo) % 2 ^ sel.width) 0

/-- R12: `N_WINDOWS = 65536 / WINDOW_SIZE`. -/
def Params.nWindows (P : Params) : Nat := 65536 / P.windowSize

/-- R12 `INT_TS(SCHEME)`; none where the scheme is no scheme of P (R13). -/
def Params.intTs? (P : Params) : Scheme → Option Nat
  | .early => P.intEarly
  | .late => P.intLate

/-- The descriptor of a page (R39, R85). R12 and R14 do not exclude two descriptors with one id, and no rule says whose size
and tags count then; the first in the list does (DESIGN CHOICE, notes/assumptions 31). -/
def Params.page? (P : Params) (id : Nat) : Option PageDesc := P.pages.find? (fun d => d.id == id)

/-- R14: the page is in PAGES with `size = WINDOW_SIZE`. -/
def Params.pageOk (P : Params) (id : Nat) : Bool :=
  match P.page? id with
  | some d => d.size == P.windowSize
  | none => false

/-- R14 for the pages that a map entry or SCREEN_PAGE names; the selector has an entry for each value of its field,
so that no window is left unmapped (R88). -/
def Params.selOk (P : Params) (sel : PageSel) : Bool :=
  decide (sel.pages.length = 2 ^ sel.width) && sel.pages.all P.pageOk

/-- R14 for one entry of INT_TS. -/
def Params.intOk (P : Params) : Option Nat → Bool
  | none => true
  | some t => decide (t < P.eof ∧ t + P.intPulse ≤ P.eof)

/-- R14: well-formedness of P, required before construction. -/
def Params.wellFormed (P : Params) : Bool :=
  decide (1 ≤ P.cpl ∧ 1 ≤ P.lpf ∧ P.eof = P.cpl * P.lpf)
    && decide (P.contCycles ≤ P.cpl ∧ P.contCycles % 8 = 0)
    && decide (P.contStart + P.contLines * P.cpl ≤ P.eof)
    && decide ((P.fetchStart : Int) + ((P.contLines : Int) - 1) * P.cpl + P.contCycles ≤ P.eof)
    && P.intOk P.intEarly && P.intOk P.intLate
    && decide (P.windowSize * P.nWindows = 65536)
    && decide (P.map.length = P.nWindows) && P.map.all P.selOk && P.selOk P.screenPage
    && decide (P.displayLine0 = (P.contStart + P.cpl - 1) / P.cpl)
    && decide (P.contStart ≤ P.fetchStart)

/-- The greatest wait of CONT_PATTERN (R153). -/
def Params.maxWait (P : Params) : Nat := P.contPattern.toList.foldl max 0

/-- R144: one request is shorter than a frame (true of both reference records): at most 15 phases, each with at most
the greatest wait, and the data instant offset. -/
def Params.shortRequests (P : Params) : Bool := decide (15 * P.maxWait + 15 < P.eof)

/-! ## Open parameters -/

/-- SAMPLE_RATE (R12, K6). -/
def Params.sampleRateVal (P : Params) : Nat :=
  match P.sampleRate with
  | .given v => v
  | .unknown => Config.sampleRate

/-- STEP_K (R12, R260, K5); at least 1 in every record. -/
def Params.stepKVal (P : Params) : Nat :=
  match P.stepKPred with
  | .given v => v + 1
  | .unknown => Config.stepKPred + 1

/-- `AMP(src)` (R12, K6): the record's entry for the source, else its value for every other source. -/
def Params.ampVal (P : Params) (src : Source) : Rat :=
  match P.amps.find? (fun a => a.1 == src) with
  | some a => a.2
  | none =>
    match P.ampOther with
    | .given v => v
    | .unknown => Config.amp src

/-! Page ids of the reference records: ROM0, ROM1 are 0, 1; RAM0 to RAM2 are 1 to 3 on ZX48; BANK0 to BANK7 are
2 to 9 on ZX128 (notes/assumptions 14). -/

/-- A constant page selector. -/
def PageSel.const (id : Nat) : PageSel := { lo := 0, width := 0, pages := [id] }

def rom (id : Nat) : PageDesc := { id := id, size := 16384, contended := false, writable := false }

def ram (id : Nat) (contended : Bool) : PageDesc :=
  { id := id, size := 16384, contended := contended, writable := true }

/-- The visible area of both reference records (R13). -/
def visRef : Geometry := { lineFirst := 16, lines := 288, hFirst := -24, hCount := 176 }

/-- R13, R85, R86, R87: the ZX48 reference configuration. -/
def zx48 : Params :=
  { cpl := 224, lpf := 312, eof := 69888
    intEarly := some 1, intLate := some 0, intPulse := 1
    contStart := 14336, contLines := 192, contCycles := 128, contPattern := #v[6, 5, 4, 3, 2, 1, 0, 0]
    fetchStart := 14339, idleBus := 0xFF, ioDataOffset := 0, windowSize := 16384
    pages := [rom 0, ram 1 true, ram 2 false, ram 3 false]
    map := [.const 0, .const 1, .const 2, .const 3]
    paging := none, screenPage := .const 1
    displayLine0 := 64, pixCycle0 := 4, vis := visRef, flashPeriod := 16, cpuHz := 3500000
    sampleRate := .unknown, stepShape := .unknown 0, stepKPred := .unknown, amps := [], ampOther := .unknown }

/-- The page id of BANK`n` on ZX128. -/
def bank (n : Nat) : Nat := n + 2

/-- R13, R85, R86, R87: the ZX128 reference configuration. -/
def zx128 : Params :=
  { cpl := 228, lpf := 311, eof := 70908
    intEarly := none, intLate := some 0, intPulse := 1
    contStart := 14361, contLines := 192, contCycles := 128, contPattern := #v[6, 5, 4, 3, 2, 1, 0, 0]
    fetchStart := 14364, idleBus := 0xFF, ioDataOffset := 0, windowSize := 16384
    pages := [rom 0, rom 1, ram (bank 0) false, ram (bank 1) true, ram (bank 2) false, ram (bank 3) true,
      ram (bank 4) false, ram (bank 5) true, ram (bank 6) false, ram (bank 7) true]
    map := [{ lo := 4, width := 1, pages := [0, 1] }, .const (bank 5), .const (bank 2),
      { lo := 0, width := 3,
        pages := [bank 0, bank 1, bank 2, bank 3, bank 4, bank 5, bank 6, bank 7] }]
    paging := some .port7FFD, screenPage := { lo := 3, width := 1, pages := [bank 5, bank 7] }
    displayLine0 := 63, pixCycle0 := 1, vis := visRef, flashPeriod := 16, cpuHz := 3546900
    sampleRate := .unknown, stepShape := .unknown 0, stepKPred := .unknown, amps := [], ampOther := .unknown }

end Sys2Proof
end

