-- ==== Sys2Proof/Machine/Types.lean ====
section
/-! DEFINITION. The pieces of the engine's state as plain data (10_state.md), the host mutations (46_host_wrappers.md R271),
the issues that come in and the outputs that go out. -/

namespace Sys2Proof.Machine

/-- S.mode (R29). -/
inductive Mode where
  | running
  | frameComplete
  | faulted
deriving DecidableEq, Repr

/-- The codes of fatal faults (R299). -/
inductive FaultCode where
  | e1
  | e2
  | e3
deriving DecidableEq, Repr

/-- The queries that take one frame-linear timestamp (R161 to R164, R203). -/
inductive QueryOp where
  | qlints
  | qtsabs
  | qcont
  | qcontio
  | qfloat
deriving DecidableEq, Repr

/-- The bus requests, as the operations that an E1 of R226 names (R299). -/
inductive RequestOp where
  | mfetch
  | mread
  | mwrite
  | minternal
  | iord
  | iowr
deriving DecidableEq, Repr

/-- The bound that an instant broke (R299, R300): it is not below `b`, it lies before `b`, or it lies after `b`. -/
inductive Bound where
  | below (b : Nat)
  | notBefore (b : Nat)
  | notAfter (b : Nat)
deriving DecidableEq, Repr

/-- What a fatal fault records: what R299 asks for, in the terms of the raising rule. For E1 that is the operation or device,
the offending instant and the bound it broke: LPF and CPL for QTSLIN, the node's `last` for a device clock (R200), a
`Bound` otherwise (notes/assumptions 38). -/
inductive FaultInfo where
  | lineCycle (line cycle lpf cpl : Nat)
  | query (op : QueryOp) (t : Nat) (bound : Bound)
  | clockBack (device : Addr) (now last : Tick)
  | requestAt (op : RequestOp) (t : Nat) (bound : Bound)
  | edge (source : Source) (t : Int) (bound : Bound)
  | renderAt (t : Nat) (bound : Bound)
  | conversion (device : Addr) (f : Tick) (t : Nat)
  | claim (device : Addr)
deriving DecidableEq, Repr

/-- (code, info) of S.fault (R36). -/
structure FaultRec where
  code : FaultCode
  info : FaultInfo
deriving DecidableEq, Repr

/-- S.cfg (R35). -/
structure EngineCfg where
  params : Params
  scheme : Scheme
  strict : Bool
deriving DecidableEq, Repr

/-- A node of the chain (R41, R272). R41 names `id`, `dev`, `repr` and `last`; the model keeps the channel count and the
operations of the implementation in the node as well, so they are part of a snapshot image, and a loaded image runs the
implementations it was saved with (DESIGN CHOICE, notes/assumptions 32). -/
structure Node where
  id : Addr
  dev : DevState
  clock : ClockRepr
  last : Tick
  nch : Nat
  ops : DevOps
deriving DecidableEq, Repr

/-- A border change (R43). -/
structure BorderEvent where
  t : Nat
  colour : BitVec 3
deriving DecidableEq, Repr

/-- A byte column of a pixel line in the video cache (R44); one `seen` mark for each of the two fetches
(DEDUCED, notes/assumptions 11). -/
structure VCell where
  bmp : Byte
  att : Byte
  seenBmp : Bool
  seenAtt : Bool
deriving DecidableEq, Repr

/-- `row[y]` (R44): the rendered pixels, and what they were rendered from (R248, R287). -/
structure RowImage where
  bytes : List (Byte × Byte)
  phase : Nat
  wrap : List (WrapImpl × WrapState)
  pixels : List Nat
deriving DecidableEq, Repr

/-- A pixel line of the video cache (R44). -/
structure VLine where
  cells : List VCell
  dirty : Bool
  row : Option RowImage
deriving DecidableEq, Repr

/-- An audio edge (R45). -/
structure Edge where
  t : Nat
  level : Nat
deriving DecidableEq, Repr

/-- An unsettled band-limited step of S.apend (R46). `delta` is an integer in every state whose levels at frame start
are (DEDUCED, notes/assumptions 21). -/
structure Pend where
  pos : Rat
  delta : Rat
deriving DecidableEq, Repr

/-- S.edges, S.alevel, S.abase and S.apend of one source (R45, R46). -/
structure Channel where
  edges : List Edge
  level : Nat
  base : Rat
  pend : List Pend
deriving DecidableEq, Repr

/-- The channel (id, k) of a device (R256); `closing` once the device is detached (R270). -/
structure DevChannel where
  id : Addr
  k : Nat
  closing : Bool
  ch : Channel
deriving DecidableEq, Repr

/-- The audio state of all sources. -/
structure Audio where
  ear : Channel
  mic : Channel
  chans : List DevChannel
deriving DecidableEq, Repr

/-- One wrapper of S.wrap (R47, R291). -/
structure WrapNode where
  impl : WrapImpl
  enabled : Bool
  st : WrapState
deriving DecidableEq, Repr

/-- The record S of 10_state.md without S.deferred: exactly the snapshot image of R277. -/
structure Engine where
  cfg : EngineCfg
  ts : Nat
  mode : Mode
  frame : Tick
  intDone : Bool
  atBoundary : Bool
  ula : Byte
  paging : Option Byte
  fault : Option FaultRec
  devConflict : Bool
  pages : Memory
  chain : List Node
  border0 : BitVec 3
  borderEv : List BorderEvent
  vcache : List VLine
  audio : Audio
  wrap : List WrapNode
deriving DecidableEq, Repr

/-- What HSWITCH takes out of band (R283) with the free inputs of the construction (R321, R326). `roms` and `ram`
list page-store keys; a byte that neither lists is 0x00. `ram` is the RAM image or, where the host supplies none, the
drawn bytes, and `ula` is the drawn S.ula: both are inputs of the step (R18; notes/assumptions 23). -/
structure SwitchArgs where
  params : Params
  scheme : Scheme
  strict : Bool
  roms : List Host.Cell
  ram : List Host.Cell
  ula : Byte
  wrap : List (WrapImpl × WrapState)
deriving DecidableEq, Repr

/-- The host mutations (R271). -/
inductive Mutation where
  | attach (h : Addr) (pos : BitVec 8) (impl : DevImpl)
  | detach (h : Addr)
  | page (v : Byte)
  | load (img : Engine)
  | wrap (e : Bool)
  | switch (args : SwitchArgs)
  | custom (w : CmdWord)
deriving DecidableEq, Repr

/-- What HFLAGS returns (R276). -/
structure StatusFlags where
  mode : Mode
  fault : Option FaultRec
  devConflict : Bool
  atBoundary : Bool
  frame : Tick
  ts : Nat
  deferred : Nat
deriving DecidableEq, Repr

/-- The value of a query or of a host command that is done (R160 to R164, R203, R272 to R283, R289). -/
inductive Value where
  | unit
  | nat (n : Nat)
  | stamp (line cycle : Nat)
  | tick (a : Tick)
  | byte (b : Byte)
  | found (index : Nat) (dev : DevState) (last : Tick)
  | flags (f : StatusFlags)
  | image (img : Engine)
  | pixels (buf : List (List Nat))
  | device (dev : DevState)
  | nodes (chain : List Node)
deriving DecidableEq, Repr

/-- The checks of a snapshot image: the codec's own (R303), then those of R281 in the order of that rule. -/
inductive SnapCheck where
  | decode
  | config
  | mode
  | fault
  | timestamp
  | pages
  | paging
  | chain
  | events
  | audio
  | video
  | wrapper
deriving DecidableEq, Repr

/-- Recoverable errors of host commands (R297, R299). -/
inductive HostError where
  | e4 (check : SnapCheck)
  | e5 (handle : Addr)
deriving DecidableEq, Repr

/-- What an issuer gets back: the answer to a bus request (R175), to a query or a host command
(46_host_wrappers.md), a refusal (R127), a fault (R296) or Halted (R298). -/
inductive Response where
  | data (v : Byte) (wait : Nat)
  | wait (wait : Nat)
  | done (v : Value)
  | deferred
  | error (e : HostError)
  | refused (r : Reason)
  | faulted (f : FaultRec)
  | halted (f : Option FaultRec)
deriving DecidableEq, Repr

/-- What leaves the engine: the call `signal_interrupt()` (R218), a response, the pixel and PCM buffers of a frame
(R222 step 4), and the value of a deferred mutation when it is applied (notes/assumptions 13). -/
inductive Output where
  | interrupt
  | response (r : Response)
  | frame (pixels : List (List Nat)) (pcm : List Rat)
  | applied (v : Value)
deriving DecidableEq, Repr

/-- The interface a word arrives through (R313). -/
inductive Interface where
  | stepping
  | host
deriving DecidableEq, Repr

/-- The out-of-band operand of an issue (R272, R278, R283); `undecodable` is a snapshot of which the external codec got
no image (R303). -/
inductive Oob where
  | absent
  | device (d : DevImpl)
  | image (img : Engine)
  | undecodable
  | model (args : SwitchArgs)
deriving DecidableEq, Repr

/-- One word issued by an agent (R116, R313) with its out-of-band operand. -/
structure Issue where
  iface : Interface
  word : CmdWord
  oob : Oob
deriving DecidableEq, Repr

/-- The parameters of the step that the host fixes (R25, R325): GAIN, SYNTH and HOST_IN. -/
structure HostArgs where
  gain : Setting Rat
  synth : Setting Bool
  input : HostInput
deriving DecidableEq, Repr

end Sys2Proof.Machine
end

