-- ==== Sys2Proof/Machine/Construct.lean ====
section
/-! DEFINITION. Construction of the engine for a chipset model, its only reset (10_state.md R48, 70_reset_and_hazards.md R321). -/

namespace Sys2Proof.Machine

/-- The key of offset `off` of page `id` in the page store (R82). -/
def pageKey (P : Params) (id off : Nat) : Nat := id * P.windowSize + off

/-- The page that a key of the page store lies in. -/
def keyPage (P : Params) (key : Nat) : Option PageDesc := P.page? (key / P.windowSize)

/-- The listed bytes that lie in the ROM pages of `roms` and in the RAM pages of `ram` (R321). -/
def pageImage (P : Params) (roms ram : List Host.Cell) : Memory :=
  Memory.ofCells
    (roms.filter (fun c => (keyPage P c.1).any (fun d => !d.writable))
      ++ ram.filter (fun c => (keyPage P c.1).any (fun d => d.writable)))

/-- R44: every byte 0, every `seen` false, every `dirty` true, every `row` absent. -/
def emptyVcache (P : Params) : List VLine :=
  List.replicate P.contLines
    { cells := List.replicate (P.contCycles / 4) { bmp := 0, att := 0, seenBmp := false, seenAtt := false }
      dirty := true, row := none }

/-- R46: a channel whose level is `level`, with nothing pending. -/
def quietChannel (level : Nat) : Channel := { edges := [], level := level, base := level, pend := [] }

/-- S.ula[4], the EAR output level (R33, R257). -/
def earLevel (v : Byte) : Nat := (v.getLsbD 4).toNat

/-- S.ula[3], the MIC output level (R33, R257). -/
def micLevel (v : Byte) : Nat := (v.getLsbD 3).toNat

/-- S.ula[2:0], the border colour (R33, R243). -/
def borderBits (v : Byte) : BitVec 3 := v.extractLsb' 0 3

/-- R321: every field at its reset value of R48, from the construction's arguments. -/
def construct (args : SwitchArgs) : Engine :=
  { cfg := { params := args.params, scheme := args.scheme, strict := args.strict }
    ts := 0, mode := .running, frame := 0, intDone := false, atBoundary := true
    ula := args.ula
    paging := if args.params.paging.isSome then some 0x00 else none
    fault := none, devConflict := false
    pages := pageImage args.params args.roms args.ram
    chain := []
    border0 := borderBits args.ula, borderEv := []
    vcache := emptyVcache args.params
    audio := { ear := quietChannel (earLevel args.ula), mic := quietChannel (micLevel args.ula), chans := [] }
    wrap := args.wrap.map (fun w => { impl := w.1, enabled := false, st := w.2 }) }

/-- R321: construction refuses a record that fails R14, or a scheme that is no scheme of P. -/
def constructible (args : SwitchArgs) : Bool :=
  args.params.wellFormed && (args.params.intTs? args.scheme).isSome

/-- The arguments of State.reset's construction (DESIGN CHOICE, notes/assumptions 1 to 3): the conventions of 95_test_vectors.md. -/
def resetArgs : SwitchArgs :=
  { params := zx48, scheme := .late, strict := false, roms := [], ram := [], ula := 0x00, wrap := [] }

end Sys2Proof.Machine
end

