-- ==== Sys2Proof/Machine/State.lean ====
section
/-! DEFINITION. The state of the machine, its reset, and the two ways a step of the model can stop. -/

namespace Sys2Proof.Machine

/-- The engine's record S (10_state.md): the fields of `Engine` and S.deferred; and the model's environment: the
issues not yet performed, the out-of-band operand of the issue being performed, the outputs of the last step and the
host's parameters of the step. -/
structure State extends Engine where
  deferred : List Mutation
  args : HostArgs
  inbox : List Issue
  oob : Oob
  out : List Output
deriving DecidableEq, Repr

/-- The faults of the engine (E1, E2, E3) are next states with S.fault latched (R296), and the model itself has no stuck
state, so nothing raises the one reason of this type. -/
inductive Fault where
  /-- Raised by no instruction and by no step: the model has no stuck state. It stands so that the type is inhabited. Safe. -/
  | unreachable
deriving DecidableEq, Repr

/-- Refusals of the engine (R127) are next states with a Refused response; this type holds only the model's own. -/
inductive Refusal where
  /-- Raised by an arm of exec whose instruction has no meaning yet; no arm raises it in this model. Safe. -/
  | notModelled (mnemonic : String)
deriving DecidableEq, Repr

/-- The machine right after construction (R48, R321), nothing issued yet. GAIN, SYNTH and HOST_IN are the open ones
(notes/assumptions 9 and 10). -/
def State.reset : State :=
  { toEngine := construct resetArgs
    deferred := []
    args := { gain := .unknown, synth := .unknown, input := .unknown }
    inbox := [], oob := .absent, out := [] }

end Sys2Proof.Machine
end

