-- ==== Sys2Proof/Machine/Ops.lean ====
section
/-! DEFINITION. Shared operations: the result of an operation that may raise a fatal fault, the entry into a fault
(60_exceptions.md R296) and the way out of it (R298, 46_host_wrappers.md R283), responses, and the memory map and its
read and write primitives (20_memory.md). -/

namespace Sys2Proof.Machine

/-! ## Operations that may raise (R18, R296) -/

/-- The result of an operation on `σ`: a value and the new state, or the raised fault and the state at the raise point. -/
inductive Res (σ α : Type) where
  | ok (a : α) (x : σ)
  | raised (f : FaultRec) (x : σ)
deriving DecidableEq, Repr

/-- The next statement of the pseudocode; after a raise it is not performed (R296). -/
def Res.bind {σ α β : Type} (r : Res σ α) (k : α → σ → Res σ β) : Res σ β :=
  match r with
  | .ok a x => k a x
  | .raised f x => .raised f x

/-- The state an operation leaves, whether it raised or not. -/
def Res.state {σ α : Type} : Res σ α → σ
  | .ok _ x => x
  | .raised _ x => x

/-- Carry an operation on a part of the state over to the whole. -/
def Res.lift {σ τ α : Type} (put : σ → τ) : Res σ α → Res τ α
  | .ok a x => .ok a (put x)
  | .raised f x => .raised f (put x)

/-! ## Updates of the state -/

def State.setTs (s : State) (v : Nat) : State := { s with ts := v }
def State.setMode (s : State) (v : Mode) : State := { s with mode := v }
def State.setFrame (s : State) (v : Tick) : State := { s with frame := v }
def State.setIntDone (s : State) (v : Bool) : State := { s with intDone := v }
def State.setAtBoundary (s : State) (v : Bool) : State := { s with atBoundary := v }
def State.setUla (s : State) (v : Byte) : State := { s with ula := v }
def State.setPaging (s : State) (v : Option Byte) : State := { s with paging := v }
def State.setFault (s : State) (v : Option FaultRec) : State := { s with fault := v }
def State.setDevConflict (s : State) (v : Bool) : State := { s with devConflict := v }
def State.setPages (s : State) (v : Memory) : State := { s with pages := v }
def State.setChain (s : State) (v : List Node) : State := { s with chain := v }
def State.setBorder0 (s : State) (v : BitVec 3) : State := { s with border0 := v }
def State.setBorderEv (s : State) (v : List BorderEvent) : State := { s with borderEv := v }
def State.setVcache (s : State) (v : List VLine) : State := { s with vcache := v }
def State.setAudio (s : State) (v : Audio) : State := { s with audio := v }
def State.setWrap (s : State) (v : List WrapNode) : State := { s with wrap := v }
def State.setEngine (s : State) (v : Engine) : State := { s with toEngine := v }
def State.setDeferred (s : State) (v : List Mutation) : State := { s with deferred := v }
def State.setInbox (s : State) (v : List Issue) : State := { s with inbox := v }
def State.setOob (s : State) (v : Oob) : State := { s with oob := v }
def State.setOut (s : State) (v : List Output) : State := { s with out := v }

/-- The parameter record of the running engine (S.cfg.P, R35). -/
abbrev State.P (s : State) : Params := s.cfg.params

/-- An output, after those of the same step before it. -/
def emit (o : Output) (s : State) : State := s.setOut (s.out ++ [o])

/-- A response to the issuer. -/
def respond (r : Response) (s : State) : State := emit (.response r) s

/-! ## Faults -/

/-- R296, the engine's one exception entry: S.fault latches the first fault and S.mode becomes Faulted. Nothing else is
saved, there is no vector and no handler (R311), and what the operation did before the raise is kept. -/
def takeFault (f : FaultRec) (s : State) : State :=
  (match s.fault with
    | none => s.setFault (some f)
    | some _ => s).setMode .faulted

/-- R283, R298: the only way out of Faulted is a new construction; S.deferred and the environment are not part of it.
There is no return from a fault (R312). -/
def reconstruct (args : SwitchArgs) (s : State) : State := s.setEngine (construct args)

/-- The end of a bus request (R296): a raised fault is taken, and no response is added. A fault that the frame end raises comes
after the response (R216, R307), which stays among the outputs (DEDUCED, notes/assumptions 34). -/
def endRequest (r : Res State Unit) : Host.Outcome State Fault Refusal :=
  match r with
  | .ok _ s => .next s
  | .raised f s => .next (takeFault f s)

/-- The end of a query or a host command (R296): a raised fault is taken and returned as Faulted. -/
def endCommand (r : Res State Unit) : Host.Outcome State Fault Refusal :=
  match r with
  | .ok _ s => .next s
  | .raised f s => .next (respond (.faulted f) (takeFault f s))

/-! ## The memory map (20_memory.md) -/

/-- The value of S.paging that MAP and SCREEN_PAGE read; both are constant where there is no paging register (R34). -/
def Engine.pagingByte (e : Engine) : Byte := e.paging.getD 0

/-- R84: the window and the offset of an address. -/
def winOf (P : Params) (a : Addr) : Nat := a.toNat / P.windowSize

def offOf (P : Params) (a : Addr) : Nat := a.toNat % P.windowSize

/-- R86: `MAP(S.paging)(w)`. -/
def mapPage (P : Params) (paging : Byte) (w : Nat) : Nat :=
  match P.map[w]? with
  | some sel => sel.pick paging
  | none => 0

/-- R284: the page a wrapper's map override shows in window `w`; a wrapper's override of which nothing is known counts
only where it names a page of PAGES, as MAP must (R14; notes/assumptions 8). -/
def overridePage (i : WrapImpl) (st : WrapState) (paging : Byte) (w : Nat) : Option Nat :=
  match i with
  | .external k => Config.wrapMap k st paging w
  | .scripted sc => sc.map.bind (fun m => m[w]?.map (fun sel => sel.pick paging))

def wrapMapPage (P : Params) (wrap : List WrapNode) (paging : Byte) (w : Nat) : Option Nat :=
  wrap.findSome? (fun n =>
    if n.enabled then (overridePage n.impl n.st paging w).filter P.pageOk else none)

/-- R86, R284: the page seen through window `w`. -/
def Engine.page (e : Engine) (w : Nat) : Nat :=
  (wrapMapPage e.cfg.params e.wrap e.pagingByte w).getD (mapPage e.cfg.params e.pagingByte w)

/-- The page of an address under the current map. -/
def Engine.pageOf (e : Engine) (a : Addr) : Nat := e.page (winOf e.cfg.params a)

/-- R87: `SCREEN_PAGE(S.paging)`. -/
def Engine.screenPage (e : Engine) : Nat := e.cfg.params.screenPage.pick e.pagingByte

/-- The tags of a page (R39). -/
def contendedPage (P : Params) (id : Nat) : Bool := (P.page? id).any (fun d => d.contended)

def writablePage (P : Params) (id : Nat) : Bool := (P.page? id).any (fun d => d.writable)

/-- R90: `contended_addr(a)`. -/
def Engine.contendedAddr (e : Engine) (a : Addr) : Bool := contendedPage e.cfg.params (e.pageOf a)

/-- R17: `PageRead(p, off)`; past the page's end the value is open (R82; notes/assumptions 16). -/
def pageRead (P : Params) (m : Memory) (id off : Nat) : Byte :=
  if off < P.windowSize then m.read (pageKey P id off) else Config.beyondPage id off

/-- The key of an address in the page store under the current map: where MemRead and MemWrite go. -/
def Engine.addrKey (e : Engine) (a : Addr) : Nat := pageKey e.cfg.params (e.pageOf a) (offOf e.cfg.params a)

/-- R88: `MemRead(a, 1)`. -/
def Engine.memRead (e : Engine) (a : Addr) : Byte := e.pages.read (e.addrKey a)

/-- R89: `MemWrite(a, 1, v)`; a write to a page that is not writable changes nothing. -/
def memWrite (a : Addr) (v : Byte) (s : State) : State :=
  if writablePage s.P (s.pageOf a) then s.setPages (s.pages.write (s.addrKey a) v) else s

/-- R193: `paging_write(v)`: masked to 6 bits; ignored once the lock bit is 1; no register, no effect (R34). -/
def pagingWrite (v : Byte) (s : State) : State :=
  match s.paging with
  | none => s
  | some p => if p.getLsbD 5 then s else s.setPaging (some ((v.extractLsb' 0 6).setWidth 8))

end Sys2Proof.Machine
end

