-- ==== Sys2Proof/Machine/Operands.lean ====
section
/-! DEFINITION. Operand forms: phase counts, port decoders (30_encoding.md R130 to R133, 42_io_device_chain.md R190, R192), instants
and their conversions (40_timestamp_contention.md R141 to R149), and the out-of-band operands. -/

namespace Sys2Proof.Machine

/-- R117, R119: the phase count N of a bus request. -/
def phases (n : BitVec 8) : Nat := n.toNat

/-- R190: `ula_sel(p) = (p[0] = 0)`. -/
def ulaSel (p : Addr) : Bool := !p.getLsbD 0

/-- R192: `pag_sel(p) = P.PAGING ≠ none and p[15] = 0 and p[1] = 0`. -/
def pagSel (P : Params) (p : Addr) : Bool := P.paging.isSome && !p.getLsbD 15 && !p.getLsbD 1

/-- `p[15:8]` of a port address (R132). -/
def highByte (p : Addr) : Byte := p.extractLsb' 8 8

/-! ## Instants -/

/-- R141: `lin(line, cycle)`. -/
def lin (P : Params) (line cycle : Nat) : Nat := line * P.cpl + cycle

/-- R141: `fts(t)`. -/
def fts (P : Params) (t : Nat) : Nat × Nat := (t / P.cpl, t % P.cpl)

/-- R144: the frame and the frame-linear cycle of an instant computed during frame `f`. The rule covers instants below
2 * EOF; the same form is used beyond (DEDUCED, notes/assumptions 15). -/
def normInstant (P : Params) (f : Tick) (t : Nat) : Tick × Nat := (f + BitVec.ofNat 64 (t / P.eof), t % P.eof)

/-- R145: `abs(f, t)`. -/
def absTick (P : Params) (f : Tick) (t : Nat) : Tick := f * BitVec.ofNat 64 P.eof + BitVec.ofNat 64 t

/-- R146: `before(A, B)`: B is later than A. -/
def before (a b : Tick) : Bool := decide (0 < (b - a).toInt)

/-- R147: `rel(A)`. -/
def relTick (P : Params) (f a : Tick) : Int := (a - f * BitVec.ofNat 64 P.eof).toInt

/-- R148: `conv(repr, f, t)`, for `t` below EOF; none where LIN32 overflows (E2). -/
def convInstant (P : Params) (c : ClockRepr) (f : Tick) (t : Nat) : Option DevTime :=
  match c with
  | .frame => some (.frame f (fts P t).1 (fts P t).2)
  | .abs64 => some (.abs64 (absTick P f t))
  | .lin32 =>
    if f.toNat * P.eof + t < 2 ^ 32 then some (.lin32 (BitVec.ofNat 32 (f.toNat * P.eof + t))) else none

/-- R256: the frame-linear instant of an instant in a device's representation; the frame difference is signed
(DEDUCED, notes/assumptions 18). An instant is converted by the representation it comes in, also where the device
declared another (DESIGN CHOICE, notes/assumptions 35). -/
def linInstant (P : Params) (f : Tick) : DevTime → Int
  | .frame g line cycle => (lin P line cycle : Int) + (g - f).toInt * P.eof
  | .abs64 a => relTick P f a
  | .lin32 a => relTick P f (a.setWidth 64)

/-- R188: the data instant of an I/O request. -/
def dataInstant (P : Params) (ts0 wait : Nat) : Nat := ts0 + wait + P.ioDataOffset

/-! ## Host input and out-of-band operands -/

/-- R196: `HOST_IN(high byte, abs(td))`. -/
def hostAnswer (i : HostInput) (hi : Byte) (a : Tick) : BitVec 5 × BitVec 1 :=
  match i with
  | .unknown => Config.hostIn hi a
  | .fixed k e => (k, e)

/-- R132, R196: the byte that a read of the chipset port returns, `1 ++ e ++ 1 ++ k`. -/
def ulaByte (k : BitVec 5) (e : BitVec 1) : Byte := 1#1 ++ e ++ 1#1 ++ k

/-- R196: `ula_read(p, td)`. -/
def ulaRead (p : Addr) (td : Nat) (s : State) : Byte :=
  let i := normInstant s.P s.frame td
  let r := hostAnswer s.args.input (highByte p) (absTick s.P i.1 i.2)
  ulaByte r.1 r.2

/-- GAIN of frame `f` (R261). -/
def HostArgs.gainVal (h : HostArgs) (f : Tick) : Rat :=
  match h.gain with
  | .given v => v
  | .unknown => Config.gain f

/-- SYNTH of frame `f` (R267). -/
def HostArgs.synthVal (h : HostArgs) (f : Tick) : Bool :=
  match h.synth with
  | .given v => v
  | .unknown => Config.synth f

/-- The device implementation of HATTACH (R272), if the issue carries one. -/
def Oob.device? : Oob → Option DevImpl
  | .device d => some d
  | _ => none

/-- The image of HSNAPLOAD (R278), if the issue carries one. -/
def Oob.image? : Oob → Option Engine
  | .image i => some i
  | _ => none

/-- The construction record of HSWITCH (R283), if the issue carries one. -/
def Oob.model? : Oob → Option SwitchArgs
  | .model m => some m
  | _ => none

end Sys2Proof.Machine
end

