-- ==== Sys2Proof/Machine/Contention.lean ====
section
/-! DEFINITION. The wait-state calculator (40_timestamp_contention.md R150 to R159, R165; 41_memory_ops.md R174). -/

namespace Sys2Proof.Machine

/-- The line and the cycle within the line, counted from `start`, where `t` lies in the first `cycles` cycles of one of
`lines` consecutive lines; the region that contention (R151) and the display fetch (R202) share. -/
def inRegion (P : Params) (start t : Nat) : Option (Nat × Nat) :=
  if start ≤ t ∧ t - start < P.contLines * P.cpl ∧ (t - start) % P.cpl < P.contCycles then
    some ((t - start) / P.cpl, (t - start) % P.cpl)
  else none

/-- `CONT_PATTERN[h mod 8]`. -/
def patternAt (P : Params) (h : Nat) : Nat := P.contPattern.toList.getD (h % 8) 0

/-- R151: memory contention `c(t)`. -/
def contention (P : Params) (t : Nat) : Nat :=
  match inRegion P P.contStart t with
  | some (_, h) => patternAt P h
  | none => 0

/-- R152: the wrapping form `C(t) = c(t mod EOF)`. -/
def contentionWrap (P : Params) (t : Nat) : Nat := contention P (t % P.eof)

/-- The instant after `k` contended one-cycle phases from `t` (R155 row C:1 ×4, R174). -/
def contendedPhases (P : Params) : Nat → Nat → Nat
  | 0, t => t
  | k + 1, t => contendedPhases P k (t + contentionWrap P t + 1)

/-- R155: `io_wait(t0, p)`, from `hc = contended_addr(p)` and `ula = (p[0] = 0)`. -/
def ioWaitRow (P : Params) (hc ula : Bool) (t0 : Nat) : Nat :=
  match hc, ula with
  | false, false => 0
  | false, true => contentionWrap P (t0 + 1)
  | true, true => contentionWrap P t0 + contentionWrap P (t0 + contentionWrap P t0 + 1)
  | true, false => contendedPhases P 4 t0 - t0 - 4

def Engine.ioWait (e : Engine) (t0 : Nat) (p : Addr) : Nat :=
  ioWaitRow e.cfg.params (e.contendedAddr p) (ulaSel p) t0

/-- R165: `mem_wait(a, ts)`. -/
def Engine.memWait (e : Engine) (a : Addr) (ts : Nat) : Nat :=
  if e.contendedAddr a then contentionWrap e.cfg.params ts else 0

/-- R174: the wait of an internal cycle of `n` phases, each contended separately. -/
def Engine.internalWait (e : Engine) (a : Addr) (n ts : Nat) : Nat :=
  if e.contendedAddr a then contendedPhases e.cfg.params n ts - ts - n else 0

end Sys2Proof.Machine
end

