-- ==== Sys2Proof/Machine/Flags.lean ====
section
/-! DEFINITION. The boolean state (10_state.md R31, R36, R37, R49; the engine has no arithmetic flags, R38): the interrupt check at the
start of a request, the interrupt line level, the double claim and the status record. -/

namespace Sys2Proof.Machine

/-- `INT_TS(SCHEME)` of the running engine; construction admits only a scheme of P (R321). -/
def intTs (c : EngineCfg) : Nat := (c.params.intTs? c.scheme).getD 0

/-- R32, R219: the interrupt line level `INT(t)`. -/
def intLine (c : EngineCfg) (t : Nat) : Bool := decide (intTs c ≤ t ∧ t < intTs c + c.params.intPulse)

/-- R218, second part: the interrupt is signalled once per frame, at the first request start at or after INT_TS. -/
def signalIfDue (s : State) : State :=
  if s.mode = .running ∧ s.intDone = false ∧ intTs s.cfg ≤ s.ts then (emit .interrupt s).setIntDone true else s

/-- R218: `int_check()`. -/
def intCheck (s : State) : State := signalIfDue (s.setAtBoundary false)

/-- The start of every bus request: the interrupt check of R218, which comes before any fault of the request (R307); then
R226: `S.ts ≥ EOF` raises E1, before the wait (DEDUCED, notes/assumptions 20). -/
def startRequest (op : RequestOp) (s : State) : Res State Unit :=
  let s1 := intCheck s
  if s1.P.eof ≤ s1.ts then .raised { code := .e1, info := .requestAt op s1.ts (.below s1.P.eof) } s1 else .ok () s1

/-- R201: `double_claim(node)`. -/
def doubleClaim (id : Addr) (s : State) : Res State Unit :=
  if s.cfg.strict then .raised { code := .e3, info := .claim id } s else .ok () (s.setDevConflict true)

/-- R276: what HFLAGS returns. -/
def statusFlags (s : State) : StatusFlags :=
  { mode := s.mode, fault := s.fault, devConflict := s.devConflict, atBoundary := s.atBoundary,
    frame := s.frame, ts := s.ts, deferred := s.deferred.length }

end Sys2Proof.Machine
end

