-- ==== Sys2Proof/Machine/Wrapper.lean ====
section
/-! DEFINITION. Chipset variant wrappers (46_host_wrappers.md R284 to R292): the parts of a wrapper implementation, and which
wrapper acts. The list S.wrap is outermost first (R291). -/

namespace Sys2Proof.Machine

/-- A port agrees with `value` on the bits of `mask`. -/
def portMatch (mask value p : Addr) : Bool := p &&& mask == value &&& mask

/-- R284: the port selectors. -/
def wrapSelR (i : WrapImpl) (p : Addr) : Bool :=
  match i with
  | .external k => Config.wrapSelR k p
  | .scripted sc => portMatch sc.readMask sc.readValue p

def wrapSelW (i : WrapImpl) (p : Addr) : Bool :=
  match i with
  | .external k => Config.wrapSelW k p
  | .scripted sc => portMatch sc.writeMask sc.writeValue p

/-- R284: `wread(S.wrap, p, td)`. -/
def wrapRead (i : WrapImpl) (st : WrapState) (p : Addr) (td : Nat) : Byte :=
  match i with
  | .external k => Config.wrapRead k st p td
  | .scripted _ => BitVec.ofNat 8 (st.headD 0)

/-- R284: `wwrite(S.wrap, p, v, te)`. -/
def wrapWrite (i : WrapImpl) (st : WrapState) (p : Addr) (v : Byte) (te : Nat) : WrapState :=
  match i with
  | .external k => Config.wrapWrite k st p v te
  | .scripted _ => v.toNat :: st.drop 1

/-- R284, R287, R291: the pixel function, of the wrapper's state, what R246 reads and the pixel of the inner instance; none where
the wrapper does not override the pixel. -/
def wrapPixel (i : WrapImpl) (st : WrapState) (x : PixelIn) (inner : Nat) : Option Nat :=
  match i with
  | .external k => Config.wrapPixel k st x inner
  | .scripted sc => sc.pixelAdd.map (fun c => inner + c)

/-- R284, R287: the buffer geometry; none where the wrapper does not replace it. -/
def wrapGeometry (i : WrapImpl) (st : WrapState) : Option Geometry :=
  match i with
  | .external k => Config.wrapGeometry k st
  | .scripted sc => sc.geometry

/-- R289: whether the wrapper defines a custom opcode, and whether that command writes. The opcode alone decides both: R289 leaves
the other fields to the wrapper, and no value of them is refused (DESIGN CHOICE, notes/assumptions 42). -/
def wrapCustom (i : WrapImpl) (op : BitVec 8) : Option CustomKind :=
  match i with
  | .external k => Config.wrapCustom k op
  | .scripted sc =>
    if sc.customRead.contains op then some .reads
    else if sc.customWrite.contains op then some .writes
    else none

/-- R289: a custom command's new wrapper state and its value. -/
def wrapCustomRun (i : WrapImpl) (st : WrapState) (w : CmdWord) : WrapState × Nat :=
  match i with
  | .external k => Config.wrapCustomRun k st w
  | .scripted _ => ((fieldsOf w).d.toNat :: st.drop 1, st.headD 0)

/-- R285, R291: the outermost enabled wrapper that selects a read of the port. -/
def readWrapper (wrap : List WrapNode) (p : Addr) : Option WrapNode :=
  wrap.find? (fun n => n.enabled && wrapSelR n.impl p)

/-- R285: some enabled wrapper selects a write of the port. -/
def wrapTakesWrite (wrap : List WrapNode) (p : Addr) : Bool :=
  wrap.any (fun n => n.enabled && wrapSelW n.impl p)

/-- R285, R291: the outermost enabled wrapper that selects the write takes it; the others keep their state. `wwrite` reads and
writes the wrapper's own fields, not `S.wrap.enabled`, which HWRAP alone changes (DESIGN CHOICE, notes/assumptions 36). -/
def wrapWriteAll (p : Addr) (v : Byte) (te : Nat) : List WrapNode → List WrapNode
  | [] => []
  | n :: rest =>
    if n.enabled && wrapSelW n.impl p then { n with st := wrapWrite n.impl n.st p v te } :: rest
    else n :: wrapWriteAll p v te rest

/-- R287, R291: pixel functions compose outermost first: each enabled wrapper that overrides the pixel is applied to the pixel of
its inner instance, which may itself be wrapped; `base` is the chipset's own index of R246 (DEDUCED, notes/assumptions 8). -/
def wrappedPixel : List WrapNode → PixelIn → Nat → Nat
  | [], _, base => base
  | n :: rest, x, base =>
    let inner := wrappedPixel rest x base
    if n.enabled then (wrapPixel n.impl n.st x inner).getD inner else inner

/-- R245, R287: the geometry of the buffer. -/
def Engine.geometry (e : Engine) : Geometry :=
  (e.wrap.findSome? (fun n => if n.enabled then wrapGeometry n.impl n.st else none)).getD e.cfg.params.vis

/-- R287: the wrapper state that the pixels of a row may depend on: that of the enabled wrappers. -/
def wrapKey (wrap : List WrapNode) : List (WrapImpl × WrapState) :=
  (wrap.filter (fun n => n.enabled)).map (fun n => (n.impl, n.st))

/-- R280: enable or disable the feature of the outermost wrapper (notes/assumptions 8). -/
def setEnabled (e : Bool) : List WrapNode → List WrapNode
  | [] => []
  | n :: rest => { n with enabled := e } :: rest

/-- R289: the kind of a custom opcode: that of the outermost wrapper that defines it. -/
def customKind (wrap : List WrapNode) (op : BitVec 8) : Option CustomKind :=
  wrap.findSome? (fun n => wrapCustom n.impl op)

/-- R289: run a custom command on the outermost wrapper that defines it; a command that only reads leaves its state. Like
`wwrite`, it has no access to `S.wrap.enabled` (DESIGN CHOICE, notes/assumptions 36). -/
def runCustom (w : CmdWord) : List WrapNode → List WrapNode × Nat
  | [] => ([], 0)
  | n :: rest =>
    match wrapCustom n.impl (fieldsOf w).op with
    | some .reads => (n :: rest, (wrapCustomRun n.impl n.st w).2)
    | some .writes =>
      ({ n with st := (wrapCustomRun n.impl n.st w).1 } :: rest, (wrapCustomRun n.impl n.st w).2)
    | none => (n :: (runCustom w rest).1, (runCustom w rest).2)

end Sys2Proof.Machine
end

