-- ==== Sys2Proof/Machine/Video.lean ====
section
/-! DEFINITION. Display memory, the video cache, border events, the floating bus and the pixel buffer
(44_video.md R236 to R251, 42_io_device_chain.md R202). -/

namespace Sys2Proof.Machine

/-- The list with `f` applied to each element and its index, counted from `i`. -/
def mapFrom {α β : Type} (f : Nat → α → β) : Nat → List α → List β
  | _, [] => []
  | i, x :: rest => f i x :: mapFrom f (i + 1) rest

/-! ## Display memory and fetch instants -/

/-- R236: `bmp_off(y, x)`. The rule gives it for y < 192 and x < 32; the same formula is used for every line and column of a larger
record (DESIGN CHOICE, notes/assumptions 44). -/
def bmpOff (y x : Nat) : Nat := ((y / 64 % 4) <<< 11) ||| ((y % 8) <<< 8) ||| ((y / 8 % 8) <<< 5) ||| x

/-- R236: `att_off(y, x)`, likewise (DESIGN CHOICE, notes/assumptions 44). -/
def attOff (y x : Nat) : Nat := 0x1800 + y / 8 * 32 + x

/-- R237: `Fb(y, x)`, the fetch instant of a bitmap byte. -/
def fetchBmp (P : Params) (y x : Nat) : Nat := P.fetchStart + y * P.cpl + 8 * (x / 2) + 2 * (x % 2)

/-- R237: `Fa(y, x) = Fb(y, x) + 1`, that of an attribute byte. -/
def fetchAtt (P : Params) (y x : Nat) : Nat := fetchBmp P y x + 1

/-- `PageRead(SCREEN_PAGE(S.paging), off)`. -/
def Engine.screenRead (e : Engine) (off : Nat) : Byte := pageRead e.cfg.params e.pages e.screenPage off

/-- R202: `fb(t)`, the floating-bus value at an instant of the frame. -/
def Engine.floatingBus (e : Engine) (t : Nat) : Byte :=
  match inRegion e.cfg.params e.cfg.params.fetchStart (t % e.cfg.params.eof) with
  | none => e.cfg.params.idleBus
  | some (y, h) =>
    match h % 8 with
    | 0 => e.screenRead (bmpOff y (2 * (h / 8)))
    | 1 => e.screenRead (attOff y (2 * (h / 8)))
    | 2 => e.screenRead (bmpOff y (2 * (h / 8) + 1))
    | 3 => e.screenRead (attOff y (2 * (h / 8) + 1))
    | _ => e.cfg.params.idleBus

/-! ## The video cache -/

/-- R238 for the bitmap byte of one cell: the fetch is performed if it is due and not yet performed. -/
def catchBmp (e : Engine) (t y x : Nat) (c : VCell) : VCell :=
  if c.seenBmp = false ∧ fetchBmp e.cfg.params y x ≤ t then
    { c with bmp := e.screenRead (bmpOff y x), seenBmp := true }
  else c

/-- R238 for the attribute byte of one cell. -/
def catchAtt (e : Engine) (t y x : Nat) (c : VCell) : VCell :=
  if c.seenAtt = false ∧ fetchAtt e.cfg.params y x ≤ t then
    { c with att := e.screenRead (attOff y x), seenAtt := true }
  else c

def catchCell (e : Engine) (t y x : Nat) (c : VCell) : VCell := catchAtt e t y x (catchBmp e t y x c)

def catchLine (e : Engine) (t y : Nat) (l : VLine) : VLine := { l with cells := mapFrom (catchCell e t y) 0 l.cells }

/-- R238: `video_catch_up(t)`. The fetches read memory that does not change between them, so their order leaves no trace. -/
def catchUp (t : Nat) (s : State) : State := s.setVcache (mapFrom (catchLine s.toEngine t) 0 s.vcache)

/-- R242: the per-frame reset of a cell and of a line. -/
def clearSeen (c : VCell) : VCell := { c with seenBmp := false, seenAtt := false }

def clearLine (l : VLine) : VLine := { l with cells := l.cells.map clearSeen, dirty := false }

/-! ## Border -/

/-- R191: the colour of the last border event, or S.border0. -/
def Engine.curBorder (e : Engine) : BitVec 3 := (e.borderEv.getLast?.map (·.colour)).getD e.border0

/-- The colour of the last of `evs` with `t ≤ T`, or `c0`. -/
def borderFrom (c0 : BitVec 3) (evs : List BorderEvent) (T : Int) : BitVec 3 :=
  ((evs.filter (fun ev => decide ((ev.t : Int) ≤ T))).getLast?.map (·.colour)).getD c0

/-- R243: `border_at(T)`. -/
def Engine.borderAt (e : Engine) (T : Int) : BitVec 3 := borderFrom e.border0 e.borderEv T

/-- R244: border events at or past the frame end go to the next frame; every other event is removed. -/
def carryEvents (eof : Nat) (evs : List BorderEvent) : List BorderEvent :=
  (evs.filter (fun ev => decide (eof ≤ ev.t))).map (fun ev => { ev with t := ev.t - eof })

/-- R244: the border roll-over. -/
def borderRoll (s : State) : State :=
  (s.setBorder0 (s.borderAt ((s.P.eof : Int) - 1))).setBorderEv (carryEvents s.P.eof s.borderEv)

/-! ## Pixels -/

/-- R247: `flash_phase()`. -/
def Engine.flashPhase (e : Engine) : Nat := divOpen e.frame.toNat e.cfg.params.flashPeriod % 2

/-- R246: ink and paper of an attribute byte. -/
def inkOf (a : Byte) : Nat := (a.extractLsb' 0 3).toNat + 8 * (a.getLsbD 6).toNat

def paperOf (a : Byte) : Nat := (a.extractLsb' 3 3).toNat + 8 * (a.getLsbD 6).toNat

/-- R246: the colour index of a pixel. -/
def pixelIndex (x : PixelIn) : Nat :=
  let swap := x.att.getLsbD 7 && x.phase == 1
  if x.bmp.getLsbD (7 - x.px % 8) != swap then inkOf x.att else paperOf x.att

/-- R246: the flash phase as a pixel with this attribute byte sees it: it matters only where `A[7] = 1`. -/
def seenPhase (att : Byte) (phase : Nat) : Nat := if att.getLsbD 7 then phase else 0

/-- R246, R287: the pixels of one cache cell, leftmost first. -/
def cellPixels (e : Engine) (y x : Nat) (c : VCell) : List Nat :=
  (List.range 8).map (fun i =>
    let p : PixelIn :=
      { y := y, px := 8 * x + i, bmp := c.bmp, att := c.att, phase := seenPhase c.att e.flashPhase }
    wrappedPixel e.wrap p (pixelIndex p))

/-- R246: every pixel of one pixel line, recomputed. -/
def linePixels (e : Engine) (y : Nat) (l : VLine) : List Nat := (mapFrom (cellPixels e y) 0 l.cells).flatten

/-- The bytes a row is rendered from. -/
def lineBytes (l : VLine) : List (Byte × Byte) := l.cells.map (fun c => (c.bmp, c.att))

/-- R248, R287: whether the row must be recomputed, from what the row records that it was rendered from. A row of a loaded image
is believed: that its pixels are those of its record is not checked (DESIGN CHOICE, notes/assumptions 40). -/
def rowStale (e : Engine) (l : VLine) : Bool :=
  match l.row with
  | none => true
  | some r =>
    decide (r.bytes ≠ lineBytes l) || decide (r.wrap ≠ wrapKey e.wrap)
      || (decide (r.phase ≠ e.flashPhase) && l.cells.any (fun c => c.att.getLsbD 7))

/-- R248: mark the line dirty where it is stale, and give it the row it shows: recomputed if dirty, else the previous one, also
one that a loaded image brought (DESIGN CHOICE, notes/assumptions 40). -/
def renderLine (e : Engine) (y : Nat) (l : VLine) : VLine :=
  if l.dirty || rowStale e l then
    { l with
      dirty := true
      row := some
        { bytes := lineBytes l, phase := e.flashPhase, wrap := wrapKey e.wrap, pixels := linePixels e y l } }
  else l

/-- R245: one row of the buffer, from the pixel rows and the border colour at an instant. A pixel that its row lacks, which only a
row of a loaded image can, is index 0 (DESIGN CHOICE, notes/assumptions 40). -/
def bufferRow (P : Params) (g : Geometry) (rows : List (List Nat)) (border : Int → BitVec 3) (r : Nat) : List Nat :=
  let L := g.lineFirst + r
  (List.range g.hCount).flatMap (fun (j : Nat) =>
    let h : Int := g.hFirst + j
    let T : Int := L * P.cpl + P.pixCycle0 + h
    if P.displayLine0 ≤ L ∧ L < P.displayLine0 + P.contLines ∧ 0 ≤ h ∧ h < P.contCycles then
      let row := rows.getD (L - P.displayLine0) []
      [row.getD (2 * h.toNat) 0, row.getD (2 * h.toNat + 1) 0]
    else [(border T).toNat, (border T).toNat])

/-- R245: the buffer. -/
def pixelBuffer (P : Params) (g : Geometry) (rows : List (List Nat)) (border : Int → BitVec 3) : List (List Nat) :=
  (List.range g.lines).map (bufferRow P g rows border)

/-- R245, R248: the render of the completed frame, after `video_catch_up(EOF - 1)`: the cache with its rows. -/
def renderRows (s : State) : State := s.setVcache (mapFrom (renderLine s.toEngine) 0 s.vcache)

/-- R245: the pixel buffer of the completed frame, from the rows that `renderRows` gives the cache. -/
def Engine.frameBuffer (e : Engine) : List (List Nat) :=
  pixelBuffer e.cfg.params e.geometry (e.vcache.map (fun l => (l.row.map (·.pixels)).getD [])) e.borderAt

/-- R249: the mid-frame buffer, after `video_catch_up(S.ts)`: every line recomputed, border events up to S.ts only. -/
def Engine.midBuffer (e : Engine) : List (List Nat) :=
  pixelBuffer e.cfg.params e.geometry (mapFrom (linePixels e) 0 e.vcache)
    (borderFrom e.border0 (e.borderEv.filter (fun ev => decide (ev.t ≤ e.ts))))

end Sys2Proof.Machine
end

