-- ==== Sys2Proof/Machine/Audio.lean ====
section
/-! DEFINITION. Audio edge queues and the band-limited sample generator (45_audio.md R256 to R270), in exact rationals. -/

namespace Sys2Proof.Machine

/-! ## Edges -/

/-- R258: append a level change to a queue; a report of the level already held appends nothing. -/
def Channel.push (c : Channel) (t level : Nat) : Channel :=
  if level = c.level then c else { c with edges := c.edges ++ [{ t := t, level := level }], level := level }

/-- R258: the bound that an edge's instant breaks, if any, the first in the order of the rule: it is negative, before the
queue's last entry, or after the instant of the call. -/
def Channel.brokenBound (c : Channel) (t : Int) (tnow : Nat) : Option Bound :=
  if t < 0 then some (.notBefore 0)
  else
    match c.edges.getLast?.filter (fun e => decide (t < e.t)) with
    | some e => some (.notBefore e.t)
    | none => if (tnow : Int) < t then some (.notAfter tnow) else none

/-- R258: `audio_edge` on the open channel (id, k), the first where a loaded image holds two. A channel that no attached device
declares is no source, and an edge for it is dropped, as is one for a declared channel that a loaded image lacks
(DESIGN CHOICE, notes/assumptions 17, 41). -/
def chanEdge (id : Addr) (k : Nat) (t : Int) (level tnow : Nat) : List DevChannel → Except FaultRec (List DevChannel)
  | [] => .ok []
  | c :: rest =>
    if c.id = id ∧ c.k = k ∧ c.closing = false then
      match c.ch.brokenBound t tnow with
      | some b => .error { code := .e1, info := .edge (.dev id k) t b }
      | none => .ok ({ c with ch := c.ch.push t.toNat level } :: rest)
    else (chanEdge id k t level tnow rest).map (fun r => c :: r)

/-- R258 for a device channel. -/
def audioEdge (id : Addr) (k : Nat) (t : Int) (level tnow : Nat) (a : Audio) : Except FaultRec Audio :=
  (chanEdge id k t level tnow a.chans).map (fun cs => { a with chans := cs })

/-- R256: the edges of one device operation, in list order, each converted to a frame-linear instant. -/
def deviceEdges (P : Params) (f : Tick) (id : Addr) (tnow : Nat) : List DevEdge → Audio → Res Audio Unit
  | [], a => .ok () a
  | e :: rest, a =>
    match audioEdge id e.chan (linInstant P f e.time) e.level tnow a with
    | .error r => .raised r a
    | .ok a' => deviceEdges P f id tnow rest a'

/-- R270: the channels of a device at attach. -/
def newChannels (id : Addr) (nch : Nat) : List DevChannel :=
  (List.range nch).map (fun k => { id := id, k := k, closing := false, ch := quietChannel 0 })

/-- R270: a closing channel goes once its queue and carry are empty and its settled level is 0. -/
def DevChannel.gone (c : DevChannel) : Bool :=
  c.closing && c.ch.edges.isEmpty && c.ch.pend.isEmpty && decide (c.ch.base = 0)

def dropGone (cs : List DevChannel) : List DevChannel := cs.filter (fun c => !c.gone)

/-- R273: `audio_edge((id, k), t, 0)` for each channel of a detached device. -/
def fallEdges (id : Addr) (t : Nat) : List Nat → Audio → Res Audio Unit
  | [], a => .ok () a
  | k :: rest, a =>
    match audioEdge id k t 0 t a with
    | .error r => .raised r a
    | .ok a' => fallEdges id t rest a'

/-- R270: the channels of a detached device take no new edges. -/
def closeChannels (id : Addr) (a : Audio) : Audio :=
  { a with chans := dropGone (a.chans.map (fun c => if c.id = id then { c with closing := true } else c)) }

/-! ## Samples -/

/-- R259: `pos(A) = A * SAMPLE_RATE / CPU_HZ`, `A` unbounded. -/
def samplePos (P : Params) (A : Nat) : Rat :=
  if P.cpuHz = 0 then Config.posByZero A else ((A * P.sampleRateVal : Nat) : Rat) / (P.cpuHz : Rat)

/-- R259: `n0(f) = ceil(f * EOF * SAMPLE_RATE / CPU_HZ)`. -/
def firstSample (P : Params) (f : Nat) : Nat :=
  if P.cpuHz = 0 then Config.divByZero (f * P.eof * P.sampleRateVal)
  else (f * P.eof * P.sampleRateVal + (P.cpuHz - 1)) / P.cpuHz

/-- R260: `STEP_H(x)`: 0 up to 0, 1 from STEP_K on, and between them the ramp or the open shape of P. -/
def stepH (P : Params) (x : Rat) : Rat :=
  if x ≤ 0 then 0
  else if (P.stepKVal : Rat) ≤ x then 1
  else match P.stepShape with
    | .ramp => x / (P.stepKVal : Rat)
    | .unknown k => Config.stepShape k x

/-- The sum of a list of rationals. -/
def ratSum : List Rat → Rat
  | [] => 0
  | x :: rest => x + ratSum rest

/-- R261: `lev0(src)`, the level at the start of the frame. -/
def Channel.startLevel (c : Channel) : Rat := c.base + ratSum (c.pend.map (·.delta))

/-- R261: the steps of a queue from the level before it, in frame `f`. -/
def edgeSteps (P : Params) (f : Nat) : Rat → List Edge → List Pend
  | _, [] => []
  | l, e :: rest =>
    { pos := samplePos P (f * P.eof + e.t), delta := (e.level : Rat) - l } :: edgeSteps P f e.level rest

/-- R261: `pend(src) = S.apend(src) ++ new(src)`. -/
def Channel.steps (P : Params) (f : Nat) (c : Channel) : List Pend :=
  c.pend ++ edgeSteps P f c.startLevel (c.edges.filter (fun e => decide (e.t < P.eof)))

/-- R261: `lev(src, n)`. -/
def Channel.levelAt (P : Params) (f : Nat) (c : Channel) (n : Nat) : Rat :=
  c.base + ratSum ((c.steps P f).map (fun p => p.delta * stepH P ((n : Rat) - p.pos)))

/-- Every source with its channel. -/
def Audio.sources (a : Audio) : List (Source × Channel) :=
  (.ear, a.ear) :: (.mic, a.mic) :: a.chans.map (fun c => (.dev c.id c.k, c.ch))

/-- R261: `out(n)`. -/
def Audio.sample (P : Params) (f : Nat) (gain : Rat) (a : Audio) (n : Nat) : Rat :=
  gain * ratSum (a.sources.map (fun sc => P.ampVal sc.1 * sc.2.levelAt P f n))

/-- R261, R267: the PCM buffer of frame `f`; empty where synthesis is skipped. -/
def audioRender (P : Params) (f : Nat) (gain : Rat) (synth : Bool) (a : Audio) : List Rat :=
  if synth then
    (List.range (firstSample P (f + 1) - firstSample P f)).map (fun i => a.sample P f gain (firstSample P f + i))
  else []

/-- R263: a step has settled if it is 1 at every sample of later frames. -/
def settled (P : Params) (f : Nat) (p : Pend) : Bool := decide (p.pos + (P.stepKVal : Rat) ≤ (firstSample P (f + 1) : Rat))

/-- R262: edges at or past the frame end go to the next frame; every other entry is removed. -/
def carryEdges (eof : Nat) (es : List Edge) : List Edge :=
  (es.filter (fun e => decide (eof ≤ e.t))).map (fun e => { e with t := e.t - eof })

/-- R262, R263: the roll-over of one source after frame `f`. -/
def Channel.roll (P : Params) (f : Nat) (c : Channel) : Channel :=
  { edges := carryEdges P.eof c.edges
    level := c.level
    base := c.base + ratSum (((c.steps P f).filter (settled P f)).map (·.delta))
    pend := (c.steps P f).filter (fun p => !settled P f p) }

/-- R262, R263, R270: the audio roll-over after frame `f`. -/
def Audio.roll (P : Params) (f : Nat) (a : Audio) : Audio :=
  { ear := a.ear.roll P f, mic := a.mic.roll P f
    chans := dropGone (a.chans.map (fun c => { c with ch := c.ch.roll P f })) }

/-! ## The audio invariant (R263) -/

/-- The level after the last edge of the queue, or the level at the start of the frame. -/
def Channel.endLevel (c : Channel) : Rat := (c.edges.getLast?.map (fun e => (e.level : Rat))).getD c.startLevel

/-- R263: `S.abase + Σ Δ(S.apend) + Σ (level changes of S.edges) = S.alevel`; the level changes of a queue that starts at
the frame's start level telescope to its last level. -/
def Channel.balanced (c : Channel) : Bool := decide (c.endLevel = (c.level : Rat))

def Audio.balanced (a : Audio) : Bool := a.sources.all (fun sc => sc.2.balanced)

/-! ## The chipset port (42_io_device_chain.md R191) -/

/-- R191, R257: `ula_write(v, te)`: border event, EAR edge, MIC edge, latch; only changes are recorded. -/
def ulaWrite (v : Byte) (te : Nat) (s : State) : State :=
  let s1 := if borderBits v = s.curBorder then s
    else s.setBorderEv (s.borderEv ++ [{ t := te, colour := borderBits v }])
  let s2 := s1.setAudio
    { s1.audio with ear := s1.audio.ear.push te (earLevel v), mic := s1.audio.mic.push te (micLevel v) }
  s2.setUla v

end Sys2Proof.Machine
end

