-- ==== Sys2Proof/Machine/Devices.lean ====
section
/-! DEFINITION. The bus-device chain (42_io_device_chain.md R197 to R201) and its calls at the frame boundary
(43_sequencer.md R222 step 3). -/

namespace Sys2Proof.Machine

/-! ## Device implementations -/

/-- The instant `d` cycles after `x`, in the same representation. -/
def delayTime (x : DevTime) (d : Nat) : DevTime :=
  match x with
  | .frame f line cycle => .frame f line (cycle + d)
  | .abs64 a => .abs64 (a + BitVec.ofNat 64 d)
  | .lin32 a => .lin32 (a + BitVec.ofNat 32 d)

def scriptEdges (x : DevTime) (es : List ScriptEdge) : List DevEdge :=
  es.map (fun e => { chan := e.chan, time := delayTime x e.delay, level := e.level })

/-- What a recording scripted device keeps of a write. -/
def recordOf (p : Addr) (v : Byte) : DevTime → DevState
  | .frame f line cycle => [p.toNat, v.toNat, f.toNat, line, cycle]
  | .abs64 a => [p.toNat, v.toNat, a.toNat]
  | .lin32 a => [p.toNat, v.toNat, a.toNat]

/-- R197: `answer_read(port, t)`. -/
def answerRead (o : DevOps) (dev : DevState) (p : Addr) (x : DevTime) : DevReply (Option Byte) :=
  match o with
  | .external k => Config.devRead k dev p x
  | .scripted d =>
    match d.reads.find? (fun r => portMatch r.mask r.value p) with
    | some r => { ret := some r.answer, dev := dev, edges := scriptEdges x r.edges }
    | none => { ret := none, dev := dev, edges := [] }

/-- R197: `answer_write(port, value, t)`, the value forwarded to the next node. -/
def answerWrite (o : DevOps) (dev : DevState) (p : Addr) (v : Byte) (x : DevTime) : DevReply Byte :=
  match o with
  | .external k => Config.devWrite k dev p v x
  | .scripted d =>
    match d.writes.find? (fun r => portMatch r.mask r.value p) with
    | some r =>
      { ret := v ^^^ r.flip, dev := if r.record then recordOf p v x else dev, edges := scriptEdges x r.edges }
    | none => { ret := v, dev := dev, edges := [] }

/-- R197: `advance_to(t)`. A scripted device has no clock of its own. -/
def advanceTo (o : DevOps) (dev : DevState) (x : DevTime) : DevReply Unit :=
  match o with
  | .external k => Config.devAdvance k dev x
  | .scripted _ => { ret := (), dev := dev, edges := [] }

/-- R197: `on_frame_boundary()`. `x` is the boundary's instant, from which a script counts its delays. -/
def onFrameBoundary (o : DevOps) (dev : DevState) (x : DevTime) : DevReply Unit :=
  match o with
  | .external k => Config.devBoundary k dev
  | .scripted d => { ret := (), dev := dev, edges := scriptEdges x d.atBoundary }

/-! ## One node -/

/-- A node and the audio state: all that a device call may change (R197, R256). -/
abbrev NodeCtx := Node × Audio

/-- The end of a device operation: its new state, then its edges, at once (R256; notes/assumptions 18). -/
def settleReply {α : Type} (P : Params) (f : Tick) (tnow : Nat) (n : Node) (a : Audio) (r : DevReply α) :
    Res NodeCtx α :=
  match deviceEdges P f n.id tnow r.edges a with
  | .ok _ a' => .ok r.ret ({ n with dev := r.dev }, a')
  | .raised e a' => .raised e ({ n with dev := r.dev }, a')

/-- R200: `sync(node, t)`, giving the instant in the node's own representation. The edges of `advance_to` are handled before
`node.last <- A`, so where one raises E1 the device keeps its new state and the node its old tick (DESIGN CHOICE,
notes/assumptions 43). -/
def syncNode (P : Params) (f : Tick) (t : Nat) (n : Node) (a : Audio) : Res NodeCtx DevTime :=
  let i := normInstant P f t
  let A := absTick P i.1 i.2
  if before A n.last then .raised { code := .e1, info := .clockBack n.id A n.last } (n, a)
  else match convInstant P n.clock i.1 i.2 with
    | none => .raised { code := .e2, info := .conversion n.id i.1 i.2 } (n, a)
    | some x =>
      (settleReply P f t n a (advanceTo n.ops n.dev x)).bind fun _ c => .ok x ({ c.1 with last := A }, c.2)

/-- R198, one node of `chain_read`. -/
def readNode (P : Params) (f : Tick) (p : Addr) (td : Nat) (n : Node) (a : Audio) : Res NodeCtx (Option Byte) :=
  (syncNode P f td n a).bind fun x c => settleReply P f td c.1 c.2 (answerRead c.1.ops c.1.dev p x)

/-- R199, one node of `chain_write`. -/
def writeNode (P : Params) (f : Tick) (p : Addr) (te : Nat) (v : Byte) (n : Node) (a : Audio) : Res NodeCtx Byte :=
  (syncNode P f te n a).bind fun x c => settleReply P f te c.1 c.2 (answerWrite c.1.ops c.1.dev p v x)

/-- R222 step 3, one node: brought to the instant (S.frame + 1, 0), then told of the boundary. -/
def boundaryNode (P : Params) (f : Tick) (n : Node) (a : Audio) : Res NodeCtx Unit :=
  (syncNode P f P.eof n a).bind fun x c => settleReply P f P.eof c.1 c.2 (onFrameBoundary c.1.ops c.1.dev x)

/-! ## The chain -/

/-- The state after a device call on the node between `pre` and `post`. -/
def putNode (pre post : List Node) (s : State) (c : NodeCtx) : State :=
  (s.setChain (pre ++ c.1 :: post)).setAudio c.2

/-- R198: `chain_read(p, td)` over the nodes `post` that follow `pre`, `r` being the first claim so far. -/
def chainReadFrom (p : Addr) (td : Nat) : List Node → List Node → Option Byte → State → Res State (Option Byte)
  | _, [], r, s => .ok r s
  | pre, n :: post, r, s =>
    match readNode s.P s.frame p td n s.audio with
    | .raised f c => .raised f (putNode pre post s c)
    | .ok none c => chainReadFrom p td (pre ++ [c.1]) post r (putNode pre post s c)
    | .ok (some b) c =>
      match r with
      | none => chainReadFrom p td (pre ++ [c.1]) post (some b) (putNode pre post s c)
      | some b0 =>
        (doubleClaim n.id (putNode pre post s c)).bind fun _ s1 =>
          chainReadFrom p td (pre ++ [c.1]) post (some b0) s1

/-- R198. -/
def chainRead (p : Addr) (td : Nat) (s : State) : Res State (Option Byte) := chainReadFrom p td [] s.chain none s

/-- R199: `chain_write(p, v, te)` over the nodes `post` that follow `pre`; each sees the value the nodes before it forward. -/
def chainWriteFrom (p : Addr) (te : Nat) : List Node → List Node → Byte → State → Res State Unit
  | _, [], _, s => .ok () s
  | pre, n :: post, v, s =>
    match writeNode s.P s.frame p te v n s.audio with
    | .raised f c => .raised f (putNode pre post s c)
    | .ok v' c => chainWriteFrom p te (pre ++ [c.1]) post v' (putNode pre post s c)

/-- R199. -/
def chainWrite (p : Addr) (v : Byte) (te : Nat) (s : State) : Res State Unit := chainWriteFrom p te [] s.chain v s

/-- R222 step 3 over the nodes `post` that follow `pre`. -/
def boundaryFrom : List Node → List Node → State → Res State Unit
  | _, [], s => .ok () s
  | pre, n :: post, s =>
    match boundaryNode s.P s.frame n s.audio with
    | .raised f c => .raised f (putNode pre post s c)
    | .ok _ c => boundaryFrom (pre ++ [c.1]) post (putNode pre post s c)

/-- R222 step 3. -/
def boundaryCalls (s : State) : Res State Unit := boundaryFrom [] s.chain s

end Sys2Proof.Machine
end

