-- ==== Sys2Proof/Machine/Mutations.lean ====
section
/-! DEFINITION. Host mutations (46_host_wrappers.md R271 to R283): snapshot validity, validation against the projected state, and
application. -/

namespace Sys2Proof.Machine

/-! ## Snapshot validity (R281) -/

/-- Instants in order, none after `last`. -/
def orderedUpTo (last : Nat) : List Nat → Bool
  | [] => true
  | [t] => decide (t ≤ last)
  | t :: u :: rest => decide (t ≤ u) && orderedUpTo last (u :: rest)

/-- No handle twice (R197). -/
def handlesUnique : List Node → Bool
  | [] => true
  | n :: rest => rest.all (fun m => decide (m.id ≠ n.id)) && handlesUnique rest

/-- Every cell lies in a page of PAGES, in canonical form. -/
def pagesValid (P : Params) (m : Memory) : Bool := m.wf && m.all (fun c => (keyPage P c.1).isSome)

/-- `img.paging[7:6] = 0`, or no paging field where there is no paging register. -/
def pagingValid (P : Params) (p : Option Byte) : Bool :=
  match p with
  | some v => P.paging.isSome && v.extractLsb' 6 2 == 0
  | none => P.paging.isNone

/-- Each node's `last ≤ abs(img.frame, img.ts)` in the order of R146. -/
def lastsValid (img : Engine) : Bool :=
  img.chain.all (fun n => !before (absTick img.cfg.params img.frame img.ts) n.last)

/-- Every border event and audio edge ordered by instant with `t ≤ img.ts`. -/
def eventsValid (img : Engine) : Bool :=
  orderedUpTo img.ts (img.borderEv.map (·.t))
    && img.audio.sources.all (fun sc => orderedUpTo img.ts (sc.2.edges.map (·.t)))

/-- The video cache of the dimensions of R44: lines and byte columns. R44 and R281 give no check of `row[y]`, and neither its
width nor its pixels are checked (DESIGN CHOICE, notes/assumptions 40). -/
def vcacheValid (P : Params) (v : List VLine) : Bool :=
  decide (v.length = P.contLines) && v.all (fun l => decide (l.cells.length = P.contCycles / 4))

/-- The wrapper state is that of the engine's own wrappers (none where it is not wrapped). -/
def wrapValid (mine img : List WrapNode) : Bool := decide (img.map (·.impl) = mine.map (·.impl))

/-- R281: the first check that the image fails, none where it is valid. R281 has no check that the device channels of an image are
those its nodes declare, and none is made (DESIGN CHOICE, notes/assumptions 41). -/
def snapFailure (mine img : Engine) : Option SnapCheck :=
  if img.cfg ≠ mine.cfg then some .config
  else if img.mode ≠ .running then some .mode
  else if img.fault ≠ none then some .fault
  else if img.cfg.params.eof ≤ img.ts then some .timestamp
  else if pagesValid img.cfg.params img.pages = false then some .pages
  else if pagingValid img.cfg.params img.paging = false then some .paging
  else if (handlesUnique img.chain && lastsValid img) = false then some .chain
  else if eventsValid img = false then some .events
  else if img.audio.balanced = false then some .audio
  else if vcacheValid img.cfg.params img.vcache = false then some .video
  else if wrapValid mine.wrap img.wrap = false then some .wrapper
  else none

/-! ## Application -/

def handles (chain : List Node) : List Addr := chain.map (·.id)

/-- R272: the chain position; past the tail, and the default 0xFF, mean the tail. -/
def attachIndex (pos : BitVec 8) (chain : List Node) : Nat :=
  if pos = 0xFF#8 then chain.length else min pos.toNat chain.length

/-- R272: the new node. -/
def newNode (h : Addr) (impl : DevImpl) (now : Tick) : Node :=
  { id := h, dev := impl.init, clock := impl.clock, last := now, nch := impl.nch, ops := impl.ops }

/-- R272, application of HATTACH. -/
def attachDevice (h : Addr) (pos : BitVec 8) (impl : DevImpl) (s : State) : State :=
  let i := attachIndex pos s.chain
  (s.setChain (s.chain.take i ++ newNode h impl (absTick s.P s.frame s.ts) :: s.chain.drop i)).setAudio
    { s.audio with chans := s.audio.chans ++ newChannels h impl.nch }

/-- R273, application of HDETACH: the channels fall to 0 first, then the node leaves the chain. -/
def detachDevice (h : Addr) (s : State) : Res State Value :=
  match s.chain.find? (fun n => n.id == h) with
  | none => .ok .unit s
  | some n =>
    ((fallEdges h s.ts (List.range n.nch) s.audio).lift fun a => s.setAudio a).bind fun _ s1 =>
      .ok (.device n.dev)
        ((s1.setAudio (closeChannels h s1.audio)).setChain (s1.chain.eraseP (fun m => m.id == h)))

/-- R278, application of HSNAPLOAD: S becomes the image, at a boundary; S.deferred and the environment are kept. -/
def loadImage (img : Engine) (s : State) : State := (s.setEngine img).setAtBoundary true

/-- The application of a mutation, with the value of its Done (R272 to R283, R289). -/
def applyMutation (m : Mutation) (s : State) : Res State Value :=
  match m with
  | .attach h pos impl => .ok .unit (attachDevice h pos impl s)
  | .detach h => detachDevice h s
  | .page v => .ok .unit (pagingWrite v (catchUp s.ts s))
  | .load img => .ok .unit (loadImage img s)
  | .wrap e => .ok .unit (s.setWrap (setEnabled e s.wrap))
  | .switch args => .ok (.nodes s.chain) (reconstruct args s)
  | .custom w => .ok (.nat (runCustom w s.wrap).2) (s.setWrap (runCustom w s.wrap).1)

/-- R271: the projected state Sp, S with every entry of S.deferred applied in order. Where an application raises a fault, Sp takes
the state at the raise and goes on with the next entry (DESIGN CHOICE, notes/assumptions 39). -/
def projected (s : State) : State := s.deferred.foldl (fun t m => (applyMutation m t).state) s

/-- The validation of a mutation against the projected state (R271 to R283): the response of a mutation that fails. -/
def invalid (m : Mutation) (sp : State) : Option Response :=
  match m with
  | .attach h _ _ => if (handles sp.chain).contains h then some (.refused .badField) else none
  | .detach h => if (handles sp.chain).contains h then none else some (.error (.e5 h))
  | .page _ => if sp.P.paging.isSome then none else some (.refused .badField)
  | .load img => (snapFailure sp.toEngine img).map (fun c => .error (.e4 c))
  | .wrap _ => if sp.wrap.isEmpty then some (.refused .badField) else none
  | .switch args => if constructible args then none else some (.refused .badField)
  | .custom w => if (customKind sp.wrap (fieldsOf w).op).isSome then none else some (.refused .unknownOpcode)

/-- R271: whether a valid mutation acts at once: at a boundary; and HSWITCH in mode Faulted, where no frame boundary can
come any more (R298, 95_test_vectors.md P5b; DEDUCED, notes/assumptions 12). -/
def actsNow (m : Mutation) (s : State) : Bool :=
  s.atBoundary || (match m with
    | .switch _ => decide (s.mode = .faulted)
    | _ => false)

/-- R271, R283: S.deferred when a mutation acts at once: a construction leaves none of the older entries. -/
def deferredAfter (m : Mutation) (s : State) : State :=
  match m with
  | .switch _ => s.setDeferred []
  | _ => s

/-- R271: a host mutation: validated, then applied at once or deferred. -/
def hostMutation (m : Mutation) (s : State) : Res State Unit :=
  match invalid m (projected s) with
  | some r => .ok () (respond r s)
  | none =>
    if actsNow m s then
      (applyMutation m (deferredAfter m s)).bind fun v s1 => .ok () (respond (.done v) s1)
    else .ok () (respond .deferred (s.setDeferred (s.deferred ++ [m])))

/-- R222 step 7: the deferred mutations in FIFO order, each with its value handed to the host (notes/assumptions 13). An entry
leaves S.deferred before it is applied, so where its application raises a fault the entries after it stay there
(DESIGN CHOICE, notes/assumptions 39). -/
def applyAll : List Mutation → State → Res State Unit
  | [], s => .ok () (s.setDeferred [])
  | m :: rest, s =>
    (applyMutation m (s.setDeferred rest)).bind fun v s1 => applyAll rest (emit (.applied v) s1)

end Sys2Proof.Machine
end

