-- ==== Sys2Proof/Machine/Sequencer.lean ====
section
/-! DEFINITION. The chipset timing sequencer (43_sequencer.md R216 to R222): the frame clock, the end of the frame and the frame wrap. -/

namespace Sys2Proof.Machine

/-- R222 steps 1 and 2: FrameComplete; the interrupt is signalled if it was not in this frame. -/
def finaliseInterrupt (s : State) : State :=
  let s1 := s.setMode .frameComplete
  if s1.intDone then s1 else (emit .interrupt s1).setIntDone true

/-- R222 step 4, first half: the fetches up to EOF - 1 and the pixel rows (R245, R248). -/
def renderVideo (s : State) : State := renderRows (catchUp (s.P.eof - 1) s)

/-- R222 step 4: both buffers of the completed frame go to the host (R245, R261, R266, R267). -/
def renderFrame (s : State) : State :=
  let s1 := renderVideo s
  emit (.frame s1.frameBuffer (audioRender s1.P s1.frame.toNat (s1.args.gainVal s1.frame) (s1.args.synthVal s1.frame) s1.audio)) s1

/-- R222 step 5: roll-over of video (R242), border (R244) and audio (R262). -/
def rollOver (s : State) : State :=
  let s1 := borderRoll (s.setVcache (s.vcache.map clearLine))
  s1.setAudio (s1.audio.roll s1.P s1.frame.toNat)

/-- R221, R222 step 6: the frame wrap. -/
def frameWrap (s : State) : State :=
  ((((s.setTs (s.ts - s.P.eof)).setFrame (s.frame + 1)).setIntDone false).setMode .running).setAtBoundary true

/-- R222: `frame_end()`. A raise in step 3 leaves the remaining steps undone (R296). -/
def frameEnd (s : State) : Res State Unit :=
  (boundaryCalls (finaliseInterrupt s)).bind fun _ s1 =>
    let s2 := frameWrap (rollOver (renderFrame s1))
    applyAll s2.deferred s2

/-- R216: `sequencer_step(W, N)`. -/
def sequencerStep (wait n : Nat) (s : State) : Res State Unit :=
  let s1 := s.setTs (s.ts + wait + n)
  if s1.P.eof ≤ s1.ts then frameEnd s1 else .ok () s1

end Sys2Proof.Machine
end

