-- ==== Sys2Proof/Machine/HostCommands.lean ====
section
/-! DEFINITION. The host commands (46_host_wrappers.md R272 to R283). -/

namespace Sys2Proof.Machine

/-- A mutation whose out-of-band operand the issue does not carry is refused as a bad field
(DESIGN CHOICE, notes/assumptions 5). -/
def withOperand {α : Type} (x : Option α) (m : α → Mutation) (s : State) : Res State Unit :=
  match x with
  | some v => hostMutation (m v) s
  | none => .ok () (respond (.refused .badField) s)

/-- HATTACH (R272). -/
def execHattach (h : Addr) (pos : BitVec 8) (s : State) : Host.Outcome State Fault Refusal :=
  endCommand (withOperand s.oob.device? (fun d => .attach h pos d) s)

/-- HDETACH (R273). -/
def execHdetach (h : Addr) (s : State) : Host.Outcome State Fault Refusal :=
  endCommand (hostMutation (.detach h) s)

/-- R274: the answer of a lookup in the current chain. -/
def lookupAnswer (h : Addr) (chain : List Node) : Response :=
  match chain.findIdx? (fun n => n.id == h), chain.find? (fun n => n.id == h) with
  | some i, some n => .done (.found i n.dev n.last)
  | _, _ => .error (.e5 h)

/-- HLOOKUP (R274). -/
def execHlookup (h : Addr) (s : State) : Host.Outcome State Fault Refusal :=
  endCommand (.ok () (respond (lookupAnswer h s.chain) s))

/-- HPAGE (R275). -/
def execHpage (v : Byte) (s : State) : Host.Outcome State Fault Refusal :=
  endCommand (hostMutation (.page v) s)

/-- HFLAGS (R276). -/
def execHflags (s : State) : Host.Outcome State Fault Refusal :=
  endCommand (.ok () (respond (.done (.flags (statusFlags s))) s))

/-- HSNAPSAVE (R277): the image is S without S.deferred. -/
def execHsnapsave (s : State) : Host.Outcome State Fault Refusal :=
  endCommand (.ok () (respond (.done (.image s.toEngine)) s))

/-- R278, R303: a snapshot that the codec could not decode is E4 as well. -/
def loadCommand (s : State) : Res State Unit :=
  match s.oob with
  | .undecodable => .ok () (respond (.error (.e4 .decode)) s)
  | x => withOperand x.image? (fun img => .load img) s

/-- HSNAPLOAD (R278). -/
def execHsnapload (s : State) : Host.Outcome State Fault Refusal := endCommand (loadCommand s)

/-- R249, R250: the mid-frame render at instant S.ts. -/
def renderMid (s : State) : Res State Unit :=
  if s.P.eof ≤ s.ts then .raised { code := .e1, info := .renderAt s.ts (.below s.P.eof) } s
  else
    let s1 := catchUp s.ts s
    .ok () (respond (.done (.pixels s1.midBuffer)) s1)

/-- HRENDERV (R279). -/
def execHrenderv (s : State) : Host.Outcome State Fault Refusal := endCommand (renderMid s)

/-- HWRAP (R280). -/
def execHwrap (e : Bool) (s : State) : Host.Outcome State Fault Refusal :=
  endCommand (hostMutation (.wrap e) s)

/-- HSWITCH (R283). -/
def execHswitch (s : State) : Host.Outcome State Fault Refusal :=
  endCommand (withOperand s.oob.model? (fun m => .switch m) s)

end Sys2Proof.Machine
end

