-- ==== Sys2Proof/Machine/Admission.lean ====
section
/-! DEFINITION. The order of checks for one issued word (60_exceptions.md R298, R307, R313): admission, decoding, interface;
the custom opcodes of a wrapper (46_host_wrappers.md R289); and how a word is issued. -/

namespace Sys2Proof.Machine

/-- R298: the opcodes that are performed in mode Faulted: HFLAGS, HSNAPSAVE, HSWITCH. -/
def admittedFaulted (op : BitVec 8) : Bool := op == 0x24#8 || op == 0x25#8 || op == 0x29#8

/-- R298: the admission check, before decoding: it looks at the opcode alone, so a word with an admitted opcode that does not
decode or comes through the wrong interface is refused, not Halted (DEDUCED, notes/assumptions 37). -/
def admitted (w : CmdWord) (s : State) : Bool := decide (s.mode ≠ .faulted) || admittedFaulted (fieldsOf w).op

/-- R313: the interface that accepts an instruction. -/
def accepts (i : Interface) : Instr → Bool
  | .mfetch _ _ => decide (i = .stepping)
  | .mread _ _ => decide (i = .stepping)
  | .mwrite _ _ _ => decide (i = .stepping)
  | .minternal _ _ => decide (i = .stepping)
  | .iord _ => decide (i = .stepping)
  | .iowr _ _ => decide (i = .stepping)
  | .qtslin _ _ => true
  | .qlints _ => true
  | .qtsabs _ => true
  | .qcont _ => true
  | .qcontio _ _ => true
  | .qfloat _ => true
  | .hattach _ _ => decide (i = .host)
  | .hdetach _ => decide (i = .host)
  | .hlookup _ => decide (i = .host)
  | .hpage _ => decide (i = .host)
  | .hflags => decide (i = .host)
  | .hsnapsave => decide (i = .host)
  | .hsnapload => decide (i = .host)
  | .hrenderv => decide (i = .host)
  | .hwrap _ => decide (i = .host)
  | .hswitch => decide (i = .host)

/-- R289: a custom command of a wrapper: one that only reads acts at once, one that writes is a host mutation. -/
def customCommand (k : CustomKind) (w : CmdWord) (s : State) : Host.Outcome State Fault Refusal :=
  endCommand (match k with
    | .reads => .ok () (respond (.done (.nat (runCustom w s.wrap).2)) s)
    | .writes => hostMutation (.custom w) s)

/-- R125, R289: the kind of a word in the custom space that a wrapper of the engine defines. The word is decoded by the present
S.wrap, also while an HSWITCH to another wrapper waits in S.deferred (DESIGN CHOICE, notes/assumptions 33). -/
def customOf (w : CmdWord) (s : State) : Option CustomKind :=
  if (fieldsOf w).op.getLsbD 7 then customKind s.wrap (fieldsOf w).op else none

/-- What becomes of an issued word before it is executed. -/
inductive Verdict where
  | answered (o : Host.Outcome State Fault Refusal)
  | execute (i : Instr)

/-- R307 steps 1 and 2, with the interface check of R313 last (DEDUCED, notes/assumptions 28). -/
def verdict (x : Issue) (s : State) : Verdict :=
  if admitted x.word s then
    match customOf x.word s with
    | some k =>
      if x.iface = .host then .answered (customCommand k x.word s)
      else .answered (.next (respond (.refused .badField) s))
    | none =>
      match decode x.word with
      | .error r => .answered (.next (respond (.refused r) s))
      | .ok i => if accepts x.iface i then .execute i else .answered (.next (respond (.refused .badField) s))
  else .answered (.next (respond (.halted s.fault) s))

/-- The state in which a taken issue is performed: its operand presented, the outputs of the step before gone. -/
def takeIssue (x : Issue) (rest : List Issue) (s : State) : State :=
  ((s.setInbox rest).setOob x.oob).setOut []

/-- A device that claims nothing, forwards every write unchanged and has no audio channel: the out-of-band operand that
`issueOf` gives HATTACH. -/
def passThrough : DevImpl :=
  { init := [], clock := .abs64, nch := 0, ops := .scripted { reads := [], writes := [], atBoundary := [] } }

/-- The operand that `issueOf` gives HSWITCH: the same model again (R322), RAM and ROM images of zeros, S.ula drawn, and the
present state of each wrapper as the initial S.wrap that it declares (DESIGN CHOICE, notes/assumptions 23). -/
def sameModel (s : State) : SwitchArgs :=
  { params := s.P, scheme := s.cfg.scheme, strict := s.cfg.strict, roms := [], ram := [], ula := Config.drawnUla,
    wrap := s.wrap.map (fun n => (n.impl, n.st)) }

/-- An issue of a word through the interface that accepts it, with an out-of-band operand for the words that take one
(notes/assumptions 4). -/
def issueOf (w : CmdWord) (s : State) : Issue :=
  let op := (fieldsOf w).op
  { iface := if op.toNat < 0x10 then .stepping else .host
    word := w
    oob := if op = 0x20#8 then .device passThrough
      else if op = 0x26#8 then .image s.toEngine
      else if op = 0x29#8 then .model (sameModel s)
      else .absent }

/-- `s` with a word issued before everything else that waits. -/
def issueNext (w : CmdWord) (s : State) : State := s.setInbox (issueOf w s :: s.inbox)

end Sys2Proof.Machine
end

