-- ==== Sys2Proof/Machine/IoRequests.lean ====
section
/-! DEFINITION. The I/O requests IORD and IOWR (42_io_device_chain.md R186, R187, with the wrapped ports of
46_host_wrappers.md R285). -/

namespace Sys2Proof.Machine

/-- R119: an I/O request has exactly four phases. -/
def ioPhases : Nat := 4

/-- R186, R195, R285: who answers a read: an enabled wrapper that selects the port, the chipset port, the first device that
claims it, or the floating bus. -/
def portRead (p : Addr) (td : Nat) (s : State) : Res State Byte :=
  match readWrapper s.wrap p with
  | some n => .ok (wrapRead n.impl n.st p td) s
  | none =>
    if ulaSel p then .ok (ulaRead p td s) s
    else (chainRead p td s).bind fun r s1 => .ok (r.getD (s1.floatingBus td)) s1

/-- R187: the chipset's own write decoders; the paging write first runs the fetches up to its data instant (R241). -/
def chipsetWrite (p : Addr) (v : Byte) (te : Nat) (s : State) : State :=
  let s1 := if ulaSel p then ulaWrite v te s else s
  if pagSel s1.P p then pagingWrite v (catchUp te s1) else s1

/-- R187, R195, R285: the chipset's decoders or, in their place, an enabled wrapper that selects the port; then the whole
chain. -/
def portWrite (p : Addr) (v : Byte) (te : Nat) (s : State) : Res State Unit :=
  chainWrite p v te
    (if wrapTakesWrite s.wrap p then s.setWrap (wrapWriteAll p v te s.wrap) else chipsetWrite p v te s)

/-- R186 at the state after the interrupt check. -/
def ioReadCycle (p : Addr) (s : State) : Res State Unit :=
  let w := s.ioWait s.ts p
  (portRead p (dataInstant s.P s.ts w) s).bind fun v s1 => sequencerStep w ioPhases (respond (.data v w) s1)

/-- R187 at the state after the interrupt check. -/
def ioWriteCycle (p : Addr) (v : Byte) (s : State) : Res State Unit :=
  let w := s.ioWait s.ts p
  (portWrite p v (dataInstant s.P s.ts w) s).bind fun _ s1 => sequencerStep w ioPhases (respond (.wait w) s1)

/-- IORD (R186). -/
def execIord (p : Addr) (s : State) : Host.Outcome State Fault Refusal :=
  endRequest ((startRequest .iord s).bind fun _ s1 => ioReadCycle p s1)

/-- IOWR (R187). -/
def execIowr (p : Addr) (d : Byte) (s : State) : Host.Outcome State Fault Refusal :=
  endRequest ((startRequest .iowr s).bind fun _ s1 => ioWriteCycle p d s1)

end Sys2Proof.Machine
end

