-- ==== Sys2Proof/Machine/MemoryRequests.lean ====
section
/-! DEFINITION. The memory requests MFETCH, MREAD, MWRITE and MINTERNAL (41_memory_ops.md R171 to R174). -/

namespace Sys2Proof.Machine

/-- R171, R172: a read cycle of `n` phases at the state after the interrupt check. The response stands before the sequencer
step, and stays where the frame end raises a fault (R216, R307; DEDUCED, notes/assumptions 34). -/
def readCycle (a : Addr) (n : Nat) (s : State) : Res State Unit :=
  let w := s.memWait a s.ts
  sequencerStep w n (respond (.data (s.memRead a) w) s)

/-- R173: the store of a write cycle that takes effect at instant `tw`; a store into the screen page first runs the
fetches up to `tw` (R240). -/
def storeByte (a : Addr) (v : Byte) (tw : Nat) (s : State) : State :=
  if writablePage s.P (s.pageOf a) && s.pageOf a == s.screenPage then memWrite a v (catchUp tw s) else memWrite a v s

/-- R173: a write cycle of `n` phases at the state after the interrupt check. -/
def writeCycle (a : Addr) (v : Byte) (n : Nat) (s : State) : Res State Unit :=
  let w := s.memWait a s.ts
  sequencerStep w n (respond (.wait w) (storeByte a v (s.ts + w) s))

/-- R174: an internal cycle of `n` phases at the state after the interrupt check. -/
def internalCycle (a : Addr) (n : Nat) (s : State) : Res State Unit :=
  let w := s.internalWait a n s.ts
  sequencerStep w n (respond (.wait w) s)

/-- MFETCH (R171). -/
def execMfetch (a : Addr) (n : BitVec 8) (s : State) : Host.Outcome State Fault Refusal :=
  endRequest ((startRequest .mfetch s).bind fun _ s1 => readCycle a (phases n) s1)

/-- MREAD (R172). -/
def execMread (a : Addr) (n : BitVec 8) (s : State) : Host.Outcome State Fault Refusal :=
  endRequest ((startRequest .mread s).bind fun _ s1 => readCycle a (phases n) s1)

/-- MWRITE (R173). -/
def execMwrite (a : Addr) (d : Byte) (n : BitVec 8) (s : State) : Host.Outcome State Fault Refusal :=
  endRequest ((startRequest .mwrite s).bind fun _ s1 => writeCycle a d (phases n) s1)

/-- MINTERNAL (R174). -/
def execMinternal (a : Addr) (n : BitVec 8) (s : State) : Host.Outcome State Fault Refusal :=
  endRequest ((startRequest .minternal s).bind fun _ s1 => internalCycle a (phases n) s1)

end Sys2Proof.Machine
end

