-- ==== Sys2Proof/Machine/Queries.lean ====
section
/-! DEFINITION. The pure queries (40_timestamp_contention.md R160 to R164, 42_io_device_chain.md R203). -/

namespace Sys2Proof.Machine

/-- A query answers a value, or raises E1; it changes no state (R159). -/
def answerQuery (r : Except FaultRec Value) (s : State) : Res State Unit :=
  match r with
  | .ok v => .ok () (respond (.done v) s)
  | .error f => .raised f s

/-- R161 to R164, R203: a query of one frame-linear timestamp raises E1 outside the frame. -/
def inFrame (P : Params) (op : QueryOp) (t : Nat) (v : Value) : Except FaultRec Value :=
  if P.eof ≤ t then .error { code := .e1, info := .query op t (.below P.eof) } else .ok v

/-- QTSLIN (R160). -/
def execQtslin (line cycle : BitVec 12) (s : State) : Host.Outcome State Fault Refusal :=
  endCommand (answerQuery
    (if s.P.lpf ≤ line.toNat ∨ s.P.cpl ≤ cycle.toNat then
      .error { code := .e1, info := .lineCycle line.toNat cycle.toNat s.P.lpf s.P.cpl }
    else .ok (.nat (lin s.P line.toNat cycle.toNat))) s)

/-- QLINTS (R161). -/
def execQlints (t : BitVec 24) (s : State) : Host.Outcome State Fault Refusal :=
  endCommand (answerQuery (inFrame s.P .qlints t.toNat (.stamp (fts s.P t.toNat).1 (fts s.P t.toNat).2)) s)

/-- QTSABS (R162). -/
def execQtsabs (t : BitVec 24) (s : State) : Host.Outcome State Fault Refusal :=
  endCommand (answerQuery (inFrame s.P .qtsabs t.toNat (.tick (absTick s.P s.frame t.toNat))) s)

/-- QCONT (R163). -/
def execQcont (t : BitVec 24) (s : State) : Host.Outcome State Fault Refusal :=
  endCommand (answerQuery (inFrame s.P .qcont t.toNat (.nat (contention s.P t.toNat))) s)

/-- QCONTIO (R164). -/
def execQcontio (t : BitVec 24) (p : Addr) (s : State) : Host.Outcome State Fault Refusal :=
  endCommand (answerQuery (inFrame s.P .qcontio t.toNat (.nat (s.ioWait t.toNat p))) s)

/-- QFLOAT (R203). -/
def execQfloat (t : BitVec 24) (s : State) : Host.Outcome State Fault Refusal :=
  endCommand (answerQuery (inFrame s.P .qfloat t.toNat (.byte (s.floatingBus t.toNat))) s)

end Sys2Proof.Machine
end

