-- ==== Sys2Proof/Machine/Dispatch.lean ====
section
/-! DEFINITION. The meaning of each instruction (30_encoding.md R118). -/

namespace Sys2Proof.Machine

def exec (i : Instr) (s : State) : Host.Outcome State Fault Refusal :=
  match i with
  | .mfetch a n => Sys2Proof.Machine.execMfetch a n s
  | .mread a n => Sys2Proof.Machine.execMread a n s
  | .mwrite a d n => Sys2Proof.Machine.execMwrite a d n s
  | .minternal a n => Sys2Proof.Machine.execMinternal a n s
  | .iord p => Sys2Proof.Machine.execIord p s
  | .iowr p d => Sys2Proof.Machine.execIowr p d s
  | .qtslin line cycle => Sys2Proof.Machine.execQtslin line cycle s
  | .qlints t => Sys2Proof.Machine.execQlints t s
  | .qtsabs t => Sys2Proof.Machine.execQtsabs t s
  | .qcont t => Sys2Proof.Machine.execQcont t s
  | .qcontio t p => Sys2Proof.Machine.execQcontio t p s
  | .qfloat t => Sys2Proof.Machine.execQfloat t s
  | .hattach h pos => Sys2Proof.Machine.execHattach h pos s
  | .hdetach h => Sys2Proof.Machine.execHdetach h s
  | .hlookup h => Sys2Proof.Machine.execHlookup h s
  | .hpage v => Sys2Proof.Machine.execHpage v s
  | .hflags => Sys2Proof.Machine.execHflags s
  | .hsnapsave => Sys2Proof.Machine.execHsnapsave s
  | .hsnapload => Sys2Proof.Machine.execHsnapload s
  | .hrenderv => Sys2Proof.Machine.execHrenderv s
  | .hwrap e => Sys2Proof.Machine.execHwrap e s
  | .hswitch => Sys2Proof.Machine.execHswitch s

end Sys2Proof.Machine
end

