-- ==== Sys2Proof/Machine/Step.lean ====
section
/-! DEFINITION. One step of the machine: the next issue of `inbox` is taken and performed. With nothing issued the engine stays as
it is (70_reset_and_hazards.md R318, 43_sequencer.md R224). -/

namespace Sys2Proof.Machine

def step (s : State) : Host.Outcome State Fault Refusal :=
  match s.inbox with
  | [] => .next s
  | x :: rest =>
    match verdict x (takeIssue x rest s) with
    | .answered o => o
    | .execute i => exec i (takeIssue x rest s)

/-- `s` with the command word `w` issued next (notes/assumptions 4). -/
def State.withFetchWord (s : State) (_nbits w : Nat) : State := issueNext (BitVec.ofNat 64 w) s

end Sys2Proof.Machine
end

