-- ==== Sys2Proof/Safety.lean ====
section
/-! DEFINITION. What counts as a good state, in the terms claims use: the invariants that every step keeps. Each is stated of the
running engine and of the snapshot images that wait in S.deferred, which become the engine later (46_host_wrappers.md R271). -/

namespace Sys2Proof.Machine

/-- `Q` holds of the running engine and of every image that waits to be loaded. -/
def EveryEngine (Q : Engine → Prop) (s : State) : Prop :=
  Q s.toEngine ∧ ∀ img, Mutation.load img ∈ s.deferred → Q img

/-- Every model switch that waits was validated (R283). -/
def SwitchesOk (s : State) : Prop := ∀ args, Mutation.switch args ∈ s.deferred → constructible args = true

/-- The page store is in its canonical form (R39; notes/assumptions 3). -/
def Engine.StoreOk (e : Engine) : Prop := e.pages.wf = true

/-- Every cell of the page store lies in a page of PAGES (R39). -/
def Engine.CellsOk (e : Engine) : Prop := ∀ c ∈ e.pages, (keyPage e.cfg.params c.1).isSome = true

/-- The parameter record passes R14 and the scheme is one of its schemes (R321). -/
def Engine.CfgOk (e : Engine) : Prop :=
  e.cfg.params.wellFormed = true ∧ (e.cfg.params.intTs? e.cfg.scheme).isSome = true

/-- R34: the paging register is there exactly where P has one, and its bits 7:6 are 0. R44: the video cache has the
dimensions of P. -/
def Engine.ShapeOk (e : Engine) : Prop :=
  pagingValid e.cfg.params e.paging = true ∧ vcacheValid e.cfg.params e.vcache = true

/-- R28, R29, R36, R226: between operations the mode is Running or Faulted, Faulted exactly where a fault is latched, and
in mode Running `S.ts < EOF` wherever one request is shorter than a frame (R144). -/
def Engine.ClockOk (e : Engine) : Prop :=
  e.mode ≠ .frameComplete ∧ (e.mode = .faulted ↔ e.fault.isSome = true) ∧
    (e.cfg.params.shortRequests = true → e.mode = .running → e.ts < e.cfg.params.eof)

/-- The instants of a queue do not fall (R45). -/
def Channel.Ordered (c : Channel) : Prop := List.Pairwise (fun a b : Edge => a.t ≤ b.t) c.edges

/-- No edge of the queue lies after `T`. -/
def Channel.UpTo (c : Channel) (T : Nat) : Prop := ∀ e ∈ c.edges, e.t ≤ T

/-- The last instant that the requests up to now can have reached: the data instant of an I/O request of four phases lies
IO_DATA_OFFSET - 4 cycles past its end, and not past it where IO_DATA_OFFSET is at most 4 (R188). -/
def Engine.horizon (e : Engine) : Nat := e.ts + (e.cfg.params.ioDataOffset - 4)

/-- R263: of every source, the queue is ordered and `S.abase + Σ Δ(S.apend) + Σ (level changes of S.edges) = S.alevel`; and
unless a fault is latched no edge lies after the horizon. -/
def Engine.AudioOk (e : Engine) : Prop :=
  (∀ sc ∈ e.audio.sources, sc.2.Ordered ∧ sc.2.balanced = true) ∧
    (e.mode ≠ .faulted → ∀ sc ∈ e.audio.sources, sc.2.UpTo e.horizon)

/-- R43: the border events are in order; and unless a fault is latched none lies after the horizon. -/
def Engine.BorderOk (e : Engine) : Prop :=
  e.borderEv.Pairwise (fun a b => a.t ≤ b.t) ∧ (e.mode ≠ .faulted → ∀ ev ∈ e.borderEv, ev.t ≤ e.horizon)

/-- R200, R222 step 3: unless a fault is latched every node was brought to an instant of the current frame, or to its start, that
is not after the horizon. -/
def Engine.NodeClocksOk (e : Engine) : Prop :=
  e.mode ≠ .faulted → ∀ n ∈ e.chain, (absTick e.cfg.params e.frame e.horizon - n.last).toNat ≤ e.horizon

/-- The handles of the chain after a mutation (R272, R273, R278, R283), in some order. -/
def handlesAfter (hs : List Addr) : Mutation → List Addr
  | .attach h _ _ => h :: hs
  | .detach h => hs.erase h
  | .page _ => hs
  | .load img => handles img.chain
  | .wrap _ => hs
  | .switch _ => []
  | .custom _ => hs

/-- R197, R271: the handles of the chain are unique, and unless a fault is latched they stay so while S.deferred is applied. -/
def HandlesInv (s : State) : Prop :=
  (handles s.chain).Nodup ∧
    (s.mode ≠ .faulted → ∀ k, ((s.deferred.take k).foldl handlesAfter (handles s.chain)).Nodup)

/-- R271: at a boundary nothing is deferred, unless a fault stopped the frame end. -/
def BoundaryInv (s : State) : Prop := s.mode ≠ .faulted → s.atBoundary = true → s.deferred = []

/-- The page store of the engine and of every waiting image is canonical. -/
def StoreInv (s : State) : Prop := EveryEngine Engine.StoreOk s

/-- Every cell of the page store lies in a page, in the engine and in every waiting image. -/
def CellsInv (s : State) : Prop := EveryEngine Engine.CellsOk s

/-- The configuration of the engine, and of every engine that may come of S.deferred, is well-formed. -/
def CfgInv (s : State) : Prop := EveryEngine Engine.CfgOk s ∧ SwitchesOk s

/-- The registers and tables have the shape their parameter record gives them. -/
def ShapeInv (s : State) : Prop := EveryEngine Engine.ShapeOk s

/-- The clock, the mode and the fault latch agree. -/
def ClockInv (s : State) : Prop := EveryEngine Engine.ClockOk s ∧ CfgInv s

/-- The audio carry balances. -/
def AudioInv (s : State) : Prop := EveryEngine Engine.AudioOk s

/-- The border events are in order. -/
def BorderInv (s : State) : Prop := EveryEngine Engine.BorderOk s

/-- The clocks of the nodes are not ahead. -/
def NodeClocksInv (s : State) : Prop := EveryEngine Engine.NodeClocksOk s

end Sys2Proof.Machine
end

