-- ==== Sys2Proof/Certificates/Slice0/Obligations.lean ====
section
/-! DEFINITION. The statements for the provers, one `def Obligations.<Name> : Prop` each (OBLIGATIONS.json), after the few
terms they are written in. -/

namespace Sys2Proof.Claims

open Sys2Proof.Machine

/-! ## Terms of the statements -/

/-- R118: the opcodes of the opcode map. -/
def mapOpcodes : List (BitVec 8) :=
  [0x01, 0x02, 0x03, 0x04, 0x05, 0x06, 0x10, 0x11, 0x12, 0x14, 0x15, 0x16,
    0x20, 0x21, 0x22, 0x23, 0x24, 0x25, 0x26, 0x27, 0x28, 0x29]

/-- R313: the bus requests, which the stepping interface alone accepts. -/
def busRequest : Instr → Bool
  | .mfetch _ _ | .mread _ _ | .mwrite _ _ _ | .minternal _ _ | .iord _ | .iowr _ _ => true
  | _ => false

/-- R313: the queries, which both interfaces accept. -/
def query : Instr → Bool
  | .qtslin _ _ | .qlints _ | .qtsabs _ | .qcont _ | .qcontio _ _ | .qfloat _ => true
  | _ => false

/-- R313: the host commands, which the host interface alone accepts. -/
def hostCommand (i : Instr) : Bool := !busRequest i && !query i

/-- R271: the host commands that are mutations. -/
def mutation : Instr → Bool
  | .hattach _ _ | .hdetach _ | .hpage _ | .hsnapload | .hwrap _ | .hswitch => true
  | _ => false

/-- The wait `W` of a bus request that starts in `s` (R165, R174, R155). -/
def requestWait (i : Instr) (s : State) : Nat :=
  match i with
  | .mfetch a _ => s.memWait a s.ts
  | .mread a _ => s.memWait a s.ts
  | .mwrite a _ _ => s.memWait a s.ts
  | .minternal a n => s.internalWait a n.toNat s.ts
  | .iord p => s.ioWait s.ts p
  | .iowr p _ => s.ioWait s.ts p
  | _ => 0

/-- The phase count `N` of a bus request (R119). -/
def requestPhases : Instr → Nat
  | .mfetch _ n => n.toNat
  | .mread _ n => n.toNat
  | .mwrite _ _ n => n.toNat
  | .minternal _ n => n.toNat
  | .iord _ => 4
  | .iowr _ _ => 4
  | _ => 0

/-- The name of a bus request in the fault of R226 (R299). -/
def requestOp : Instr → Option RequestOp
  | .mfetch _ _ => some .mfetch
  | .mread _ _ => some .mread
  | .mwrite _ _ _ => some .mwrite
  | .minternal _ _ => some .minternal
  | .iord _ => some .iord
  | .iowr _ _ => some .iowr
  | _ => none

/-- The instant at which a bus request that starts in `s` ends, before any frame wrap (R216). -/
def requestEnd (i : Instr) (s : State) : Nat := s.ts + requestWait i s + requestPhases i

/-- The state after a response and the advance of S.ts (R175, R216). -/
def answered (r : Response) (wait n : Nat) (s : State) : State := (respond r s).setTs (s.ts + wait + n)

/-- The end of a bus request that responds `r` in `s`: the next state within the frame, and the frame end past it, which comes
after the response (R216; notes/assumptions 34 for a frame end that raises a fault). -/
def endsWith (r : Response) (wait n : Nat) (s : State) (o : Host.Outcome State Fault Refusal) : Prop :=
  (s.ts + wait + n < s.P.eof → o = .next (answered r wait n s)) ∧
    (s.P.eof ≤ s.ts + wait + n → o = endRequest (frameEnd (answered r wait n s)))

/-- No snapshot and no model switch waits in S.deferred. -/
def noReplacement (s : State) : Prop :=
  ∀ m ∈ s.deferred, (∀ img, m ≠ .load img) ∧ ∀ args, m ≠ .switch args

/-- The next word, if any, is no HSNAPLOAD and no HSWITCH: together with `noReplacement`, the next step does not replace
the engine. -/
def keepsEngine (s : State) : Prop :=
  noReplacement s ∧ ∀ x rest, s.inbox = x :: rest → decode x.word ≠ .ok .hsnapload ∧ decode x.word ≠ .ok .hswitch

/-- `k` interrupt signals among the outputs of a step. -/
def interrupts (s : State) : Nat := s.out.count .interrupt

/-- A run of steps within one frame from `s` to `t`, each on an issued word and none replacing the engine, in which the
interrupt is signalled `k` times. -/
inductive FrameRun (s : State) : Nat → State → Prop where
  | start : FrameRun s 0 s
  | step {k : Nat} {t u : State} : FrameRun s k t → t.inbox ≠ [] → keepsEngine t → Machine.step t = .next u →
      u.frame = t.frame → FrameRun s (k + interrupts u) u

/-- The fixed part of a chain: handles, clock representations, channel counts and implementations, in order. -/
def wiring (chain : List Node) : List (Addr × ClockRepr × Nat × DevOps) :=
  chain.map (fun n => (n.id, n.clock, n.nch, n.ops))

/-- The pixels of a row from its cells, a flash phase and the wrappers (R246, R287). -/
def rowPixels (phase : Nat) (wrap : List WrapNode) (y : Nat) (l : VLine) : List Nat :=
  (mapFrom (fun x c => (List.range 8).map (fun i =>
    let p : PixelIn := { y := y, px := 8 * x + i, bmp := c.bmp, att := c.att, phase := seenPhase c.att phase }
    wrappedPixel wrap p (pixelIndex p))) 0 l.cells).flatten

/-- A kept row is what its own record says it was rendered from. -/
def RowTrue (y : Nat) (r : RowImage) : Prop :=
  ∀ wrap l, wrapKey wrap = r.wrap → lineBytes l = r.bytes → r.pixels = rowPixels r.phase wrap y l

/-- Every kept row of the video cache is true. -/
def RowsTrue (e : Engine) : Prop := ∀ y l r, e.vcache[y]? = some l → l.row = some r → RowTrue y r

/-- The level of a source at sample `n` from one render over this frame and every later one (R264): all its steps, those of
edges past the frame end among them. -/
def fullLevel (P : Params) (f : Nat) (c : Channel) (n : Nat) : Rat :=
  c.base + ratSum ((c.pend ++ edgeSteps P f c.startLevel c.edges).map (fun p => p.delta * stepH P ((n : Rat) - p.pos)))

/-- One completed access of node `n` (R198, R199, R222 step 3): after its clock is at tick `A`, instant `x` in its representation, with
the edges of `advance_to` handled (audio state `a'`), it gives `reply`; `r` is the result, and `c` the node and the audio state
after it. -/
def Accessed {α : Type} (P : Params) (f : Tick) (t : Nat) (n : Node) (a : Audio) (x : DevTime) (a' : Audio) (A : Tick)
    (reply : DevReply α) (r : α) (c : NodeCtx) : Prop :=
  deviceEdges P f n.id t (advanceTo n.ops n.dev x).edges a = .ok () a' ∧ r = reply.ret ∧
    c.1 = { n with dev := reply.dev, last := A } ∧ deviceEdges P f n.id t reply.edges a' = .ok () c.2

/-- The byte with which node `n` claims a read of `p` at `td`, once its clock is at that instant; none where it claims nothing or
its clock cannot be brought there (R198, R148). -/
def claimOf (P : Params) (f : Tick) (p : Addr) (td : Nat) (n : Node) : Option Byte :=
  (convInstant P n.clock (normInstant P f td).1 (normInstant P f td).2).bind
    (fun x => (answerRead n.ops (advanceTo n.ops n.dev x).dev p x).ret)

/-- The state with the engine's wrappers removed: the inner chipset alone (R290). -/
def inner (s : State) : State := s.setWrap []

/-- The state under another SYNTH argument of the host (R267). -/
def withSynth (v : Setting Bool) (s : State) : State := { s with args := { s.args with synth := v } }

end Sys2Proof.Claims

section

open Sys2Proof Sys2Proof.Machine Sys2Proof.Claims

/-! ## Encoding -/

/-- Words written out from R116 and R118, one of each family, decode to the operations they stand for. -/
def Obligations.WrittenWordsDecode : Prop :=
  decode 0x0100000040000004 = .ok (.mfetch 0x4000 4) ∧ decode 0x030000004000AA03 = .ok (.mwrite 0x4000 0xAA 3) ∧
    decode 0x06000000001F0F04 = .ok (.iowr 0x001F 0x0F) ∧ decode 0x101370DF00000000 = .ok (.qtslin 311 223) ∧
    decode 0x1500380040FE0000 = .ok (.qcontio 14336 0x40FE) ∧ decode 0x20000000000100FF = .ok (.hattach 1 0xFF) ∧
    decode 0x230000000000C700 = .ok (.hpage 0xC7) ∧ decode 0x2800000000000100 = .ok (.hwrap true)

/-- R118, R121: decoding the encoding of any well-formed instruction gives it back, every operand at every value. -/
def Obligations.DecodeOfEncode : Prop := ∀ i, WellFormed i = true → decode (encode i) = .ok i

/-- R121, R122, R128: a word that decodes is the one encoding of a well-formed instruction: no accepted word holds a bit
that its instruction does not say. -/
def Obligations.AcceptedWordIsItsEncoding : Prop :=
  ∀ w i, decode w = .ok i → WellFormed i = true ∧ encode i = w

/-- R124, R125: a word whose opcode is no row of the map, and for a custom opcode one that no wrapper of the present S.wrap
defines (that S.wrap, not a wrapper in S.deferred, decides is the model's choice, log 33), is refused as an unknown opcode. -/
def Obligations.UnlistedOpcodeIsUnknown : Prop :=
  ∀ (s : State) (x : Issue) (rest : List Issue), s.inbox = x :: rest → s.mode ≠ .faulted →
    ((fieldsOf x.word).op.toNat < 0x80 ∧ (fieldsOf x.word).op ∉ mapOpcodes ∨
      0x80 ≤ (fieldsOf x.word).op.toNat ∧ customKind s.wrap (fieldsOf x.word).op = none) →
    step s = .next (respond (.refused .unknownOpcode) (takeIssue x rest s))

/-- R123: `bad_field` is the answer of the decoder for exactly these words: the encodings of memory requests with a phase
count outside 1 to 15, and those of I/O requests with `n` other than 4. -/
def Obligations.BadFieldExactly : Prop :=
  ∀ w, decode w = .error .badField ↔
    (∃ i, WellFormed i = false ∧ w = encode i) ∨
      ∃ n : BitVec 8, n ≠ 4 ∧
        ((∃ p, w = pack { encodeFields (.iord p) with n := n }) ∨ ∃ p d, w = pack { encodeFields (.iowr p d) with n := n })

/-! ## One step -/

/-- R307: a step performs the decoded instruction of the issue taken, and taking the issue changes nothing but the inbox,
the operand and the outputs; with nothing issued a step changes nothing (the inbox is the model's form of issuing, log 4). -/
def Obligations.StepRunsTheDecodedWord : Prop :=
  (∀ (s : State) (x : Issue) (rest : List Issue) (i : Instr), s.inbox = x :: rest → decode x.word = .ok i →
    accepts x.iface i = true → (s.mode ≠ .faulted ∨ i = .hflags ∨ i = .hsnapsave ∨ i = .hswitch) →
    step s = exec i (takeIssue x rest s) ∧
      takeIssue x rest s = { s with inbox := rest, oob := x.oob, out := [] }) ∧
  ∀ s : State, s.inbox = [] → step s = .next s

/-- R127: a word that is refused changes no state and returns `Refused(reason)` to its issuer. -/
def Obligations.RefusedWordChangesNothing : Prop :=
  ∀ (s : State) (x : Issue) (rest : List Issue) (r : Reason), s.inbox = x :: rest → s.mode ≠ .faulted →
    customOf x.word s = none → decode x.word = .error r →
    ∃ t, step s = .next t ∧ t.toEngine = s.toEngine ∧ t.deferred = s.deferred ∧ t.args = s.args ∧ t.inbox = rest ∧
      t.out = [.response (.refused r)]

/-- R298: in mode Faulted every word but HFLAGS, HSNAPSAVE and HSWITCH answers Halted and changes nothing; those three are
performed; and a step that leaves the mode is an HSWITCH that constructs the engine anew. That it leaves S.deferred empty is
the model's choice (log 12). -/
def Obligations.FaultedAdmitsThree : Prop :=
  ∀ s : State, s.mode = .faulted →
    (∀ x rest, s.inbox = x :: rest → (fieldsOf x.word).op ∉ [0x24#8, 0x25#8, 0x29#8] →
      ∃ t, step s = .next t ∧ t.toEngine = s.toEngine ∧ t.deferred = s.deferred ∧ t.args = s.args ∧ t.inbox = rest ∧
        t.out = [.response (.halted s.fault)]) ∧
    (∀ x rest i, s.inbox = x :: rest → x.iface = .host → i ∈ [Instr.hflags, .hsnapsave, .hswitch] →
      decode x.word = .ok i → step s = exec i (takeIssue x rest s)) ∧
    ∀ t, step s = .next t → t.mode ≠ .faulted →
      ∃ x rest args, s.inbox = x :: rest ∧ decode x.word = .ok .hswitch ∧ x.oob = .model args ∧
        t.toEngine = construct args ∧ t.deferred = []

/-- R313: the stepping interface accepts the bus requests and the queries, the host interface the host commands, the
custom commands and the queries; a word through the other interface is `Refused(bad_field)`. -/
def Obligations.InterfacesHaveTheirCommands : Prop :=
  ∀ (s : State) (x : Issue) (rest : List Issue), s.inbox = x :: rest → s.mode ≠ .faulted →
    (∀ i, decode x.word = .ok i →
      (query i = true → step s = exec i (takeIssue x rest s)) ∧
      (busRequest i = true → x.iface = .stepping → step s = exec i (takeIssue x rest s)) ∧
      (busRequest i = true → x.iface = .host → step s = .next (respond (.refused .badField) (takeIssue x rest s))) ∧
      (hostCommand i = true → x.iface = .host → step s = exec i (takeIssue x rest s)) ∧
      (hostCommand i = true → x.iface = .stepping →
        step s = .next (respond (.refused .badField) (takeIssue x rest s)))) ∧
    ∀ k, customOf x.word s = some k →
      (x.iface = .host → step s = customCommand k x.word (takeIssue x rest s)) ∧
      (x.iface = .stepping → step s = .next (respond (.refused .badField) (takeIssue x rest s)))

/-- R289: custom commands. One that only reads answers at once and changes nothing; one that writes changes S.wrap alone at
a boundary and is deferred within a frame; one that no wrapper of the projected state defines is an unknown opcode. The
value and the new S.wrap are functions of the word and S.wrap alone, `runCustom`: the command runs on the outermost wrapper
that defines it (the model's choice, log 8), the implementations and the enabled flags stay (log 36), and the state stays
where the command only reads. That the opcode alone decides whether a word is a custom command and of which kind, with no
value of its other fields refused, is the model's choice (log 42). -/
def Obligations.CustomCommandsTouchOnlyWrap : Prop :=
  ∀ (s : State) (w : CmdWord),
    customCommand .reads w s = .next (respond (.done (.nat (runCustom w s.wrap).2)) s) ∧
    ((customKind (projected s).wrap (fieldsOf w).op).isSome = true →
      (s.atBoundary = true → customCommand .writes w s =
        .next (respond (.done (.nat (runCustom w s.wrap).2)) (s.setWrap (runCustom w s.wrap).1))) ∧
      (s.atBoundary = false →
        customCommand .writes w s = .next (respond .deferred (s.setDeferred (s.deferred ++ [.custom w]))))) ∧
    (customKind (projected s).wrap (fieldsOf w).op = none →
      customCommand .writes w s = .next (respond (.refused .unknownOpcode) s)) ∧
    (∀ pre n post k, s.wrap = pre ++ n :: post → (∀ m ∈ pre, wrapCustom m.impl (fieldsOf w).op = none) →
      wrapCustom n.impl (fieldsOf w).op = some k →
      customKind s.wrap (fieldsOf w).op = some k ∧ runCustom w s.wrap =
        (pre ++ (match k with
          | .reads => n
          | .writes => { n with st := (wrapCustomRun n.impl n.st w).1 }) :: post, (wrapCustomRun n.impl n.st w).2))

/-! ## Faults -/

/-- R296: raising a fatal fault latches the first fault and sets the mode, and nothing else; the rest of the operation is not
performed; a request gives no response and a command returns Faulted; inside the frame end the remaining steps are left. -/
def Obligations.RaisedFaultEndsTheOperation : Prop :=
  ∀ (f : FaultRec) (s : State),
    takeFault f s = { s with mode := .faulted, fault := some (s.fault.getD f) } ∧
    (∀ k : Unit → State → Res State Unit, (Res.raised f s).bind k = .raised f s) ∧
    endRequest (.raised f s) = .next (takeFault f s) ∧
    endCommand (.raised f s) = .next (respond (.faulted f) (takeFault f s)) ∧
    ∀ u, boundaryCalls (finaliseInterrupt u) = .raised f s → frameEnd u = .raised f s

/-- R226, R299, R307: a bus request that finds `S.ts` outside the frame at its start raises E1, with its operation, the instant and
the bound; the interrupt check comes before the fault, and nothing else is done (that the check of R226 precedes the wait and
the access is the model's reading, log 20). -/
def Obligations.RequestOutsideFrameFaults : Prop :=
  ∀ (i : Instr) (op : RequestOp) (s : State), requestOp i = some op → s.P.eof ≤ s.ts →
    exec i s = .next (takeFault { code := .e1, info := .requestAt op s.ts (.below s.P.eof) } (intCheck s))

/-- R200 (with the conversion of R148): `sync` raises E1 where the node's clock would move backwards, E2 exactly where the node's clock is LIN32 and the
tick reaches 2^32, and else brings the device to the instant and the node's clock to its tick. R144, R148: an instant below
EOF is one of the frame, one below 2 * EOF one of the next, and it is converted to the node's representation. -/
def Obligations.DeviceClocksMoveForward : Prop :=
  (∀ (P : Params) (f : Tick) (t : Nat),
    (t < P.eof → normInstant P f t = (f, t)) ∧
    (P.eof ≤ t → t < 2 * P.eof → normInstant P f t = (f + 1, t - P.eof)) ∧
    convInstant P .frame f t = some (.frame f (t / P.cpl) (t % P.cpl)) ∧
    convInstant P .abs64 f t = some (.abs64 (BitVec.ofNat 64 (f.toNat * P.eof + t))) ∧
    (f.toNat * P.eof + t < 2 ^ 32 → convInstant P .lin32 f t = some (.lin32 (BitVec.ofNat 32 (f.toNat * P.eof + t)))) ∧
    (2 ^ 32 ≤ f.toNat * P.eof + t → convInstant P .lin32 f t = none)) ∧
  ∀ (P : Params) (f : Tick) (t : Nat) (n : Node) (a : Audio) (g : Tick) (u : Nat), normInstant P f t = (g, u) →
    (before (absTick P g u) n.last = true →
      syncNode P f t n a = .raised { code := .e1, info := .clockBack n.id (absTick P g u) n.last } (n, a)) ∧
    (before (absTick P g u) n.last = false → n.clock = .lin32 → 2 ^ 32 ≤ g.toNat * P.eof + u →
      syncNode P f t n a = .raised { code := .e2, info := .conversion n.id g u } (n, a)) ∧
    (before (absTick P g u) n.last = false → (n.clock = .lin32 → g.toNat * P.eof + u < 2 ^ 32) →
      ∃ x, convInstant P n.clock g u = some x ∧
        ∀ a', deviceEdges P f n.id t (advanceTo n.ops n.dev x).edges a = .ok () a' →
          syncNode P f t n a =
            .ok x ({ n with dev := (advanceTo n.ops n.dev x).dev, last := absTick P g u }, a'))

/-- R201, R302, R37: a second claim of one read, wherever in the chain it comes. With STRICT it raises E3; without, it sets
S.dev_conflict and the first claim stays the value of the read. So where two devices claim a read, the request ends in E3
without a response, or completes with the first claim's byte. The flag is sticky: once set, it stays set over every step but
one that replaces the engine by a snapshot or a model switch. -/
def Obligations.SecondClaimIsFlaggedOrFatal : Prop :=
  (∀ (s : State) (p : Addr) (td : Nat) (pre post : List Node) (n : Node) (b0 b : Byte) (c : NodeCtx),
    readNode s.P s.frame p td n s.audio = .ok (some b) c →
    chainReadFrom p td pre (n :: post) none s = chainReadFrom p td (pre ++ [c.1]) post (some b) (putNode pre post s c) ∧
    (s.cfg.strict = true → chainReadFrom p td pre (n :: post) (some b0) s =
      .raised { code := .e3, info := .claim n.id } (putNode pre post s c)) ∧
    (s.cfg.strict = false → chainReadFrom p td pre (n :: post) (some b0) s =
      chainReadFrom p td (pre ++ [c.1]) post (some b0) ((putNode pre post s c).setDevConflict true))) ∧
  (∀ s t : State, s.devConflict = true → keepsEngine s → step s = .next t → t.devConflict = true) ∧
  ∀ (s : State) (p : Addr) (n1 n2 : Node) (b1 b2 : Byte) (c1 c2 : NodeCtx),
    s.ts < s.P.eof → readWrapper s.wrap p = none → ulaSel p = false → s.chain = [n1, n2] →
    readNode s.P s.frame p (dataInstant s.P s.ts (s.ioWait s.ts p)) n1 s.audio = .ok (some b1) c1 →
    readNode s.P s.frame p (dataInstant s.P s.ts (s.ioWait s.ts p)) n2 c1.2 = .ok (some b2) c2 →
    (s.cfg.strict = true →
      exec (.iord p) s = .next (takeFault { code := .e3, info := .claim n2.id }
        (((intCheck s).setChain [c1.1, c2.1]).setAudio c2.2))) ∧
    (s.cfg.strict = false →
      endsWith (.data b1 (s.ioWait s.ts p)) (s.ioWait s.ts p) 4
        ((((intCheck s).setChain [c1.1, c2.1]).setAudio c2.2).setDevConflict true) (exec (.iord p) s))

/-- R258, R299: `audio_edge` on the open channel (id, k): E1 for an instant that is negative, before the queue's last entry or after
the call's, with the bound it broke, the first in this order (log 38); else a level change is appended and a report of the
level already held is not. R256: the edges of a device operation are taken in list order, each at its frame-linear instant,
converted by the representation it comes in (log 35), with the frame difference signed (log 18). -/
def Obligations.AudioEdgesAreOrderedChanges : Prop :=
  (∀ (P : Params) (f : Tick),
    (∀ g line cycle, linInstant P f (.frame g line cycle) = (line * P.cpl + cycle : Nat) + (g - f).toInt * P.eof) ∧
    (∀ a, linInstant P f (.abs64 a) = (a - f * BitVec.ofNat 64 P.eof).toInt) ∧
    ∀ a, linInstant P f (.lin32 a) = (a.setWidth 64 - f * BitVec.ofNat 64 P.eof).toInt) ∧
  (∀ (P : Params) (f : Tick) (id : Addr) (tnow : Nat) (e : DevEdge) (rest : List DevEdge) (a : Audio),
    deviceEdges P f id tnow [] a = .ok () a ∧
    (∀ cs, chanEdge id e.chan (linInstant P f e.time) e.level tnow a.chans = .ok cs →
      deviceEdges P f id tnow (e :: rest) a = deviceEdges P f id tnow rest { a with chans := cs }) ∧
    ∀ r, chanEdge id e.chan (linInstant P f e.time) e.level tnow a.chans = .error r →
      deviceEdges P f id tnow (e :: rest) a = .raised r a) ∧
  ∀ (id : Addr) (k : Nat) (t : Int) (level tnow : Nat) (pre post : List DevChannel) (c : DevChannel),
    c.id = id → c.k = k → c.closing = false →
    (∀ d ∈ pre, ¬(d.id = id ∧ d.k = k ∧ d.closing = false)) →
    (t < 0 → chanEdge id k t level tnow (pre ++ c :: post) =
      .error { code := .e1, info := .edge (.dev id k) t (.notBefore 0) }) ∧
    (∀ e, 0 ≤ t → c.ch.edges.getLast? = some e → t < (e.t : Int) → chanEdge id k t level tnow (pre ++ c :: post) =
      .error { code := .e1, info := .edge (.dev id k) t (.notBefore e.t) }) ∧
    (0 ≤ t → (∀ e, c.ch.edges.getLast? = some e → (e.t : Int) ≤ t) → (tnow : Int) < t →
      chanEdge id k t level tnow (pre ++ c :: post) = .error { code := .e1, info := .edge (.dev id k) t (.notAfter tnow) }) ∧
    (0 ≤ t → (∀ e, c.ch.edges.getLast? = some e → (e.t : Int) ≤ t) → t ≤ (tnow : Int) →
      (level = c.ch.level → chanEdge id k t level tnow (pre ++ c :: post) = .ok (pre ++ c :: post)) ∧
      (level ≠ c.ch.level → chanEdge id k t level tnow (pre ++ c :: post) =
        .ok (pre ++ { c with ch := { c.ch with edges := c.ch.edges ++ [{ t := t.toNat, level := level }], level := level } }
          :: post)))

/-! ## The interrupt and the frame -/

/-- R218: the interrupt check, and that every bus request, in every state, starts with it: what a request does depends on the
state after the check alone. R13, R32: INT_TS is that of the engine's scheme, and the interrupt line is high for INT_PULSE
cycles from it. -/
def Obligations.InterruptCheckAtRequestStart : Prop :=
  (∀ (c : EngineCfg) (v : Nat), c.params.intTs? c.scheme = some v →
    intTs c = v ∧ ∀ t, intLine c t = true ↔ v ≤ t ∧ t < v + c.params.intPulse) ∧
  (zx48.intTs? .early = some 1 ∧ zx48.intTs? .late = some 0 ∧ zx128.intTs? .late = some 0 ∧ zx128.intTs? .early = none ∧
    zx48.intPulse = 1 ∧ zx128.intPulse = 1) ∧
  ∀ s : State,
    (s.mode = .running → s.intDone = false → intTs s.cfg ≤ s.ts →
      intCheck s = { s with atBoundary := false, intDone := true, out := s.out ++ [.interrupt] }) ∧
    (¬(s.mode = .running ∧ s.intDone = false ∧ intTs s.cfg ≤ s.ts) → intCheck s = { s with atBoundary := false }) ∧
    ∀ i, busRequest i = true →
      ∃ o : State → Host.Outcome State Fault Refusal, ∀ u : State, exec i u = o (intCheck u)

/-- R218, R222, R225: a step signals at most one interrupt, and none where it was already signalled in the frame. Within the frame a
bus request that signals leaves the interrupt mark set, and one that does not leaves it as it was; one that ends the frame has
then signalled where the mark was not set, and clears it; queries, host commands and custom commands neither signal nor, but
for a snapshot or a model switch, touch the mark. So a run of steps within one frame signals at most once, never where the
mark was set before, and with the step that ends the frame exactly once. -/
def Obligations.OneInterruptPerFrame : Prop :=
  (∀ s t : State, s.inbox ≠ [] → step s = .next t →
    interrupts t ≤ 1 ∧ (s.intDone = true → interrupts t = 0)) ∧
  (∀ s t : State, frameEnd s = .ok () t → interrupts t = interrupts s + (if s.intDone then 0 else 1)) ∧
  (∀ (i : Instr) (s t : State), busRequest i = true → requestEnd i s < s.P.eof → exec i s = .next t →
    t.intDone = s.intDone ∧ interrupts t = interrupts s ∨
      s.intDone = false ∧ t.intDone = true ∧ interrupts t = interrupts s + 1) ∧
  (∀ (i : Instr) (s t : State), busRequest i = true → s.ts < s.P.eof → s.P.eof ≤ requestEnd i s → noReplacement s →
    exec i s = .next t → t.mode ≠ .faulted →
      t.frame = s.frame + 1 ∧ t.intDone = false ∧ interrupts t = interrupts s + (if s.intDone then 0 else 1)) ∧
  (∀ (i : Instr) (s t : State), busRequest i = false → exec i s = .next t →
    interrupts t = interrupts s ∧ (i ≠ .hsnapload → i ≠ .hswitch → t.intDone = s.intDone)) ∧
  (∀ (k : CustomKind) (w : CmdWord) (s t : State), customCommand k w s = .next t →
    interrupts t = interrupts s ∧ t.intDone = s.intDone) ∧
  ∀ (s t : State) (k : Nat), FrameRun s k t → k ≤ 1 ∧ (s.intDone = true → k = 0) ∧
    ∀ u, s.intDone = false → t.inbox ≠ [] → keepsEngine t → step t = .next u → u.frame = t.frame + 1 → k + interrupts u = 1

/-- R221, R222: the frame end. It finalises the interrupt; then the device calls; then it hands out both buffers, rolls
cache, border and audio over, and wraps: the cycles past EOF are kept, the frame counter rises by 1, the interrupt mark is
cleared, the mode is Running, a boundary is reached; then every deferred mutation is applied, in order. Without devices and
deferred mutations it completes. An application is the effect of its command at a boundary, also for one that was deferred.
The model's choices in it: the value of each applied mutation is put among the outputs (log 13), and an entry leaves
S.deferred before it is applied, so that a fault leaves the entries after it (log 39). -/
def Obligations.FrameEndRunsItsSteps : Prop :=
  (∀ s : State, finaliseInterrupt s = { s with
    mode := .frameComplete, intDone := true, out := s.out ++ (if s.intDone then [] else [.interrupt]) }) ∧
  (∀ s u : State, boundaryCalls (finaliseInterrupt s) = .ok () u →
    frameEnd s = applyAll u.deferred { u with
      ts := u.ts - u.P.eof, frame := u.frame + 1, intDone := false, mode := .running, atBoundary := true
      border0 := u.borderAt ((u.P.eof : Int) - 1)
      borderEv := (u.borderEv.filter (fun ev => decide (u.P.eof ≤ ev.t))).map (fun ev => { ev with t := ev.t - u.P.eof })
      audio := u.audio.roll u.P u.frame.toNat
      vcache := (renderVideo u).vcache.map clearLine
      out := u.out ++ [.frame (renderVideo u).frameBuffer
        (audioRender u.P u.frame.toNat (u.args.gainVal u.frame) (u.args.synthVal u.frame) u.audio)] }) ∧
  (∀ s : State, applyAll [] s = .ok () { s with deferred := [] }) ∧
  (∀ (m : Mutation) (rest : List Mutation) (s u : State) (v : Value),
    applyMutation m { s with deferred := rest } = .ok v u →
    applyAll (m :: rest) s = applyAll rest { u with out := u.out ++ [.applied v] }) ∧
  (∀ (m : Mutation) (rest : List Mutation) (s u : State) (f : FaultRec),
    applyMutation m { s with deferred := rest } = .raised f u → applyAll (m :: rest) s = .raised f u) ∧
  (∀ s : State,
    (∀ h pos impl, applyMutation (.attach h pos impl) s =
      let k := if pos = 0xFF#8 ∨ s.chain.length ≤ pos.toNat then s.chain.length else pos.toNat
      .ok .unit { s with
        chain := s.chain.take k ++
          { id := h, dev := impl.init, clock := impl.clock, last := absTick s.P s.frame s.ts, nch := impl.nch, ops := impl.ops }
            :: s.chain.drop k
        audio := { s.audio with
          chans := s.audio.chans ++ (List.range impl.nch).map (fun j =>
            { id := h, k := j, closing := false, ch := { edges := [], level := 0, base := 0, pend := [] } }) } }) ∧
    (∀ h, s.deferred = [] → s.atBoundary = true → h ∈ handles s.chain →
      exec (.hdetach h) s = endCommand ((applyMutation (.detach h) s).bind fun v u => .ok () (respond (.done v) u))) ∧
    (∀ v, applyMutation (.page v) s = .ok .unit (pagingWrite v (catchUp s.ts s))) ∧
    (∀ img, applyMutation (.load img) s = .ok .unit { s with toEngine := { img with atBoundary := true } }) ∧
    (∀ e n rest, s.wrap = n :: rest → applyMutation (.wrap e) s = .ok .unit (s.setWrap ({ n with enabled := e } :: rest))) ∧
    (∀ args, applyMutation (.switch args) s = .ok (.nodes s.chain) { s with toEngine := construct args }) ∧
    ∀ w, applyMutation (.custom w) s = .ok (.nat (runCustom w s.wrap).2) (s.setWrap (runCustom w s.wrap).1)) ∧
  ∀ s : State, s.chain = [] → s.deferred = [] → ∃ t, frameEnd s = .ok () t ∧ t.deferred = []

/-- R145, R216, R221 (90_conflicts.md C2): over a completed bus request, with nothing deferred that could replace the engine, the
absolute tick count advances by exactly `W + N`, the frame end included. -/
def Obligations.AbsoluteClockCountsEveryCycle : Prop :=
  ∀ (i : Instr) (s t : State), busRequest i = true → noReplacement s → exec i s = .next t → t.mode ≠ .faulted →
    absTick t.P t.frame t.ts = absTick s.P s.frame s.ts + BitVec.ofNat 64 (requestWait i s + requestPhases i)

/-! ## Contention and timestamps -/

/-- R151, R153, R166: the contended cycles are the first CONT_CYCLES of each of CONT_LINES lines from CONT_START, each line's
run starting with the first entry of the pattern; every other cycle waits 0; for every line and cycle the wait is defined
and at most the greatest entry of the pattern, 6 in both reference configurations. R152: a request waits by the wrapping form,
the contention at the instant modulo EOF. -/
def Obligations.ContentionFollowsThePattern : Prop :=
  (∀ (P : Params) (y h : Nat), y < P.contLines → h < P.contCycles → P.contCycles ≤ P.cpl →
    contention P (P.contStart + y * P.cpl + h) = P.contPattern.toList.getD (h % 8) 0) ∧
  (∀ (P : Params) (t : Nat), (∀ y h, y < P.contLines → h < P.contCycles → t ≠ P.contStart + y * P.cpl + h) →
    contention P t = 0) ∧
  (∀ (P : Params) (t : Nat), contention P t ≤ P.maxWait) ∧
  (∀ (P : Params) (t : Nat), contentionWrap P t = contention P (t % P.eof)) ∧
  (∀ (P : Params) (line cycle : Nat), line < P.lpf → cycle < P.cpl → contention P (lin P line cycle) ≤ P.maxWait) ∧
  (∀ (P : Params) (k : Nat), k < 8 → P.contPattern.toList.getD k 0 ≤ P.maxWait) ∧
  ∀ P ∈ [zx48, zx128], P.contPattern = #v[6, 5, 4, 3, 2, 1, 0, 0] ∧ P.contLines = 192 ∧ P.contCycles = 128 ∧ P.maxWait = 6

/-- R155, R156: the four rows of the I/O wait, in every engine and for every port and start, and its range; an I/O request
lasts the wait and four cycles. -/
def Obligations.IoWaitHasFourRows : Prop :=
  (∀ (e : Engine) (t0 : Nat) (p : Addr),
    let C := contentionWrap e.cfg.params
    let t1 := t0 + C t0 + 1
    let t2 := t1 + C t1 + 1
    let t3 := t2 + C t2 + 1
    (e.contendedAddr p = false → p.getLsbD 0 = true → e.ioWait t0 p = 0) ∧
    (e.contendedAddr p = false → p.getLsbD 0 = false → e.ioWait t0 p = C (t0 + 1)) ∧
    (e.contendedAddr p = true → p.getLsbD 0 = false → e.ioWait t0 p = C t0 + C (t0 + C t0 + 1)) ∧
    (e.contendedAddr p = true → p.getLsbD 0 = true → e.ioWait t0 p = C t0 + C t1 + C t2 + C t3) ∧
    e.ioWait t0 p ≤ 4 * e.cfg.params.maxWait) ∧
  ∀ (s t : State) (p : Addr) (d : Byte), s.ts < s.P.eof → s.ts + s.ioWait s.ts p + 4 < s.P.eof → t.mode ≠ .faulted →
    exec (.iord p) s = .next t ∨ exec (.iowr p d) s = .next t → t.ts = s.ts + s.ioWait s.ts p + 4

/-- R174: an internal cycle of `j + k` phases waits as one of `j` and then one of `k`; and within a frame the two leave the
same S.ts. -/
def Obligations.InternalCyclesSplit : Prop :=
  (∀ (e : Engine) (a : Addr) (j k ts : Nat),
    e.internalWait a (j + k) ts = e.internalWait a j ts + e.internalWait a k (ts + e.internalWait a j ts + j)) ∧
  ∀ (s t u v : State) (a : Addr) (j k : BitVec 8), j.toNat + k.toNat ≤ 15 → s.ts < s.P.eof →
    requestEnd (.minternal a (j + k)) s < s.P.eof →
    exec (.minternal a (j + k)) s = .next t → exec (.minternal a j) s = .next u → exec (.minternal a k) u = .next v →
    v.ts = t.ts

/-- R141, R142: the two forms of a timestamp are in bijection on the frame, and the lexicographic order of one is the order of
the other. -/
def Obligations.TimestampFormsAgree : Prop :=
  ∀ P : Params,
    (∀ line cycle, cycle < P.cpl → fts P (lin P line cycle) = (line, cycle)) ∧
    (∀ t, lin P (fts P t).1 (fts P t).2 = t) ∧
    (P.eof = P.cpl * P.lpf →
      (∀ line cycle, line < P.lpf → cycle < P.cpl → lin P line cycle < P.eof) ∧
      (∀ t, t < P.eof → (fts P t).1 < P.lpf ∧ (fts P t).2 < P.cpl)) ∧
    ∀ l1 c1 l2 c2, c1 < P.cpl → c2 < P.cpl →
      (lin P l1 c1 < lin P l2 c2 ↔ l1 < l2 ∨ l1 = l2 ∧ c1 < c2)

/-- R146: B is later than A when the forward distance from A to B is below 2^63 (and not 0); for ticks less than 2^63 apart
this is the order of the naturals. -/
def Obligations.TickOrderWrapsAround : Prop :=
  (∀ A B : Tick, before A B = true ↔ 0 < (B - A).toNat ∧ (B - A).toNat < 2 ^ 63) ∧
  ∀ a b : Nat, a < b + 2 ^ 63 → b < a + 2 ^ 63 → (before (BitVec.ofNat 64 a) (BitVec.ofNat 64 b) = true ↔ a < b)

/-! ## Memory requests -/

/-- R171, R172, R175: a fetch or read cycle. It checks for the interrupt, waits as of its first phase, responds with the byte at
the address and the wait, and ends after `W + N` cycles. R165: the wait is the contention at the request's start where the
address is contended, else 0. -/
def Obligations.ReadCyclesAnswerTheByte : Prop :=
  (∀ (e : Engine) (a : Addr) (ts : Nat),
    (e.contendedAddr a = true → e.memWait a ts = contention e.cfg.params (ts % e.cfg.params.eof)) ∧
    (e.contendedAddr a = false → e.memWait a ts = 0)) ∧
  ∀ (s : State) (a : Addr) (n : BitVec 8), s.ts < s.P.eof →
    endsWith (.data (s.memRead a) (s.memWait a s.ts)) (s.memWait a s.ts) n.toNat (intCheck s) (exec (.mfetch a n) s) ∧
    endsWith (.data (s.memRead a) (s.memWait a s.ts)) (s.memWait a s.ts) n.toNat (intCheck s) (exec (.mread a n) s)

/-- R173: a write cycle: a page that is not writable keeps its bytes, a store into the screen page first runs the fetches
up to its instant, and the byte then reads back; the wait is that of the first phase (R165). -/
def Obligations.WriteCyclesStoreTheByte : Prop :=
  ∀ (s : State) (a : Addr) (d : Byte) (n : BitVec 8), s.ts < s.P.eof →
    s.memWait a s.ts = (if s.contendedAddr a = true then contention s.P (s.ts % s.P.eof) else 0) ∧
    ∃ u : State,
      endsWith (.wait (s.memWait a s.ts)) (s.memWait a s.ts) n.toNat u (exec (.mwrite a d n) s) ∧
      (writablePage s.P (s.pageOf a) = false → u = intCheck s) ∧
      (writablePage s.P (s.pageOf a) = true → s.pageOf a ≠ s.screenPage →
        u = (intCheck s).setPages (s.pages.write (s.addrKey a) d)) ∧
      (writablePage s.P (s.pageOf a) = true → s.pageOf a = s.screenPage →
        u = (catchUp (s.ts + s.memWait a s.ts) (intCheck s)).setPages (s.pages.write (s.addrKey a) d)) ∧
      (writablePage s.P (s.pageOf a) = true → s.pages.wf = true → u.memRead a = d)

/-- R174: an internal cycle touches no memory; its wait is that of its phases, each contended at its own instant. -/
def Obligations.InternalCyclesWaitPerPhase : Prop :=
  (∀ (s : State) (a : Addr) (n : BitVec 8), s.ts < s.P.eof →
    endsWith (.wait (s.internalWait a n.toNat s.ts)) (s.internalWait a n.toNat s.ts) n.toNat (intCheck s)
      (exec (.minternal a n) s)) ∧
  ∀ (e : Engine) (a : Addr) (n ts : Nat),
    (e.contendedAddr a = false → e.internalWait a n ts = 0) ∧
    (e.contendedAddr a = true → e.internalWait a 0 ts = 0 ∧
      e.internalWait a (n + 1) ts =
        contentionWrap e.cfg.params ts + e.internalWait a n (ts + contentionWrap e.cfg.params ts + 1))

/-- The frame of MFETCH, MREAD, MWRITE and MINTERNAL (R171 to R174). Within the frame only the clock, the interrupt mark, the
boundary mark and the outputs change, and for MWRITE one byte of the page store and the video cache; where the request
ends the frame and nothing is deferred, also what the frame end writes. Every byte other than the one stored reads as
before. R84 to R90: where an address goes. It shows its offset in the page that the map gives its window, or that the outermost
enabled wrapper with an override gives it (log 8); the maps and tags of both reference records under the paging
register, with the model's page numbers (log 14). -/
def Obligations.MemoryRequestFrame : Prop :=
  (∀ (e : Engine) (a : Addr), e.memRead a = e.pages.read (e.addrKey a) ∧
    e.addrKey a = e.pageOf a * e.cfg.params.windowSize + a.toNat % e.cfg.params.windowSize ∧
    e.pageOf a = e.page (a.toNat / e.cfg.params.windowSize) ∧
    e.contendedAddr a = contendedPage e.cfg.params (e.pageOf a)) ∧
  (∀ (e : Engine) (w id : Nat) (pre post : List WrapNode) (n : WrapNode), e.wrap = pre ++ n :: post → n.enabled = true →
    (∀ m ∈ pre, m.enabled = false) → overridePage n.impl n.st (e.paging.getD 0) w = some id → e.cfg.params.pageOk id = true →
    e.page w = id) ∧
  (∀ (e : Engine) (a : Addr), (∀ n ∈ e.wrap, n.enabled = false) → e.cfg.params = zx48 →
    e.pageOf a = a.toNat / 16384 ∧ e.addrKey a = a.toNat ∧ (e.contendedAddr a = true ↔ 0x4000 ≤ a.toNat ∧ a.toNat < 0x8000) ∧
    (writablePage zx48 (e.pageOf a) = true ↔ 0x4000 ≤ a.toNat) ∧ e.screenPage = e.pageOf 0x4000) ∧
  (∀ (e : Engine) (a : Addr) (q : Byte), (∀ n ∈ e.wrap, n.enabled = false) → e.cfg.params = zx128 → e.paging = some q →
    (a.toNat < 0x4000 → e.pageOf a = (if q.getLsbD 4 then 1 else 0) ∧ writablePage zx128 (e.pageOf a) = false ∧
      e.contendedAddr a = false) ∧
    (0x4000 ≤ a.toNat → a.toNat < 0x8000 → e.pageOf a = bank 5) ∧ (0x8000 ≤ a.toNat → a.toNat < 0xC000 → e.pageOf a = bank 2) ∧
    (0xC000 ≤ a.toNat → e.pageOf a = bank (q.toNat % 8)) ∧
    e.screenPage = (if q.getLsbD 3 then bank 7 else bank 5)) ∧
  (∀ k, k < 8 → writablePage zx128 (bank k) = true ∧ contendedPage zx128 (bank k) = decide (k % 2 = 1)) ∧
  ∀ (i : Instr) (s t : State), (∃ a n, i = .mfetch a n ∨ i = .mread a n ∨ i = .minternal a n ∨ ∃ d, i = .mwrite a d n) →
    exec i s = .next t →
    (s.ts < s.P.eof → requestEnd i s < s.P.eof →
      t = { s with
        ts := requestEnd i s, intDone := t.intDone, atBoundary := false, out := t.out, pages := t.pages, vcache := t.vcache } ∧
      ((∀ a d n, i ≠ .mwrite a d n) → t.vcache = s.vcache)) ∧
    (s.deferred = [] →
      t = { s with
        ts := t.ts, mode := t.mode, frame := t.frame, intDone := t.intDone, atBoundary := t.atBoundary, fault := t.fault
        border0 := t.border0, borderEv := t.borderEv, vcache := t.vcache, audio := t.audio, chain := t.chain
        pages := t.pages, out := t.out } ∧
      wiring t.chain = wiring s.chain) ∧
    ((s.ts < s.P.eof ∧ requestEnd i s < s.P.eof ∨ s.deferred = []) →
      ((∀ a d n, i ≠ .mwrite a d n) → t.pages = s.pages) ∧
      (s.pages.wf = true →
        ∀ a d n, i = .mwrite a d n → ∀ key, key ≠ s.addrKey a → t.pages.read key = s.pages.read key))

/-- R89, R97: a byte of the page store changes only by an MWRITE to its address in a writable page, or by a snapshot or
a model switch that replaces the engine. -/
def Obligations.OnlyWritesChangeMemory : Prop :=
  ∀ (s t : State) (x : Issue) (rest : List Issue) (key : Nat), s.inbox = x :: rest → StoreInv s → noReplacement s →
    decode x.word ≠ .ok .hsnapload → decode x.word ≠ .ok .hswitch → step s = .next t →
    t.pages.read key ≠ s.pages.read key →
    ∃ a d n, decode x.word = .ok (.mwrite a d n) ∧ s.addrKey a = key ∧ writablePage s.P (s.pageOf a) = true ∧
      t.pages.read key = d

/-! ## I/O requests, ports and devices -/

/-- R186, R195, R196, R285, R291: an I/O read is answered by the outermost enabled wrapper that selects the port, by the chipset port, by the
first device in chain order that claims it, or, where none does, by the floating bus; a fault of a device ends it without a
response. -/
def Obligations.PortReadsHaveOneAnswerer : Prop :=
  ∀ (s : State) (p : Addr), s.ts < s.P.eof →
    let w := s.ioWait s.ts p
    let td := s.ts + w + s.P.ioDataOffset
    (∀ pre n post, s.wrap = pre ++ n :: post → (∀ m ∈ pre, (m.enabled && wrapSelR m.impl p) = false) →
      n.enabled = true → wrapSelR n.impl p = true → readWrapper s.wrap p = some n) ∧
    ((∀ n ∈ s.wrap, (n.enabled && wrapSelR n.impl p) = false) → readWrapper s.wrap p = none) ∧
    (∀ n, readWrapper s.wrap p = some n →
      endsWith (.data (wrapRead n.impl n.st p td) w) w 4 (intCheck s) (exec (.iord p) s)) ∧
    (readWrapper s.wrap p = none → p.getLsbD 0 = false →
      ∃ (k : BitVec 5) (e : BitVec 1),
        (k, e) = hostAnswer s.args.input (p.extractLsb' 8 8)
          (absTick s.P (normInstant s.P s.frame td).1 (normInstant s.P s.frame td).2) ∧
        endsWith (.data (1#1 ++ e ++ 1#1 ++ k) w) w 4 (intCheck s) (exec (.iord p) s)) ∧
    (readWrapper s.wrap p = none → p.getLsbD 0 = true → s.chain = [] →
      endsWith (.data (s.floatingBus td) w) w 4 (intCheck s) (exec (.iord p) s)) ∧
    (∀ r u, readWrapper s.wrap p = none → p.getLsbD 0 = true → chainRead p td (intCheck s) = .ok r u →
      r = s.chain.findSome? (claimOf s.P s.frame p td) ∧
      endsWith (.data ((s.chain.findSome? (claimOf s.P s.frame p td)).getD (s.floatingBus td)) w) w 4 u
        (exec (.iord p) s)) ∧
    ∀ f u, readWrapper s.wrap p = none → p.getLsbD 0 = true → chainRead p td (intCheck s) = .raised f u →
      exec (.iord p) s = .next (takeFault f u)

/-- R187, R195, R285, R291: an I/O write acts on the chipset port, the paging register after the fetches up to its instant, or
in their place the outermost enabled wrapper that selects the port, of which its write function changes the state alone (log 36);
the whole chain is then offered the write. -/
def Obligations.PortWritesReachDecodersAndChain : Prop :=
  ∀ (s : State) (p : Addr) (d : Byte), s.ts < s.P.eof →
    let w := s.ioWait s.ts p
    let te := s.ts + w + s.P.ioDataOffset
    let s1 := intCheck s
    ∃ u : State,
      ((∀ n ∈ s.wrap, (n.enabled && wrapSelW n.impl p) = false) → wrapTakesWrite s.wrap p = false) ∧
      (pagSel s.P p = true ↔ s.P.paging ≠ none ∧ p.getLsbD 15 = false ∧ p.getLsbD 1 = false) ∧
      (wrapTakesWrite s.wrap p = false → p.getLsbD 0 = true → pagSel s.P p = false → u = s1) ∧
      (wrapTakesWrite s.wrap p = false → p.getLsbD 0 = false → pagSel s.P p = false → u = ulaWrite d te s1) ∧
      (wrapTakesWrite s.wrap p = false → p.getLsbD 0 = true → pagSel s.P p = true → u = pagingWrite d (catchUp te s1)) ∧
      (wrapTakesWrite s.wrap p = false → p.getLsbD 0 = false → pagSel s.P p = true →
        u = pagingWrite d (catchUp te (ulaWrite d te s1))) ∧
      (∀ pre n post, s.wrap = pre ++ n :: post → (∀ m ∈ pre, (m.enabled && wrapSelW m.impl p) = false) →
        n.enabled = true → wrapSelW n.impl p = true →
        u = s1.setWrap (pre ++ { n with st := wrapWrite n.impl n.st p d te } :: post)) ∧
      (s.chain = [] → endsWith (.wait w) w 4 u (exec (.iowr p d) s)) ∧
      (∀ v, chainWrite p d te u = .ok () v → endsWith (.wait w) w 4 v (exec (.iowr p d) s)) ∧
      ∀ f v, chainWrite p d te u = .raised f v → exec (.iowr p d) s = .next (takeFault f v)

/-- R191, R193: the chipset port write records changes of colour and of the EAR and MIC levels and latches the byte; the
paging write keeps six bits, and nothing once the lock bit is set or where there is no register. -/
def Obligations.ChipsetRegistersLatchWrites : Prop :=
  (∀ (v : Byte) (te : Nat) (s : State),
    ulaWrite v te s = { s with
      ula := v
      borderEv := if v.extractLsb' 0 3 = s.curBorder then s.borderEv
        else s.borderEv ++ [{ t := te, colour := v.extractLsb' 0 3 }]
      audio := { s.audio with
        ear := if (v.getLsbD 4).toNat = s.audio.ear.level then s.audio.ear
          else { s.audio.ear with
            edges := s.audio.ear.edges ++ [{ t := te, level := (v.getLsbD 4).toNat }], level := (v.getLsbD 4).toNat }
        mic := if (v.getLsbD 3).toNat = s.audio.mic.level then s.audio.mic
          else { s.audio.mic with
            edges := s.audio.mic.edges ++ [{ t := te, level := (v.getLsbD 3).toNat }], level := (v.getLsbD 3).toNat } } }) ∧
  ∀ (v : Byte) (s : State),
    (∀ q, s.paging = some q → q.getLsbD 5 = false → pagingWrite v s = { s with paging := some (v &&& 0x3F) }) ∧
    (∀ q, s.paging = some q → q.getLsbD 5 = true → pagingWrite v s = s) ∧
    (s.paging = none → pagingWrite v s = s)

/-- R34, R193, R275: once the lock bit of the paging register is set, no step changes the register but a snapshot or a model
switch that replaces the engine. -/
def Obligations.LockedPagingStays : Prop :=
  ∀ (s t : State) (q : Byte), s.paging = some q → q.getLsbD 5 = true → keepsEngine s → step s = .next t →
    t.paging = some q

/-- R197 to R200, R222 step 3, R223: what the calls on the chain may change: the device states, the node clocks and the audio state,
and for a read the conflict flag; the nodes stay, in order; after a completed access every node, whether or not one before it
claimed, is at the access instant. One access of a node is: its clock is brought to the instant, in its own representation,
and then its implementation is asked once, with the state that left and that instant (`answer_read`, `answer_write`,
`on_frame_boundary`). A completed walk makes one such access of every node of the chain, a boundary walk one
`on_frame_boundary` of each; and a write offers each node the value that the node before it forwards. A read walk goes on past a
node that claims nothing with the claim it has (past one that claims: O14); a node that raises ends any walk. -/
def Obligations.ChainCallsKeepTheChain : Prop :=
  (∀ (p : Addr) (td : Nat) (s : State),
    (chainRead p td s).state = { s with
      chain := (chainRead p td s).state.chain, audio := (chainRead p td s).state.audio
      devConflict := (chainRead p td s).state.devConflict } ∧
    wiring (chainRead p td s).state.chain = wiring s.chain ∧
    ∀ r u, chainRead p td s = .ok r u →
      ∀ n ∈ u.chain, n.last = absTick s.P (normInstant s.P s.frame td).1 (normInstant s.P s.frame td).2) ∧
  (∀ (p : Addr) (v : Byte) (te : Nat) (s : State),
    (chainWrite p v te s).state = { s with
      chain := (chainWrite p v te s).state.chain, audio := (chainWrite p v te s).state.audio } ∧
    wiring (chainWrite p v te s).state.chain = wiring s.chain ∧
    ∀ u, chainWrite p v te s = .ok () u →
      ∀ n ∈ u.chain, n.last = absTick s.P (normInstant s.P s.frame te).1 (normInstant s.P s.frame te).2) ∧
  (∀ s : State,
    (boundaryCalls s).state = { s with
      chain := (boundaryCalls s).state.chain, audio := (boundaryCalls s).state.audio } ∧
    wiring (boundaryCalls s).state.chain = wiring s.chain ∧
    ∀ u, boundaryCalls s = .ok () u → 0 < s.P.eof → ∀ n ∈ u.chain, n.last = absTick s.P (s.frame + 1) 0) ∧
  (∀ (P : Params) (f : Tick) (t : Nat) (n : Node) (a : Audio) (g : Tick) (u : Nat), normInstant P f t = (g, u) →
    (∀ p r c, readNode P f p t n a = .ok r c → ∃ x a', convInstant P n.clock g u = some x ∧
      Accessed P f t n a x a' (absTick P g u) (answerRead n.ops (advanceTo n.ops n.dev x).dev p x) r c) ∧
    (∀ p v r c, writeNode P f p t v n a = .ok r c → ∃ x a', convInstant P n.clock g u = some x ∧
      Accessed P f t n a x a' (absTick P g u) (answerWrite n.ops (advanceTo n.ops n.dev x).dev p v x) r c)) ∧
  (∀ (P : Params) (f : Tick) (n : Node) (a : Audio) (c : NodeCtx) (g : Tick) (u : Nat), normInstant P f P.eof = (g, u) →
    boundaryNode P f n a = .ok () c → ∃ x a', convInstant P n.clock g u = some x ∧
      Accessed P f P.eof n a x a' (absTick P g u) (onFrameBoundary n.ops (advanceTo n.ops n.dev x).dev x) () c) ∧
  (∀ (p : Addr) (td : Nat) (s u : State) (r : Option Byte), chainRead p td s = .ok r u →
    ∀ (i : Nat) (n : Node), s.chain[i]? = some n → ∃ a r' c, readNode s.P s.frame p td n a = .ok r' c ∧ u.chain[i]? = some c.1) ∧
  (∀ (s u : State), boundaryCalls s = .ok () u →
    ∀ (i : Nat) (n : Node), s.chain[i]? = some n → ∃ a c, boundaryNode s.P s.frame n a = .ok () c ∧ u.chain[i]? = some c.1) ∧
  (∀ (p : Addr) (v : Byte) (te : Nat) (s u : State), chainWrite p v te s = .ok () u →
    ∃ vs : List Byte, vs[0]? = some v ∧
      ∀ (i : Nat) (n : Node), s.chain[i]? = some n → ∃ w w' a c, vs[i]? = some w ∧ writeNode s.P s.frame p te w n a = .ok w' c ∧
        vs[i + 1]? = some w' ∧ u.chain[i]? = some c.1) ∧
  ∀ (p : Addr) (v : Byte) (te : Nat) (pre post : List Node) (n : Node) (s : State),
    (∀ v' c, writeNode s.P s.frame p te v n s.audio = .ok v' c →
      chainWriteFrom p te pre (n :: post) v s = chainWriteFrom p te (pre ++ [c.1]) post v' (putNode pre post s c)) ∧
    (∀ f c, writeNode s.P s.frame p te v n s.audio = .raised f c →
      chainWriteFrom p te pre (n :: post) v s = .raised f (putNode pre post s c)) ∧
    (∀ r c, readNode s.P s.frame p te n s.audio = .ok none c →
      chainReadFrom p te pre (n :: post) r s = chainReadFrom p te (pre ++ [c.1]) post r (putNode pre post s c)) ∧
    (∀ r f c, readNode s.P s.frame p te n s.audio = .raised f c →
      chainReadFrom p te pre (n :: post) r s = .raised f (putNode pre post s c)) ∧
    (∀ c, boundaryNode s.P s.frame n s.audio = .ok () c →
      boundaryFrom pre (n :: post) s = boundaryFrom (pre ++ [c.1]) post (putNode pre post s c)) ∧
    (∀ f c, boundaryNode s.P s.frame n s.audio = .raised f c →
      boundaryFrom pre (n :: post) s = .raised f (putNode pre post s c))

/-- The frame of IORD and IOWR (R186, R187): no byte of memory changes. Within the frame an I/O read changes the clock, the
interrupt mark, the boundary mark, the outputs, the devices with their audio channels and the conflict flag (and on a
device's fault the mode and the fault latch); an I/O write also the port latch, the paging register, the border
events, the EAR and MIC queues, the video cache and the wrapper state, but not the conflict flag; where the request ends
the frame and nothing is deferred, also what the frame end writes. -/
def Obligations.IoRequestFrame : Prop :=
  ∀ (s t : State) (p : Addr) (d : Byte),
    (exec (.iord p) s = .next t →
      (s.ts < s.P.eof → requestEnd (.iord p) s < s.P.eof →
        t = { s with
          ts := t.ts, intDone := t.intDone, atBoundary := false, out := t.out, chain := t.chain, devConflict := t.devConflict
          audio := { s.audio with chans := t.audio.chans }, mode := t.mode, fault := t.fault } ∧
        wiring t.chain = wiring s.chain) ∧
      (s.deferred = [] →
        t = { s with
          ts := t.ts, mode := t.mode, frame := t.frame, intDone := t.intDone, atBoundary := t.atBoundary, fault := t.fault
          border0 := t.border0, borderEv := t.borderEv, vcache := t.vcache, audio := t.audio, chain := t.chain
          devConflict := t.devConflict, out := t.out } ∧
        wiring t.chain = wiring s.chain)) ∧
    (exec (.iowr p d) s = .next t →
      (s.ts < s.P.eof → requestEnd (.iowr p d) s < s.P.eof →
        t = { s with
          ts := t.ts, intDone := t.intDone, atBoundary := false, out := t.out, chain := t.chain, ula := t.ula
          paging := t.paging, borderEv := t.borderEv, audio := t.audio, vcache := t.vcache, wrap := t.wrap
          mode := t.mode, fault := t.fault } ∧
        wiring t.chain = wiring s.chain) ∧
      (s.deferred = [] →
        t = { s with
          ts := t.ts, mode := t.mode, frame := t.frame, intDone := t.intDone, atBoundary := t.atBoundary, fault := t.fault
          border0 := t.border0, borderEv := t.borderEv, vcache := t.vcache, audio := t.audio, chain := t.chain
          ula := t.ula, paging := t.paging, wrap := t.wrap, out := t.out } ∧
        wiring t.chain = wiring s.chain))

/-- R202, R204: at the fetch instants of R237 the floating bus is the byte the display fetch reads, and at every other instant
of the frame the idle value. -/
def Obligations.FloatingBusIsTheFetchedByte : Prop :=
  ∀ e : Engine, e.cfg.params.wellFormed = true →
    (∀ y x, y < e.cfg.params.contLines → x < e.cfg.params.contCycles / 4 →
      fetchBmp e.cfg.params y x < e.cfg.params.eof ∧ fetchAtt e.cfg.params y x < e.cfg.params.eof ∧
      e.floatingBus (fetchBmp e.cfg.params y x) = e.screenRead (bmpOff y x) ∧
      e.floatingBus (fetchAtt e.cfg.params y x) = e.screenRead (attOff y x)) ∧
    ∀ t, t < e.cfg.params.eof →
      (∀ y x, y < e.cfg.params.contLines → x < e.cfg.params.contCycles / 4 →
        t ≠ fetchBmp e.cfg.params y x ∧ t ≠ fetchAtt e.cfg.params y x) →
      e.floatingBus t = e.cfg.params.idleBus

/-! ## Queries -/

/-- R160 to R164, R203: every query answers its value and changes nothing where its timestamp lies in the frame, and raises E1
where it does not; a line or cycle out of range is E1 even where the linear value is not. The fault names the operation, the
instant and the bounds (R299); that QTSLIN records both of its bounds is the model's reading (log 38). -/
def Obligations.QueriesAnswerOrFault : Prop :=
  ∀ (s : State) (t : BitVec 24) (line cycle : BitVec 12) (p : Addr),
    (line.toNat < s.P.lpf → cycle.toNat < s.P.cpl →
      exec (.qtslin line cycle) s = .next (respond (.done (.nat (line.toNat * s.P.cpl + cycle.toNat))) s)) ∧
    (s.P.lpf ≤ line.toNat ∨ s.P.cpl ≤ cycle.toNat →
      let f : FaultRec := { code := .e1, info := .lineCycle line.toNat cycle.toNat s.P.lpf s.P.cpl }
      exec (.qtslin line cycle) s = .next (respond (.faulted f) (takeFault f s))) ∧
    (t.toNat < s.P.eof →
      exec (.qlints t) s = .next (respond (.done (.stamp (t.toNat / s.P.cpl) (t.toNat % s.P.cpl))) s) ∧
      exec (.qtsabs t) s =
        .next (respond (.done (.tick (s.frame * BitVec.ofNat 64 s.P.eof + BitVec.ofNat 64 t.toNat))) s) ∧
      exec (.qcont t) s = .next (respond (.done (.nat (contention s.P t.toNat))) s) ∧
      exec (.qcontio t p) s = .next (respond (.done (.nat (s.ioWait t.toNat p))) s) ∧
      exec (.qfloat t) s = .next (respond (.done (.byte (s.floatingBus t.toNat))) s)) ∧
    (s.P.eof ≤ t.toNat →
      ∀ iq ∈ [(Instr.qlints t, QueryOp.qlints), (.qtsabs t, .qtsabs), (.qcont t, .qcont), (.qcontio t p, .qcontio),
          (.qfloat t, .qfloat)],
        let f : FaultRec := { code := .e1, info := .query iq.2 t.toNat (.below s.P.eof) }
        exec iq.1 s = .next (respond (.faulted f) (takeFault f s)))

/-! ## Host commands -/

/-- R272, R270: HATTACH with a device implementation: a handle of the projected chain is refused; at a boundary the node enters
the chain at its position with the current tick and its channels start silent; within a frame it is deferred. The model's
choices in it: new channels stand beside those of the same handle that still close (log 19), and 0xFF means the tail of every
chain (log 30). -/
def Obligations.AttachInsertsTheNode : Prop :=
  ∀ (s : State) (h : Addr) (pos : BitVec 8) (impl : DevImpl), s.oob = .device impl →
    (h ∈ handles (projected s).chain → exec (.hattach h pos) s = .next (respond (.refused .badField) s)) ∧
    (h ∉ handles (projected s).chain → s.atBoundary = true →
      ∃ k, (k = if pos = 0xFF#8 ∨ s.chain.length ≤ pos.toNat then s.chain.length else pos.toNat) ∧
        exec (.hattach h pos) s = .next (respond (.done .unit) { s with
          chain := s.chain.take k ++
            { id := h, dev := impl.init, clock := impl.clock, last := absTick s.P s.frame s.ts, nch := impl.nch, ops := impl.ops }
              :: s.chain.drop k
          audio := { s.audio with
            chans := s.audio.chans ++ (List.range impl.nch).map (fun j =>
              { id := h, k := j, closing := false, ch := { edges := [], level := 0, base := 0, pend := [] } }) } })) ∧
    (h ∉ handles (projected s).chain → s.atBoundary = false →
      exec (.hattach h pos) s = .next (respond .deferred (s.setDeferred (s.deferred ++ [.attach h pos impl]))))

/-- R273, R270: HDETACH: an unknown handle is E5; at a boundary the node leaves the chain and its state goes to the host, its
open channels fall to 0 at S.ts and close, and nothing else changes; within a frame it is deferred. -/
def Obligations.DetachRemovesTheNode : Prop :=
  ∀ (s : State) (h : Addr),
    (h ∉ handles (projected s).chain → exec (.hdetach h) s = .next (respond (.error (.e5 h)) s)) ∧
    (h ∈ handles (projected s).chain → s.atBoundary = false →
      exec (.hdetach h) s = .next (respond .deferred (s.setDeferred (s.deferred ++ [.detach h])))) ∧
    ∀ pre n post, s.deferred = [] → s.atBoundary = true → s.chain = pre ++ n :: post → n.id = h →
      (∀ m ∈ pre, m.id ≠ h) → (∀ c ∈ s.audio.chans, c.id = h → ∀ e ∈ c.ch.edges, e.t ≤ s.ts) →
      ∃ t, exec (.hdetach h) s = .next t ∧
        t = { s with
          chain := pre ++ post, audio := { s.audio with chans := t.audio.chans }
          out := s.out ++ [.response (.done (.device n.dev))] } ∧
        t.audio.chans.filter (fun c => decide (c.id ≠ h)) =
          (s.audio.chans.filter (fun c => decide (c.id ≠ h))).filter (fun c => !c.gone) ∧
        (∀ c ∈ t.audio.chans, c.id = h → c.closing = true) ∧
        ∀ cs c ds, s.audio.chans = cs ++ c :: ds → c.id = h → c.closing = false → c.k < n.nch →
          (∀ d ∈ cs, ¬(d.id = h ∧ d.k = c.k ∧ d.closing = false)) →
          let fallen : DevChannel := { c with
            closing := true
            ch := if c.ch.level = 0 then c.ch
              else { c.ch with edges := c.ch.edges ++ [{ t := s.ts, level := 0 }], level := 0 } }
          fallen.gone = false → fallen ∈ t.audio.chans

/-- R274, R276, R277: HLOOKUP finds the node in the current chain with its index, its state and its clock, or answers E5;
HFLAGS returns the status; HSNAPSAVE returns every field but S.deferred; none of them changes anything. -/
def Obligations.HostReadsChangeNothing : Prop :=
  ∀ s : State,
    (∀ pre n post, s.chain = pre ++ n :: post → (∀ m ∈ pre, m.id ≠ n.id) →
      exec (.hlookup n.id) s = .next (respond (.done (.found pre.length n.dev n.last)) s)) ∧
    (∀ h, h ∉ handles s.chain → exec (.hlookup h) s = .next (respond (.error (.e5 h)) s)) ∧
    exec .hflags s = .next (respond (.done (.flags
      { mode := s.mode, fault := s.fault, devConflict := s.devConflict, atBoundary := s.atBoundary, frame := s.frame,
        ts := s.ts, deferred := s.deferred.length })) s) ∧
    exec .hsnapsave s = .next (respond (.done (.image s.toEngine)) s)

/-- R275, R280: HPAGE is refused without a paging register and HWRAP without a wrapper; at a boundary HPAGE runs the fetches up
to S.ts and then writes the register as a port would, and HWRAP sets the feature of the outermost wrapper and keeps its
state (log 8); within a frame both are deferred. -/
def Obligations.PageAndWrapCommands : Prop :=
  ∀ (s : State) (v : Byte) (e : Bool),
    ((projected s).P.paging = none → exec (.hpage v) s = .next (respond (.refused .badField) s)) ∧
    ((projected s).P.paging ≠ none → s.atBoundary = true →
      exec (.hpage v) s = .next (respond (.done .unit) (pagingWrite v (catchUp s.ts s)))) ∧
    ((projected s).P.paging ≠ none → s.atBoundary = false →
      exec (.hpage v) s = .next (respond .deferred (s.setDeferred (s.deferred ++ [.page v])))) ∧
    ((projected s).wrap = [] → exec (.hwrap e) s = .next (respond (.refused .badField) s)) ∧
    (∀ n rest, (projected s).wrap ≠ [] → s.atBoundary = true → s.wrap = n :: rest →
      exec (.hwrap e) s = .next (respond (.done .unit) (s.setWrap ({ n with enabled := e } :: rest)))) ∧
    ((projected s).wrap ≠ [] → s.atBoundary = false →
      exec (.hwrap e) s = .next (respond .deferred (s.setDeferred (s.deferred ++ [.wrap e]))))

/-- R278, R303: HSNAPLOAD: an image that fails a check, or that the codec could not decode, is E4 and changes nothing; at
a boundary a valid image becomes the engine, at a boundary; within a frame it is deferred. The model's choices in it: the
reason with E4 is the first failed check, and the operand `undecodable` stands for what the codec could not decode (log 22). -/
def Obligations.SnapshotLoadIsAllOrNothing : Prop :=
  ∀ s : State,
    (s.oob = .undecodable → exec .hsnapload s = .next (respond (.error (.e4 .decode)) s)) ∧
    ∀ img, s.oob = .image img →
      (∀ c, snapFailure (projected s).toEngine img = some c → exec .hsnapload s = .next (respond (.error (.e4 c)) s)) ∧
      (snapFailure (projected s).toEngine img = none → s.atBoundary = true →
        exec .hsnapload s = .next (respond (.done .unit) { s with toEngine := { img with atBoundary := true } })) ∧
      (snapFailure (projected s).toEngine img = none → s.atBoundary = false →
        exec .hsnapload s = .next (respond .deferred (s.setDeferred (s.deferred ++ [.load img]))))

/-- R281: the checks a valid image passes, over plain lists. Three of them are the model's reading of R281 (log 22): the page
store is canonical and lists no cell outside PAGES, and the wrappers are the engine's own, in order. That no check looks at the
rows of the video cache or at the set of device channels is the model's choice (logs 40, 41). -/
def Obligations.ValidImagesPassEveryCheck : Prop :=
  ∀ mine img : Engine, snapFailure mine img = none ↔
    img.cfg = mine.cfg ∧ img.mode = .running ∧ img.fault = none ∧ img.ts < img.cfg.params.eof ∧
    (img.pages.wf = true ∧ ∀ c ∈ img.pages, (keyPage img.cfg.params c.1).isSome = true) ∧
    (match img.paging with
      | some v => img.cfg.params.paging.isSome = true ∧ v.getLsbD 6 = false ∧ v.getLsbD 7 = false
      | none => img.cfg.params.paging = none) ∧
    (handles img.chain).Nodup ∧
    (∀ n ∈ img.chain, before (absTick img.cfg.params img.frame img.ts) n.last = false) ∧
    (img.borderEv.Pairwise (fun a b => a.t ≤ b.t) ∧ ∀ ev ∈ img.borderEv, ev.t ≤ img.ts) ∧
    (∀ sc ∈ img.audio.sources, sc.2.Ordered ∧ sc.2.UpTo img.ts ∧ sc.2.balanced = true) ∧
    (img.vcache.length = img.cfg.params.contLines ∧ ∀ l ∈ img.vcache, l.cells.length = img.cfg.params.contCycles / 4) ∧
    img.wrap.map (·.impl) = mine.wrap.map (·.impl)

/-- R282: the image of every unfaulted state that meets the invariants of this file is valid for an engine of the same construction,
and loading it gives the state back, S.at_boundary true; at a boundary the very same state. The record may be any whose
requests are shorter than a frame, with data instants within their requests and frames of at most 2^63 cycles, as both
reference records are. What makes an image valid is in part the model's reading (log 22). -/
def Obligations.SnapshotRoundTrip : Prop :=
  (∀ s u : State, snapFailure u.toEngine s.toEngine = none → u.deferred = [] → u.atBoundary = true →
    u.oob = .image s.toEngine →
    ∃ t, exec .hsnapload u = .next t ∧ t.toEngine = { s.toEngine with atBoundary := true } ∧ t.deferred = [] ∧
      (s.atBoundary = true → t.toEngine = s.toEngine)) ∧
  ∀ s u : State, s.mode ≠ .faulted → s.P.shortRequests = true → s.P.ioDataOffset ≤ 4 → s.P.eof ≤ 2 ^ 63 →
    s.toEngine.StoreOk → s.toEngine.CellsOk → s.toEngine.ShapeOk → s.toEngine.ClockOk → s.toEngine.AudioOk →
    s.toEngine.BorderOk → s.toEngine.NodeClocksOk → (handles s.chain).Nodup →
    u.cfg = s.cfg → u.wrap.map (·.impl) = s.wrap.map (·.impl) → u.deferred = [] → u.atBoundary = true →
    u.oob = .image s.toEngine →
    snapFailure u.toEngine s.toEngine = none ∧
      ∃ t, exec .hsnapload u = .next t ∧ t.toEngine = { s.toEngine with atBoundary := true } ∧ t.deferred = []

/-- R279, R249, R250: the mid-frame render performs the fetches up to S.ts and changes nothing else; its buffer recomputes
every line and shows border events up to S.ts only; outside the frame it is E1. -/
def Obligations.MidFrameRenderOnlyFetches : Prop :=
  ∀ s : State,
    (s.ts < s.P.eof →
      exec .hrenderv s = .next (respond (.done (.pixels
        (pixelBuffer s.P s.geometry (mapFrom (linePixels (catchUp s.ts s).toEngine) 0 (catchUp s.ts s).vcache)
          (borderFrom s.border0 (s.borderEv.filter (fun ev => decide (ev.t ≤ s.ts)))))))
        { s with vcache := (catchUp s.ts s).vcache })) ∧
    (s.P.eof ≤ s.ts →
      let f : FaultRec := { code := .e1, info := .renderAt s.ts (.below s.P.eof) }
      exec .hrenderv s = .next (respond (.faulted f) (takeFault f s)))

/-- R283, R298: HSWITCH with a construction record: one that fails R14, or whose scheme is none of its own, is refused; at a
boundary, and in mode Faulted (log 12), the engine is constructed anew and the old nodes go to the host; else it is deferred. -/
def Obligations.ModelSwitchConstructsAnew : Prop :=
  ∀ (s : State) (args : SwitchArgs), s.oob = .model args →
    (args.params.wellFormed = false ∨ args.params.intTs? args.scheme = none →
      exec .hswitch s = .next (respond (.refused .badField) s)) ∧
    (args.params.wellFormed = true → args.params.intTs? args.scheme ≠ none →
      (s.atBoundary = true ∨ s.mode = .faulted →
        exec .hswitch s = .next (respond (.done (.nodes s.chain))
          { s with toEngine := construct args, deferred := [] })) ∧
      (s.atBoundary = false → s.mode ≠ .faulted →
        exec .hswitch s = .next (respond .deferred (s.setDeferred (s.deferred ++ [.switch args])))))

/-- R271, R330: within a frame a host mutation leaves the engine as it is; it waits at the end of S.deferred, or is turned away
with its error. The projected state, against which it is validated, is S with every entry of S.deferred applied in order;
where an application raises it goes on with the state at the raise (the model's choice, log 39). -/
def Obligations.MutationsWaitForTheBoundary : Prop :=
  (∀ s : State, (s.deferred = [] → projected s = s) ∧
    ∀ l m, s.deferred = l ++ [m] →
      (projected s).toEngine = (applyMutation m (projected (s.setDeferred l))).state.toEngine) ∧
  ∀ (s t : State) (i : Instr), mutation i = true → s.atBoundary = false → s.mode ≠ .faulted → exec i s = .next t →
    t.toEngine = s.toEngine ∧ t.args = s.args ∧ t.inbox = s.inbox ∧
      ((∃ m, t.deferred = s.deferred ++ [m] ∧ t.out = s.out ++ [.response .deferred]) ∨
        t.deferred = s.deferred ∧ ∃ r, t.out = s.out ++ [.response r] ∧ r ≠ .deferred)

/-! ## Video -/

/-- R101, R173, R240: a store into the screen page at `tw = S.ts + W` is seen by a fetch of that byte at instant `F` of the same
frame if and only if `tw < F`. R238, R239: `video_catch_up(T)` performs each fetch that is due at `T` and not yet performed,
and leaves every other byte of the cache, and everything else, as it was; the cell keeps one mark for each of its two
fetches (log 11). R236, R237: the places in display memory and the instants of the fetches; the model uses the same formulas
for lines and columns past those of R236 (log 44). -/
def Obligations.FetchSeesEarlierWritesOnly : Prop :=
  (∀ y x, y < 192 → x < 32 →
    bmpOff y x = 2048 * (y / 64) + 256 * (y % 8) + 32 * (y / 8 % 8) + x ∧ attOff y x = 0x1800 + y / 8 * 32 + x) ∧
  (∀ (P : Params) (y x : Nat), fetchBmp P y x = P.fetchStart + y * P.cpl + 8 * (x / 2) + 2 * (x % 2) ∧
    fetchAtt P y x = fetchBmp P y x + 1) ∧
  (∀ (e : Engine) (off : Nat), off < e.cfg.params.windowSize →
    e.screenRead off = e.pages.read (e.screenPage * e.cfg.params.windowSize + off)) ∧
  (∀ (s : State) (T : Nat),
    catchUp T s = { s with vcache := (catchUp T s).vcache } ∧ (catchUp T s).vcache.length = s.vcache.length ∧
    ∀ (y : Nat) (l : VLine), s.vcache[y]? = some l →
      ∃ cells, (catchUp T s).vcache[y]? = some { l with cells := cells } ∧ cells.length = l.cells.length ∧
      ∀ (x : Nat) (c : VCell), l.cells[x]? = some c → ∃ c' : VCell, cells[x]? = some c' ∧
        (c.seenBmp = false → fetchBmp s.P y x ≤ T → c'.bmp = s.screenRead (bmpOff y x) ∧ c'.seenBmp = true) ∧
        (c.seenBmp = true ∨ T < fetchBmp s.P y x → c'.bmp = c.bmp ∧ c'.seenBmp = c.seenBmp) ∧
        (c.seenAtt = false → fetchAtt s.P y x ≤ T → c'.att = s.screenRead (attOff y x) ∧ c'.seenAtt = true) ∧
        (c.seenAtt = true ∨ T < fetchAtt s.P y x → c'.att = c.att ∧ c'.seenAtt = c.seenAtt)) ∧
  ∀ (s t : State) (a : Addr) (d : Byte) (n : BitVec 8) (T y x : Nat) (l : VLine) (c : VCell),
    s.ts < s.P.eof → requestEnd (.mwrite a d n) s < s.P.eof → exec (.mwrite a d n) s = .next t →
    s.pages.wf = true → writablePage s.P (s.pageOf a) = true → s.pageOf a = s.screenPage →
    s.vcache[y]? = some l → l.cells[x]? = some c →
    ∃ l' c', (catchUp T t).vcache[y]? = some l' ∧ l'.cells[x]? = some c' ∧
      (c.seenBmp = false → offOf s.P a = bmpOff y x → bmpOff y x < s.P.windowSize → fetchBmp s.P y x ≤ T →
        c'.bmp = if s.ts + s.memWait a s.ts < fetchBmp s.P y x then d else s.screenRead (bmpOff y x)) ∧
      (c.seenAtt = false → offOf s.P a = attOff y x → attOff y x < s.P.windowSize → fetchAtt s.P y x ≤ T →
        c'.att = if s.ts + s.memWait a s.ts < fetchAtt s.P y x then d else s.screenRead (attOff y x))

/-- R245 to R247, R251: the buffer's rows and columns are those of the geometry, and each pair of columns shows the two pixels of its
display position or, outside the display area, the border at its instant. A pixel line shows, at eight pixels a column, the
ink or paper of the cell's attribute byte by the cell's bitmap bit, with brightness, swapped where the attribute flashes and
the flash phase is 1; enabled wrappers are applied to it, each to the pixel of its inner instance (R291; log 8), and see the flash
phase only where A[7] = 1 (log 25). The geometry is that of the outermost enabled wrapper that gives one (log 8), else VIS of P.
A pixel that its row lacks shows as index 0 (log 40). -/
def Obligations.BufferShowsPixelsAndBorder : Prop :=
  (∀ x : PixelIn,
    let bright := 8 * (x.att.toNat / 64 % 2)
    let ink := x.att.toNat % 8 + bright
    let paper := x.att.toNat / 8 % 8 + bright
    let bit := x.bmp.getLsbD (7 - x.px % 8)
    (¬(x.att.getLsbD 7 = true ∧ x.phase = 1) → pixelIndex x = if bit then ink else paper) ∧
    (x.att.getLsbD 7 = true → x.phase = 1 → pixelIndex x = if bit then paper else ink) ∧ pixelIndex x < 16) ∧
  (∀ e : Engine, 0 < e.cfg.params.flashPeriod →
    e.flashPhase = e.frame.toNat / e.cfg.params.flashPeriod % 2) ∧
  (∀ (e : Engine) (y x k : Nat) (l : VLine) (c : VCell), l.cells[x]? = some c → k < 8 →
    (linePixels e y l)[8 * x + k]? = some (wrappedPixel e.wrap ⟨y, 8 * x + k, c.bmp, c.att, seenPhase c.att e.flashPhase⟩
      (pixelIndex ⟨y, 8 * x + k, c.bmp, c.att, e.flashPhase⟩))) ∧
  (∀ (wrap : List WrapNode) (x : PixelIn) (base : Nat), (∀ n ∈ wrap, n.enabled = false) → wrappedPixel wrap x base = base) ∧
  (∀ (n : WrapNode) (wrap : List WrapNode) (x : PixelIn) (base : Nat), n.enabled = true →
    wrappedPixel (n :: wrap) x base =
      (wrapPixel n.impl n.st x (wrappedPixel wrap x base)).getD (wrappedPixel wrap x base)) ∧
  (∀ e : Engine, ((∀ n ∈ e.wrap, n.enabled = false) → e.geometry = e.cfg.params.vis) ∧
    ∀ pre n post g, e.wrap = pre ++ n :: post → (∀ m ∈ pre, m.enabled = false ∨ wrapGeometry m.impl m.st = none) →
      n.enabled = true → wrapGeometry n.impl n.st = some g → e.geometry = g) ∧
  ∀ (P : Params) (g : Geometry) (rows : List (List Nat)) (border : Int → BitVec 3),
    (pixelBuffer P g rows border).length = g.lines ∧
    (∀ row ∈ pixelBuffer P g rows border, row.length = 2 * g.hCount) ∧
    ∀ r j, r < g.lines → j < g.hCount →
      let L := g.lineFirst + r
      let h : Int := g.hFirst + j
      let pair := fun k => ((pixelBuffer P g rows border).getD r []).getD (2 * j + k) 0
      (P.displayLine0 ≤ L → L < P.displayLine0 + P.contLines → 0 ≤ h → h < P.contCycles →
        ∀ k, k < 2 → pair k = (rows.getD (L - P.displayLine0) []).getD (2 * h.toNat + k) 0) ∧
      (¬(P.displayLine0 ≤ L ∧ L < P.displayLine0 + P.contLines ∧ 0 ≤ h ∧ h < P.contCycles) →
        ∀ k, k < 2 → pair k = (border ((L * P.cpl + P.pixCycle0 : Nat) + h)).toNat)

/-- R243, R244: the border roll-over loses nothing: the colour at any instant of the new frame is the colour the old frame's
events give `EOF` later. The colour at an instant is that of the last event not after it, else S.border0, and the current
colour (R191) that of the last event. -/
def Obligations.BorderRollKeepsTheColour : Prop :=
  (∀ (e : Engine) (T : Int),
    (∀ pre ev post, e.borderEv = pre ++ ev :: post → (ev.t : Int) ≤ T → (∀ d ∈ post, T < (d.t : Int)) →
      e.borderAt T = ev.colour) ∧
    ((∀ ev ∈ e.borderEv, T < (ev.t : Int)) → e.borderAt T = e.border0)) ∧
  (∀ e : Engine, (e.borderEv = [] → e.curBorder = e.border0) ∧
    ∀ pre ev, e.borderEv = pre ++ [ev] → e.curBorder = ev.colour) ∧
  ∀ (s : State) (T : Nat), s.borderEv.Pairwise (fun a b => a.t ≤ b.t) →
    (borderRoll s).borderAt T = s.borderAt ((T + s.P.eof : Nat) : Int)

/-- R248: the reuse of rows never changes the buffer: where every kept row is true, the render's buffer is the one with every
line recomputed; and every row is true at reset and after every step, but for rows that a snapshot brings in, which the model
believes (log 40). For wrapped engines
it rests on the model's reading: rows are compared with the enabled wrappers too, and a wrapper's pixel function sees the
flash phase only where A[7] = 1 (log 25). -/
def Obligations.RowReuseIsInvisible : Prop :=
  (∀ s : State, RowsTrue s.toEngine →
    RowsTrue (renderRows s).toEngine ∧
    (renderRows s).frameBuffer =
      pixelBuffer s.P s.geometry (mapFrom (linePixels s.toEngine) 0 s.vcache) s.borderAt) ∧
  EveryEngine RowsTrue State.reset ∧
  ∀ s t : State, (∀ x img, x ∈ s.inbox → x.oob = .image img → RowsTrue img) → step s = .next t →
    EveryEngine RowsTrue s → EveryEngine RowsTrue t

/-! ## Audio -/

/-- R259 to R264: continuity. With edges of at most this frame and the next, in order, a source's level at each sample of the
frame, and after the roll-over at each later sample, is the level that one render over both frames gives; a source that
never changes keeps its settled level. The PCM buffer of a frame has one sample for each sample position of the frame: GAIN
times the sum over all sources of AMP times level. The positions of instants and of a frame's samples, the two ends of the
step, and the steps of a queue are those of the rules, in exact rationals (log 21). -/
def Obligations.AudioFramesJoin : Prop :=
  (∀ P : Params, 0 < P.cpuHz →
    (∀ A, samplePos P A = ((A * P.sampleRateVal : Nat) : Rat) / (P.cpuHz : Rat)) ∧
    ∀ f, f * P.eof * P.sampleRateVal ≤ firstSample P f * P.cpuHz ∧
      firstSample P f * P.cpuHz < f * P.eof * P.sampleRateVal + P.cpuHz) ∧
  (∀ P : Params, 1 ≤ P.stepKVal ∧ ∀ x : Rat, (x ≤ 0 → stepH P x = 0) ∧ ((P.stepKVal : Rat) ≤ x → stepH P x = 1)) ∧
  (∀ (P : Params) (f : Nat) (l : Rat) (e : Edge) (rest : List Edge), edgeSteps P f l [] = [] ∧
    edgeSteps P f l (e :: rest) =
      { pos := samplePos P (f * P.eof + e.t), delta := (e.level : Rat) - l } :: edgeSteps P f e.level rest) ∧
  (∀ c : Channel, c.startLevel = c.base + ratSum (c.pend.map (·.delta))) ∧
  (∀ (P : Params) (f : Nat) (gain : Rat) (a : Audio),
    (audioRender P f gain true a).length = firstSample P (f + 1) - firstSample P f ∧
    ∀ i, i < firstSample P (f + 1) - firstSample P f →
      let n := firstSample P f + i
      (audioRender P f gain true a)[i]? = some (gain * (P.ampVal .ear * a.ear.levelAt P f n +
        (P.ampVal .mic * a.mic.levelAt P f n +
          ratSum (a.chans.map (fun c => P.ampVal (.dev c.id c.k) * c.ch.levelAt P f n)))))) ∧
  (∀ (P : Params) (f : Nat) (c : Channel) (n : Nat), 0 < P.cpuHz → c.Ordered →
    (n < firstSample P (f + 1) → c.levelAt P f n = fullLevel P f c n) ∧
    (firstSample P (f + 1) ≤ n → (∀ e ∈ c.edges, e.t < 2 * P.eof) →
      (c.roll P f).levelAt P (f + 1) n = fullLevel P f c n)) ∧
  ∀ (P : Params) (f : Nat) (c : Channel) (n : Nat), c.edges = [] → c.pend = [] → c.levelAt P f n = c.base

/-- R267: the SYNTH argument changes no state: the next engine is the same whatever it is; without synthesis the PCM buffer is
empty. -/
def Obligations.SynthesisSwitchLeavesNoTrace : Prop :=
  (∀ (i : Instr) (s t : State) (v : Setting Bool), exec i s = .next t →
    ∃ u, exec i (withSynth v s) = .next u ∧ u.toEngine = t.toEngine ∧ u.deferred = t.deferred ∧ u.inbox = t.inbox) ∧
  ∀ (P : Params) (f : Nat) (gain : Rat) (a : Audio), audioRender P f gain false a = []

/-! ## Wrappers -/

/-- R288, R290: with every wrapper's feature disabled and nothing deferred, a request, query, render or host command other than HWRAP and the
snapshot commands (whose image holds the wrapper state) has the same outputs and the same effect on the inner state as
on the engine without wrappers. -/
def Obligations.DisabledWrapperIsTheInnerChipset : Prop :=
  ∀ (i : Instr) (s t : State), (∀ n ∈ s.wrap, n.enabled = false) → s.deferred = [] →
    (∀ e, i ≠ .hwrap e) → i ≠ .hsnapsave → i ≠ .hsnapload → exec i s = .next t →
    ∃ u, exec i (inner s) = .next u ∧ inner u = inner t ∧ u.out = t.out

/-! ## Invariants of every step -/

/-- R39, R34, R44, R321: a step keeps the canonical form of the page store, the well-formedness of the configuration, the
shape of the paging register and of the video cache, and that every cell of the page store lies in a page. -/
def Obligations.StoreAndShapeKept : Prop :=
  ∀ s t : State, step s = .next t →
    (StoreInv s → StoreInv t) ∧ (CfgInv s → CfgInv t) ∧ (ShapeInv s → ShapeInv t) ∧
      (CfgInv s → CellsInv s → CellsInv t)

/-- R28, R29, R36, R226, R271: a step keeps the agreement of clock, mode and fault latch, and that nothing is deferred at a
boundary; R43: the order of the border events; R197: that handles are unique; R200, R281: that no node clock is ahead, where an
image that is loaded has none ahead either. -/
def Obligations.ClockAndQueueKept : Prop :=
  ∀ s t : State, step s = .next t →
    (ClockInv s → ClockInv t) ∧ (BoundaryInv s → BoundaryInv t) ∧ (BorderInv s → BorderInv t) ∧
    (BoundaryInv s → HandlesInv s → HandlesInv t) ∧
    ((∀ x img, x ∈ s.inbox → x.oob = .image img → img.NodeClocksOk) → NodeClocksInv s → NodeClocksInv t)

/-- R263, R258: a step keeps the audio invariant: the balance of every source, the order of its queue, and that no edge lies after
the horizon. -/
def Obligations.AudioBalanceKept : Prop := ∀ s t : State, step s = .next t → AudioInv s → AudioInv t

/-- R48: the values after construction, for every construction record; the drawn S.ula is the record's (log 2 for
State.reset, which is the construction of ZX48, late). -/
def Obligations.ConstructionResetsEveryField : Prop :=
  (∀ args : SwitchArgs,
    construct args = {
      cfg := { params := args.params, scheme := args.scheme, strict := args.strict }
      ts := 0, mode := .running, frame := 0, intDone := false, ula := args.ula
      paging := if args.params.paging = none then none else some 0x00
      fault := none, devConflict := false, pages := (construct args).pages, chain := [], atBoundary := true
      border0 := args.ula.extractLsb' 0 3, borderEv := []
      vcache := List.replicate args.params.contLines
        { cells := List.replicate (args.params.contCycles / 4) { bmp := 0, att := 0, seenBmp := false, seenAtt := false }
          dirty := true, row := none }
      audio := {
        ear := { edges := [], level := (args.ula.getLsbD 4).toNat, base := ((args.ula.getLsbD 4).toNat : Rat), pend := [] }
        mic := { edges := [], level := (args.ula.getLsbD 3).toNat, base := ((args.ula.getLsbD 3).toNat : Rat), pend := [] }
        chans := [] }
      wrap := args.wrap.map (fun w => { impl := w.1, enabled := false, st := w.2 }) }) ∧
  State.reset.toEngine = construct resetArgs ∧ State.reset.deferred = []

/-- R39, R321: after construction a byte of a ROM page is the ROM image's, and a byte of a RAM page is the RAM image's (or the
drawn one), where the images list each byte once. -/
def Obligations.ConstructionLoadsTheImages : Prop :=
  ∀ (args : SwitchArgs) (c : Host.Cell), (args.roms.map (·.1)).Nodup → (args.ram.map (·.1)).Nodup →
    (c ∈ args.roms → (keyPage args.params c.1).any (fun d => !d.writable) = true →
      (construct args).pages.read c.1 = c.2) ∧
    (c ∈ args.ram → (keyPage args.params c.1).any (fun d => d.writable) = true →
      (construct args).pages.read c.1 = c.2)

/-- The reset state meets every invariant, so that none of them is empty. -/
def Obligations.ResetMeetsTheInvariants : Prop :=
  StoreInv State.reset ∧ CfgInv State.reset ∧ ShapeInv State.reset ∧ ClockInv State.reset ∧ AudioInv State.reset ∧
    BoundaryInv State.reset ∧ CellsInv State.reset ∧ BorderInv State.reset ∧ HandlesInv State.reset ∧
    NodeClocksInv State.reset

end
end

