-- ==== Sys2Proof/Laws/Decode.lean ====
section
/-! SUPPORT. The fields of a command word and the word of its fields are each other's inverses. -/

namespace Sys2Proof

/-- Each bit of a word is a bit of one of its fields (R116). -/
theorem pack_bit (f : Fields) (i : Nat) :
    (pack f).getLsbD i =
      if i < 8 then f.n.getLsbD i else if i < 16 then f.d.getLsbD (i - 8) else if i < 32 then f.a.getLsbD (i - 16)
      else if i < 56 then f.arg.getLsbD (i - 32) else f.op.getLsbD (i - 56) := by
  have h : (pack f).getLsbD i = @BitVec.getLsbD (8 + 24 + 16 + 8 + 8) (f.op ++ f.arg ++ f.a ++ f.d ++ f.n) i := rfl
  rw [h, BitVec.getLsbD_append, BitVec.getLsbD_append, BitVec.getLsbD_append, BitVec.getLsbD_append]
  simp only [Nat.sub_sub]
  split_ifs <;> first | rfl | omega

theorem joinLineCycle_bit (line cycle : BitVec 12) (i : Nat) :
    (joinLineCycle line cycle).getLsbD i = if i < 12 then cycle.getLsbD i else line.getLsbD (i - 12) := by
  have h : (joinLineCycle line cycle).getLsbD i = @BitVec.getLsbD (12 + 12) (line ++ cycle) i := rfl
  rw [h, BitVec.getLsbD_append]

theorem fieldsOf_pack (f : Fields) : fieldsOf (pack f) = f := by
  obtain ⟨op, arg, a, d, n⟩ := f
  simp only [fieldsOf, Fields.mk.injEq]
  refine ⟨?_, ?_, ?_, ?_, ?_⟩ <;> apply BitVec.eq_of_getLsbD_eq <;> intro i hi <;>
    rw [BitVec.getLsbD_extractLsb', pack_bit] <;> simp only [hi, decide_true, Bool.true_and]
  · rw [if_neg (by omega), if_neg (by omega), if_neg (by omega), if_neg (by omega), Nat.add_sub_cancel_left]
  · rw [if_neg (by omega), if_neg (by omega), if_neg (by omega), if_pos (by omega), Nat.add_sub_cancel_left]
  · rw [if_neg (by omega), if_neg (by omega), if_pos (by omega), Nat.add_sub_cancel_left]
  · rw [if_neg (by omega), if_pos (by omega), Nat.add_sub_cancel_left]
  · rw [if_pos (by omega), Nat.zero_add]

theorem pack_fieldsOf (w : CmdWord) : pack (fieldsOf w) = w := by
  apply BitVec.eq_of_getLsbD_eq
  intro i hi
  rw [pack_bit]
  simp only [fieldsOf, BitVec.getLsbD_extractLsb']
  split_ifs <;> rw [decide_eq_true (by omega), Bool.true_and] <;> congr 1 <;> omega

theorem argLine_join (line cycle : BitVec 12) : argLine (joinLineCycle line cycle) = line := by
  apply BitVec.eq_of_getLsbD_eq
  intro i hi
  rw [argLine, BitVec.getLsbD_extractLsb', joinLineCycle_bit, if_neg (by omega), Nat.add_sub_cancel_left]
  simp [hi]

theorem argCycle_join (line cycle : BitVec 12) : argCycle (joinLineCycle line cycle) = cycle := by
  apply BitVec.eq_of_getLsbD_eq
  intro i hi
  rw [argCycle, BitVec.getLsbD_extractLsb', joinLineCycle_bit, if_pos (by omega), Nat.zero_add]
  simp [hi]

theorem join_argLine_argCycle (arg : BitVec 24) : joinLineCycle (argLine arg) (argCycle arg) = arg := by
  apply BitVec.eq_of_getLsbD_eq
  intro i hi
  rw [joinLineCycle_bit, argLine, argCycle, BitVec.getLsbD_extractLsb', BitVec.getLsbD_extractLsb']
  split_ifs with h
  · simp [h]
  · rw [decide_eq_true (by omega), Bool.true_and]; congr 1; omega

end Sys2Proof
end

