-- ==== Sys2Proof/Laws/State.lean ====
section
/-! SUPPORT. One lemma for each field and each named update of State, so that no proof unfolds a record update. -/

namespace Sys2Proof.Machine

section
variable (s : State) (v : Nat)
@[simp] theorem setTs_cfg : (s.setTs v).cfg = s.cfg := rfl
@[simp] theorem setTs_ts : (s.setTs v).ts = v := rfl
@[simp] theorem setTs_mode : (s.setTs v).mode = s.mode := rfl
@[simp] theorem setTs_frame : (s.setTs v).frame = s.frame := rfl
@[simp] theorem setTs_intDone : (s.setTs v).intDone = s.intDone := rfl
@[simp] theorem setTs_atBoundary : (s.setTs v).atBoundary = s.atBoundary := rfl
@[simp] theorem setTs_ula : (s.setTs v).ula = s.ula := rfl
@[simp] theorem setTs_paging : (s.setTs v).paging = s.paging := rfl
@[simp] theorem setTs_fault : (s.setTs v).fault = s.fault := rfl
@[simp] theorem setTs_devConflict : (s.setTs v).devConflict = s.devConflict := rfl
@[simp] theorem setTs_pages : (s.setTs v).pages = s.pages := rfl
@[simp] theorem setTs_chain : (s.setTs v).chain = s.chain := rfl
@[simp] theorem setTs_border0 : (s.setTs v).border0 = s.border0 := rfl
@[simp] theorem setTs_borderEv : (s.setTs v).borderEv = s.borderEv := rfl
@[simp] theorem setTs_vcache : (s.setTs v).vcache = s.vcache := rfl
@[simp] theorem setTs_audio : (s.setTs v).audio = s.audio := rfl
@[simp] theorem setTs_wrap : (s.setTs v).wrap = s.wrap := rfl
@[simp] theorem setTs_deferred : (s.setTs v).deferred = s.deferred := rfl
@[simp] theorem setTs_args : (s.setTs v).args = s.args := rfl
@[simp] theorem setTs_inbox : (s.setTs v).inbox = s.inbox := rfl
@[simp] theorem setTs_oob : (s.setTs v).oob = s.oob := rfl
@[simp] theorem setTs_out : (s.setTs v).out = s.out := rfl
end

section
variable (s : State) (v : Mode)
@[simp] theorem setMode_cfg : (s.setMode v).cfg = s.cfg := rfl
@[simp] theorem setMode_ts : (s.setMode v).ts = s.ts := rfl
@[simp] theorem setMode_mode : (s.setMode v).mode = v := rfl
@[simp] theorem setMode_frame : (s.setMode v).frame = s.frame := rfl
@[simp] theorem setMode_intDone : (s.setMode v).intDone = s.intDone := rfl
@[simp] theorem setMode_atBoundary : (s.setMode v).atBoundary = s.atBoundary := rfl
@[simp] theorem setMode_ula : (s.setMode v).ula = s.ula := rfl
@[simp] theorem setMode_paging : (s.setMode v).paging = s.paging := rfl
@[simp] theorem setMode_fault : (s.setMode v).fault = s.fault := rfl
@[simp] theorem setMode_devConflict : (s.setMode v).devConflict = s.devConflict := rfl
@[simp] theorem setMode_pages : (s.setMode v).pages = s.pages := rfl
@[simp] theorem setMode_chain : (s.setMode v).chain = s.chain := rfl
@[simp] theorem setMode_border0 : (s.setMode v).border0 = s.border0 := rfl
@[simp] theorem setMode_borderEv : (s.setMode v).borderEv = s.borderEv := rfl
@[simp] theorem setMode_vcache : (s.setMode v).vcache = s.vcache := rfl
@[simp] theorem setMode_audio : (s.setMode v).audio = s.audio := rfl
@[simp] theorem setMode_wrap : (s.setMode v).wrap = s.wrap := rfl
@[simp] theorem setMode_deferred : (s.setMode v).deferred = s.deferred := rfl
@[simp] theorem setMode_args : (s.setMode v).args = s.args := rfl
@[simp] theorem setMode_inbox : (s.setMode v).inbox = s.inbox := rfl
@[simp] theorem setMode_oob : (s.setMode v).oob = s.oob := rfl
@[simp] theorem setMode_out : (s.setMode v).out = s.out := rfl
end

section
variable (s : State) (v : Tick)
@[simp] theorem setFrame_cfg : (s.setFrame v).cfg = s.cfg := rfl
@[simp] theorem setFrame_ts : (s.setFrame v).ts = s.ts := rfl
@[simp] theorem setFrame_mode : (s.setFrame v).mode = s.mode := rfl
@[simp] theorem setFrame_frame : (s.setFrame v).frame = v := rfl
@[simp] theorem setFrame_intDone : (s.setFrame v).intDone = s.intDone := rfl
@[simp] theorem setFrame_atBoundary : (s.setFrame v).atBoundary = s.atBoundary := rfl
@[simp] theorem setFrame_ula : (s.setFrame v).ula = s.ula := rfl
@[simp] theorem setFrame_paging : (s.setFrame v).paging = s.paging := rfl
@[simp] theorem setFrame_fault : (s.setFrame v).fault = s.fault := rfl
@[simp] theorem setFrame_devConflict : (s.setFrame v).devConflict = s.devConflict := rfl
@[simp] theorem setFrame_pages : (s.setFrame v).pages = s.pages := rfl
@[simp] theorem setFrame_chain : (s.setFrame v).chain = s.chain := rfl
@[simp] theorem setFrame_border0 : (s.setFrame v).border0 = s.border0 := rfl
@[simp] theorem setFrame_borderEv : (s.setFrame v).borderEv = s.borderEv := rfl
@[simp] theorem setFrame_vcache : (s.setFrame v).vcache = s.vcache := rfl
@[simp] theorem setFrame_audio : (s.setFrame v).audio = s.audio := rfl
@[simp] theorem setFrame_wrap : (s.setFrame v).wrap = s.wrap := rfl
@[simp] theorem setFrame_deferred : (s.setFrame v).deferred = s.deferred := rfl
@[simp] theorem setFrame_args : (s.setFrame v).args = s.args := rfl
@[simp] theorem setFrame_inbox : (s.setFrame v).inbox = s.inbox := rfl
@[simp] theorem setFrame_oob : (s.setFrame v).oob = s.oob := rfl
@[simp] theorem setFrame_out : (s.setFrame v).out = s.out := rfl
end

section
variable (s : State) (v : Bool)
@[simp] theorem setIntDone_cfg : (s.setIntDone v).cfg = s.cfg := rfl
@[simp] theorem setIntDone_ts : (s.setIntDone v).ts = s.ts := rfl
@[simp] theorem setIntDone_mode : (s.setIntDone v).mode = s.mode := rfl
@[simp] theorem setIntDone_frame : (s.setIntDone v).frame = s.frame := rfl
@[simp] theorem setIntDone_intDone : (s.setIntDone v).intDone = v := rfl
@[simp] theorem setIntDone_atBoundary : (s.setIntDone v).atBoundary = s.atBoundary := rfl
@[simp] theorem setIntDone_ula : (s.setIntDone v).ula = s.ula := rfl
@[simp] theorem setIntDone_paging : (s.setIntDone v).paging = s.paging := rfl
@[simp] theorem setIntDone_fault : (s.setIntDone v).fault = s.fault := rfl
@[simp] theorem setIntDone_devConflict : (s.setIntDone v).devConflict = s.devConflict := rfl
@[simp] theorem setIntDone_pages : (s.setIntDone v).pages = s.pages := rfl
@[simp] theorem setIntDone_chain : (s.setIntDone v).chain = s.chain := rfl
@[simp] theorem setIntDone_border0 : (s.setIntDone v).border0 = s.border0 := rfl
@[simp] theorem setIntDone_borderEv : (s.setIntDone v).borderEv = s.borderEv := rfl
@[simp] theorem setIntDone_vcache : (s.setIntDone v).vcache = s.vcache := rfl
@[simp] theorem setIntDone_audio : (s.setIntDone v).audio = s.audio := rfl
@[simp] theorem setIntDone_wrap : (s.setIntDone v).wrap = s.wrap := rfl
@[simp] theorem setIntDone_deferred : (s.setIntDone v).deferred = s.deferred := rfl
@[simp] theorem setIntDone_args : (s.setIntDone v).args = s.args := rfl
@[simp] theorem setIntDone_inbox : (s.setIntDone v).inbox = s.inbox := rfl
@[simp] theorem setIntDone_oob : (s.setIntDone v).oob = s.oob := rfl
@[simp] theorem setIntDone_out : (s.setIntDone v).out = s.out := rfl
end

section
variable (s : State) (v : Bool)
@[simp] theorem setAtBoundary_cfg : (s.setAtBoundary v).cfg = s.cfg := rfl
@[simp] theorem setAtBoundary_ts : (s.setAtBoundary v).ts = s.ts := rfl
@[simp] theorem setAtBoundary_mode : (s.setAtBoundary v).mode = s.mode := rfl
@[simp] theorem setAtBoundary_frame : (s.setAtBoundary v).frame = s.frame := rfl
@[simp] theorem setAtBoundary_intDone : (s.setAtBoundary v).intDone = s.intDone := rfl
@[simp] theorem setAtBoundary_atBoundary : (s.setAtBoundary v).atBoundary = v := rfl
@[simp] theorem setAtBoundary_ula : (s.setAtBoundary v).ula = s.ula := rfl
@[simp] theorem setAtBoundary_paging : (s.setAtBoundary v).paging = s.paging := rfl
@[simp] theorem setAtBoundary_fault : (s.setAtBoundary v).fault = s.fault := rfl
@[simp] theorem setAtBoundary_devConflict : (s.setAtBoundary v).devConflict = s.devConflict := rfl
@[simp] theorem setAtBoundary_pages : (s.setAtBoundary v).pages = s.pages := rfl
@[simp] theorem setAtBoundary_chain : (s.setAtBoundary v).chain = s.chain := rfl
@[simp] theorem setAtBoundary_border0 : (s.setAtBoundary v).border0 = s.border0 := rfl
@[simp] theorem setAtBoundary_borderEv : (s.setAtBoundary v).borderEv = s.borderEv := rfl
@[simp] theorem setAtBoundary_vcache : (s.setAtBoundary v).vcache = s.vcache := rfl
@[simp] theorem setAtBoundary_audio : (s.setAtBoundary v).audio = s.audio := rfl
@[simp] theorem setAtBoundary_wrap : (s.setAtBoundary v).wrap = s.wrap := rfl
@[simp] theorem setAtBoundary_deferred : (s.setAtBoundary v).deferred = s.deferred := rfl
@[simp] theorem setAtBoundary_args : (s.setAtBoundary v).args = s.args := rfl
@[simp] theorem setAtBoundary_inbox : (s.setAtBoundary v).inbox = s.inbox := rfl
@[simp] theorem setAtBoundary_oob : (s.setAtBoundary v).oob = s.oob := rfl
@[simp] theorem setAtBoundary_out : (s.setAtBoundary v).out = s.out := rfl
end

section
variable (s : State) (v : Byte)
@[simp] theorem setUla_cfg : (s.setUla v).cfg = s.cfg := rfl
@[simp] theorem setUla_ts : (s.setUla v).ts = s.ts := rfl
@[simp] theorem setUla_mode : (s.setUla v).mode = s.mode := rfl
@[simp] theorem setUla_frame : (s.setUla v).frame = s.frame := rfl
@[simp] theorem setUla_intDone : (s.setUla v).intDone = s.intDone := rfl
@[simp] theorem setUla_atBoundary : (s.setUla v).atBoundary = s.atBoundary := rfl
@[simp] theorem setUla_ula : (s.setUla v).ula = v := rfl
@[simp] theorem setUla_paging : (s.setUla v).paging = s.paging := rfl
@[simp] theorem setUla_fault : (s.setUla v).fault = s.fault := rfl
@[simp] theorem setUla_devConflict : (s.setUla v).devConflict = s.devConflict := rfl
@[simp] theorem setUla_pages : (s.setUla v).pages = s.pages := rfl
@[simp] theorem setUla_chain : (s.setUla v).chain = s.chain := rfl
@[simp] theorem setUla_border0 : (s.setUla v).border0 = s.border0 := rfl
@[simp] theorem setUla_borderEv : (s.setUla v).borderEv = s.borderEv := rfl
@[simp] theorem setUla_vcache : (s.setUla v).vcache = s.vcache := rfl
@[simp] theorem setUla_audio : (s.setUla v).audio = s.audio := rfl
@[simp] theorem setUla_wrap : (s.setUla v).wrap = s.wrap := rfl
@[simp] theorem setUla_deferred : (s.setUla v).deferred = s.deferred := rfl
@[simp] theorem setUla_args : (s.setUla v).args = s.args := rfl
@[simp] theorem setUla_inbox : (s.setUla v).inbox = s.inbox := rfl
@[simp] theorem setUla_oob : (s.setUla v).oob = s.oob := rfl
@[simp] theorem setUla_out : (s.setUla v).out = s.out := rfl
end

section
variable (s : State) (v : Option Byte)
@[simp] theorem setPaging_cfg : (s.setPaging v).cfg = s.cfg := rfl
@[simp] theorem setPaging_ts : (s.setPaging v).ts = s.ts := rfl
@[simp] theorem setPaging_mode : (s.setPaging v).mode = s.mode := rfl
@[simp] theorem setPaging_frame : (s.setPaging v).frame = s.frame := rfl
@[simp] theorem setPaging_intDone : (s.setPaging v).intDone = s.intDone := rfl
@[simp] theorem setPaging_atBoundary : (s.setPaging v).atBoundary = s.atBoundary := rfl
@[simp] theorem setPaging_ula : (s.setPaging v).ula = s.ula := rfl
@[simp] theorem setPaging_paging : (s.setPaging v).paging = v := rfl
@[simp] theorem setPaging_fault : (s.setPaging v).fault = s.fault := rfl
@[simp] theorem setPaging_devConflict : (s.setPaging v).devConflict = s.devConflict := rfl
@[simp] theorem setPaging_pages : (s.setPaging v).pages = s.pages := rfl
@[simp] theorem setPaging_chain : (s.setPaging v).chain = s.chain := rfl
@[simp] theorem setPaging_border0 : (s.setPaging v).border0 = s.border0 := rfl
@[simp] theorem setPaging_borderEv : (s.setPaging v).borderEv = s.borderEv := rfl
@[simp] theorem setPaging_vcache : (s.setPaging v).vcache = s.vcache := rfl
@[simp] theorem setPaging_audio : (s.setPaging v).audio = s.audio := rfl
@[simp] theorem setPaging_wrap : (s.setPaging v).wrap = s.wrap := rfl
@[simp] theorem setPaging_deferred : (s.setPaging v).deferred = s.deferred := rfl
@[simp] theorem setPaging_args : (s.setPaging v).args = s.args := rfl
@[simp] theorem setPaging_inbox : (s.setPaging v).inbox = s.inbox := rfl
@[simp] theorem setPaging_oob : (s.setPaging v).oob = s.oob := rfl
@[simp] theorem setPaging_out : (s.setPaging v).out = s.out := rfl
end

section
variable (s : State) (v : Option FaultRec)
@[simp] theorem setFault_cfg : (s.setFault v).cfg = s.cfg := rfl
@[simp] theorem setFault_ts : (s.setFault v).ts = s.ts := rfl
@[simp] theorem setFault_mode : (s.setFault v).mode = s.mode := rfl
@[simp] theorem setFault_frame : (s.setFault v).frame = s.frame := rfl
@[simp] theorem setFault_intDone : (s.setFault v).intDone = s.intDone := rfl
@[simp] theorem setFault_atBoundary : (s.setFault v).atBoundary = s.atBoundary := rfl
@[simp] theorem setFault_ula : (s.setFault v).ula = s.ula := rfl
@[simp] theorem setFault_paging : (s.setFault v).paging = s.paging := rfl
@[simp] theorem setFault_fault : (s.setFault v).fault = v := rfl
@[simp] theorem setFault_devConflict : (s.setFault v).devConflict = s.devConflict := rfl
@[simp] theorem setFault_pages : (s.setFault v).pages = s.pages := rfl
@[simp] theorem setFault_chain : (s.setFault v).chain = s.chain := rfl
@[simp] theorem setFault_border0 : (s.setFault v).border0 = s.border0 := rfl
@[simp] theorem setFault_borderEv : (s.setFault v).borderEv = s.borderEv := rfl
@[simp] theorem setFault_vcache : (s.setFault v).vcache = s.vcache := rfl
@[simp] theorem setFault_audio : (s.setFault v).audio = s.audio := rfl
@[simp] theorem setFault_wrap : (s.setFault v).wrap = s.wrap := rfl
@[simp] theorem setFault_deferred : (s.setFault v).deferred = s.deferred := rfl
@[simp] theorem setFault_args : (s.setFault v).args = s.args := rfl
@[simp] theorem setFault_inbox : (s.setFault v).inbox = s.inbox := rfl
@[simp] theorem setFault_oob : (s.setFault v).oob = s.oob := rfl
@[simp] theorem setFault_out : (s.setFault v).out = s.out := rfl
end

section
variable (s : State) (v : Bool)
@[simp] theorem setDevConflict_cfg : (s.setDevConflict v).cfg = s.cfg := rfl
@[simp] theorem setDevConflict_ts : (s.setDevConflict v).ts = s.ts := rfl
@[simp] theorem setDevConflict_mode : (s.setDevConflict v).mode = s.mode := rfl
@[simp] theorem setDevConflict_frame : (s.setDevConflict v).frame = s.frame := rfl
@[simp] theorem setDevConflict_intDone : (s.setDevConflict v).intDone = s.intDone := rfl
@[simp] theorem setDevConflict_atBoundary : (s.setDevConflict v).atBoundary = s.atBoundary := rfl
@[simp] theorem setDevConflict_ula : (s.setDevConflict v).ula = s.ula := rfl
@[simp] theorem setDevConflict_paging : (s.setDevConflict v).paging = s.paging := rfl
@[simp] theorem setDevConflict_fault : (s.setDevConflict v).fault = s.fault := rfl
@[simp] theorem setDevConflict_devConflict : (s.setDevConflict v).devConflict = v := rfl
@[simp] theorem setDevConflict_pages : (s.setDevConflict v).pages = s.pages := rfl
@[simp] theorem setDevConflict_chain : (s.setDevConflict v).chain = s.chain := rfl
@[simp] theorem setDevConflict_border0 : (s.setDevConflict v).border0 = s.border0 := rfl
@[simp] theorem setDevConflict_borderEv : (s.setDevConflict v).borderEv = s.borderEv := rfl
@[simp] theorem setDevConflict_vcache : (s.setDevConflict v).vcache = s.vcache := rfl
@[simp] theorem setDevConflict_audio : (s.setDevConflict v).audio = s.audio := rfl
@[simp] theorem setDevConflict_wrap : (s.setDevConflict v).wrap = s.wrap := rfl
@[simp] theorem setDevConflict_deferred : (s.setDevConflict v).deferred = s.deferred := rfl
@[simp] theorem setDevConflict_args : (s.setDevConflict v).args = s.args := rfl
@[simp] theorem setDevConflict_inbox : (s.setDevConflict v).inbox = s.inbox := rfl
@[simp] theorem setDevConflict_oob : (s.setDevConflict v).oob = s.oob := rfl
@[simp] theorem setDevConflict_out : (s.setDevConflict v).out = s.out := rfl
end

section
variable (s : State) (v : Memory)
@[simp] theorem setPages_cfg : (s.setPages v).cfg = s.cfg := rfl
@[simp] theorem setPages_ts : (s.setPages v).ts = s.ts := rfl
@[simp] theorem setPages_mode : (s.setPages v).mode = s.mode := rfl
@[simp] theorem setPages_frame : (s.setPages v).frame = s.frame := rfl
@[simp] theorem setPages_intDone : (s.setPages v).intDone = s.intDone := rfl
@[simp] theorem setPages_atBoundary : (s.setPages v).atBoundary = s.atBoundary := rfl
@[simp] theorem setPages_ula : (s.setPages v).ula = s.ula := rfl
@[simp] theorem setPages_paging : (s.setPages v).paging = s.paging := rfl
@[simp] theorem setPages_fault : (s.setPages v).fault = s.fault := rfl
@[simp] theorem setPages_devConflict : (s.setPages v).devConflict = s.devConflict := rfl
@[simp] theorem setPages_pages : (s.setPages v).pages = v := rfl
@[simp] theorem setPages_chain : (s.setPages v).chain = s.chain := rfl
@[simp] theorem setPages_border0 : (s.setPages v).border0 = s.border0 := rfl
@[simp] theorem setPages_borderEv : (s.setPages v).borderEv = s.borderEv := rfl
@[simp] theorem setPages_vcache : (s.setPages v).vcache = s.vcache := rfl
@[simp] theorem setPages_audio : (s.setPages v).audio = s.audio := rfl
@[simp] theorem setPages_wrap : (s.setPages v).wrap = s.wrap := rfl
@[simp] theorem setPages_deferred : (s.setPages v).deferred = s.deferred := rfl
@[simp] theorem setPages_args : (s.setPages v).args = s.args := rfl
@[simp] theorem setPages_inbox : (s.setPages v).inbox = s.inbox := rfl
@[simp] theorem setPages_oob : (s.setPages v).oob = s.oob := rfl
@[simp] theorem setPages_out : (s.setPages v).out = s.out := rfl
end

section
variable (s : State) (v : List Node)
@[simp] theorem setChain_cfg : (s.setChain v).cfg = s.cfg := rfl
@[simp] theorem setChain_ts : (s.setChain v).ts = s.ts := rfl
@[simp] theorem setChain_mode : (s.setChain v).mode = s.mode := rfl
@[simp] theorem setChain_frame : (s.setChain v).frame = s.frame := rfl
@[simp] theorem setChain_intDone : (s.setChain v).intDone = s.intDone := rfl
@[simp] theorem setChain_atBoundary : (s.setChain v).atBoundary = s.atBoundary := rfl
@[simp] theorem setChain_ula : (s.setChain v).ula = s.ula := rfl
@[simp] theorem setChain_paging : (s.setChain v).paging = s.paging := rfl
@[simp] theorem setChain_fault : (s.setChain v).fault = s.fault := rfl
@[simp] theorem setChain_devConflict : (s.setChain v).devConflict = s.devConflict := rfl
@[simp] theorem setChain_pages : (s.setChain v).pages = s.pages := rfl
@[simp] theorem setChain_chain : (s.setChain v).chain = v := rfl
@[simp] theorem setChain_border0 : (s.setChain v).border0 = s.border0 := rfl
@[simp] theorem setChain_borderEv : (s.setChain v).borderEv = s.borderEv := rfl
@[simp] theorem setChain_vcache : (s.setChain v).vcache = s.vcache := rfl
@[simp] theorem setChain_audio : (s.setChain v).audio = s.audio := rfl
@[simp] theorem setChain_wrap : (s.setChain v).wrap = s.wrap := rfl
@[simp] theorem setChain_deferred : (s.setChain v).deferred = s.deferred := rfl
@[simp] theorem setChain_args : (s.setChain v).args = s.args := rfl
@[simp] theorem setChain_inbox : (s.setChain v).inbox = s.inbox := rfl
@[simp] theorem setChain_oob : (s.setChain v).oob = s.oob := rfl
@[simp] theorem setChain_out : (s.setChain v).out = s.out := rfl
end

section
variable (s : State) (v : BitVec 3)
@[simp] theorem setBorder0_cfg : (s.setBorder0 v).cfg = s.cfg := rfl
@[simp] theorem setBorder0_ts : (s.setBorder0 v).ts = s.ts := rfl
@[simp] theorem setBorder0_mode : (s.setBorder0 v).mode = s.mode := rfl
@[simp] theorem setBorder0_frame : (s.setBorder0 v).frame = s.frame := rfl
@[simp] theorem setBorder0_intDone : (s.setBorder0 v).intDone = s.intDone := rfl
@[simp] theorem setBorder0_atBoundary : (s.setBorder0 v).atBoundary = s.atBoundary := rfl
@[simp] theorem setBorder0_ula : (s.setBorder0 v).ula = s.ula := rfl
@[simp] theorem setBorder0_paging : (s.setBorder0 v).paging = s.paging := rfl
@[simp] theorem setBorder0_fault : (s.setBorder0 v).fault = s.fault := rfl
@[simp] theorem setBorder0_devConflict : (s.setBorder0 v).devConflict = s.devConflict := rfl
@[simp] theorem setBorder0_pages : (s.setBorder0 v).pages = s.pages := rfl
@[simp] theorem setBorder0_chain : (s.setBorder0 v).chain = s.chain := rfl
@[simp] theorem setBorder0_border0 : (s.setBorder0 v).border0 = v := rfl
@[simp] theorem setBorder0_borderEv : (s.setBorder0 v).borderEv = s.borderEv := rfl
@[simp] theorem setBorder0_vcache : (s.setBorder0 v).vcache = s.vcache := rfl
@[simp] theorem setBorder0_audio : (s.setBorder0 v).audio = s.audio := rfl
@[simp] theorem setBorder0_wrap : (s.setBorder0 v).wrap = s.wrap := rfl
@[simp] theorem setBorder0_deferred : (s.setBorder0 v).deferred = s.deferred := rfl
@[simp] theorem setBorder0_args : (s.setBorder0 v).args = s.args := rfl
@[simp] theorem setBorder0_inbox : (s.setBorder0 v).inbox = s.inbox := rfl
@[simp] theorem setBorder0_oob : (s.setBorder0 v).oob = s.oob := rfl
@[simp] theorem setBorder0_out : (s.setBorder0 v).out = s.out := rfl
end

section
variable (s : State) (v : List BorderEvent)
@[simp] theorem setBorderEv_cfg : (s.setBorderEv v).cfg = s.cfg := rfl
@[simp] theorem setBorderEv_ts : (s.setBorderEv v).ts = s.ts := rfl
@[simp] theorem setBorderEv_mode : (s.setBorderEv v).mode = s.mode := rfl
@[simp] theorem setBorderEv_frame : (s.setBorderEv v).frame = s.frame := rfl
@[simp] theorem setBorderEv_intDone : (s.setBorderEv v).intDone = s.intDone := rfl
@[simp] theorem setBorderEv_atBoundary : (s.setBorderEv v).atBoundary = s.atBoundary := rfl
@[simp] theorem setBorderEv_ula : (s.setBorderEv v).ula = s.ula := rfl
@[simp] theorem setBorderEv_paging : (s.setBorderEv v).paging = s.paging := rfl
@[simp] theorem setBorderEv_fault : (s.setBorderEv v).fault = s.fault := rfl
@[simp] theorem setBorderEv_devConflict : (s.setBorderEv v).devConflict = s.devConflict := rfl
@[simp] theorem setBorderEv_pages : (s.setBorderEv v).pages = s.pages := rfl
@[simp] theorem setBorderEv_chain : (s.setBorderEv v).chain = s.chain := rfl
@[simp] theorem setBorderEv_border0 : (s.setBorderEv v).border0 = s.border0 := rfl
@[simp] theorem setBorderEv_borderEv : (s.setBorderEv v).borderEv = v := rfl
@[simp] theorem setBorderEv_vcache : (s.setBorderEv v).vcache = s.vcache := rfl
@[simp] theorem setBorderEv_audio : (s.setBorderEv v).audio = s.audio := rfl
@[simp] theorem setBorderEv_wrap : (s.setBorderEv v).wrap = s.wrap := rfl
@[simp] theorem setBorderEv_deferred : (s.setBorderEv v).deferred = s.deferred := rfl
@[simp] theorem setBorderEv_args : (s.setBorderEv v).args = s.args := rfl
@[simp] theorem setBorderEv_inbox : (s.setBorderEv v).inbox = s.inbox := rfl
@[simp] theorem setBorderEv_oob : (s.setBorderEv v).oob = s.oob := rfl
@[simp] theorem setBorderEv_out : (s.setBorderEv v).out = s.out := rfl
end

section
variable (s : State) (v : List VLine)
@[simp] theorem setVcache_cfg : (s.setVcache v).cfg = s.cfg := rfl
@[simp] theorem setVcache_ts : (s.setVcache v).ts = s.ts := rfl
@[simp] theorem setVcache_mode : (s.setVcache v).mode = s.mode := rfl
@[simp] theorem setVcache_frame : (s.setVcache v).frame = s.frame := rfl
@[simp] theorem setVcache_intDone : (s.setVcache v).intDone = s.intDone := rfl
@[simp] theorem setVcache_atBoundary : (s.setVcache v).atBoundary = s.atBoundary := rfl
@[simp] theorem setVcache_ula : (s.setVcache v).ula = s.ula := rfl
@[simp] theorem setVcache_paging : (s.setVcache v).paging = s.paging := rfl
@[simp] theorem setVcache_fault : (s.setVcache v).fault = s.fault := rfl
@[simp] theorem setVcache_devConflict : (s.setVcache v).devConflict = s.devConflict := rfl
@[simp] theorem setVcache_pages : (s.setVcache v).pages = s.pages := rfl
@[simp] theorem setVcache_chain : (s.setVcache v).chain = s.chain := rfl
@[simp] theorem setVcache_border0 : (s.setVcache v).border0 = s.border0 := rfl
@[simp] theorem setVcache_borderEv : (s.setVcache v).borderEv = s.borderEv := rfl
@[simp] theorem setVcache_vcache : (s.setVcache v).vcache = v := rfl
@[simp] theorem setVcache_audio : (s.setVcache v).audio = s.audio := rfl
@[simp] theorem setVcache_wrap : (s.setVcache v).wrap = s.wrap := rfl
@[simp] theorem setVcache_deferred : (s.setVcache v).deferred = s.deferred := rfl
@[simp] theorem setVcache_args : (s.setVcache v).args = s.args := rfl
@[simp] theorem setVcache_inbox : (s.setVcache v).inbox = s.inbox := rfl
@[simp] theorem setVcache_oob : (s.setVcache v).oob = s.oob := rfl
@[simp] theorem setVcache_out : (s.setVcache v).out = s.out := rfl
end

section
variable (s : State) (v : Audio)
@[simp] theorem setAudio_cfg : (s.setAudio v).cfg = s.cfg := rfl
@[simp] theorem setAudio_ts : (s.setAudio v).ts = s.ts := rfl
@[simp] theorem setAudio_mode : (s.setAudio v).mode = s.mode := rfl
@[simp] theorem setAudio_frame : (s.setAudio v).frame = s.frame := rfl
@[simp] theorem setAudio_intDone : (s.setAudio v).intDone = s.intDone := rfl
@[simp] theorem setAudio_atBoundary : (s.setAudio v).atBoundary = s.atBoundary := rfl
@[simp] theorem setAudio_ula : (s.setAudio v).ula = s.ula := rfl
@[simp] theorem setAudio_paging : (s.setAudio v).paging = s.paging := rfl
@[simp] theorem setAudio_fault : (s.setAudio v).fault = s.fault := rfl
@[simp] theorem setAudio_devConflict : (s.setAudio v).devConflict = s.devConflict := rfl
@[simp] theorem setAudio_pages : (s.setAudio v).pages = s.pages := rfl
@[simp] theorem setAudio_chain : (s.setAudio v).chain = s.chain := rfl
@[simp] theorem setAudio_border0 : (s.setAudio v).border0 = s.border0 := rfl
@[simp] theorem setAudio_borderEv : (s.setAudio v).borderEv = s.borderEv := rfl
@[simp] theorem setAudio_vcache : (s.setAudio v).vcache = s.vcache := rfl
@[simp] theorem setAudio_audio : (s.setAudio v).audio = v := rfl
@[simp] theorem setAudio_wrap : (s.setAudio v).wrap = s.wrap := rfl
@[simp] theorem setAudio_deferred : (s.setAudio v).deferred = s.deferred := rfl
@[simp] theorem setAudio_args : (s.setAudio v).args = s.args := rfl
@[simp] theorem setAudio_inbox : (s.setAudio v).inbox = s.inbox := rfl
@[simp] theorem setAudio_oob : (s.setAudio v).oob = s.oob := rfl
@[simp] theorem setAudio_out : (s.setAudio v).out = s.out := rfl
end

section
variable (s : State) (v : List WrapNode)
@[simp] theorem setWrap_cfg : (s.setWrap v).cfg = s.cfg := rfl
@[simp] theorem setWrap_ts : (s.setWrap v).ts = s.ts := rfl
@[simp] theorem setWrap_mode : (s.setWrap v).mode = s.mode := rfl
@[simp] theorem setWrap_frame : (s.setWrap v).frame = s.frame := rfl
@[simp] theorem setWrap_intDone : (s.setWrap v).intDone = s.intDone := rfl
@[simp] theorem setWrap_atBoundary : (s.setWrap v).atBoundary = s.atBoundary := rfl
@[simp] theorem setWrap_ula : (s.setWrap v).ula = s.ula := rfl
@[simp] theorem setWrap_paging : (s.setWrap v).paging = s.paging := rfl
@[simp] theorem setWrap_fault : (s.setWrap v).fault = s.fault := rfl
@[simp] theorem setWrap_devConflict : (s.setWrap v).devConflict = s.devConflict := rfl
@[simp] theorem setWrap_pages : (s.setWrap v).pages = s.pages := rfl
@[simp] theorem setWrap_chain : (s.setWrap v).chain = s.chain := rfl
@[simp] theorem setWrap_border0 : (s.setWrap v).border0 = s.border0 := rfl
@[simp] theorem setWrap_borderEv : (s.setWrap v).borderEv = s.borderEv := rfl
@[simp] theorem setWrap_vcache : (s.setWrap v).vcache = s.vcache := rfl
@[simp] theorem setWrap_audio : (s.setWrap v).audio = s.audio := rfl
@[simp] theorem setWrap_wrap : (s.setWrap v).wrap = v := rfl
@[simp] theorem setWrap_deferred : (s.setWrap v).deferred = s.deferred := rfl
@[simp] theorem setWrap_args : (s.setWrap v).args = s.args := rfl
@[simp] theorem setWrap_inbox : (s.setWrap v).inbox = s.inbox := rfl
@[simp] theorem setWrap_oob : (s.setWrap v).oob = s.oob := rfl
@[simp] theorem setWrap_out : (s.setWrap v).out = s.out := rfl
end

section
variable (s : State) (v : List Mutation)
@[simp] theorem setDeferred_cfg : (s.setDeferred v).cfg = s.cfg := rfl
@[simp] theorem setDeferred_ts : (s.setDeferred v).ts = s.ts := rfl
@[simp] theorem setDeferred_mode : (s.setDeferred v).mode = s.mode := rfl
@[simp] theorem setDeferred_frame : (s.setDeferred v).frame = s.frame := rfl
@[simp] theorem setDeferred_intDone : (s.setDeferred v).intDone = s.intDone := rfl
@[simp] theorem setDeferred_atBoundary : (s.setDeferred v).atBoundary = s.atBoundary := rfl
@[simp] theorem setDeferred_ula : (s.setDeferred v).ula = s.ula := rfl
@[simp] theorem setDeferred_paging : (s.setDeferred v).paging = s.paging := rfl
@[simp] theorem setDeferred_fault : (s.setDeferred v).fault = s.fault := rfl
@[simp] theorem setDeferred_devConflict : (s.setDeferred v).devConflict = s.devConflict := rfl
@[simp] theorem setDeferred_pages : (s.setDeferred v).pages = s.pages := rfl
@[simp] theorem setDeferred_chain : (s.setDeferred v).chain = s.chain := rfl
@[simp] theorem setDeferred_border0 : (s.setDeferred v).border0 = s.border0 := rfl
@[simp] theorem setDeferred_borderEv : (s.setDeferred v).borderEv = s.borderEv := rfl
@[simp] theorem setDeferred_vcache : (s.setDeferred v).vcache = s.vcache := rfl
@[simp] theorem setDeferred_audio : (s.setDeferred v).audio = s.audio := rfl
@[simp] theorem setDeferred_wrap : (s.setDeferred v).wrap = s.wrap := rfl
@[simp] theorem setDeferred_deferred : (s.setDeferred v).deferred = v := rfl
@[simp] theorem setDeferred_args : (s.setDeferred v).args = s.args := rfl
@[simp] theorem setDeferred_inbox : (s.setDeferred v).inbox = s.inbox := rfl
@[simp] theorem setDeferred_oob : (s.setDeferred v).oob = s.oob := rfl
@[simp] theorem setDeferred_out : (s.setDeferred v).out = s.out := rfl
@[simp] theorem setDeferred_toEngine : (s.setDeferred v).toEngine = s.toEngine := rfl
end

section
variable (s : State) (v : List Issue)
@[simp] theorem setInbox_cfg : (s.setInbox v).cfg = s.cfg := rfl
@[simp] theorem setInbox_ts : (s.setInbox v).ts = s.ts := rfl
@[simp] theorem setInbox_mode : (s.setInbox v).mode = s.mode := rfl
@[simp] theorem setInbox_frame : (s.setInbox v).frame = s.frame := rfl
@[simp] theorem setInbox_intDone : (s.setInbox v).intDone = s.intDone := rfl
@[simp] theorem setInbox_atBoundary : (s.setInbox v).atBoundary = s.atBoundary := rfl
@[simp] theorem setInbox_ula : (s.setInbox v).ula = s.ula := rfl
@[simp] theorem setInbox_paging : (s.setInbox v).paging = s.paging := rfl
@[simp] theorem setInbox_fault : (s.setInbox v).fault = s.fault := rfl
@[simp] theorem setInbox_devConflict : (s.setInbox v).devConflict = s.devConflict := rfl
@[simp] theorem setInbox_pages : (s.setInbox v).pages = s.pages := rfl
@[simp] theorem setInbox_chain : (s.setInbox v).chain = s.chain := rfl
@[simp] theorem setInbox_border0 : (s.setInbox v).border0 = s.border0 := rfl
@[simp] theorem setInbox_borderEv : (s.setInbox v).borderEv = s.borderEv := rfl
@[simp] theorem setInbox_vcache : (s.setInbox v).vcache = s.vcache := rfl
@[simp] theorem setInbox_audio : (s.setInbox v).audio = s.audio := rfl
@[simp] theorem setInbox_wrap : (s.setInbox v).wrap = s.wrap := rfl
@[simp] theorem setInbox_deferred : (s.setInbox v).deferred = s.deferred := rfl
@[simp] theorem setInbox_args : (s.setInbox v).args = s.args := rfl
@[simp] theorem setInbox_inbox : (s.setInbox v).inbox = v := rfl
@[simp] theorem setInbox_oob : (s.setInbox v).oob = s.oob := rfl
@[simp] theorem setInbox_out : (s.setInbox v).out = s.out := rfl
@[simp] theorem setInbox_toEngine : (s.setInbox v).toEngine = s.toEngine := rfl
end

section
variable (s : State) (v : Oob)
@[simp] theorem setOob_cfg : (s.setOob v).cfg = s.cfg := rfl
@[simp] theorem setOob_ts : (s.setOob v).ts = s.ts := rfl
@[simp] theorem setOob_mode : (s.setOob v).mode = s.mode := rfl
@[simp] theorem setOob_frame : (s.setOob v).frame = s.frame := rfl
@[simp] theorem setOob_intDone : (s.setOob v).intDone = s.intDone := rfl
@[simp] theorem setOob_atBoundary : (s.setOob v).atBoundary = s.atBoundary := rfl
@[simp] theorem setOob_ula : (s.setOob v).ula = s.ula := rfl
@[simp] theorem setOob_paging : (s.setOob v).paging = s.paging := rfl
@[simp] theorem setOob_fault : (s.setOob v).fault = s.fault := rfl
@[simp] theorem setOob_devConflict : (s.setOob v).devConflict = s.devConflict := rfl
@[simp] theorem setOob_pages : (s.setOob v).pages = s.pages := rfl
@[simp] theorem setOob_chain : (s.setOob v).chain = s.chain := rfl
@[simp] theorem setOob_border0 : (s.setOob v).border0 = s.border0 := rfl
@[simp] theorem setOob_borderEv : (s.setOob v).borderEv = s.borderEv := rfl
@[simp] theorem setOob_vcache : (s.setOob v).vcache = s.vcache := rfl
@[simp] theorem setOob_audio : (s.setOob v).audio = s.audio := rfl
@[simp] theorem setOob_wrap : (s.setOob v).wrap = s.wrap := rfl
@[simp] theorem setOob_deferred : (s.setOob v).deferred = s.deferred := rfl
@[simp] theorem setOob_args : (s.setOob v).args = s.args := rfl
@[simp] theorem setOob_inbox : (s.setOob v).inbox = s.inbox := rfl
@[simp] theorem setOob_oob : (s.setOob v).oob = v := rfl
@[simp] theorem setOob_out : (s.setOob v).out = s.out := rfl
@[simp] theorem setOob_toEngine : (s.setOob v).toEngine = s.toEngine := rfl
end

section
variable (s : State) (v : List Output)
@[simp] theorem setOut_cfg : (s.setOut v).cfg = s.cfg := rfl
@[simp] theorem setOut_ts : (s.setOut v).ts = s.ts := rfl
@[simp] theorem setOut_mode : (s.setOut v).mode = s.mode := rfl
@[simp] theorem setOut_frame : (s.setOut v).frame = s.frame := rfl
@[simp] theorem setOut_intDone : (s.setOut v).intDone = s.intDone := rfl
@[simp] theorem setOut_atBoundary : (s.setOut v).atBoundary = s.atBoundary := rfl
@[simp] theorem setOut_ula : (s.setOut v).ula = s.ula := rfl
@[simp] theorem setOut_paging : (s.setOut v).paging = s.paging := rfl
@[simp] theorem setOut_fault : (s.setOut v).fault = s.fault := rfl
@[simp] theorem setOut_devConflict : (s.setOut v).devConflict = s.devConflict := rfl
@[simp] theorem setOut_pages : (s.setOut v).pages = s.pages := rfl
@[simp] theorem setOut_chain : (s.setOut v).chain = s.chain := rfl
@[simp] theorem setOut_border0 : (s.setOut v).border0 = s.border0 := rfl
@[simp] theorem setOut_borderEv : (s.setOut v).borderEv = s.borderEv := rfl
@[simp] theorem setOut_vcache : (s.setOut v).vcache = s.vcache := rfl
@[simp] theorem setOut_audio : (s.setOut v).audio = s.audio := rfl
@[simp] theorem setOut_wrap : (s.setOut v).wrap = s.wrap := rfl
@[simp] theorem setOut_deferred : (s.setOut v).deferred = s.deferred := rfl
@[simp] theorem setOut_args : (s.setOut v).args = s.args := rfl
@[simp] theorem setOut_inbox : (s.setOut v).inbox = s.inbox := rfl
@[simp] theorem setOut_oob : (s.setOut v).oob = s.oob := rfl
@[simp] theorem setOut_out : (s.setOut v).out = v := rfl
@[simp] theorem setOut_toEngine : (s.setOut v).toEngine = s.toEngine := rfl
end

section
variable (s : State) (v : Engine)
@[simp] theorem setEngine_cfg : (s.setEngine v).cfg = v.cfg := rfl
@[simp] theorem setEngine_ts : (s.setEngine v).ts = v.ts := rfl
@[simp] theorem setEngine_mode : (s.setEngine v).mode = v.mode := rfl
@[simp] theorem setEngine_frame : (s.setEngine v).frame = v.frame := rfl
@[simp] theorem setEngine_intDone : (s.setEngine v).intDone = v.intDone := rfl
@[simp] theorem setEngine_atBoundary : (s.setEngine v).atBoundary = v.atBoundary := rfl
@[simp] theorem setEngine_ula : (s.setEngine v).ula = v.ula := rfl
@[simp] theorem setEngine_paging : (s.setEngine v).paging = v.paging := rfl
@[simp] theorem setEngine_fault : (s.setEngine v).fault = v.fault := rfl
@[simp] theorem setEngine_devConflict : (s.setEngine v).devConflict = v.devConflict := rfl
@[simp] theorem setEngine_pages : (s.setEngine v).pages = v.pages := rfl
@[simp] theorem setEngine_chain : (s.setEngine v).chain = v.chain := rfl
@[simp] theorem setEngine_border0 : (s.setEngine v).border0 = v.border0 := rfl
@[simp] theorem setEngine_borderEv : (s.setEngine v).borderEv = v.borderEv := rfl
@[simp] theorem setEngine_vcache : (s.setEngine v).vcache = v.vcache := rfl
@[simp] theorem setEngine_audio : (s.setEngine v).audio = v.audio := rfl
@[simp] theorem setEngine_wrap : (s.setEngine v).wrap = v.wrap := rfl
@[simp] theorem setEngine_deferred : (s.setEngine v).deferred = s.deferred := rfl
@[simp] theorem setEngine_args : (s.setEngine v).args = s.args := rfl
@[simp] theorem setEngine_inbox : (s.setEngine v).inbox = s.inbox := rfl
@[simp] theorem setEngine_oob : (s.setEngine v).oob = s.oob := rfl
@[simp] theorem setEngine_out : (s.setEngine v).out = s.out := rfl
@[simp] theorem setEngine_toEngine : (s.setEngine v).toEngine = v := rfl
end

section
variable (o : Output) (r : Response) (s : State)
@[simp] theorem emit_cfg : (emit o s).cfg = s.cfg := rfl
@[simp] theorem respond_cfg : (respond r s).cfg = s.cfg := rfl
@[simp] theorem emit_ts : (emit o s).ts = s.ts := rfl
@[simp] theorem respond_ts : (respond r s).ts = s.ts := rfl
@[simp] theorem emit_mode : (emit o s).mode = s.mode := rfl
@[simp] theorem respond_mode : (respond r s).mode = s.mode := rfl
@[simp] theorem emit_frame : (emit o s).frame = s.frame := rfl
@[simp] theorem respond_frame : (respond r s).frame = s.frame := rfl
@[simp] theorem emit_intDone : (emit o s).intDone = s.intDone := rfl
@[simp] theorem respond_intDone : (respond r s).intDone = s.intDone := rfl
@[simp] theorem emit_atBoundary : (emit o s).atBoundary = s.atBoundary := rfl
@[simp] theorem respond_atBoundary : (respond r s).atBoundary = s.atBoundary := rfl
@[simp] theorem emit_ula : (emit o s).ula = s.ula := rfl
@[simp] theorem respond_ula : (respond r s).ula = s.ula := rfl
@[simp] theorem emit_paging : (emit o s).paging = s.paging := rfl
@[simp] theorem respond_paging : (respond r s).paging = s.paging := rfl
@[simp] theorem emit_fault : (emit o s).fault = s.fault := rfl
@[simp] theorem respond_fault : (respond r s).fault = s.fault := rfl
@[simp] theorem emit_devConflict : (emit o s).devConflict = s.devConflict := rfl
@[simp] theorem respond_devConflict : (respond r s).devConflict = s.devConflict := rfl
@[simp] theorem emit_pages : (emit o s).pages = s.pages := rfl
@[simp] theorem respond_pages : (respond r s).pages = s.pages := rfl
@[simp] theorem emit_chain : (emit o s).chain = s.chain := rfl
@[simp] theorem respond_chain : (respond r s).chain = s.chain := rfl
@[simp] theorem emit_border0 : (emit o s).border0 = s.border0 := rfl
@[simp] theorem respond_border0 : (respond r s).border0 = s.border0 := rfl
@[simp] theorem emit_borderEv : (emit o s).borderEv = s.borderEv := rfl
@[simp] theorem respond_borderEv : (respond r s).borderEv = s.borderEv := rfl
@[simp] theorem emit_vcache : (emit o s).vcache = s.vcache := rfl
@[simp] theorem respond_vcache : (respond r s).vcache = s.vcache := rfl
@[simp] theorem emit_audio : (emit o s).audio = s.audio := rfl
@[simp] theorem respond_audio : (respond r s).audio = s.audio := rfl
@[simp] theorem emit_wrap : (emit o s).wrap = s.wrap := rfl
@[simp] theorem respond_wrap : (respond r s).wrap = s.wrap := rfl
@[simp] theorem emit_deferred : (emit o s).deferred = s.deferred := rfl
@[simp] theorem respond_deferred : (respond r s).deferred = s.deferred := rfl
@[simp] theorem emit_args : (emit o s).args = s.args := rfl
@[simp] theorem respond_args : (respond r s).args = s.args := rfl
@[simp] theorem emit_inbox : (emit o s).inbox = s.inbox := rfl
@[simp] theorem respond_inbox : (respond r s).inbox = s.inbox := rfl
@[simp] theorem emit_oob : (emit o s).oob = s.oob := rfl
@[simp] theorem respond_oob : (respond r s).oob = s.oob := rfl
@[simp] theorem emit_out : (emit o s).out = s.out ++ [o] := rfl
@[simp] theorem respond_out : (respond r s).out = s.out ++ [.response r] := rfl
@[simp] theorem emit_toEngine : (emit o s).toEngine = s.toEngine := rfl
@[simp] theorem respond_toEngine : (respond r s).toEngine = s.toEngine := rfl
end

end Sys2Proof.Machine
end

