-- ==== Sys2Proof/Laws/Admission.lean ====
section
/-! SUPPORT. What a decoded word says about its opcode, and what becomes of an issued word. -/

namespace Sys2Proof

theorem checked_eq_ok {r v : Bool} {i j : Instr} : checked r v i = .ok j ↔ r = true ∧ v = true ∧ i = j := by
  unfold checked; cases r <;> cases v <;> simp

theorem checked_eq_error {r v : Bool} {i : Instr} {e : Reason} :
    checked r v i = .error e ↔ r = false ∧ e = .reservedField ∨ r = true ∧ v = false ∧ e = .badField := by
  unfold checked; cases r <;> cases v <;> cases e <;> simp

/-- A word that decodes has the opcode of its instruction. -/
theorem decodeFields_op {f : Fields} {i : Instr} (h : decodeFields f = .ok i) : f.op = (encodeFields i).op := by
  unfold decodeFields at h
  dsimp only at h
  by_cases e : f.op = 0x01#8
  · rw [if_pos e, checked_eq_ok] at h; rw [← h.2.2]; exact e
  rw [if_neg e] at h; clear e
  by_cases e : f.op = 0x02#8
  · rw [if_pos e, checked_eq_ok] at h; rw [← h.2.2]; exact e
  rw [if_neg e] at h; clear e
  by_cases e : f.op = 0x03#8
  · rw [if_pos e, checked_eq_ok] at h; rw [← h.2.2]; exact e
  rw [if_neg e] at h; clear e
  by_cases e : f.op = 0x04#8
  · rw [if_pos e, checked_eq_ok] at h; rw [← h.2.2]; exact e
  rw [if_neg e] at h; clear e
  by_cases e : f.op = 0x05#8
  · rw [if_pos e, checked_eq_ok] at h; rw [← h.2.2]; exact e
  rw [if_neg e] at h; clear e
  by_cases e : f.op = 0x06#8
  · rw [if_pos e, checked_eq_ok] at h; rw [← h.2.2]; exact e
  rw [if_neg e] at h; clear e
  by_cases e : f.op = 0x10#8
  · rw [if_pos e, checked_eq_ok] at h; rw [← h.2.2]; exact e
  rw [if_neg e] at h; clear e
  by_cases e : f.op = 0x11#8
  · rw [if_pos e, checked_eq_ok] at h; rw [← h.2.2]; exact e
  rw [if_neg e] at h; clear e
  by_cases e : f.op = 0x12#8
  · rw [if_pos e, checked_eq_ok] at h; rw [← h.2.2]; exact e
  rw [if_neg e] at h; clear e
  by_cases e : f.op = 0x14#8
  · rw [if_pos e, checked_eq_ok] at h; rw [← h.2.2]; exact e
  rw [if_neg e] at h; clear e
  by_cases e : f.op = 0x15#8
  · rw [if_pos e, checked_eq_ok] at h; rw [← h.2.2]; exact e
  rw [if_neg e] at h; clear e
  by_cases e : f.op = 0x16#8
  · rw [if_pos e, checked_eq_ok] at h; rw [← h.2.2]; exact e
  rw [if_neg e] at h; clear e
  by_cases e : f.op = 0x20#8
  · rw [if_pos e, checked_eq_ok] at h; rw [← h.2.2]; exact e
  rw [if_neg e] at h; clear e
  by_cases e : f.op = 0x21#8
  · rw [if_pos e, checked_eq_ok] at h; rw [← h.2.2]; exact e
  rw [if_neg e] at h; clear e
  by_cases e : f.op = 0x22#8
  · rw [if_pos e, checked_eq_ok] at h; rw [← h.2.2]; exact e
  rw [if_neg e] at h; clear e
  by_cases e : f.op = 0x23#8
  · rw [if_pos e, checked_eq_ok] at h; rw [← h.2.2]; exact e
  rw [if_neg e] at h; clear e
  by_cases e : f.op = 0x24#8
  · rw [if_pos e, checked_eq_ok] at h; rw [← h.2.2]; exact e
  rw [if_neg e] at h; clear e
  by_cases e : f.op = 0x25#8
  · rw [if_pos e, checked_eq_ok] at h; rw [← h.2.2]; exact e
  rw [if_neg e] at h; clear e
  by_cases e : f.op = 0x26#8
  · rw [if_pos e, checked_eq_ok] at h; rw [← h.2.2]; exact e
  rw [if_neg e] at h; clear e
  by_cases e : f.op = 0x27#8
  · rw [if_pos e, checked_eq_ok] at h; rw [← h.2.2]; exact e
  rw [if_neg e] at h; clear e
  by_cases e : f.op = 0x28#8
  · rw [if_pos e, checked_eq_ok] at h; rw [← h.2.2]; exact e
  rw [if_neg e] at h; clear e
  by_cases e : f.op = 0x29#8
  · rw [if_pos e, checked_eq_ok] at h; rw [← h.2.2]; exact e
  rw [if_neg e] at h
  cases h

theorem decode_op {w : CmdWord} {i : Instr} (h : decode w = .ok i) : (fieldsOf w).op = (encodeFields i).op :=
  decodeFields_op h

/-- No instruction of the map has a custom opcode. -/
theorem encodeFields_op_not_custom (i : Instr) : (encodeFields i).op.getLsbD 7 = false := by
  cases i <;> simp only [encodeFields] <;> decide

namespace Machine

/-- A word of the opcode map is no custom command of a wrapper. -/
theorem customOf_of_decode {w : CmdWord} {i : Instr} (h : decode w = .ok i) (s : State) : customOf w s = none := by
  unfold customOf
  rw [decode_op h, encodeFields_op_not_custom i, if_neg Bool.false_ne_true]

theorem admitted_of_running {s : State} (h : s.mode ≠ .faulted) (w : CmdWord) : admitted w s = true := by
  simp [admitted, h]

@[simp] theorem takeIssue_engine (x : Issue) (rest : List Issue) (s : State) : (takeIssue x rest s).toEngine = s.toEngine := rfl
@[simp] theorem takeIssue_deferred (x : Issue) (rest : List Issue) (s : State) : (takeIssue x rest s).deferred = s.deferred := rfl
@[simp] theorem takeIssue_args (x : Issue) (rest : List Issue) (s : State) : (takeIssue x rest s).args = s.args := rfl
@[simp] theorem takeIssue_inbox (x : Issue) (rest : List Issue) (s : State) : (takeIssue x rest s).inbox = rest := rfl
@[simp] theorem takeIssue_oob (x : Issue) (rest : List Issue) (s : State) : (takeIssue x rest s).oob = x.oob := rfl
@[simp] theorem takeIssue_out (x : Issue) (rest : List Issue) (s : State) : (takeIssue x rest s).out = [] := rfl
@[simp] theorem takeIssue_mode (x : Issue) (rest : List Issue) (s : State) : (takeIssue x rest s).mode = s.mode := rfl
@[simp] theorem takeIssue_wrap (x : Issue) (rest : List Issue) (s : State) : (takeIssue x rest s).wrap = s.wrap := rfl
@[simp] theorem takeIssue_fault (x : Issue) (rest : List Issue) (s : State) : (takeIssue x rest s).fault = s.fault := rfl

@[simp] theorem customOf_takeIssue (w : CmdWord) (x : Issue) (rest : List Issue) (s : State) :
    customOf w (takeIssue x rest s) = customOf w s := rfl

@[simp] theorem admitted_takeIssue (w : CmdWord) (x : Issue) (rest : List Issue) (s : State) :
    admitted w (takeIssue x rest s) = admitted w s := rfl

/-- A step with something issued: everything that can become of the word. -/
theorem step_cases {s : State} {x : Issue} {rest : List Issue} (h : s.inbox = x :: rest) :
    (admitted x.word s = false ∧ step s = .next (respond (.halted s.fault) (takeIssue x rest s))) ∨
    (admitted x.word s = true ∧ ∃ k, customOf x.word s = some k ∧
      ((x.iface = .host ∧ step s = customCommand k x.word (takeIssue x rest s)) ∨
        (x.iface = .stepping ∧ step s = .next (respond (.refused .badField) (takeIssue x rest s))))) ∨
    (admitted x.word s = true ∧ customOf x.word s = none ∧ ∃ r, decode x.word = .error r ∧
      step s = .next (respond (.refused r) (takeIssue x rest s))) ∨
    (admitted x.word s = true ∧ ∃ i, decode x.word = .ok i ∧
      ((accepts x.iface i = true ∧ step s = exec i (takeIssue x rest s)) ∨
        (accepts x.iface i = false ∧ step s = .next (respond (.refused .badField) (takeIssue x rest s))))) := by
  unfold step
  rw [h]
  dsimp only
  unfold verdict
  rw [admitted_takeIssue, customOf_takeIssue]
  cases ha : admitted x.word s
  · left; simp
  · right
    cases hc : customOf x.word s with
    | some k =>
      left
      refine ⟨rfl, k, rfl, ?_⟩
      cases hi : x.iface <;> simp
    | none =>
      right
      cases hd : decode x.word with
      | error r => left; exact ⟨rfl, rfl, r, rfl, by simp⟩
      | ok i =>
        right
        refine ⟨rfl, i, rfl, ?_⟩
        cases hx : accepts x.iface i <;> simp [hx]

end Machine

end Sys2Proof
end

