-- ==== Sys2Proof/Laws/Audio.lean ====
section
/-! SUPPORT. Sums of steps and the queues of audio edges (R261 to R263). -/

namespace Sys2Proof.Machine

theorem ratSum_append (a b : List Rat) : ratSum (a ++ b) = ratSum a + ratSum b := by
  induction a with
  | nil => simp [ratSum]
  | cons x a ih => simp only [List.cons_append, ratSum, ih]; ring

theorem ratSum_zero {l : List Rat} (h : ∀ x ∈ l, x = 0) : ratSum l = 0 := by
  induction l with
  | nil => rfl
  | cons x l ih => rw [ratSum, h x (by simp), ih (fun y hy => h y (by simp [hy]))]; norm_num

theorem ratSum_map_congr {α : Type} {l : List α} {f g : α → Rat} (h : ∀ x ∈ l, f x = g x) : ratSum (l.map f) = ratSum (l.map g) := by
  rw [List.map_congr_left h]

/-- The steps of a queue start from the level that the edges before it leave. -/
theorem edgeSteps_append (P : Params) (f : Nat) (l : Rat) (a b : List Edge) :
   edgeSteps P f l (a ++ b) = edgeSteps P f l a ++ edgeSteps P f ((a.getLast?.map (fun e => (e.level : Rat))).getD l) b := by
  induction a generalizing l with
  | nil => rfl
  | cons e a ih =>
    rw [List.cons_append, edgeSteps, edgeSteps, ih, List.cons_append, List.getLast?_cons]
    cases a.getLast? <;> rfl

/-- The level changes of a queue telescope to its last level (R263). -/
theorem edgeSteps_sum (P : Params) (f : Nat) (l : Rat) (a : List Edge) :
   l + ratSum ((edgeSteps P f l a).map (·.delta)) = (a.getLast?.map (fun e => (e.level : Rat))).getD l := by
  induction a generalizing l with
  | nil => simp [edgeSteps, ratSum]
  | cons e a ih =>
    have := ih (e.level : Rat)
    rw [edgeSteps, List.map_cons, ratSum, List.getLast?_cons]
    have e1 : (Option.map (fun e => (e.level : Rat)) (some (a.getLast?.getD e))).getD l = (Option.map (fun e => (e.level : Rat)) a.getLast?).getD (e.level : Rat) := by
      cases a.getLast? <;> rfl
    rw [e1, ← this]; ring

/-- An ordered queue is its edges before the frame end, then those at or past it (R262). -/
theorem ordered_split_at {es : List Edge} (h : es.Pairwise (fun a b => a.t ≤ b.t)) (E : Nat) :
   es = es.filter (fun e => decide (e.t < E)) ++ es.filter (fun e => decide (E ≤ e.t)) := by
  induction es with
  | nil => rfl
  | cons e es ih =>
    obtain ⟨h1, h2⟩ := List.pairwise_cons.1 h
    by_cases he : e.t < E
    · rw [List.filter_cons_of_pos (by simpa using he), List.filter_cons_of_neg (by simp; omega), List.cons_append, ← ih h2]
    · have : es.filter (fun e => decide (e.t < E)) = [] := by
        rw [List.filter_eq_nil_iff]; intro a ha; have := h1 a ha; simp; omega
      rw [List.filter_cons_of_neg (by simpa using he), this, List.nil_append, List.filter_cons_of_pos (by simp; omega)]
      congr 1
      symm; rw [List.filter_eq_self]; intro a ha; have := h1 a ha; simp; omega

/-- Carried edges keep their absolute positions (R259, R262). -/
theorem edgeSteps_carry (P : Params) (f : Nat) (l : Rat) (es : List Edge) (h : ∀ e ∈ es, P.eof ≤ e.t) :
   edgeSteps P (f+1) l (es.map (fun e => { e with t := e.t - P.eof })) = edgeSteps P f l es := by
  induction es generalizing l with
  | nil => rfl
  | cons e es ih =>
    rw [List.map_cons, edgeSteps, edgeSteps, ih _ (fun x hx => h x (by simp [hx]))]
    have := h e (by simp)
    have : (f + 1) * P.eof + (e.t - P.eof) = f * P.eof + e.t := by rw [Nat.add_mul]; omega
    dsimp only
    rw [this]

theorem edgeSteps_mem {P : Params} {f : Nat} {l : Rat} {es : List Edge} {p : Pend} (h : p ∈ edgeSteps P f l es) :
   ∃ e ∈ es, p.pos = samplePos P (f * P.eof + e.t) := by
  induction es generalizing l with
  | nil => simp [edgeSteps] at h
  | cons e es ih =>
    rw [edgeSteps, List.mem_cons] at h
    rcases h with rfl | h
    · exact ⟨e, by simp, rfl⟩
    · obtain ⟨e', h1, h2⟩ := ih h; exact ⟨e', by simp [h1], h2⟩

/-- A sum over settled and unsettled steps (R263). -/
theorem ratSum_filter (q : Pend → Bool) (g : Pend → Rat) (l : List Pend) :
   ratSum (l.map g) = ratSum ((l.filter q).map g) + ratSum ((l.filter (fun p => !q p)).map g) := by
  induction l with
  | nil => norm_num [ratSum]
  | cons p l ih =>
    cases h : q p
    · rw [List.filter_cons_of_neg (by simp [h]), List.filter_cons_of_pos (by simp [h]), List.map_cons, List.map_cons, ratSum, ratSum, ih]; ring
    · rw [List.filter_cons_of_pos (by simp [h]), List.filter_cons_of_neg (by simp [h]), List.map_cons, List.map_cons, ratSum, ratSum, ih]; ring

end Sys2Proof.Machine
end

