-- ==== Sys2Proof/Laws/Contention.lean ====
section
/-! SUPPORT. The region that contention and the display fetch share, and the wait-state calculator (R151 to R155, R174, R202). -/

namespace Sys2Proof.Machine

/-- Where a cycle of the region lies. -/
theorem inRegion_some {P : Params} {start t y h : Nat} (e : inRegion P start t = some (y, h)) :
    t = start + y * P.cpl + h ∧ y < P.contLines ∧ h < P.contCycles := by
  unfold inRegion at e
  split at e
  · next hh =>
    simp only [Option.some.injEq, Prod.mk.injEq] at e
    obtain ⟨h1, h2, h3⟩ := hh
    obtain ⟨rfl, rfl⟩ := e
    have hd := Nat.div_add_mod (t - start) P.cpl
    refine ⟨?_, ?_, h3⟩
    · rw [Nat.mul_comm] at hd; omega
    · exact (Nat.div_lt_iff_lt_mul (by
        rcases Nat.eq_zero_or_pos P.cpl with h | h
        · rw [h] at h2; omega
        · exact h)).2 h2
  · cases e

/-- Every line and cycle of the region is found. -/
theorem inRegion_at {P : Params} {start y h : Nat} (hy : y < P.contLines) (hh : h < P.contCycles) (hc : P.contCycles ≤ P.cpl) :
    inRegion P start (start + y * P.cpl + h) = some (y, h) := by
  have e : start + y * P.cpl + h - start = h + P.cpl * y := by rw [Nat.mul_comm]; omega
  have hcpl : h < P.cpl := by omega
  have hdiv : (h + P.cpl * y) / P.cpl = y := by
    rw [Nat.add_mul_div_left _ _ (by omega), Nat.div_eq_of_lt hcpl]; omega
  have hmod : (h + P.cpl * y) % P.cpl = h := by rw [Nat.add_mul_mod_self_left, Nat.mod_eq_of_lt hcpl]
  unfold inRegion
  rw [e, hdiv, hmod, if_pos]
  refine ⟨by omega, ?_, hh⟩
  have : (y + 1) * P.cpl ≤ P.contLines * P.cpl := Nat.mul_le_mul_right _ hy
  rw [Nat.mul_comm P.cpl y]
  rw [Nat.add_mul] at this; omega

theorem le_foldl_max (l : List Nat) (a : Nat) : a ≤ l.foldl max a ∧ ∀ x ∈ l, x ≤ l.foldl max a := by
  induction l generalizing a with
  | nil => simp
  | cons b l ih =>
    obtain ⟨h1, h2⟩ := ih (max a b)
    refine ⟨by rw [List.foldl_cons]; omega, ?_⟩
    intro x hx
    rw [List.foldl_cons]
    rcases List.mem_cons.1 hx with rfl | hx
    · omega
    · exact h2 x hx

theorem pattern_le_maxWait (P : Params) (k : Nat) : P.contPattern.toList.getD k 0 ≤ P.maxWait := by
  rw [List.getD_eq_getElem?_getD]
  cases h : P.contPattern.toList[k]? with
  | none => simp
  | some x => exact (le_foldl_max _ 0).2 x (List.mem_of_getElem? h)

/-- R153. -/
theorem contention_le_maxWait (P : Params) (t : Nat) : contention P t ≤ P.maxWait := by
  unfold contention
  split
  · exact pattern_le_maxWait ..
  · omega

/-- The instants after contended phases compose. -/
theorem contendedPhases_add (P : Params) (j k t : Nat) : contendedPhases P (j + k) t = contendedPhases P k (contendedPhases P j t) := by
  induction j generalizing t with
  | zero => simp [contendedPhases]
  | succ j ih => rw [Nat.add_right_comm]; simp only [contendedPhases]; exact ih _

theorem contendedPhases_ge (P : Params) (k t : Nat) : t + k ≤ contendedPhases P k t := by
  induction k generalizing t with
  | zero => simp [contendedPhases]
  | succ k ih => have := ih (t + contentionWrap P t + 1); simp only [contendedPhases]; omega

end Sys2Proof.Machine
end

