-- ==== Sys2Proof/Laws/Devices.lean ====
section
/-! SUPPORT. What a device call and a walk over the chain may change: device states, node clocks, the audio channels of
devices, and for a read the conflict flag. -/

namespace Sys2Proof.Machine

/-! ## Results -/

@[simp] theorem Res.state_ok {σ α : Type} (a : α) (x : σ) : (Res.ok a x).state = x := rfl
@[simp] theorem Res.state_raised {σ α : Type} (f : FaultRec) (x : σ) : (Res.raised f x : Res σ α).state = x := rfl
@[simp] theorem Res.bind_ok {σ α β : Type} (a : α) (x : σ) (k : α → σ → Res σ β) : (Res.ok a x).bind k = k a x := rfl
@[simp] theorem Res.bind_raised {σ α β : Type} (f : FaultRec) (x : σ) (k : α → σ → Res σ β) :
    (Res.raised f x).bind k = .raised f x := rfl

/-- A property that the first part establishes and the second keeps holds of the whole. -/
theorem Res.bind_state {σ α β : Type} {r : Res σ α} {k : α → σ → Res σ β} (R : σ → Prop) (h : R r.state)
    (hk : ∀ a x, r = .ok a x → R x → R (k a x).state) : R (r.bind k).state := by
  cases r with
  | ok a x => exact hk a x rfl h
  | raised f x => exact h

theorem Res.bind_eq_ok {σ α β : Type} {r : Res σ α} {k : α → σ → Res σ β} {b : β} {y : σ} (h : r.bind k = .ok b y) :
    ∃ a x, r = .ok a x ∧ k a x = .ok b y := by
  cases r with
  | ok a x => exact ⟨a, x, rfl, h⟩
  | raised f x => cases h

/-! ## Edges -/

/-- The audio state with the device channels `cs`. -/
def Audio.withChans (a : Audio) (cs : List DevChannel) : Audio := { a with chans := cs }

theorem deviceEdges_keeps (P : Params) (f : Tick) (id : Addr) (tnow : Nat) (es : List DevEdge) (a : Audio) :
    (deviceEdges P f id tnow es a).state = a.withChans (deviceEdges P f id tnow es a).state.chans := by
  induction es generalizing a with
  | nil => rfl
  | cons e rest ih =>
    unfold deviceEdges
    unfold audioEdge
    cases chanEdge id e.chan (linInstant P f e.time) e.level tnow a.chans with
    | error r => rfl
    | ok cs =>
      simp only [Except.map]
      rw [ih]
      rfl

/-! ## One node -/

/-- What a device call keeps of its node. -/
def Node.fixed (n : Node) : Addr × ClockRepr × Nat × DevOps := (n.id, n.clock, n.nch, n.ops)

/-- A device call keeps the node's wiring and the EAR and MIC channels. -/
structure CallKeeps (n : Node) (a : Audio) (c : NodeCtx) : Prop where
  fixed : c.1.fixed = n.fixed
  audio : c.2 = a.withChans c.2.chans

theorem CallKeeps.refl (n : Node) (a : Audio) : CallKeeps n a (n, a) := ⟨rfl, rfl⟩

theorem CallKeeps.trans {n : Node} {a : Audio} {c d : NodeCtx} (h : CallKeeps n a c) (h' : CallKeeps c.1 c.2 d) :
    CallKeeps n a d := by
  refine ⟨h'.fixed.trans h.fixed, ?_⟩
  rw [h'.audio, h.audio]; rfl

theorem settleReply_keeps {α : Type} (P : Params) (f : Tick) (tnow : Nat) (n : Node) (a : Audio) (r : DevReply α) :
    CallKeeps n a (settleReply P f tnow n a r).state := by
  unfold settleReply
  have h := deviceEdges_keeps P f n.id tnow r.edges a
  cases hd : deviceEdges P f n.id tnow r.edges a with
  | ok u a' => rw [hd] at h; exact ⟨rfl, h⟩
  | raised e a' => rw [hd] at h; exact ⟨rfl, h⟩

/-- A device call does not move the node's clock. -/
theorem settleReply_last {α : Type} {P : Params} {f : Tick} {tnow : Nat} {n : Node} {a : Audio} {r : DevReply α} {v : α}
    {c : NodeCtx} (h : settleReply P f tnow n a r = .ok v c) : c.1.last = n.last ∧ v = r.ret := by
  unfold settleReply at h
  cases hd : deviceEdges P f n.id tnow r.edges a with
  | ok u a' => rw [hd] at h; cases h; exact ⟨rfl, rfl⟩
  | raised e a' => rw [hd] at h; cases h

/-- The tick of an instant of frame `f` (R144, R145). -/
def tickAt (P : Params) (f : Tick) (t : Nat) : Tick := absTick P (normInstant P f t).1 (normInstant P f t).2

theorem syncNode_keeps (P : Params) (f : Tick) (t : Nat) (n : Node) (a : Audio) :
    CallKeeps n a (syncNode P f t n a).state := by
  unfold syncNode
  dsimp only
  split
  · exact .refl n a
  · split
    · exact .refl n a
    · next x _ =>
      refine Res.bind_state (CallKeeps n a) (settleReply_keeps P f t n a _) ?_
      intro _ c _ h
      exact h.trans ⟨rfl, rfl⟩

theorem syncNode_last {P : Params} {f : Tick} {t : Nat} {n : Node} {a : Audio} {x : DevTime} {c : NodeCtx}
    (h : syncNode P f t n a = .ok x c) : c.1.last = tickAt P f t := by
  unfold syncNode at h
  dsimp only at h
  split at h
  · cases h
  · split at h
    · cases h
    · obtain ⟨_, c', _, h⟩ := Res.bind_eq_ok h
      cases h; rfl

theorem readNode_keeps (P : Params) (f : Tick) (p : Addr) (td : Nat) (n : Node) (a : Audio) :
    CallKeeps n a (readNode P f p td n a).state :=
  Res.bind_state (CallKeeps n a) (syncNode_keeps P f td n a) fun _ _ _ h => h.trans (settleReply_keeps ..)

theorem writeNode_keeps (P : Params) (f : Tick) (p : Addr) (te : Nat) (v : Byte) (n : Node) (a : Audio) :
    CallKeeps n a (writeNode P f p te v n a).state :=
  Res.bind_state (CallKeeps n a) (syncNode_keeps P f te n a) fun _ _ _ h => h.trans (settleReply_keeps ..)

theorem boundaryNode_keeps (P : Params) (f : Tick) (n : Node) (a : Audio) :
    CallKeeps n a (boundaryNode P f n a).state :=
  Res.bind_state (CallKeeps n a) (syncNode_keeps P f P.eof n a) fun _ _ _ h => h.trans (settleReply_keeps ..)

theorem readNode_last {P : Params} {f : Tick} {p : Addr} {td : Nat} {n : Node} {a : Audio} {r : Option Byte} {c : NodeCtx}
    (h : readNode P f p td n a = .ok r c) : c.1.last = tickAt P f td := by
  obtain ⟨x, c', hs, h⟩ := Res.bind_eq_ok h
  rw [(settleReply_last h).1, syncNode_last hs]

theorem writeNode_last {P : Params} {f : Tick} {p : Addr} {te : Nat} {v v' : Byte} {n : Node} {a : Audio} {c : NodeCtx}
    (h : writeNode P f p te v n a = .ok v' c) : c.1.last = tickAt P f te := by
  obtain ⟨x, c', hs, h⟩ := Res.bind_eq_ok h
  rw [(settleReply_last h).1, syncNode_last hs]

theorem boundaryNode_last {P : Params} {f : Tick} {n : Node} {a : Audio} {c : NodeCtx}
    (h : boundaryNode P f n a = .ok () c) : c.1.last = tickAt P f P.eof := by
  obtain ⟨x, c', hs, h⟩ := Res.bind_eq_ok h
  rw [(settleReply_last h).1, syncNode_last hs]

/-! ## The chain -/

/-- The state `s` with another chain, other device channels and another conflict flag. -/
def State.withDevices (s : State) (chain : List Node) (cs : List DevChannel) (conflict : Bool) : State :=
  ((s.setChain chain).setAudio (s.audio.withChans cs)).setDevConflict conflict

/-- What a walk over the chain keeps: all but device states, clocks, channels and the conflict flag; and the wiring. -/
structure WalkKeeps (s t : State) : Prop where
  state : t = s.withDevices t.chain t.audio.chans t.devConflict
  wiring : t.chain.map Node.fixed = s.chain.map Node.fixed

theorem WalkKeeps.refl (s : State) : WalkKeeps s s := ⟨rfl, rfl⟩

theorem WalkKeeps.trans {s t u : State} (h : WalkKeeps s t) (h' : WalkKeeps t u) : WalkKeeps s u := by
  refine ⟨?_, h'.wiring.trans h.wiring⟩
  rw [h'.state, h.state]; rfl

theorem WalkKeeps.cfg {s t : State} (h : WalkKeeps s t) : t.cfg = s.cfg := by rw [h.state]; rfl
theorem WalkKeeps.frame {s t : State} (h : WalkKeeps s t) : t.frame = s.frame := by rw [h.state]; rfl
theorem WalkKeeps.ear {s t : State} (h : WalkKeeps s t) : t.audio.ear = s.audio.ear := by rw [h.state]; rfl
theorem WalkKeeps.mic {s t : State} (h : WalkKeeps s t) : t.audio.mic = s.audio.mic := by rw [h.state]; rfl

theorem putNode_keeps {pre post : List Node} {n : Node} {s : State} {c : NodeCtx} (hs : s.chain = pre ++ n :: post)
    (h : CallKeeps n s.audio c) : WalkKeeps s (putNode pre post s c) := by
  constructor
  · unfold putNode
    rw [h.audio]; rfl
  · show (pre ++ c.1 :: post).map Node.fixed = _
    rw [hs]; simp [h.fixed]

theorem setDevConflict_keeps (s : State) (v : Bool) : WalkKeeps s (s.setDevConflict v) := ⟨rfl, rfl⟩

theorem doubleClaim_keeps (id : Addr) (s : State) : WalkKeeps s (doubleClaim id s).state := by
  unfold doubleClaim
  split
  · exact .refl s
  · exact setDevConflict_keeps s true

theorem putNode_chain (pre post : List Node) (s : State) (c : NodeCtx) :
    (putNode pre post s c).chain = (pre ++ [c.1]) ++ post := by simp [putNode]

theorem chainReadFrom_keeps (p : Addr) (td : Nat) (post pre : List Node) (r : Option Byte) (s : State)
    (hs : s.chain = pre ++ post) : WalkKeeps s (chainReadFrom p td pre post r s).state := by
  induction post generalizing pre r s with
  | nil => exact .refl s
  | cons n post ih =>
    unfold chainReadFrom
    have hk := readNode_keeps s.P s.frame p td n s.audio
    cases hr : readNode s.P s.frame p td n s.audio with
    | raised f c => rw [hr] at hk; exact putNode_keeps hs hk
    | ok v c =>
      rw [hr] at hk
      have hput := putNode_keeps hs hk
      cases v with
      | none => exact hput.trans (ih _ _ _ (putNode_chain ..))
      | some b =>
        cases r with
        | none => exact hput.trans (ih _ _ _ (putNode_chain ..))
        | some b0 =>
          refine hput.trans (Res.bind_state (WalkKeeps (putNode pre post s c)) (doubleClaim_keeps ..) ?_)
          intro _ u hu hw
          refine hw.trans (ih _ _ _ ?_)
          unfold doubleClaim at hu
          split at hu
          · cases hu
          · cases hu; exact putNode_chain pre post s c

theorem chainWriteFrom_keeps (p : Addr) (te : Nat) (post pre : List Node) (v : Byte) (s : State)
    (hs : s.chain = pre ++ post) : WalkKeeps s (chainWriteFrom p te pre post v s).state := by
  induction post generalizing pre v s with
  | nil => exact .refl s
  | cons n post ih =>
    unfold chainWriteFrom
    have hk := writeNode_keeps s.P s.frame p te v n s.audio
    cases hr : writeNode s.P s.frame p te v n s.audio with
    | raised f c => rw [hr] at hk; exact putNode_keeps hs hk
    | ok v' c => rw [hr] at hk; exact (putNode_keeps hs hk).trans (ih _ _ _ (putNode_chain ..))

theorem boundaryFrom_keeps (post pre : List Node) (s : State) (hs : s.chain = pre ++ post) :
    WalkKeeps s (boundaryFrom pre post s).state := by
  induction post generalizing pre s with
  | nil => exact .refl s
  | cons n post ih =>
    unfold boundaryFrom
    have hk := boundaryNode_keeps s.P s.frame n s.audio
    cases hr : boundaryNode s.P s.frame n s.audio with
    | raised f c => rw [hr] at hk; exact putNode_keeps hs hk
    | ok u c => rw [hr] at hk; exact (putNode_keeps hs hk).trans (ih _ _ (putNode_chain ..))

theorem chainRead_keeps (p : Addr) (td : Nat) (s : State) : WalkKeeps s (chainRead p td s).state :=
  chainReadFrom_keeps p td s.chain [] none s rfl

theorem chainWrite_keeps (p : Addr) (v : Byte) (te : Nat) (s : State) : WalkKeeps s (chainWrite p v te s).state :=
  chainWriteFrom_keeps p te s.chain [] v s rfl

theorem boundaryCalls_keeps (s : State) : WalkKeeps s (boundaryCalls s).state := boundaryFrom_keeps s.chain [] s rfl

theorem chainWriteFrom_conflict (p : Addr) (te : Nat) (post pre : List Node) (v : Byte) (s : State) :
    (chainWriteFrom p te pre post v s).state.devConflict = s.devConflict := by
  induction post generalizing pre v s with
  | nil => rfl
  | cons n post ih =>
    unfold chainWriteFrom
    cases writeNode s.P s.frame p te v n s.audio with
    | raised f c => rfl
    | ok v' c => rw [ih]; rfl

theorem boundaryFrom_conflict (post pre : List Node) (s : State) :
    (boundaryFrom pre post s).state.devConflict = s.devConflict := by
  induction post generalizing pre s with
  | nil => rfl
  | cons n post ih =>
    unfold boundaryFrom
    cases boundaryNode s.P s.frame n s.audio with
    | raised f c => rfl
    | ok u c => rw [ih]; rfl

theorem chainWrite_conflict (p : Addr) (v : Byte) (te : Nat) (s : State) :
    (chainWrite p v te s).state.devConflict = s.devConflict := chainWriteFrom_conflict ..

theorem boundaryCalls_conflict (s : State) : (boundaryCalls s).state.devConflict = s.devConflict := boundaryFrom_conflict ..

theorem putNode_conflict (pre post : List Node) (s : State) (c : NodeCtx) :
    (putNode pre post s c).devConflict = s.devConflict := rfl

/-- R201, R37: a read leaves the conflict flag as it was, or sets it. -/
theorem chainReadFrom_conflict (p : Addr) (td : Nat) (post pre : List Node) (r : Option Byte) (s : State) :
    (chainReadFrom p td pre post r s).state.devConflict = s.devConflict ∨
      (chainReadFrom p td pre post r s).state.devConflict = true := by
  induction post generalizing pre r s with
  | nil => exact .inl rfl
  | cons n post ih =>
    unfold chainReadFrom
    cases readNode s.P s.frame p td n s.audio with
    | raised f c => exact .inl rfl
    | ok v c =>
      cases v with
      | none => exact ih ..
      | some b =>
        cases r with
        | none => exact ih ..
        | some b0 =>
          dsimp only
          unfold doubleClaim
          split
          · exact .inl rfl
          · exact .inr ((ih (pre ++ [c.1]) (some b0) ((putNode pre post s c).setDevConflict true)).elim id id)

theorem chainRead_conflict (p : Addr) (td : Nat) (s : State) :
    (chainRead p td s).state.devConflict = s.devConflict ∨ (chainRead p td s).state.devConflict = true :=
  chainReadFrom_conflict ..

theorem putNode_last {P : Params} {f : Tick} {t : Nat} {pre : List Node} {c : NodeCtx}
    (hpre : ∀ n ∈ pre, n.last = tickAt P f t) (hc : c.1.last = tickAt P f t) :
    ∀ n ∈ pre ++ [c.1], n.last = tickAt P f t := by
  intro n hn
  rcases List.mem_append.1 hn with h | h
  · exact hpre n h
  · rw [List.mem_singleton.1 h]; exact hc

theorem doubleClaim_eq_ok {id : Addr} {s u : State} (h : doubleClaim id s = .ok () u) :
    s.cfg.strict = false ∧ u = s.setDevConflict true := by
  unfold doubleClaim at h
  split at h
  · cases h
  · next hs => cases h; exact ⟨by simpa using hs, rfl⟩

theorem chainReadFrom_last {P : Params} {f : Tick} {p : Addr} {td : Nat} {post pre : List Node} {r v : Option Byte}
    {s u : State} (hP : s.P = P) (hf : s.frame = f) (hs : s.chain = pre ++ post)
    (hpre : ∀ n ∈ pre, n.last = tickAt P f td) (h : chainReadFrom p td pre post r s = .ok v u) :
    ∀ n ∈ u.chain, n.last = tickAt P f td := by
  induction post generalizing pre r s with
  | nil => cases h; rw [hs, List.append_nil]; exact hpre
  | cons n post ih =>
    unfold chainReadFrom at h
    rw [hP, hf] at h
    cases hr : readNode P f p td n s.audio with
    | raised e c => rw [hr] at h; cases h
    | ok w c =>
      rw [hr] at h
      have hl := putNode_last hpre (readNode_last hr)
      cases w with
      | none => exact ih (s := putNode pre post s c) hP hf (putNode_chain ..) hl h
      | some b =>
        cases r with
        | none => exact ih (s := putNode pre post s c) hP hf (putNode_chain ..) hl h
        | some b0 =>
          obtain ⟨_, x, hx, h⟩ := Res.bind_eq_ok h
          rw [(doubleClaim_eq_ok hx).2] at h
          exact ih (s := (putNode pre post s c).setDevConflict true) hP hf (putNode_chain pre post s c) hl h

theorem chainWriteFrom_last {P : Params} {f : Tick} {p : Addr} {te : Nat} {post pre : List Node} {v : Byte}
    {s u : State} (hP : s.P = P) (hf : s.frame = f) (hs : s.chain = pre ++ post)
    (hpre : ∀ n ∈ pre, n.last = tickAt P f te) (h : chainWriteFrom p te pre post v s = .ok () u) :
    ∀ n ∈ u.chain, n.last = tickAt P f te := by
  induction post generalizing pre v s with
  | nil => cases h; rw [hs, List.append_nil]; exact hpre
  | cons n post ih =>
    unfold chainWriteFrom at h
    rw [hP, hf] at h
    cases hr : writeNode P f p te v n s.audio with
    | raised e c => rw [hr] at h; cases h
    | ok w c =>
      rw [hr] at h
      exact ih (s := putNode pre post s c) hP hf (putNode_chain ..)
        (putNode_last hpre (writeNode_last hr)) h

theorem boundaryFrom_last {P : Params} {f : Tick} {post pre : List Node} {s u : State} (hP : s.P = P) (hf : s.frame = f)
    (hs : s.chain = pre ++ post) (hpre : ∀ n ∈ pre, n.last = tickAt P f P.eof)
    (h : boundaryFrom pre post s = .ok () u) : ∀ n ∈ u.chain, n.last = tickAt P f P.eof := by
  induction post generalizing pre s with
  | nil => cases h; rw [hs, List.append_nil]; exact hpre
  | cons n post ih =>
    unfold boundaryFrom at h
    rw [hP, hf] at h
    cases hr : boundaryNode P f n s.audio with
    | raised e c => rw [hr] at h; cases h
    | ok w c =>
      rw [hr] at h
      exact ih (s := putNode pre post s c) hP hf (putNode_chain ..)
        (putNode_last hpre (boundaryNode_last hr)) h

end Sys2Proof.Machine
end

