-- ==== Sys2Proof/Laws/Frame.lean ====
section
/-! SUPPORT. The frame end as one update of the state. -/

namespace Sys2Proof.Machine

@[simp] theorem emit_engine (o : Output) (s : State) : (emit o s).toEngine = s.toEngine := rfl
@[simp] theorem respond_engine (r : Response) (s : State) : (respond r s).toEngine = s.toEngine := rfl

theorem catchUp_eq (t : Nat) (s : State) : catchUp t s = s.setVcache (catchUp t s).vcache := rfl

theorem renderVideo_eq (s : State) : renderVideo s = s.setVcache (renderVideo s).vcache := rfl

theorem renderFrame_eq (s : State) :
    renderFrame s = (s.setVcache (renderVideo s).vcache).setOut (s.out ++
      [.frame (renderVideo s).frameBuffer (audioRender s.P s.frame.toNat (s.args.gainVal s.frame) (s.args.synthVal s.frame) s.audio)]) := rfl

theorem borderRoll_eq (s : State) :
    borderRoll s = (s.setBorder0 (s.borderAt ((s.P.eof : Int) - 1))).setBorderEv (carryEvents s.P.eof s.borderEv) := rfl

theorem rollOver_eq (s : State) :
    rollOver s = (((s.setVcache (s.vcache.map clearLine)).setBorder0 (s.borderAt ((s.P.eof : Int) - 1))).setBorderEv
      (carryEvents s.P.eof s.borderEv)).setAudio (s.audio.roll s.P s.frame.toNat) := rfl

theorem frameWrap_eq (s : State) :
    frameWrap s =
      ((((s.setTs (s.ts - s.P.eof)).setFrame (s.frame + 1)).setIntDone false).setMode .running).setAtBoundary true := rfl

@[simp] theorem setVcache_borderAt (s : State) (v : List VLine) (T : Int) :
    Engine.borderAt (s.setVcache v).toEngine T = s.borderAt T := rfl
@[simp] theorem setOut_borderAt (s : State) (v : List Output) (T : Int) :
    Engine.borderAt (s.setOut v).toEngine T = s.borderAt T := rfl

/-- Steps 4 to 6 of the frame end (R222), field by field. -/
theorem frameWrap_rollOver_renderFrame (u : State) :
    frameWrap (rollOver (renderFrame u)) =
      ((((((((((u.setVcache ((renderVideo u).vcache.map clearLine)).setOut (u.out ++
        [.frame (renderVideo u).frameBuffer (audioRender u.P u.frame.toNat (u.args.gainVal u.frame) (u.args.synthVal u.frame) u.audio)])).setBorder0
        (u.borderAt ((u.P.eof : Int) - 1))).setBorderEv (carryEvents u.P.eof u.borderEv)).setAudio
        (u.audio.roll u.P u.frame.toNat)).setTs (u.ts - u.P.eof)).setFrame (u.frame + 1)).setIntDone false).setMode
        .running).setAtBoundary true) := by
  rw [frameWrap_eq, rollOver_eq, renderFrame_eq]
  simp only [State.P, setVcache_vcache, setVcache_cfg, setOut_vcache, setOut_cfg, setOut_borderEv, setVcache_borderEv,
    setOut_frame, setVcache_frame, setOut_audio, setVcache_audio, setBorder0_cfg, setBorderEv_cfg, setAudio_cfg,
    setAudio_ts, setBorderEv_ts, setBorder0_ts, setVcache_ts, setOut_ts, setAudio_frame, setBorderEv_frame,
    setBorder0_frame, setOut_borderAt, setVcache_borderAt]
  rfl

/-- The frame end after the device calls (R222 steps 4 to 7). -/
theorem frameEnd_of_calls {s u : State} (h : boundaryCalls (finaliseInterrupt s) = .ok () u) :
    frameEnd s = applyAll u.deferred (frameWrap (rollOver (renderFrame u))) := by
  have e : (frameWrap (rollOver (renderFrame u))).deferred = u.deferred := by
    rw [frameWrap_rollOver_renderFrame]; simp
  rw [frameEnd, h]
  simp only [Res.bind]
  rw [e]

theorem frameEnd_of_raise {s u : State} {f : FaultRec} (h : boundaryCalls (finaliseInterrupt s) = .raised f u) :
    frameEnd s = .raised f u := by
  rw [frameEnd, h]; rfl

/-- The mode, the interrupt mark and the outputs are what steps 1 and 2 of the frame end change (R222). -/
theorem finaliseInterrupt_eq (s : State) :
    finaliseInterrupt s =
      ((s.setMode .frameComplete).setOut (s.out ++ (if s.intDone then [] else [.interrupt]))).setIntDone true := by
  unfold finaliseInterrupt
  dsimp only
  rw [setMode_intDone]
  cases h : s.intDone with
  | true =>
    simp only [if_true, List.append_nil]
    have : s.setIntDone true = s := by rw [← h]; rfl
    conv_lhs => rw [← this]
    rfl
  | false => rfl

/-- A frame end with nothing deferred, whole: it raises in the device calls, or it ends in steps 4 to 6. -/
theorem frameEnd_cases {s : State} (h : ∀ u, boundaryCalls (finaliseInterrupt s) = .ok () u → u.deferred = []) :
    (∃ f u, boundaryCalls (finaliseInterrupt s) = .raised f u ∧ frameEnd s = .raised f u) ∨
    ∃ u, boundaryCalls (finaliseInterrupt s) = .ok () u ∧
      frameEnd s = .ok () ((frameWrap (rollOver (renderFrame u))).setDeferred []) := by
  cases hb : boundaryCalls (finaliseInterrupt s) with
  | raised f u => exact .inl ⟨f, u, rfl, frameEnd_of_raise hb⟩
  | ok a u => exact .inr ⟨u, rfl, by rw [frameEnd_of_calls hb, h u hb]; rfl⟩

end Sys2Proof.Machine
end

