-- ==== Sys2Proof/Laws/Requests.lean ====
section
/-! SUPPORT. The bus requests as the interrupt check, the access and the sequencer step. -/

namespace Sys2Proof.Machine

/-! ## The interrupt check (R218) -/

/-- Everything the check can do. -/
theorem intCheck_cases (s : State) :
    intCheck s = s.setAtBoundary false ∨
      intCheck s = (((s.setAtBoundary false).setOut (s.out ++ [.interrupt])).setIntDone true) := by
  unfold intCheck signalIfDue
  split
  · exact .inr rfl
  · exact .inl rfl

@[simp] theorem intCheck_cfg (s : State) : (intCheck s).cfg = s.cfg := by
  rcases intCheck_cases s with h | h <;> rw [h] <;> rfl
@[simp] theorem intCheck_ts (s : State) : (intCheck s).ts = s.ts := by
  rcases intCheck_cases s with h | h <;> rw [h] <;> rfl
@[simp] theorem intCheck_mode (s : State) : (intCheck s).mode = s.mode := by
  rcases intCheck_cases s with h | h <;> rw [h] <;> rfl
@[simp] theorem intCheck_frame (s : State) : (intCheck s).frame = s.frame := by
  rcases intCheck_cases s with h | h <;> rw [h] <;> rfl
@[simp] theorem intCheck_ula (s : State) : (intCheck s).ula = s.ula := by
  rcases intCheck_cases s with h | h <;> rw [h] <;> rfl
@[simp] theorem intCheck_paging (s : State) : (intCheck s).paging = s.paging := by
  rcases intCheck_cases s with h | h <;> rw [h] <;> rfl
@[simp] theorem intCheck_fault (s : State) : (intCheck s).fault = s.fault := by
  rcases intCheck_cases s with h | h <;> rw [h] <;> rfl
@[simp] theorem intCheck_devConflict (s : State) : (intCheck s).devConflict = s.devConflict := by
  rcases intCheck_cases s with h | h <;> rw [h] <;> rfl
@[simp] theorem intCheck_pages (s : State) : (intCheck s).pages = s.pages := by
  rcases intCheck_cases s with h | h <;> rw [h] <;> rfl
@[simp] theorem intCheck_chain (s : State) : (intCheck s).chain = s.chain := by
  rcases intCheck_cases s with h | h <;> rw [h] <;> rfl
@[simp] theorem intCheck_border0 (s : State) : (intCheck s).border0 = s.border0 := by
  rcases intCheck_cases s with h | h <;> rw [h] <;> rfl
@[simp] theorem intCheck_borderEv (s : State) : (intCheck s).borderEv = s.borderEv := by
  rcases intCheck_cases s with h | h <;> rw [h] <;> rfl
@[simp] theorem intCheck_vcache (s : State) : (intCheck s).vcache = s.vcache := by
  rcases intCheck_cases s with h | h <;> rw [h] <;> rfl
@[simp] theorem intCheck_audio (s : State) : (intCheck s).audio = s.audio := by
  rcases intCheck_cases s with h | h <;> rw [h] <;> rfl
@[simp] theorem intCheck_wrap (s : State) : (intCheck s).wrap = s.wrap := by
  rcases intCheck_cases s with h | h <;> rw [h] <;> rfl
@[simp] theorem intCheck_deferred (s : State) : (intCheck s).deferred = s.deferred := by
  rcases intCheck_cases s with h | h <;> rw [h] <;> rfl
@[simp] theorem intCheck_args (s : State) : (intCheck s).args = s.args := by
  rcases intCheck_cases s with h | h <;> rw [h] <;> rfl
@[simp] theorem intCheck_inbox (s : State) : (intCheck s).inbox = s.inbox := by
  rcases intCheck_cases s with h | h <;> rw [h] <;> rfl
@[simp] theorem intCheck_oob (s : State) : (intCheck s).oob = s.oob := by
  rcases intCheck_cases s with h | h <;> rw [h] <;> rfl
@[simp] theorem intCheck_atBoundary (s : State) : (intCheck s).atBoundary = false := by
  rcases intCheck_cases s with h | h <;> rw [h] <;> rfl

/-- The engine's functions of configuration, map and store do not see the check. -/
theorem intCheck_engine (s : State) :
    (intCheck s).toEngine = { s.toEngine with atBoundary := false, intDone := (intCheck s).intDone } := by
  rcases intCheck_cases s with h | h <;> rw [h] <;> rfl

@[simp] theorem intCheck_pageOf (s : State) (a : Addr) : (intCheck s).pageOf a = s.pageOf a := by
  rw [intCheck_engine]; rfl
@[simp] theorem intCheck_screenPage (s : State) : (intCheck s).screenPage = s.screenPage := by rw [intCheck_engine]; rfl
@[simp] theorem intCheck_addrKey (s : State) (a : Addr) : (intCheck s).addrKey a = s.addrKey a := by rw [intCheck_engine]; rfl
@[simp] theorem intCheck_memRead (s : State) (a : Addr) : (intCheck s).memRead a = s.memRead a := by rw [intCheck_engine]; rfl
@[simp] theorem intCheck_memWait (s : State) (a : Addr) (t : Nat) : (intCheck s).memWait a t = s.memWait a t := by
  rw [intCheck_engine]; rfl
@[simp] theorem intCheck_internalWait (s : State) (a : Addr) (n t : Nat) :
    (intCheck s).internalWait a n t = s.internalWait a n t := by rw [intCheck_engine]; rfl
@[simp] theorem intCheck_ioWait (s : State) (t : Nat) (p : Addr) : (intCheck s).ioWait t p = s.ioWait t p := by
  rw [intCheck_engine]; rfl
@[simp] theorem intCheck_floatingBus (s : State) (t : Nat) : (intCheck s).floatingBus t = s.floatingBus t := by
  rw [intCheck_engine]; rfl

theorem startRequest_ok (op : RequestOp) {s : State} (h : s.ts < s.P.eof) : startRequest op s = .ok () (intCheck s) := by
  unfold startRequest
  dsimp only
  rw [State.P, intCheck_cfg, intCheck_ts, if_neg (Nat.not_le.2 h)]

theorem startRequest_late (op : RequestOp) {s : State} (h : s.P.eof ≤ s.ts) :
    startRequest op s = .raised { code := .e1, info := .requestAt op s.ts (.below s.P.eof) } (intCheck s) := by
  unfold startRequest
  dsimp only
  rw [State.P, intCheck_cfg, intCheck_ts, if_pos h]

/-- Whether the check of R226 raises or not, it leaves the state after the interrupt check. -/
theorem startRequest_state (op : RequestOp) (s : State) : (startRequest op s).state = intCheck s := by
  unfold startRequest
  dsimp only
  split <;> rfl

/-! ## The sequencer step (R216) -/

theorem sequencerStep_within {s : State} {wait n : Nat} (h : s.ts + wait + n < s.P.eof) :
    sequencerStep wait n s = .ok () (s.setTs (s.ts + wait + n)) := by
  unfold sequencerStep
  exact if_neg (Nat.not_le.2 h)

theorem sequencerStep_past {s : State} {wait n : Nat} (h : s.P.eof ≤ s.ts + wait + n) :
    sequencerStep wait n s = frameEnd (s.setTs (s.ts + wait + n)) := by
  unfold sequencerStep
  exact if_pos h

/-! ## The requests -/

theorem exec_mfetch {s : State} (h : s.ts < s.P.eof) (a : Addr) (n : BitVec 8) :
    exec (.mfetch a n) s = endRequest (sequencerStep (s.memWait a s.ts) n.toNat
      (respond (.data (s.memRead a) (s.memWait a s.ts)) (intCheck s))) := by
  simp only [exec, execMfetch, startRequest_ok _ h, Res.bind_ok, readCycle, phases, intCheck_ts, intCheck_memWait,
    intCheck_memRead]

theorem exec_mread {s : State} (h : s.ts < s.P.eof) (a : Addr) (n : BitVec 8) :
    exec (.mread a n) s = endRequest (sequencerStep (s.memWait a s.ts) n.toNat
      (respond (.data (s.memRead a) (s.memWait a s.ts)) (intCheck s))) := by
  simp only [exec, execMread, startRequest_ok _ h, Res.bind_ok, readCycle, phases, intCheck_ts, intCheck_memWait,
    intCheck_memRead]

theorem exec_mwrite {s : State} (h : s.ts < s.P.eof) (a : Addr) (d : Byte) (n : BitVec 8) :
    exec (.mwrite a d n) s = endRequest (sequencerStep (s.memWait a s.ts) n.toNat
      (respond (.wait (s.memWait a s.ts)) (storeByte a d (s.ts + s.memWait a s.ts) (intCheck s)))) := by
  simp only [exec, execMwrite, startRequest_ok _ h, Res.bind_ok, writeCycle, phases, intCheck_ts, intCheck_memWait]

theorem exec_minternal {s : State} (h : s.ts < s.P.eof) (a : Addr) (n : BitVec 8) :
    exec (.minternal a n) s = endRequest (sequencerStep (s.internalWait a n.toNat s.ts) n.toNat
      (respond (.wait (s.internalWait a n.toNat s.ts)) (intCheck s))) := by
  simp only [exec, execMinternal, startRequest_ok _ h, Res.bind_ok, internalCycle, phases, intCheck_ts,
    intCheck_internalWait]

theorem exec_iord {s : State} (h : s.ts < s.P.eof) (p : Addr) :
    exec (.iord p) s = endRequest ((portRead p (dataInstant s.P s.ts (s.ioWait s.ts p)) (intCheck s)).bind fun v s1 =>
      sequencerStep (s.ioWait s.ts p) 4 (respond (.data v (s.ioWait s.ts p)) s1)) := by
  simp only [exec, execIord, startRequest_ok _ h, Res.bind_ok, ioReadCycle, intCheck_ts, intCheck_ioWait, State.P,
    intCheck_cfg, ioPhases]

theorem exec_iowr {s : State} (h : s.ts < s.P.eof) (p : Addr) (d : Byte) :
    exec (.iowr p d) s = endRequest ((portWrite p d (dataInstant s.P s.ts (s.ioWait s.ts p)) (intCheck s)).bind
      fun _ s1 => sequencerStep (s.ioWait s.ts p) 4 (respond (.wait (s.ioWait s.ts p)) s1)) := by
  simp only [exec, execIowr, startRequest_ok _ h, Res.bind_ok, ioWriteCycle, intCheck_ts, intCheck_ioWait, State.P,
    intCheck_cfg, ioPhases]

/-! ## A store (R173, R89, R240) -/

/-- Everything a store can do. -/
theorem storeByte_cases (a : Addr) (v : Byte) (tw : Nat) (s : State) :
    (writablePage s.P (s.pageOf a) = false ∧ storeByte a v tw s = s) ∨
    (writablePage s.P (s.pageOf a) = true ∧ s.pageOf a ≠ s.screenPage ∧
      storeByte a v tw s = s.setPages (s.pages.write (s.addrKey a) v)) ∨
    (writablePage s.P (s.pageOf a) = true ∧ s.pageOf a = s.screenPage ∧
      storeByte a v tw s = (catchUp tw s).setPages (s.pages.write (s.addrKey a) v)) := by
  have hc : (catchUp tw s).P = s.P ∧ (catchUp tw s).pageOf a = s.pageOf a := ⟨rfl, rfl⟩
  unfold storeByte memWrite
  rw [hc.1, hc.2]
  cases hw : writablePage s.P (s.pageOf a) with
  | false => left; simp
  | true =>
    right
    by_cases hp : s.pageOf a = s.screenPage
    · right; simp only [hp, true_and, beq_self_eq_true, Bool.and_self, if_true]; rfl
    · left
      refine ⟨rfl, hp, ?_⟩
      rw [if_neg (by simp [hp])]; rfl

/-! ## A port write of the chipset (R187) -/

/-- Everything a write of the chipset port changes (R191). -/
theorem ulaWrite_keeps (v : Byte) (te : Nat) (s : State) : ∃ (evs : List BorderEvent) (ear mic : Channel),
    ulaWrite v te s = ((s.setBorderEv evs).setAudio { s.audio with ear := ear, mic := mic }).setUla v := by
  unfold ulaWrite
  dsimp only
  split
  · exact ⟨s.borderEv, _, _, rfl⟩
  · exact ⟨_, _, _, rfl⟩

/-- Everything a paging write changes (R193). -/
theorem pagingWrite_keeps (v : Byte) (s : State) : ∃ q, pagingWrite v s = s.setPaging q := by
  unfold pagingWrite
  split
  · exact ⟨s.paging, rfl⟩
  · split
    · exact ⟨s.paging, rfl⟩
    · exact ⟨_, rfl⟩

/-- Everything the chipset's own decoders change on a write (R187). -/
theorem chipsetWrite_keeps (p : Addr) (v : Byte) (te : Nat) (s : State) :
    ∃ (vc : List VLine) (q : Option Byte) (evs : List BorderEvent) (ear mic : Channel) (u : Byte),
      chipsetWrite p v te s =
        ((((s.setBorderEv evs).setAudio { s.audio with ear := ear, mic := mic }).setUla u).setVcache vc).setPaging q := by
  obtain ⟨evs, ear, mic, h1⟩ := ulaWrite_keeps v te s
  have h1' : ∃ (evs : List BorderEvent) (ear mic : Channel) (u : Byte), (if ulaSel p then ulaWrite v te s else s) =
      ((s.setBorderEv evs).setAudio { s.audio with ear := ear, mic := mic }).setUla u := by
    split
    · exact ⟨evs, ear, mic, v, h1⟩
    · exact ⟨s.borderEv, s.audio.ear, s.audio.mic, s.ula, rfl⟩
  obtain ⟨evs, ear, mic, u, h2⟩ := h1'
  unfold chipsetWrite
  dsimp only
  rw [h2]
  generalize hg : ((s.setBorderEv evs).setAudio { s.audio with ear := ear, mic := mic }).setUla u = g
  split
  · obtain ⟨q, hq⟩ := pagingWrite_keeps v (catchUp te g)
    rw [hq]
    exact ⟨_, q, evs, ear, mic, u, by rw [hg]; rfl⟩
  · exact ⟨g.vcache, g.paging, evs, ear, mic, u, by rw [hg]; rfl⟩

end Sys2Proof.Machine
end

