-- ==== Sys2Proof/Laws/Kept.lean ====
section
/-! SUPPORT. What a bus request and the frame end leave as it was. -/

namespace Sys2Proof.Machine

/-- What neither a frame end without deferred mutations nor a fault changes: every field but the clock, the interrupt mark, the
boundary mark, the fault latch, the border, the video cache, the audio state, the devices and the outputs. -/
structure Kept (s t : State) : Prop where
  cfg : t.cfg = s.cfg
  ula : t.ula = s.ula
  paging : t.paging = s.paging
  conf : t.devConflict = s.devConflict
  pages : t.pages = s.pages
  wrap : t.wrap = s.wrap
  defd : t.deferred = s.deferred
  args : t.args = s.args
  inbox : t.inbox = s.inbox
  oob : t.oob = s.oob
  wir : t.chain.map Node.fixed = s.chain.map Node.fixed

theorem Kept.trans {s t u : State} (h : Kept s t) (h' : Kept t u) : Kept s u :=
  ⟨h'.cfg.trans h.cfg, h'.ula.trans h.ula, h'.paging.trans h.paging, h'.conf.trans h.conf, h'.pages.trans h.pages,
   h'.wrap.trans h.wrap, h'.defd.trans h.defd, h'.args.trans h.args, h'.inbox.trans h.inbox, h'.oob.trans h.oob, h'.wir.trans h.wir⟩

/-- `Kept` as one update. -/
theorem Kept.eq {s t : State} (h : Kept s t) : t = { s with
        ts := t.ts, mode := t.mode, frame := t.frame, intDone := t.intDone, atBoundary := t.atBoundary, fault := t.fault
        border0 := t.border0, borderEv := t.borderEv, vcache := t.vcache, audio := t.audio, chain := t.chain
        out := t.out } := by
  obtain ⟨h1,h2,h3,h4,h5,h6,h7,h8,h9,h10,_⟩ := h
  rw [← h1, ← h2, ← h3, ← h4, ← h5, ← h6, ← h7, ← h8, ← h9, ← h10]

theorem finaliseInterrupt_kept (s : State) : Kept s (finaliseInterrupt s) := by
  rw [finaliseInterrupt_eq]
  exact ⟨rfl, rfl, rfl, rfl, rfl, rfl, rfl, rfl, rfl, rfl, rfl⟩

theorem boundaryCalls_kept (s : State) : Kept s (boundaryCalls s).state := by
  have h := boundaryCalls_keeps s
  have hc := boundaryCalls_conflict s
  have hs := h.state
  generalize (boundaryCalls s).state = t at *
  refine ⟨?_, ?_, ?_, hc, ?_, ?_, ?_, ?_, ?_, ?_, h.wiring⟩ <;> rw [hs] <;> rfl

theorem frameTail_kept (u : State) : Kept u (frameWrap (rollOver (renderFrame u))) := by
  rw [frameWrap_rollOver_renderFrame]
  refine ⟨?_, ?_, ?_, ?_, ?_, ?_, ?_, ?_, ?_, ?_, ?_⟩ <;> simp

theorem frameEnd_kept (s : State) (h : s.deferred = []) : Kept s (frameEnd s).state := by
  have h1 := finaliseInterrupt_kept s
  have h2 := boundaryCalls_kept (finaliseInterrupt s)
  have h12 := h1.trans h2
  rcases frameEnd_cases (s := s) (by
    intro u hu; rw [hu] at h12; rw [← h]; exact h12.defd) with ⟨f, u, hb, he⟩ | ⟨u, hb, he⟩
  · rw [he]; rw [hb] at h12; exact h12
  · rw [he]; rw [hb] at h12
    have h3 := h12.trans (frameTail_kept u)
    have e : (frameWrap (rollOver (renderFrame u))).setDeferred [] = frameWrap (rollOver (renderFrame u)) := by
      have := h3.defd; rw [h] at this
      rw [← this]; rfl
    show Kept s ((frameWrap (rollOver (renderFrame u))).setDeferred [])
    rw [e]; exact h3

theorem takeFault_kept (f : FaultRec) (s : State) : Kept s (takeFault f s) := by
  unfold takeFault; split <;> exact ⟨rfl, rfl, rfl, rfl, rfl, rfl, rfl, rfl, rfl, rfl, rfl⟩

theorem endRequest_kept {r : Res State Unit} {s t : State} (h : Kept s r.state) (ht : endRequest r = .next t) : Kept s t := by
  cases r with
  | ok a u => simp only [endRequest, Host.Outcome.next.injEq] at ht; rw [← ht]; exact h
  | raised f u => simp only [endRequest, Host.Outcome.next.injEq] at ht; rw [← ht]; exact h.trans (takeFault_kept f u)

theorem sequencerStep_kept (w n : Nat) (s : State) (h : s.deferred = []) : Kept s (sequencerStep w n s).state := by
  unfold sequencerStep; dsimp only
  have h0 : Kept s (s.setTs (s.ts + w + n)) := ⟨rfl, rfl, rfl, rfl, rfl, rfl, rfl, rfl, rfl, rfl, rfl⟩
  split
  · exact h0.trans (frameEnd_kept _ h)
  · exact h0

theorem intCheck_kept (s : State) : Kept s (intCheck s) := by
  rcases intCheck_cases s with h | h <;> rw [h] <;> exact ⟨rfl, rfl, rfl, rfl, rfl, rfl, rfl, rfl, rfl, rfl, rfl⟩

theorem respond_kept (r : Response) (s : State) : Kept s (respond r s) := ⟨rfl, rfl, rfl, rfl, rfl, rfl, rfl, rfl, rfl, rfl, rfl⟩

/-- R226, R307. -/
theorem endRequest_late {s : State} (op : RequestOp) (h : s.P.eof ≤ s.ts) (k : Unit → State → Res State Unit) :
    endRequest ((startRequest op s).bind k) =
      .next (takeFault { code := .e1, info := .requestAt op s.ts (.below s.P.eof) } (intCheck s)) := by
  rw [startRequest_late op h]; rfl

end Sys2Proof.Machine
end

