-- ==== Sys2Proof/Laws/Stable.lean ====
section
/-! SUPPORT. Everything a step can do, said once as the list of the updates it is made of: a property that each of them keeps
is kept by every step. -/

namespace Sys2Proof.Machine

/-- A mutation leaves the queue as it finds it. -/
theorem applyMutation_deferred (m : Mutation) (s : State) :
    (applyMutation m s).state.deferred = s.deferred := by
  cases m with
  | detach a =>
    show (detachDevice a s).state.deferred = _
    unfold detachDevice
    split
    · rfl
    · next n _ => cases fallEdges a s.ts (List.range n.nch) s.audio <;> rfl
  | page v =>
    show (pagingWrite v (catchUp s.ts s)).deferred = _
    obtain ⟨q, e⟩ := pagingWrite_keeps v (catchUp s.ts s)
    rw [e]; rfl
  | _ => rfl

/-- The mutation that a word issues, as far as it replaces the engine (R278, R283). -/
def Issued (x : Issue) (m : Mutation) : Prop :=
  (∀ img, m = .load img → decode x.word = .ok .hsnapload ∧ x.oob = .image img) ∧
    ∀ args, m = .switch args → decode x.word = .ok .hswitch ∧ x.oob = .model args

/-- The updates a step is made of, each keeping `I`. `Ok` says which mutations may be issued, `St` which bytes may be stored. -/
structure Stable (I : State → Prop) (Ok : Mutation → Prop) (St : Addr → Byte → Prop) : Prop where
  inbox : ∀ s v, I s → I (s.setInbox v)
  oob : ∀ s v, I s → I (s.setOob v)
  out : ∀ s v, I s → I (s.setOut v)
  ts : ∀ s v, I s → I (s.setTs v)
  mode : ∀ s v, I s → I (s.setMode v)
  frame : ∀ s v, I s → I (s.setFrame v)
  intDone : ∀ s v, I s → I (s.setIntDone v)
  atBoundary : ∀ s v, I s → I (s.setAtBoundary v)
  fault : ∀ s v, I s → I (s.setFault v)
  devConflict : ∀ s, I s → I (s.setDevConflict true)
  ula : ∀ s v, I s → I (s.setUla v)
  border0 : ∀ s v, I s → I (s.setBorder0 v)
  borderEv : ∀ s v, I s → I (s.setBorderEv v)
  chain : ∀ s v, I s → I (s.setChain v)
  audio : ∀ s v, I s → I (s.setAudio v)
  wrap : ∀ s v, I s → I (s.setWrap v)
  catchUp : ∀ s v, I s → I (catchUp v s)
  renderRows : ∀ s, I s → I (renderRows s)
  clearLines : ∀ s, I s → I (s.setVcache (s.vcache.map clearLine))
  paging : ∀ s v, I s → I (pagingWrite v s)
  store : ∀ s a v, I s → St a v → writablePage s.P (s.pageOf a) = true → I (s.setPages (s.pages.write (s.addrKey a) v))
  pop : ∀ s m rest, I s → s.deferred = m :: rest → I (s.setDeferred rest)
  popLoad : ∀ s img rest, I s → s.deferred = .load img :: rest → I (loadImage img (s.setDeferred rest))
  popSwitch : ∀ s args rest, I s → s.deferred = .switch args :: rest → I (reconstruct args (s.setDeferred rest))
  defer : ∀ s m, I s → Ok m → invalid m (projected s) = none → I (s.setDeferred (s.deferred ++ [m]))
  load : ∀ s img, I s → Ok (.load img) → invalid (.load img) (projected s) = none → I (loadImage img s)
  switch : ∀ s args, I s → Ok (.switch args) → invalid (.switch args) (projected s) = none →
    I (reconstruct args (s.setDeferred []))

namespace Stable

variable {I : State → Prop} {Ok : Mutation → Prop} {St : Addr → Byte → Prop} (S : Stable I Ok St)

include S

theorem emit {s : State} (h : I s) (o : Output) : I (emit o s) := S.out _ _ h

theorem respond {s : State} (h : I s) (r : Response) : I (respond r s) := S.out _ _ h

theorem takeFault {s : State} (h : I s) (f : FaultRec) : I (takeFault f s) := by
  unfold Machine.takeFault
  split
  · exact S.mode _ _ (S.fault _ _ h)
  · exact S.mode _ _ h

theorem intCheck {s : State} (h : I s) : I (intCheck s) := by
  rcases intCheck_cases s with e | e <;> rw [e]
  · exact S.atBoundary _ _ h
  · exact S.intDone _ _ (S.out _ _ (S.atBoundary _ _ h))

theorem walk {s t : State} (h : I s) (w : WalkKeeps s t) (hc : t.devConflict = s.devConflict ∨ t.devConflict = true) :
    I t := by
  rw [w.state]
  rcases hc with hc | hc <;> rw [hc]
  · exact (S.audio _ _ (S.chain _ _ h) : I ((s.setChain t.chain).setAudio (s.audio.withChans t.audio.chans)))
  · exact S.devConflict _ (S.audio _ _ (S.chain _ _ h))

theorem ulaWrite {s : State} (h : I s) (v : Byte) (te : Nat) : I (ulaWrite v te s) := by
  obtain ⟨evs, ear, mic, e⟩ := ulaWrite_keeps v te s
  rw [e]
  exact S.ula _ _ (S.audio (s.setBorderEv evs) _ (S.borderEv _ _ h))

theorem chipsetWrite {s : State} (h : I s) (p : Addr) (v : Byte) (te : Nat) : I (chipsetWrite p v te s) := by
  have h1 : I (if ulaSel p then Machine.ulaWrite v te s else s) := by
    split
    · exact S.ulaWrite h v te
    · exact h
  show I (if pagSel (if ulaSel p then Machine.ulaWrite v te s else s).P p then
    pagingWrite v (Machine.catchUp te (if ulaSel p then Machine.ulaWrite v te s else s))
    else (if ulaSel p then Machine.ulaWrite v te s else s))
  generalize (if ulaSel p then Machine.ulaWrite v te s else s) = g at h1
  split
  · exact S.paging _ _ (S.catchUp _ _ h1)
  · exact h1

theorem storeByte {s : State} (h : I s) {a : Addr} {v : Byte} (hs : St a v) (tw : Nat) : I (storeByte a v tw s) := by
  rcases storeByte_cases a v tw s with e | ⟨hw, _, e⟩ | ⟨hw, _, e⟩
  · rw [e.2]; exact h
  · rw [e]; exact S.store s a v h hs hw
  · rw [e]; exact S.store (Machine.catchUp tw s) a v (S.catchUp s tw h) hs hw

theorem applyMutation {s : State} (h : I s) {m : Mutation} (hl : ∀ img, m ≠ .load img) (hw : ∀ args, m ≠ .switch args) :
    I (applyMutation m s).state := by
  cases m with
  | attach a pos impl => exact S.audio _ _ (S.chain _ _ h)
  | detach a =>
    show I (detachDevice a s).state
    unfold detachDevice
    split
    · exact h
    · next n _ =>
      cases hf : fallEdges a s.ts (List.range n.nch) s.audio with
      | ok u b => exact S.chain _ _ (S.audio (s.setAudio b) _ (S.audio _ _ h))
      | raised f b => exact S.audio _ _ h
  | page v => exact S.paging _ _ (S.catchUp _ _ h)
  | load img => exact absurd rfl (hl img)
  | wrap e => exact S.wrap _ _ h
  | switch args => exact absurd rfl (hw args)
  | custom w => exact S.wrap _ _ h

theorem popMutation {s : State} (h : I s) {m : Mutation} {rest : List Mutation} (e : s.deferred = m :: rest) :
    I (Machine.applyMutation m (s.setDeferred rest)).state := by
  have hp := S.pop s m rest h e
  cases m with
  | attach a pos impl => exact S.applyMutation hp (by simp) (by simp)
  | detach a => exact S.applyMutation hp (by simp) (by simp)
  | page v => exact S.applyMutation hp (by simp) (by simp)
  | load img => exact S.popLoad s img rest h e
  | wrap b => exact S.applyMutation hp (by simp) (by simp)
  | switch args => exact S.popSwitch s args rest h e
  | custom w => exact S.applyMutation hp (by simp) (by simp)

theorem applyAll {l : List Mutation} {s : State} (h : I s) (e : s.deferred = l) : I (applyAll l s).state := by
  induction l generalizing s with
  | nil => exact (by rw [← e]; exact h : I (s.setDeferred []))
  | cons m rest ih =>
    unfold Machine.applyAll
    have hp := S.popMutation h e
    have hd := applyMutation_deferred m (s.setDeferred rest)
    cases hm : Machine.applyMutation m (s.setDeferred rest) with
    | ok v u =>
      rw [hm] at hp hd
      exact ih (s := Machine.emit (.applied v) u) (S.emit hp _) hd
    | raised f u => rw [hm] at hp; exact hp

theorem frameEnd {s : State} (h : I s) : I (frameEnd s).state := by
  have h1 : I (finaliseInterrupt s) := by
    rw [finaliseInterrupt_eq]
    exact S.intDone _ _ (S.out _ _ (S.mode _ _ h))
  have h2 := S.walk h1 (boundaryCalls_keeps (finaliseInterrupt s)) (.inl (boundaryCalls_conflict _))
  cases hb : boundaryCalls (finaliseInterrupt s) with
  | raised f u => rw [frameEnd_of_raise hb]; rw [hb] at h2; exact h2
  | ok a u =>
    rw [frameEnd_of_calls hb]
    rw [hb] at h2
    have h3 : I u := h2
    have h4 : I (renderFrame u) := S.emit (S.renderRows _ (S.catchUp _ _ h3)) _
    have h5 : I (rollOver (renderFrame u)) := S.audio _ _ (S.borderEv _ _ (S.border0 _ _ (S.clearLines _ h4)))
    have h6 : I (frameWrap (rollOver (renderFrame u))) :=
      S.atBoundary _ _ (S.mode _ _ (S.intDone _ _ (S.frame _ _ (S.ts _ _ h5))))
    exact S.applyAll h6 (by rw [frameWrap_rollOver_renderFrame]; simp)

theorem sequencerStep {s : State} (h : I s) (w n : Nat) : I (sequencerStep w n s).state := by
  unfold Machine.sequencerStep
  dsimp only
  split
  · exact S.frameEnd (S.ts _ _ h)
  · exact S.ts _ _ h

theorem endRequest {r : Res State Unit} (h : I r.state) {t : State} (e : endRequest r = .next t) : I t := by
  cases r with
  | ok a u => simp only [Machine.endRequest, Host.Outcome.next.injEq] at e; rw [← e]; exact h
  | raised f u => simp only [Machine.endRequest, Host.Outcome.next.injEq] at e; rw [← e]; exact S.takeFault h f

theorem endCommand {r : Res State Unit} (h : I r.state) {t : State} (e : endCommand r = .next t) : I t := by
  cases r with
  | ok a u => simp only [Machine.endCommand, Host.Outcome.next.injEq] at e; rw [← e]; exact h
  | raised f u =>
    simp only [Machine.endCommand, Host.Outcome.next.injEq] at e
    rw [← e]; exact S.respond (S.takeFault h f) _

/-- A request: the interrupt check, the check of R226, then the access. -/
theorem request {s : State} (h : I s) {k : State → Res State Unit} (hk : ∀ u, I u → I (k u).state) {t : State}
    {op : RequestOp} (e : Machine.endRequest ((startRequest op s).bind fun _ s1 => k s1) = .next t) : I t := by
  refine S.endRequest ?_ e
  unfold startRequest
  dsimp only
  split
  · exact S.intCheck h
  · exact hk _ (S.intCheck h)

theorem portRead {s : State} (h : I s) (p : Addr) (td : Nat) : I (portRead p td s).state := by
  unfold Machine.portRead
  split
  · exact h
  · split
    · exact h
    · have h1 := S.walk h (chainRead_keeps p td s) (chainRead_conflict p td s)
      cases hr : chainRead p td s with
      | ok r u => rw [hr] at h1; exact h1
      | raised f u => rw [hr] at h1; exact h1

theorem portWrite {s : State} (h : I s) (p : Addr) (v : Byte) (te : Nat) : I (portWrite p v te s).state := by
  unfold Machine.portWrite
  refine S.walk ?_ (chainWrite_keeps p v te _) (.inl (chainWrite_conflict ..))
  split
  · exact S.wrap _ _ h
  · exact S.chipsetWrite h p v te

/-- A host mutation that may be issued. -/
theorem hostMutation {s : State} (h : I s) {m : Mutation} (ok : Ok m) : I (hostMutation m s).state := by
  unfold Machine.hostMutation
  split
  · exact S.respond h _
  · next hv =>
    split
    · have h1 : I (Machine.applyMutation m (deferredAfter m s)).state := by
        cases m with
        | attach a pos impl => exact S.applyMutation h (by simp) (by simp)
        | detach a => exact S.applyMutation h (by simp) (by simp)
        | page v => exact S.applyMutation h (by simp) (by simp)
        | load img => exact S.load s img h ok hv
        | wrap b => exact S.applyMutation h (by simp) (by simp)
        | switch args => exact S.switch s args h ok hv
        | custom w => exact S.applyMutation h (by simp) (by simp)
      cases hm : Machine.applyMutation m (deferredAfter m s) with
      | ok v u => rw [hm] at h1; exact S.respond h1 _
      | raised f u => rw [hm] at h1; exact h1
    · exact S.respond (S.defer s m h ok hv) _

theorem query {s : State} (h : I s) (r : Except FaultRec Value) : I (answerQuery r s).state := by
  cases r with
  | ok v => exact S.respond h _
  | error f => exact h

/-- Every instruction. -/
theorem exec {s t : State} (h : I s) {i : Instr} (hl : i = .hsnapload → ∀ img, s.oob = .image img → Ok (.load img))
    (hw : i = .hswitch → ∀ args, s.oob = .model args → Ok (.switch args))
    (hm : ∀ m : Mutation, (∀ img, m ≠ .load img) → (∀ args, m ≠ .switch args) → Ok m)
    (hst : ∀ a d n, i = .mwrite a d n → St a d)
    (e : exec i s = .next t) : I t := by
  cases i with
  | mfetch a n => exact S.request h (fun u hu => S.sequencerStep (S.respond hu _) _ _) e
  | mread a n => exact S.request h (fun u hu => S.sequencerStep (S.respond hu _) _ _) e
  | mwrite a d n => exact S.request h (fun u hu => S.sequencerStep (S.respond (S.storeByte hu (hst a d n rfl) _) _) _ _) e
  | minternal a n => exact S.request h (fun u hu => S.sequencerStep (S.respond hu _) _ _) e
  | iord p =>
    refine S.request h (k := ioReadCycle p) (fun u hu => ?_) e
    unfold ioReadCycle
    exact Res.bind_state I (S.portRead hu _ _) (fun v s1 _ h1 => S.sequencerStep (S.respond h1 _) _ _)
  | iowr p d =>
    refine S.request h (k := ioWriteCycle p d) (fun u hu => ?_) e
    unfold ioWriteCycle
    exact Res.bind_state I (S.portWrite hu _ _ _) (fun v s1 _ h1 => S.sequencerStep (S.respond h1 _) _ _)
  | qtslin l c => exact S.endCommand (S.query h _) e
  | qlints x => exact S.endCommand (S.query h _) e
  | qtsabs x => exact S.endCommand (S.query h _) e
  | qcont x => exact S.endCommand (S.query h _) e
  | qcontio x p => exact S.endCommand (S.query h _) e
  | qfloat x => exact S.endCommand (S.query h _) e
  | hattach a pos =>
    refine S.endCommand ?_ e
    unfold withOperand
    split
    · exact S.hostMutation h (hm _ (by simp) (by simp))
    · exact S.respond h _
  | hdetach a => exact S.endCommand (S.hostMutation h (hm _ (by simp) (by simp))) e
  | hlookup a => exact S.endCommand (r := .ok () (Machine.respond (lookupAnswer a s.chain) s)) (S.respond h _) e
  | hpage v => exact S.endCommand (S.hostMutation h (hm _ (by simp) (by simp))) e
  | hflags => exact S.endCommand (r := .ok () (Machine.respond _ s)) (S.respond h _) e
  | hsnapsave => exact S.endCommand (r := .ok () (Machine.respond _ s)) (S.respond h _) e
  | hsnapload =>
    refine S.endCommand ?_ e
    unfold loadCommand withOperand
    cases ho : s.oob with
    | image img => exact S.hostMutation h (hl rfl img ho)
    | _ => exact S.respond h _
  | hrenderv =>
    refine S.endCommand ?_ e
    unfold renderMid
    split
    · exact h
    · exact S.respond (S.catchUp _ _ h) _
  | hwrap b => exact S.endCommand (S.hostMutation h (hm _ (by simp) (by simp))) e
  | hswitch =>
    refine S.endCommand ?_ e
    unfold withOperand
    cases ho : s.oob with
    | model args => exact S.hostMutation h (hw rfl args ho)
    | _ => exact S.respond h _

/-- Every step that issues only mutations which may be issued, and stores only bytes which may be stored. -/
theorem step {s t : State} (h : I s) (ok : ∀ x rest m, s.inbox = x :: rest → Issued x m → Ok m)
    (st : ∀ x rest a d n, s.inbox = x :: rest → decode x.word = .ok (.mwrite a d n) → St a d) (e : step s = .next t) :
    I t := by
  cases hi : s.inbox with
  | nil =>
    unfold Machine.step at e
    rw [hi] at e
    cases e
    exact h
  | cons x rest =>
    have ht : I (takeIssue x rest s) := S.out _ _ (S.oob _ _ (S.inbox _ _ h))
    have ok' : ∀ m : Mutation, (∀ img, m ≠ .load img) → (∀ args, m ≠ .switch args) → Ok m :=
      fun m h1 h2 => ok x rest m hi ⟨fun img e => absurd e (h1 img), fun args e => absurd e (h2 args)⟩
    rcases step_cases hi with ⟨_, he⟩ | ⟨_, k, _, ⟨_, he⟩ | ⟨_, he⟩⟩ | ⟨_, _, r, _, he⟩ | ⟨_, i, hd, ⟨_, he⟩ | ⟨_, he⟩⟩
    · rw [he] at e; cases e; exact S.respond ht _
    · rw [he] at e
      unfold customCommand at e
      refine S.endCommand ?_ e
      cases k with
      | reads => exact S.respond ht _
      | writes => exact S.hostMutation ht (ok' _ (by simp) (by simp))
    · rw [he] at e; cases e; exact S.respond ht _
    · rw [he] at e; cases e; exact S.respond ht _
    · rw [he] at e
      refine S.exec ht (fun hl img ho => ?_) (fun hw args ho => ?_) ok'
        (fun a d n hi' => st x rest a d n hi (by rw [hd, hi'])) e
      · exact ok x rest _ hi ⟨fun img' e' => by cases e'; exact ⟨by rw [hd, hl], ho⟩, fun args e' => by cases e'⟩
      · exact ok x rest _ hi ⟨fun img' e' => (by cases e'), fun args' e' => by cases e'; exact ⟨by rw [hd, hw], ho⟩⟩
    · rw [he] at e; cases e; exact S.respond ht _

end Stable
end Sys2Proof.Machine
end

