-- ==== Sys2Proof/Laws/Engines.lean ====
section
/-! SUPPORT. Properties of engines that every step keeps, of the running engine and of the images that wait. -/

namespace Sys2Proof.Machine

theorem constructible_of_valid {args : SwitchArgs} {sp : State} (h : invalid (.switch args) sp = none) :
    constructible args = true := by
  unfold invalid at h
  cases hc : constructible args
  · dsimp only at h; rw [hc] at h; cases h
  · rfl

theorem snapFailure_of_valid {img : Engine} {sp : State} (h : invalid (.load img) sp = none) :
    snapFailure sp.toEngine img = none := by
  unfold invalid at h
  cases hc : snapFailure sp.toEngine img
  · rfl
  · dsimp only at h; rw [hc] at h; cases h

/-- What a valid image satisfies (R281), check by check. -/
theorem snapFailure_none {mine img : Engine} (h : snapFailure mine img = none) :
    img.cfg = mine.cfg ∧ img.mode = .running ∧ img.fault = none ∧ img.ts < img.cfg.params.eof ∧
      pagesValid img.cfg.params img.pages = true ∧ pagingValid img.cfg.params img.paging = true ∧
      (handlesUnique img.chain && lastsValid img) = true ∧ eventsValid img = true ∧ img.audio.balanced = true ∧
      vcacheValid img.cfg.params img.vcache = true ∧ wrapValid mine.wrap img.wrap = true := by
  unfold snapFailure at h
  repeat (split at h <;> [cases h; skip])
  simp_all

/-- Every model switch that waits satisfies `K`. -/
def EverySwitch (K : SwitchArgs → Prop) (s : State) : Prop := ∀ args, Mutation.switch args ∈ s.deferred → K args

/-- A property of engines that speaks of configuration, paging register, page store and video cache alone, and that the updates
of these keep, is kept by every step, of the running engine and of every image that waits. -/
theorem everyEngine_stable (Q : Engine → Prop) (K : SwitchArgs → Prop) (Ok : Mutation → Prop)
   (hext : ∀ e f : Engine, e.cfg = f.cfg → e.paging = f.paging → e.pages = f.pages → e.vcache = f.vcache → Q e → Q f)
   (hcatch : ∀ e t, Q e → Q { e with vcache := mapFrom (catchLine e t) 0 e.vcache })
   (hrender : ∀ e, Q e → Q { e with vcache := mapFrom (renderLine e) 0 e.vcache })
   (hclear : ∀ e, Q e → Q { e with vcache := e.vcache.map clearLine })
   (hpag : ∀ (e : Engine) (q v : Byte), Q e → e.paging = some q → Q { e with paging := some ((v.extractLsb' 0 6).setWidth 8) })
   (hstore : ∀ e a v, Q e → Q { e with pages := e.pages.write (e.addrKey a) v })
   (hload : ∀ s img, Ok (.load img) → EveryEngine Q s → EverySwitch K s → invalid (.load img) (projected s) = none → Q img)
   (hk : ∀ args, constructible args = true → K args) (hcons : ∀ args, K args → Q (construct args)) :
   Stable (fun s => EveryEngine Q s ∧ EverySwitch K s) Ok (fun _ _ => True) := by
  have ee : ∀ (s t : State), t.toEngine.cfg = s.cfg → t.toEngine.paging = s.paging → t.pages = s.pages → t.vcache = s.vcache → t.deferred = s.deferred →
    EveryEngine Q s ∧ EverySwitch K s → EveryEngine Q t ∧ EverySwitch K t := by
    intro s t h1 h2 h3 h4 h5 h
    refine ⟨⟨hext _ _ h1.symm h2.symm h3.symm h4.symm h.1.1, ?_⟩, ?_⟩
    · rw [h5]; exact h.1.2
    · unfold EverySwitch; rw [h5]; exact h.2
  constructor
  case catchUp => intro s v h; exact ⟨⟨hcatch _ _ h.1.1, h.1.2⟩, h.2⟩
  case renderRows => intro s h; exact ⟨⟨hrender _ h.1.1, h.1.2⟩, h.2⟩
  case clearLines => intro s h; exact ⟨⟨hclear _ h.1.1, h.1.2⟩, h.2⟩
  case paging =>
    intro s v h
    unfold pagingWrite
    split
    · exact h
    · next q hq =>
      split
      · exact h
      · exact ⟨⟨hpag _ q v h.1.1 hq, h.1.2⟩, h.2⟩
  case store => intro s a v h _ _; exact ⟨⟨hstore _ _ _ h.1.1, h.1.2⟩, h.2⟩
  case pop => 
    intro s m rest h e
    refine ⟨⟨h.1.1, fun img hi => h.1.2 img (by rw [e]; exact List.mem_cons_of_mem _ hi)⟩, fun args hi => h.2 args (by rw [e]; exact List.mem_cons_of_mem _ hi)⟩
  case popLoad =>
    intro s img rest h e
    refine ⟨⟨hext img _ rfl rfl rfl rfl (h.1.2 img (by rw [e]; simp)), fun img hi => h.1.2 img (by rw [e]; exact List.mem_cons_of_mem _ hi)⟩, fun args hi => h.2 args (by rw [e]; exact List.mem_cons_of_mem _ hi)⟩
  case popSwitch =>
    intro s args rest h e
    refine ⟨⟨hcons args (h.2 args (by rw [e]; simp)), fun img hi => h.1.2 img (by rw [e]; exact List.mem_cons_of_mem _ hi)⟩, fun args hi => h.2 args (by rw [e]; exact List.mem_cons_of_mem _ hi)⟩
  case defer =>
    intro s m h ok hv
    refine ⟨⟨h.1.1, fun img hi => ?_⟩, fun args hi => ?_⟩
    · have hi : Mutation.load img ∈ s.deferred ++ [m] := hi
      rw [List.mem_append, List.mem_singleton] at hi
      rcases hi with hi | rfl
      · exact h.1.2 img hi
      · exact hload s img ok h.1 h.2 hv
    · have hi : Mutation.switch args ∈ s.deferred ++ [m] := hi
      rw [List.mem_append, List.mem_singleton] at hi
      rcases hi with hi | rfl
      · exact h.2 args hi
      · exact hk _ (constructible_of_valid hv)
  case load =>
    intro s img h ok hv
    exact ⟨⟨hext img _ rfl rfl rfl rfl (hload s img ok h.1 h.2 hv), h.1.2⟩, h.2⟩
  case switch =>
    intro s args h ok hv
    refine ⟨⟨hcons args ?_, fun img hi => ?_⟩, fun a hi => ?_⟩
    · exact hk _ (constructible_of_valid hv)
    · exact absurd hi (by show _ ∉ []; simp)
    · exact absurd hi (by show _ ∉ []; simp)
  case devConflict => intro s h; exact ee s _ rfl rfl rfl rfl rfl h
  all_goals (intro s v h; exact ee s _ rfl rfl rfl rfl rfl h)

end Sys2Proof.Machine
end

