-- ==== Sys2Proof/Laws/Memory.lean ====
section
/-! SUPPORT. The page store: reads after writes, and the canonical form. -/

namespace Sys2Proof.Machine

@[simp] theorem Memory.read_nil (a : Nat) : Memory.read [] a = Memory.unlisted := rfl

theorem Memory.read_cons (k : Nat) (b : Byte) (rest : Memory) (a : Nat) :
    Memory.read ((k, b) :: rest) a = if k = a then b else if a < k then Memory.unlisted else Memory.read rest a := rfl

theorem Memory.wfAbove_cons {lo k : Nat} {b : Byte} {rest : Memory} :
    Memory.wfAbove lo ((k, b) :: rest) = true ↔ lo ≤ k ∧ b ≠ Memory.unlisted ∧ Memory.wfAbove (k + 1) rest = true := by
  simp [Memory.wfAbove, and_assoc]

theorem Memory.wfAbove_mono {lo lo' : Nat} {m : Memory} (h : Memory.wfAbove lo m = true) (hle : lo' ≤ lo) :
    Memory.wfAbove lo' m = true := by
  cases m with
  | nil => rfl
  | cons c rest =>
    obtain ⟨k, b⟩ := c
    rw [Memory.wfAbove_cons] at h ⊢
    exact ⟨by omega, h.2⟩

/-- Below the first listed key nothing is listed. -/
theorem Memory.read_below {lo a : Nat} {m : Memory} (h : Memory.wfAbove lo m = true) (ha : a < lo) :
    Memory.read m a = Memory.unlisted := by
  cases m with
  | nil => rfl
  | cons c rest =>
    obtain ⟨k, b⟩ := c
    rw [Memory.wfAbove_cons] at h
    rw [Memory.read_cons, if_neg (by omega), if_pos (by omega)]

theorem Memory.cell_append_wf {lo a : Nat} {v : Byte} {m : Memory} (hlo : lo ≤ a)
    (h : Memory.wfAbove (a + 1) m = true) : Memory.wfAbove lo (Memory.cell a v ++ m) = true := by
  unfold Memory.cell
  split
  · simpa using Memory.wfAbove_mono h (by omega)
  · next hv => exact Memory.wfAbove_cons.2 ⟨hlo, hv, h⟩

theorem Memory.read_cell_append {a : Nat} {v : Byte} {m : Memory} (h : Memory.wfAbove (a + 1) m = true) (b : Nat) :
    Memory.read (Memory.cell a v ++ m) b = if b = a then v else Memory.read m b := by
  unfold Memory.cell
  split
  · next hv =>
    split
    · next hb => subst hb; simpa [hv] using Memory.read_below h (by omega)
    · rfl
  · rw [List.singleton_append, Memory.read_cons]
    by_cases hb : b = a
    · simp [hb]
    · rw [if_neg (Ne.symm hb), if_neg hb]
      split
      · next hlt => rw [Memory.read_below h (by omega)]
      · rfl

/-- Every write keeps the canonical form. -/
theorem Memory.write_wfAbove {lo : Nat} {m : Memory} (h : Memory.wfAbove lo m = true) (a : Nat) (v : Byte)
    (ha : lo ≤ a) : Memory.wfAbove lo (Memory.write m a v) = true := by
  induction m generalizing lo with
  | nil => simpa [Memory.write] using Memory.cell_append_wf (m := []) ha rfl
  | cons c rest ih =>
    obtain ⟨k, b⟩ := c
    have h' := Memory.wfAbove_cons.1 h
    unfold Memory.write
    split
    · next hk => subst hk; exact Memory.cell_append_wf ha h'.2.2
    · split
      · next hlt => exact Memory.cell_append_wf ha (Memory.wfAbove_cons.2 ⟨by omega, h'.2⟩)
      · exact Memory.wfAbove_cons.2 ⟨h'.1, h'.2.1, ih h'.2.2 (by omega)⟩

theorem Memory.write_wf {m : Memory} (h : m.wf = true) (a : Nat) (v : Byte) : (Memory.write m a v).wf = true :=
  Memory.write_wfAbove h a v (Nat.zero_le a)

/-- What a write does to every read: the byte written at its key, as before everywhere else. -/
theorem Memory.read_write_above {lo : Nat} {m : Memory} (h : Memory.wfAbove lo m = true) (a : Nat) (v : Byte) (b : Nat) :
    Memory.read (Memory.write m a v) b = if b = a then v else Memory.read m b := by
  induction m generalizing lo with
  | nil => simpa [Memory.write] using Memory.read_cell_append (m := []) (a := a) (v := v) rfl b
  | cons c rest ih =>
    obtain ⟨k, w⟩ := c
    have h' := Memory.wfAbove_cons.1 h
    unfold Memory.write
    split
    · next hk =>
      subst hk
      rw [Memory.read_cell_append h'.2.2, Memory.read_cons]
      split
      · rfl
      · next hb =>
        rw [if_neg (Ne.symm hb)]
        split
        · next hlt => exact Memory.read_below h'.2.2 (by omega)
        · rfl
    · next hk =>
      split
      · next hlt => rw [Memory.read_cell_append (Memory.wfAbove_cons.2 ⟨by omega, h'.2⟩)]
      · next hlt =>
        rw [Memory.read_cons, Memory.read_cons, ih h'.2.2]
        by_cases hb : b = a
        · subst hb; simp [hk, hlt]
        · simp [hb]

theorem Memory.read_write {m : Memory} (h : m.wf = true) (a : Nat) (v : Byte) (b : Nat) :
    Memory.read (Memory.write m a v) b = if b = a then v else Memory.read m b := Memory.read_write_above h a v b

theorem Memory.foldl_write_wf {m : Memory} (h : m.wf = true) (cells : List Host.Cell) :
    (cells.foldl (fun m c => Memory.write m c.1 c.2) m).wf = true := by
  induction cells generalizing m with
  | nil => exact h
  | cons c rest ih => exact ih (Memory.write_wf h c.1 c.2)

theorem Memory.ofCells_wf (cells : List Host.Cell) : (Memory.ofCells cells).wf = true :=
  Memory.foldl_write_wf rfl cells

/-- A key that no later cell names keeps its byte. -/
theorem Memory.foldl_write_other {m : Memory} (h : m.wf = true) (cells : List Host.Cell) (a : Nat)
    (ha : a ∉ cells.map (·.1)) : Memory.read (cells.foldl (fun m c => Memory.write m c.1 c.2) m) a = Memory.read m a := by
  induction cells generalizing m with
  | nil => rfl
  | cons c rest ih =>
    simp only [List.map_cons, List.mem_cons, not_or] at ha
    rw [List.foldl_cons, ih (Memory.write_wf h c.1 c.2) ha.2, Memory.read_write h, if_neg ha.1]

/-- Cells with distinct keys are read back. -/
theorem Memory.read_ofCells {cells : List Host.Cell} (hnd : (cells.map (·.1)).Nodup) {c : Host.Cell} (hc : c ∈ cells) :
    Memory.read (Memory.ofCells cells) c.1 = c.2 := by
  obtain ⟨pre, post, rfl⟩ := List.append_of_mem hc
  have hwf := Memory.foldl_write_wf (m := []) rfl pre
  have hpost : c.1 ∉ post.map (·.1) := by
    rw [List.map_append, List.map_cons] at hnd
    exact (List.nodup_cons.1 (List.nodup_append.1 hnd).2.1).1
  unfold Memory.ofCells
  rw [List.foldl_append, List.foldl_cons, Memory.foldl_write_other (Memory.write_wf hwf c.1 c.2) post c.1 hpost,
    Memory.read_write hwf, if_pos rfl]

end Sys2Proof.Machine
end

