-- ==== Sys2Proof/Laws/PerInstr.lean ====
section
/-! SUPPORT. A fact of every instruction: its encoding agrees with its row of spec/opcode_table.json on the row's fixed bits. -/

namespace Sys2Proof.Laws.TableRow

/-- The fields of the row's "mask" (the bits it fixes) and of its "match" (their values). -/
structure Row where
  mask : Fields
  value : Fields

/-- The row of each instruction, as spec/opcode_table.json gives it. -/
def row : Instr → Row
  | .mfetch _ _ => ⟨⟨0xFF, 0xFFFFFF, 0x0000, 0xFF, 0x00⟩, ⟨0x01, 0x000000, 0x0000, 0x00, 0x00⟩⟩
  | .mread _ _ => ⟨⟨0xFF, 0xFFFFFF, 0x0000, 0xFF, 0x00⟩, ⟨0x02, 0x000000, 0x0000, 0x00, 0x00⟩⟩
  | .mwrite _ _ _ => ⟨⟨0xFF, 0xFFFFFF, 0x0000, 0x00, 0x00⟩, ⟨0x03, 0x000000, 0x0000, 0x00, 0x00⟩⟩
  | .minternal _ _ => ⟨⟨0xFF, 0xFFFFFF, 0x0000, 0xFF, 0x00⟩, ⟨0x04, 0x000000, 0x0000, 0x00, 0x00⟩⟩
  | .iord _ => ⟨⟨0xFF, 0xFFFFFF, 0x0000, 0xFF, 0x00⟩, ⟨0x05, 0x000000, 0x0000, 0x00, 0x00⟩⟩
  | .iowr _ _ => ⟨⟨0xFF, 0xFFFFFF, 0x0000, 0x00, 0x00⟩, ⟨0x06, 0x000000, 0x0000, 0x00, 0x00⟩⟩
  | .qtslin _ _ => ⟨⟨0xFF, 0x000000, 0xFFFF, 0xFF, 0xFF⟩, ⟨0x10, 0x000000, 0x0000, 0x00, 0x00⟩⟩
  | .qlints _ => ⟨⟨0xFF, 0x000000, 0xFFFF, 0xFF, 0xFF⟩, ⟨0x11, 0x000000, 0x0000, 0x00, 0x00⟩⟩
  | .qtsabs _ => ⟨⟨0xFF, 0x000000, 0xFFFF, 0xFF, 0xFF⟩, ⟨0x12, 0x000000, 0x0000, 0x00, 0x00⟩⟩
  | .qcont _ => ⟨⟨0xFF, 0x000000, 0xFFFF, 0xFF, 0xFF⟩, ⟨0x14, 0x000000, 0x0000, 0x00, 0x00⟩⟩
  | .qcontio _ _ => ⟨⟨0xFF, 0x000000, 0x0000, 0xFF, 0xFF⟩, ⟨0x15, 0x000000, 0x0000, 0x00, 0x00⟩⟩
  | .qfloat _ => ⟨⟨0xFF, 0x000000, 0xFFFF, 0xFF, 0xFF⟩, ⟨0x16, 0x000000, 0x0000, 0x00, 0x00⟩⟩
  | .hattach _ _ => ⟨⟨0xFF, 0xFFFFFF, 0x0000, 0xFF, 0x00⟩, ⟨0x20, 0x000000, 0x0000, 0x00, 0x00⟩⟩
  | .hdetach _ => ⟨⟨0xFF, 0xFFFFFF, 0x0000, 0xFF, 0xFF⟩, ⟨0x21, 0x000000, 0x0000, 0x00, 0x00⟩⟩
  | .hlookup _ => ⟨⟨0xFF, 0xFFFFFF, 0x0000, 0xFF, 0xFF⟩, ⟨0x22, 0x000000, 0x0000, 0x00, 0x00⟩⟩
  | .hpage _ => ⟨⟨0xFF, 0xFFFFFF, 0xFFFF, 0x00, 0xFF⟩, ⟨0x23, 0x000000, 0x0000, 0x00, 0x00⟩⟩
  | .hflags => ⟨⟨0xFF, 0xFFFFFF, 0xFFFF, 0xFF, 0xFF⟩, ⟨0x24, 0x000000, 0x0000, 0x00, 0x00⟩⟩
  | .hsnapsave => ⟨⟨0xFF, 0xFFFFFF, 0xFFFF, 0xFF, 0xFF⟩, ⟨0x25, 0x000000, 0x0000, 0x00, 0x00⟩⟩
  | .hsnapload => ⟨⟨0xFF, 0xFFFFFF, 0xFFFF, 0xFF, 0xFF⟩, ⟨0x26, 0x000000, 0x0000, 0x00, 0x00⟩⟩
  | .hrenderv => ⟨⟨0xFF, 0xFFFFFF, 0xFFFF, 0xFF, 0xFF⟩, ⟨0x27, 0x000000, 0x0000, 0x00, 0x00⟩⟩
  | .hwrap _ => ⟨⟨0xFF, 0xFFFFFF, 0xFFFF, 0xFE, 0xFF⟩, ⟨0x28, 0x000000, 0x0000, 0x00, 0x00⟩⟩
  | .hswitch => ⟨⟨0xFF, 0xFFFFFF, 0xFFFF, 0xFF, 0xFF⟩, ⟨0x29, 0x000000, 0x0000, 0x00, 0x00⟩⟩

/-- The encoding has the row's value on every bit that the row fixes. -/
def Statement (i : Instr) : Prop := encode i &&& pack (row i).mask = pack (row i).value

theorem pack_and (f g : Fields) :
    pack f &&& pack g = pack ⟨f.op &&& g.op, f.arg &&& g.arg, f.a &&& g.a, f.d &&& g.d, f.n &&& g.n⟩ := by
  apply BitVec.eq_of_getLsbD_eq
  intro i _
  rw [BitVec.getLsbD_and, pack_bit, pack_bit, pack_bit]
  split_ifs <;> rw [BitVec.getLsbD_and]

theorem mfetch (a : Addr) (n : BitVec 8) : Statement (.mfetch a n) := by
  simp [Statement, encode, encodeFields, row, pack_and]

theorem mread (a : Addr) (n : BitVec 8) : Statement (.mread a n) := by
  simp [Statement, encode, encodeFields, row, pack_and]

theorem mwrite (a : Addr) (d : Byte) (n : BitVec 8) : Statement (.mwrite a d n) := by
  simp [Statement, encode, encodeFields, row, pack_and]

theorem minternal (a : Addr) (n : BitVec 8) : Statement (.minternal a n) := by
  simp [Statement, encode, encodeFields, row, pack_and]

theorem iord (p : Addr) : Statement (.iord p) := by
  simp [Statement, encode, encodeFields, row, pack_and]

theorem iowr (p : Addr) (d : Byte) : Statement (.iowr p d) := by
  simp [Statement, encode, encodeFields, row, pack_and]

theorem qtslin (line cycle : BitVec 12) : Statement (.qtslin line cycle) := by
  simp [Statement, encode, encodeFields, row, pack_and]

theorem qlints (t : BitVec 24) : Statement (.qlints t) := by
  simp [Statement, encode, encodeFields, row, pack_and]

theorem qtsabs (t : BitVec 24) : Statement (.qtsabs t) := by
  simp [Statement, encode, encodeFields, row, pack_and]

theorem qcont (t : BitVec 24) : Statement (.qcont t) := by
  simp [Statement, encode, encodeFields, row, pack_and]

theorem qcontio (t : BitVec 24) (p : Addr) : Statement (.qcontio t p) := by
  simp [Statement, encode, encodeFields, row, pack_and]

theorem qfloat (t : BitVec 24) : Statement (.qfloat t) := by
  simp [Statement, encode, encodeFields, row, pack_and]

theorem hattach (h : Addr) (pos : BitVec 8) : Statement (.hattach h pos) := by
  simp [Statement, encode, encodeFields, row, pack_and]

theorem hdetach (h : Addr) : Statement (.hdetach h) := by
  simp [Statement, encode, encodeFields, row, pack_and]

theorem hlookup (h : Addr) : Statement (.hlookup h) := by
  simp [Statement, encode, encodeFields, row, pack_and]

theorem hpage (v : Byte) : Statement (.hpage v) := by
  simp [Statement, encode, encodeFields, row, pack_and]

theorem hflags : Statement .hflags := by
  simp [Statement, encode, encodeFields, row, pack_and]

theorem hsnapsave : Statement .hsnapsave := by
  simp [Statement, encode, encodeFields, row, pack_and]

theorem hsnapload : Statement .hsnapload := by
  simp [Statement, encode, encodeFields, row, pack_and]

theorem hrenderv : Statement .hrenderv := by
  simp [Statement, encode, encodeFields, row, pack_and]

theorem hwrap (e : Bool) : Statement (.hwrap e) := by
  cases e <;> simp [Statement, encode, encodeFields, row, pack_and]

theorem hswitch : Statement .hswitch := by
  simp [Statement, encode, encodeFields, row, pack_and]

end Sys2Proof.Laws.TableRow
end

