-- ==== Sys2Proof/Laws/Phases.lean ====
section
/-! SUPPORT. The phases of a bus request, each with everything it can do: the start, the data access, the sequencer step and the
frame end. An invariant that speaks of instants is kept because each phase moves it on. -/

namespace Sys2Proof.Machine

/-- The data access of a bus request that starts in `s` with the wait `w` and lasts `n` phases (R171 to R174, R186, R187). -/
inductive Access (s : State) (w : Nat) : Nat → Res State Unit → Prop where
  | none (n : Nat) : Access s w n (.ok () (intCheck s))
  | store (a : Addr) (d : Byte) (n : Nat) : Access s w n (.ok () (storeByte a d (s.ts + w) (intCheck s)))
  | read (p : Addr) :
      Access s w 4 ((portRead p (dataInstant s.P s.ts w) (intCheck s)).bind fun _ u => .ok () u)
  | write (p : Addr) (d : Byte) : Access s w 4 (portWrite p d (dataInstant s.P s.ts w) (intCheck s))

/-- What becomes of a request after its access: a fault of the access is taken, or the sequencer step follows the response. -/
def Finishes (w n : Nat) (acc : Res State Unit) (t : State) : Prop :=
  (∃ f u, acc = .raised f u ∧ t = takeFault f u) ∨
    ∃ u r, acc = .ok () u ∧ endRequest (sequencerStep w n (respond r u)) = .next t

theorem finishes_ok {w n : Nat} {u t : State} {r : Response}
    (h : endRequest (sequencerStep w n (respond r u)) = .next t) : Finishes w n (.ok () u) t :=
  .inr ⟨u, r, rfl, h⟩

/-- The start of a request: outside the frame it raises E1 after the interrupt check (R226, R307). -/
theorem request_start {op : RequestOp} {s t : State} {k : State → Res State Unit}
    (e : endRequest ((startRequest op s).bind fun _ s1 => k s1) = .next t) :
    (s.P.eof ≤ s.ts ∧ ∃ f, t = takeFault f (intCheck s)) ∨ s.ts < s.P.eof ∧ endRequest (k (intCheck s)) = .next t := by
  by_cases h : s.P.eof ≤ s.ts
  · rw [endRequest_late op h] at e
    cases e
    exact .inl ⟨h, _, rfl⟩
  · rw [startRequest_ok op (Nat.lt_of_not_le h)] at e
    exact .inr ⟨Nat.lt_of_not_le h, e⟩

/-- An I/O access and what follows it. -/
theorem bind_finishes {α : Type} {w n : Nat} {acc : Res State α} {resp : α → Response} {t : State}
    (e : endRequest (acc.bind fun v u => sequencerStep w n (respond (resp v) u)) = .next t) :
    Finishes w n (acc.bind fun _ u => .ok () u) t := by
  cases acc with
  | ok v u => exact finishes_ok e
  | raised f u => cases e; exact .inl ⟨f, u, rfl, rfl⟩

/-- Everything a bus request can do. -/
theorem busRequest_cases {i : Instr} {s t : State} (e : exec i s = .next t)
    (hb : (∃ a n, i = .mfetch a n ∨ i = .mread a n ∨ i = .minternal a n ∨ ∃ d, i = .mwrite a d n) ∨
      ∃ p, i = .iord p ∨ ∃ d, i = .iowr p d) :
    (s.P.eof ≤ s.ts ∧ ∃ f, t = takeFault f (intCheck s)) ∨
      s.ts < s.P.eof ∧ ∃ w n acc, Access s w n acc ∧ Finishes w n acc t := by
  rcases hb with ⟨a, n, rfl | rfl | rfl | ⟨d, rfl⟩⟩ | ⟨p, rfl | ⟨d, rfl⟩⟩
  · rcases request_start e with h | ⟨h, e⟩
    · exact .inl h
    · exact .inr ⟨h, _, _, _, .none (phases n), finishes_ok (w := s.memWait a s.ts) (by simpa [readCycle] using e)⟩
  · rcases request_start e with h | ⟨h, e⟩
    · exact .inl h
    · exact .inr ⟨h, _, _, _, .none (phases n), finishes_ok (w := s.memWait a s.ts) (by simpa [readCycle] using e)⟩
  · rcases request_start e with h | ⟨h, e⟩
    · exact .inl h
    · exact .inr ⟨h, _, _, _, .none (phases n),
        finishes_ok (w := s.internalWait a (phases n) s.ts) (by simpa [internalCycle] using e)⟩
  · rcases request_start e with h | ⟨h, e⟩
    · exact .inl h
    · exact .inr ⟨h, _, _, _, .store a d (phases n),
        finishes_ok (w := s.memWait a s.ts) (by simpa [writeCycle] using e)⟩
  · rcases request_start e with h | ⟨h, e⟩
    · exact .inl h
    · refine .inr ⟨h, s.ioWait s.ts p, 4, _, .read p, bind_finishes (resp := fun v => .data v (s.ioWait s.ts p)) ?_⟩
      simpa [ioReadCycle, ioPhases, State.P] using e
  · rcases request_start e with h | ⟨h, e⟩
    · exact .inl h
    · refine .inr ⟨h, s.ioWait s.ts p, 4, _, .write p d, ?_⟩
      have e' : endRequest ((portWrite p d (dataInstant s.P s.ts (s.ioWait s.ts p)) (intCheck s)).bind
          fun _ u => sequencerStep (s.ioWait s.ts p) 4 (respond (.wait (s.ioWait s.ts p)) u)) = .next t := by
        simpa [ioWriteCycle, ioPhases, State.P] using e
      have h1 := bind_finishes (resp := fun _ => .wait (s.ioWait s.ts p)) e'
      cases hp : portWrite p d (dataInstant s.P s.ts (s.ioWait s.ts p)) (intCheck s) <;> rw [hp] at h1 <;> exact h1

/-- Everything the sequencer step can do (R216, R222, R296): stay in the frame, stop in the device calls of the frame end, or
pass it and apply what is deferred. -/
theorem sequencer_cases {w n : Nat} {s t : State} (e : endRequest (sequencerStep w n s) = .next t) :
    (s.ts + w + n < s.P.eof ∧ t = s.setTs (s.ts + w + n)) ∨
    (s.P.eof ≤ s.ts + w + n ∧ ∃ f u, boundaryCalls (finaliseInterrupt (s.setTs (s.ts + w + n))) = .raised f u ∧
      t = takeFault f u) ∨
    (s.P.eof ≤ s.ts + w + n ∧ ∃ u, boundaryCalls (finaliseInterrupt (s.setTs (s.ts + w + n))) = .ok () u ∧
      endRequest (applyAll u.deferred (frameWrap (rollOver (renderFrame u)))) = .next t) := by
  by_cases h : s.P.eof ≤ s.ts + w + n
  · right
    rw [sequencerStep_past h] at e
    cases hb : boundaryCalls (finaliseInterrupt (s.setTs (s.ts + w + n))) with
    | raised f u => rw [frameEnd_of_raise hb] at e; cases e; exact .inl ⟨h, f, u, rfl, rfl⟩
    | ok a u => rw [frameEnd_of_calls hb] at e; exact .inr ⟨h, u, rfl, e⟩
  · left
    rw [sequencerStep_within (Nat.lt_of_not_le h)] at e
    cases e
    exact ⟨Nat.lt_of_not_le h, rfl⟩

/-- A property that every application of a mutation keeps, and that a fault keeps, is kept by the application of all. `Q` may
speak of the mutations that wait. -/
theorem applyAll_induct (Q : List Mutation → State → Prop) (R : State → Prop)
    (hdone : ∀ s, Q [] s → R (s.setDeferred []))
    (hok : ∀ m rest s v u, Q (m :: rest) s → applyMutation m (s.setDeferred rest) = .ok v u →
      Q rest (emit (.applied v) u))
    (hraise : ∀ m rest s f u, Q (m :: rest) s → applyMutation m (s.setDeferred rest) = .raised f u → R (takeFault f u)) :
    ∀ (l : List Mutation) (s t : State), Q l s → endRequest (applyAll l s) = .next t → R t := by
  intro l
  induction l with
  | nil => intro s t h e; cases e; exact hdone s h
  | cons m rest ih =>
    intro s t h e
    unfold applyAll at e
    cases hm : applyMutation m (s.setDeferred rest) with
    | ok v u => rw [hm] at e; exact ih _ t (hok m rest s v u h hm) e
    | raised f u => rw [hm] at e; cases e; exact hraise m rest s f u h hm

/-! ## Queries and host commands -/

/-- Everything a host mutation can do (R271). -/
theorem hostMutation_cases {m : Mutation} {s t : State} (e : endCommand (hostMutation m s) = .next t) :
    (∃ r, t = respond r s) ∨
    (invalid m (projected s) = none ∧
      ((actsNow m s = false ∧ t = respond .deferred (s.setDeferred (s.deferred ++ [m]))) ∨
        actsNow m s = true ∧
          ((∃ v u, applyMutation m (deferredAfter m s) = .ok v u ∧ t = respond (.done v) u) ∨
            ∃ f u, applyMutation m (deferredAfter m s) = .raised f u ∧ t = respond (.faulted f) (takeFault f u)))) := by
  unfold hostMutation at e
  cases hi : invalid m (projected s) with
  | some r => rw [hi] at e; cases e; exact .inl ⟨r, rfl⟩
  | none =>
    rw [hi] at e
    refine .inr ⟨rfl, ?_⟩
    cases ha : actsNow m s with
    | false => rw [ha] at e; cases e; exact .inl ⟨rfl, rfl⟩
    | true =>
      rw [ha] at e
      cases hm : applyMutation m (deferredAfter m s) with
      | ok v u => rw [hm] at e; cases e; exact .inr ⟨rfl, .inl ⟨v, u, rfl, rfl⟩⟩
      | raised f u => rw [hm] at e; cases e; exact .inr ⟨rfl, .inr ⟨f, u, rfl, rfl⟩⟩

/-- Everything a query or a host command can do: respond, take the fault of a query or render outside the frame, perform fetches, or
be a host mutation, one that replaces the engine only with the operand that came with it. -/
def CommandDoes (i : Instr) (s t : State) : Prop :=
  (∃ r, t = respond r s) ∨ (∃ f r, t = respond r (takeFault f s)) ∨ (∃ r, t = respond r (catchUp s.ts s)) ∨
    ∃ m, endCommand (hostMutation m s) = .next t ∧
      (∀ img, m = .load img → i = .hsnapload ∧ s.oob = .image img) ∧
      ∀ args, m = .switch args → i = .hswitch ∧ s.oob = .model args

theorem query_does {i : Instr} {r : Except FaultRec Value} {s t : State} (e : endCommand (answerQuery r s) = .next t) :
    CommandDoes i s t := by
  cases r with
  | ok v => cases e; exact .inl ⟨_, rfl⟩
  | error f => cases e; exact .inr (.inl ⟨_, _, rfl⟩)

theorem mutation_does {i : Instr} {m : Mutation} {s t : State} (e : endCommand (hostMutation m s) = .next t)
    (hl : ∀ img, m ≠ .load img) (hw : ∀ args, m ≠ .switch args) : CommandDoes i s t :=
  .inr (.inr (.inr ⟨m, e, fun img h => absurd h (hl img), fun args h => absurd h (hw args)⟩))

/-- Everything an instruction can do: a bus request, or a query or host command. -/
theorem exec_cases {i : Instr} {s t : State} (e : exec i s = .next t) :
    ((s.P.eof ≤ s.ts ∧ ∃ f, t = takeFault f (intCheck s)) ∨
      s.ts < s.P.eof ∧ ∃ w n acc, Access s w n acc ∧ Finishes w n acc t) ∨ CommandDoes i s t := by
  cases i with
  | mfetch a n => exact .inl (busRequest_cases e (.inl ⟨a, n, by simp⟩))
  | mread a n => exact .inl (busRequest_cases e (.inl ⟨a, n, by simp⟩))
  | mwrite a d n => exact .inl (busRequest_cases e (.inl ⟨a, n, by simp⟩))
  | minternal a n => exact .inl (busRequest_cases e (.inl ⟨a, n, by simp⟩))
  | iord p => exact .inl (busRequest_cases e (.inr ⟨p, by simp⟩))
  | iowr p d => exact .inl (busRequest_cases e (.inr ⟨p, by simp⟩))
  | qtslin l c => exact .inr (query_does e)
  | qlints x => exact .inr (query_does e)
  | qtsabs x => exact .inr (query_does e)
  | qcont x => exact .inr (query_does e)
  | qcontio x p => exact .inr (query_does e)
  | qfloat x => exact .inr (query_does e)
  | hattach a pos =>
    simp only [exec, execHattach, withOperand] at e
    split at e
    · exact .inr (mutation_does e (by simp) (by simp))
    · cases e; exact .inr (.inl ⟨_, rfl⟩)
  | hdetach a => exact .inr (mutation_does e (by simp) (by simp))
  | hlookup a => cases e; exact .inr (.inl ⟨_, rfl⟩)
  | hpage v => exact .inr (mutation_does e (by simp) (by simp))
  | hflags => cases e; exact .inr (.inl ⟨_, rfl⟩)
  | hsnapsave => cases e; exact .inr (.inl ⟨_, rfl⟩)
  | hsnapload =>
    simp only [exec, execHsnapload, loadCommand, withOperand] at e
    cases ho : s.oob with
    | image img =>
      rw [ho] at e
      exact .inr (.inr (.inr (.inr ⟨_, e, fun x h => (by cases h; exact ⟨rfl, ho⟩), fun x h => (by cases h)⟩)))
    | _ => rw [ho] at e; cases e; exact .inr (.inl ⟨_, rfl⟩)
  | hrenderv =>
    simp only [exec, execHrenderv, renderMid] at e
    split at e
    · cases e; exact .inr (.inr (.inl ⟨_, _, rfl⟩))
    · cases e; exact .inr (.inr (.inr (.inl ⟨_, rfl⟩)))
  | hwrap b => exact .inr (mutation_does e (by simp) (by simp))
  | hswitch =>
    simp only [exec, execHswitch, withOperand] at e
    cases ho : s.oob with
    | model args =>
      rw [ho] at e
      exact .inr (.inr (.inr (.inr ⟨_, e, fun x h => (by cases h), fun x h => by cases h; exact ⟨rfl, ho⟩⟩)))
    | _ => rw [ho] at e; cases e; exact .inr (.inl ⟨_, rfl⟩)

/-- Everything a step can do with an issue `x` taken, `s'` being the state that takes it: respond only; where the mode is not
Faulted, a bus request or a command; in mode Faulted, an HSWITCH at once. -/
theorem step_does {s t : State} {x : Issue} {rest : List Issue} (hi : s.inbox = x :: rest) (e : step s = .next t) :
    let s' := takeIssue x rest s
    (∃ r, t = respond r s') ∨
    (s.mode ≠ .faulted ∧ ((s.P.eof ≤ s.ts ∧ ∃ f, t = takeFault f (intCheck s')) ∨
      s.ts < s.P.eof ∧ ∃ w n acc, Access s' w n acc ∧ Finishes w n acc t)) ∨
    (s.mode ≠ .faulted ∧ ((∃ f r, t = respond r (takeFault f s')) ∨ (∃ r, t = respond r (catchUp s'.ts s')))) ∨
    ∃ m, endCommand (hostMutation m s') = .next t ∧ (s.mode ≠ .faulted ∨ ∃ args, m = .switch args) ∧
      (∀ img, m = .load img → decode x.word = .ok .hsnapload ∧ x.oob = .image img) ∧
      ∀ args, m = .switch args → decode x.word = .ok .hswitch ∧ x.oob = .model args := by
  intro s'
  rcases step_cases hi with ⟨_, he⟩ | ⟨ha, k, hk, ⟨_, he⟩ | ⟨_, he⟩⟩ | ⟨_, _, r, _, he⟩ | ⟨ha, i, hd, ⟨_, he⟩ | ⟨_, he⟩⟩
  · rw [he] at e; cases e; exact .inl ⟨_, rfl⟩
  · rw [he] at e
    cases k with
    | reads => cases e; exact .inl ⟨_, rfl⟩
    | writes =>
      refine .inr (.inr (.inr ⟨_, e, .inl ?_, fun _ h => (by cases h), fun _ h => (by cases h)⟩))
      intro hf
      unfold admitted admittedFaulted at ha
      unfold customOf at hk
      rw [hf] at ha
      generalize (fieldsOf x.word).op = op at ha hk
      split at hk
      · next h7 => clear hk; revert ha h7; revert op; decide
      · cases hk
  · rw [he] at e; cases e; exact .inl ⟨_, rfl⟩
  · rw [he] at e; cases e; exact .inl ⟨_, rfl⟩
  · rw [he] at e
    by_cases hf : s.mode = .faulted
    · unfold admitted admittedFaulted at ha
      rw [hf, decode_op hd] at ha
      cases i <;> simp only [encodeFields] at ha <;> try (exact absurd ha (by decide))
      · cases e; exact .inl ⟨_, rfl⟩
      · cases e; exact .inl ⟨_, rfl⟩
      · simp only [exec, execHswitch, withOperand] at e
        cases ho : (takeIssue x rest s).oob with
        | model args =>
          rw [ho] at e
          refine .inr (.inr (.inr ⟨_, e, .inr ⟨_, rfl⟩, fun x h => (by cases h), fun a h => ?_⟩))
          cases h; exact ⟨hd, ho⟩
        | _ => rw [ho] at e; cases e; exact .inl ⟨_, rfl⟩
    · rcases exec_cases e with h | ⟨r, h⟩ | ⟨f, r, h⟩ | ⟨r, h⟩ | ⟨m, h, hl, hw⟩
      · exact .inr (.inl ⟨hf, h⟩)
      · exact .inl ⟨r, h⟩
      · exact .inr (.inr (.inl ⟨hf, .inl ⟨f, r, h⟩⟩))
      · exact .inr (.inr (.inl ⟨hf, .inr ⟨r, h⟩⟩))
      · refine .inr (.inr (.inr ⟨m, h, .inl hf, fun img hm => ?_, fun args hm => ?_⟩))
        · obtain ⟨h1, h2⟩ := hl img hm; rw [← h1]; exact ⟨hd, h2⟩
        · obtain ⟨h1, h2⟩ := hw args hm; rw [← h1]; exact ⟨hd, h2⟩
  · rw [he] at e; cases e; exact .inl ⟨_, rfl⟩

end Sys2Proof.Machine
end

