-- ==== Sys2Proof/Laws/Video.lean ====
section
/-! SUPPORT. The video cache cell by cell, and what a pixel depends on (R238, R246, R287). -/

namespace Sys2Proof.Machine

theorem mapFrom_getElem? {α β : Type} (f : Nat → α → β) (i k : Nat) (l : List α) : (mapFrom f i l)[k]? = (l[k]?).map (f (i + k)) := by
  induction l generalizing i k with
  | nil => simp [mapFrom]
  | cons a l ih =>
    cases k with
    | zero => simp [mapFrom]
    | succ k => simp only [mapFrom, List.getElem?_cons_succ, ih]; rw [Nat.add_right_comm, Nat.add_assoc]

theorem mapFrom_length {α β} (f : Nat → α → β) (i : Nat) (l : List α) : (mapFrom f i l).length = l.length := by
  induction l generalizing i with
  | nil => rfl
  | cons a l ih => simp [mapFrom, ih]

theorem mapFrom_all {α β} (f : Nat → α → β) (i : Nat) (l : List α) (p : α → Bool) (q : β → Bool) (h : ∀ j a, p a = true → q (f j a) = true) (hl : l.all p = true) : (mapFrom f i l).all q = true := by
  induction l generalizing i with
  | nil => rfl
  | cons a l ih =>
    rw [List.all_cons, Bool.and_eq_true] at hl
    simp only [mapFrom, List.all_cons, Bool.and_eq_true]
    exact ⟨h i a hl.1, ih (i+1) hl.2⟩

/-- Two lists that agree in what `f` and `g` look at. -/
theorem mapFrom_congr {α β γ δ : Type} (f : Nat → α → γ) (g : Nat → β → γ) (π : α → δ) (ρ : β → δ)
   (h : ∀ i a b, π a = ρ b → f i a = g i b) (i : Nat) (l : List α) (m : List β) (e : l.map π = m.map ρ) : mapFrom f i l = mapFrom g i m := by
  induction l generalizing i m with
  | nil => cases m <;> simp_all [mapFrom]
  | cons a l ih =>
    cases m with
    | nil => simp at e
    | cons b m =>
      simp only [List.map_cons, List.cons.injEq] at e
      simp only [mapFrom, h i a b e.1, ih (i+1) m e.2]

/-- A pixel depends on the enabled wrappers alone (R287). -/
theorem wrappedPixel_eq_foldr (w : List WrapNode) (p : PixelIn) (k : Nat) :
    wrappedPixel w p k = (wrapKey w).foldr (fun x inner => (wrapPixel x.1 x.2 p inner).getD inner) k := by
  induction w with
  | nil => rfl
  | cons n w ih =>
    unfold wrapKey at *
    unfold wrappedPixel
    cases he : n.enabled
    · rw [List.filter_cons_of_neg (by simp [he]), ← ih]; simp
    · rw [List.filter_cons_of_pos (by simp [he]), List.map_cons, List.foldr_cons, ← ih]; rfl

theorem wrappedPixel_key (w v : List WrapNode) (h : wrapKey w = wrapKey v) (p : PixelIn) (k : Nat) :
    wrappedPixel w p k = wrappedPixel v p k := by
  rw [wrappedPixel_eq_foldr, wrappedPixel_eq_foldr, h]

/-- R238, one cell of the cache. -/
theorem catchUp_cell (T : Nat) (s : State) (y x : Nat) (l : VLine) (c : VCell) (hl : s.vcache[y]? = some l) (hc : l.cells[x]? = some c) :
  ∃ l', (catchUp T s).vcache[y]? = some l' ∧ l'.cells[x]? = some (catchCell s.toEngine T y x c) := by
  refine ⟨catchLine s.toEngine T y l, ?_, ?_⟩
  · show (mapFrom (catchLine s.toEngine T) 0 s.vcache)[y]? = _
    rw [mapFrom_getElem?, hl, Nat.zero_add]; rfl
  · show (mapFrom (catchCell s.toEngine T y) 0 l.cells)[x]? = _
    rw [mapFrom_getElem?, hc, Nat.zero_add]; rfl

theorem catchCell_bmp (e : Engine) (T y x : Nat) (c : VCell) : (catchCell e T y x c).bmp = if c.seenBmp = false ∧ fetchBmp e.cfg.params y x ≤ T then e.screenRead (bmpOff y x) else c.bmp := by
  unfold catchCell catchAtt catchBmp; split <;> split <;> rfl

theorem catchCell_seenBmp (e : Engine) (T y x : Nat) (c : VCell) : (catchCell e T y x c).seenBmp = if c.seenBmp = false ∧ fetchBmp e.cfg.params y x ≤ T then true else c.seenBmp := by
  unfold catchCell catchAtt catchBmp; split <;> split <;> rfl

theorem catchCell_att (e : Engine) (T y x : Nat) (c : VCell) : (catchCell e T y x c).att = if c.seenAtt = false ∧ fetchAtt e.cfg.params y x ≤ T then e.screenRead (attOff y x) else c.att := by
  unfold catchCell catchAtt catchBmp; split <;> split <;> simp_all

theorem catchCell_seenAtt (e : Engine) (T y x : Nat) (c : VCell) : (catchCell e T y x c).seenAtt = if c.seenAtt = false ∧ fetchAtt e.cfg.params y x ≤ T then true else c.seenAtt := by
  unfold catchCell catchAtt catchBmp; split <;> split <;> simp_all

end Sys2Proof.Machine
end

