-- ==== Sys2Proof/Tests/Slice0.lean ====
section
/-! SUPPORT. Tests of the model on fixed values. Every expected result is one of spec/95_test_vectors.md (named in each
comment) or written out by hand from the encodings of spec/30_encoding.md. After them, for each obligation with hypotheses, a
witness that meets them. -/

namespace Sys2Proof.Tests

/-! One theorem after the other: each evaluation waits for those before it, and many waiting at once take too many threads. -/
set_option Elab.async false

open Sys2Proof.Machine Sys2Proof.Claims

/-- A field of the next state, `d` where there is none. -/
def sees {α : Type} (o : Host.Outcome State Fault Refusal) (f : State → α) (d : α) : α :=
  match o with
  | .next s => f s
  | .fault _ => d
  | .refused _ => d

/-- The start of 95_test_vectors.md: ZX48, late, HOST_IN constantly (0x1F, 0). -/
def start : State := { State.reset with args := { State.reset.args with input := .fixed 0x1F 0 } }

/-- The same at frame-linear cycle `t`, mid-frame, interrupt done. -/
def startAt (t : Nat) : State := { start with ts := t, intDone := true, atBoundary := false }

/-- The ZX128 reset state. -/
def start128 : State := start.setEngine (construct { resetArgs with params := zx128 })

/-- The display bytes of vector group V-FB. -/
def vfb : Memory := [(16384, 0xAA), (16385, 0x55), (22528, 0x38), (22529, 0x07)]

/-- One step on a word. -/
def issue (w : Nat) (s : State) : Host.Outcome State Fault Refusal := step (s.withFetchWord 64 w)

/-- One step on a word with an out-of-band operand. -/
def issueWith (w : CmdWord) (x : Oob) (s : State) : Host.Outcome State Fault Refusal :=
  step (s.setInbox [{ iface := .host, word := w, oob := x }])

/-- The responses of a step. -/
def replies (o : Host.Outcome State Fault Refusal) : List Output := sees o (·.out) []

/-! ## Decoding: words written out from R116, R118 -/

theorem test_decode_memory :
    decode 0x0100000040000004 = .ok (.mfetch 0x4000 4) ∧ decode 0x02000000FFFF0003 = .ok (.mread 0xFFFF 3) ∧
    decode 0x030000004000AA03 = .ok (.mwrite 0x4000 0xAA 3) ∧ decode 0x040000008000000F = .ok (.minternal 0x8000 15) := by
  decide +kernel

theorem test_decode_io :
    decode 0x05000000001F0004 = .ok (.iord 0x001F) ∧ decode 0x060000007FFD2104 = .ok (.iowr 0x7FFD 0x21) := by
  decide +kernel

theorem test_decode_queries :
    decode 0x101370DF00000000 = .ok (.qtslin 311 223) ∧ decode 0x110037FF00000000 = .ok (.qlints 14335) ∧
    decode 0x1200006400000000 = .ok (.qtsabs 100) ∧ decode 0x1400380600000000 = .ok (.qcont 14342) ∧
    decode 0x1500380040FE0000 = .ok (.qcontio 14336 0x40FE) ∧ decode 0x1600380300000000 = .ok (.qfloat 14339) := by
  decide +kernel

theorem test_decode_host :
    decode 0x20000000000100FF = .ok (.hattach 1 0xFF) ∧ decode 0x2100000000090000 = .ok (.hdetach 9) ∧
    decode 0x2200000000030000 = .ok (.hlookup 3) ∧ decode 0x230000000000C700 = .ok (.hpage 0xC7) ∧
    decode 0x2400000000000000 = .ok .hflags ∧ decode 0x2500000000000000 = .ok .hsnapsave ∧
    decode 0x2600000000000000 = .ok .hsnapload ∧ decode 0x2700000000000000 = .ok .hrenderv ∧
    decode 0x2800000000000100 = .ok (.hwrap true) ∧ decode 0x2800000000000000 = .ok (.hwrap false) ∧
    decode 0x2900000000000000 = .ok .hswitch := by
  decide +kernel

/-- V-X5 to V-X10. -/
theorem test_decode_refuses :
    decode 0x0200000040000000 = .error .badField ∧ decode 0x0200000040000103 = .error .reservedField ∧
    decode 0x0200000100000100 = .error .reservedField ∧ decode 0x1300000000000000 = .error .unknownOpcode ∧
    decode 0x0500000000FF0003 = .error .badField ∧ decode 0x8000000000000000 = .error .unknownOpcode := by
  decide +kernel

/-- R129: a default, a pseudo-instruction, an option. -/
theorem test_assemble :
    assemble "MREAD" [0x4000] none = some (.mread 0x4000 3) ∧ assemble "BORDER" [2] none = some (.iowr 0x00FE 2) ∧
    assemble "HATTACH" [2] (some ("pos", 0)) = some (.hattach 2 0) ∧ assemble "MINTERNAL" [0x8000] (some ("n", 5)) =
      some (.minternal 0x8000 5) := by
  decide +kernel

/-- The smoke test of WellFormed: R123 refuses phase counts 0 and 16. -/
theorem test_wellFormed_refuses :
    WellFormed (.mfetch 0 0) = false ∧ WellFormed (.mread 0 16) = false ∧ WellFormed (.mwrite 0 0 0) = false ∧
    WellFormed (.minternal 0 16) = false ∧ WellFormed (.minternal 0 15) = true := by
  decide +kernel

/-- R14: both reference records pass, a record with `CPL = 0` does not (V-H10). -/
theorem test_params_wellFormed :
    zx48.wellFormed = true ∧ zx128.wellFormed = true ∧ ({ zx48 with cpl := 0 } : Params).wellFormed = false := by
  decide +kernel

/-! ## Contention and timestamps -/

/-- V-T13, V-T14, V-T15, V-T20, V-T21, V-T22. -/
theorem test_contention_edges :
    contention zx48 14560 = 6 ∧ contention zx48 57247 = 0 ∧ contention zx48 57344 = 0 ∧ contention zx128 14361 = 6 ∧
    contention zx128 14589 = 6 ∧ contention zx128 14596 = 0 := by
  decide +kernel

/-- V-T1. -/
theorem test_qtslin : replies (issue 0x1004000000000000 start) = [.response (.done (.nat 14336))] := by decide +kernel

/-- V-T3. -/
theorem test_qtslin_faults :
    sees (issue 0x1013800000000000 start) (fun s => (s.mode, s.fault)) (.running, none)
      = (.faulted, some { code := .e1, info := .lineCycle 312 0 312 224 }) := by decide +kernel

/-- V-T5. -/
theorem test_qlints : replies (issue 0x110037FF00000000 start) = [.response (.done (.stamp 63 223))] := by decide +kernel

/-- V-T6. -/
theorem test_qtsabs :
    replies (issue 0x1200006400000000 (start.setFrame 2)) = [.response (.done (.tick 139876))] := by decide +kernel

/-- V-T9. -/
theorem test_qcont : replies (issue 0x1400380500000000 start) = [.response (.done (.nat 1))] := by decide +kernel

/-- V-X1. -/
theorem test_qcont_faults :
    replies (issue 0x1401110000000000 start)
      = [.response (.faulted { code := .e1, info := .query .qcont 69888 (.below 69888) })] := by decide +kernel

/-- V-T17. -/
theorem test_qcontio : replies (issue 0x1500380040FF0000 start) = [.response (.done (.nat 12))] := by decide +kernel

/-- V-T16, V-T18, V-T19, V-T23. -/
theorem test_ioWait_rows :
    start.ioWait 14335 0x00FE = 6 ∧ start.ioWait 14336 0x40FE = 6 ∧ start.ioWait 14336 0x80FF = 0 ∧
    start128.ioWait 14361 0x7FFD = 12 := by decide +kernel

/-! ## Memory requests -/

/-- V-M1. -/
theorem test_mfetch :
    sees (issue 0x0100000040000004 (startAt 14336)) (fun s => (s.ts, s.out)) (0, []) = (14346, [.response (.data 0 6)]) := by
  decide +kernel

/-- R307: the interrupt is signalled before a fault of the same request, that of R226 too. -/
theorem test_signal_before_late_request :
    sees (issue 0x0200000000000003 ((startAt 69888).setIntDone false)) (fun s => (s.out, s.intDone, s.atBoundary, s.fault))
        ([], false, true, none)
      = ([.interrupt], true, false, some { code := .e1, info := .requestAt .mread 69888 (.below 69888) }) := by decide +kernel

/-- V-S1: the signal comes before the response. -/
theorem test_mread_signals :
    sees (issue 0x0200000000000003 start) (fun s => (s.ts, s.out, s.atBoundary)) (0, [], true)
      = (3, [.interrupt, .response (.data 0 0)], false) := by decide +kernel

/-- W8: the wait is that of the first phase. -/
theorem test_mread_first_phase :
    sees (issue 0x0200000040000003 (startAt 14335)) (·.ts) 0 = 14338 := by decide +kernel

/-- V-M4. -/
theorem test_mwrite :
    sees (issue 0x030000004000AA03 (startAt 14336)) (fun s => (s.ts, s.pages)) (0, []) = (14345, [(16384, 0xAA)]) := by
  decide +kernel

/-- V-V2: a write at `tw = 14342` comes too late for the fetch at 14339. -/
theorem test_mwrite_after_fetch :
    sees (issue 0x030000004000FF03 (startAt 14339))
      (fun s => (((catchUp 69887 s).vcache.headD ⟨[], false, none⟩).cells.headD ⟨9, 9, false, false⟩).bmp) 9 = 0 := by
  decide +kernel

/-- V-V1: a write at `tw = 14330` is seen by that fetch. -/
theorem test_mwrite_before_fetch :
    sees (issue 0x030000004000FF03 (startAt 14330))
      (fun s => (((catchUp 69887 s).vcache.headD ⟨[], false, none⟩).cells.headD ⟨9, 9, false, false⟩).bmp) 9 = 0xFF := by
  decide +kernel

/-- V-M5: a write to ROM changes nothing. -/
theorem test_write_to_rom : (memWrite 0x0000 0x55 start).pages = [] := by decide +kernel

/-- V-M7. -/
theorem test_minternal :
    sees (issue 0x0400000040000005 (startAt 14342)) (fun s => (s.ts, s.out)) (0, []) = (14359, [.response (.wait 12)]) := by
  decide +kernel

/-- V-S4: the frame end keeps the cycles past EOF. -/
theorem test_minternal_frame_end :
    sees (issue 0x0400000080000005 (startAt 69884)) (fun s => (s.ts, s.frame, s.intDone, s.atBoundary)) (0, 0, true, false)
      = (1, 1, false, true) := by decide +kernel

/-- V-M11, V-M12, V-M14: paging decides the page and its contention. -/
theorem test_paged_windows :
    (start128.setPaging (some 0x01)).memWait 0xC000 14361 = 6 ∧ (start128.setPaging (some 0x02)).memWait 0xC000 14361 = 0 ∧
    (start128.setPaging (some 0x10)).pageOf 0x0000 = 1 ∧ (start128.setPaging (some 0x08)).screenPage = bank 7 := by
  decide +kernel

/-! ## I/O -/

/-- V-FB9. -/
theorem test_iord_floating :
    sees (issue 0x0500000000FF0004 ((startAt 14339).setPages vfb)) (fun s => (s.ts, s.out)) (0, [])
      = (14343, [.response (.data 0xAA 0)]) := by decide +kernel

/-- V-FB10. -/
theorem test_iord_ula :
    sees (issue 0x0500000000FE0004 (startAt 14339)) (fun s => (s.ts, s.out)) (0, [])
      = (14345, [.response (.data 0xBF 2)]) := by decide +kernel

/-- V-FB11. -/
theorem test_iowr_border :
    sees (issue 0x0600000000FE0204 (startAt 14335)) (fun s => (s.ts, s.ula, s.borderEv)) (0, 0, [])
      = (14345, 0x02, [{ t := 14341, colour := 2 }]) := by decide +kernel

/-- V-FB15: one port selects the chipset port and the paging port. -/
theorem test_iowr_both_ports :
    sees (issue 0x060000007FFC1104 start128) (fun s => (s.ula, s.paging)) (0, none) = (0x11, some 0x11) := by
  decide +kernel

/-- V-FB12: EAR edge, no MIC edge. -/
theorem test_ulaWrite_edges :
    ((ulaWrite 0x12 200 start).audio.ear.edges, (ulaWrite 0x12 200 start).audio.mic.edges)
      = ([{ t := 200, level := 1 }], []) := by decide +kernel

/-- V-FB2 to V-FB5. -/
theorem test_qfloat :
    (start.setPages vfb).floatingBus 14339 = 0xAA ∧ (start.setPages vfb).floatingBus 14340 = 0x38 ∧
    (start.setPages vfb).floatingBus 14341 = 0x55 ∧ (start.setPages vfb).floatingBus 14342 = 0x07 := by decide +kernel

/-- V-FB1, through the command word. -/
theorem test_qfloat_idle :
    replies (issue 0x1600380200000000 (start.setPages vfb)) = [.response (.done (.byte 0xFF))] := by decide +kernel

/-- V-S6. -/
theorem test_interrupt_line :
    intLine start.cfg 0 = true ∧ intLine start.cfg 1 = false ∧ intLine { start.cfg with scheme := .early } 1 = true := by
  decide +kernel

/-! ## Devices -/

/-- Device A of P4: claims reads of ports with low byte 0x1F, inverts writes to them. -/
def devA : DevImpl :=
  { init := [], clock := .abs64, nch := 0
    ops := .scripted
      { reads := [{ mask := 0x00FF, value := 0x001F, answer := 0x42, edges := [] }]
        writes := [{ mask := 0x00FF, value := 0x001F, flip := 0xFF, record := false, edges := [] }]
        atBoundary := [] } }

/-- Device B of P4: claims nothing, records the last write it was offered. -/
def devB : DevImpl :=
  { init := [], clock := .frame, nch := 0
    ops := .scripted
      { reads := [], writes := [{ mask := 0, value := 0, flip := 0, record := true, edges := [] }], atBoundary := [] } }

/-- Device C of P5: claims every read. -/
def devC : DevImpl :=
  { init := [], clock := .abs64, nch := 0
    ops := .scripted
      { reads := [{ mask := 0, value := 0, answer := 0x99, edges := [] }], writes := [], atBoundary := [] } }

/-- A device with one audio channel that reports level 3 at a write, `late` cycles after it. -/
def devSound (late : Nat) : DevImpl :=
  { init := [], clock := .abs64, nch := 1
    ops := .scripted
      { reads := []
        writes := [{ mask := 0, value := 0, flip := 0, record := false, edges := [{ chan := 0, delay := late, level := 3 }] }]
        atBoundary := [] } }

/-- The state with the devices attached in order, as handles 1, 2, … given. -/
def withDevices (l : List (Addr × DevImpl)) (s : State) : State :=
  l.foldl (fun t d => attachDevice d.1 0xFF d.2 t) s

/-- P4 line 4: A claims, both devices are brought to tick 0. -/
theorem test_chain_claim :
    replies (issue 0x05000000001F0004 (withDevices [(1, devA), (2, devB)] start)) = [.interrupt, .response (.data 0x42 0)] := by
  decide +kernel

/-- P4 line 6: A forwards 0xF0, B records (0x001F, 0xF0, (0, (0, 8))). -/
theorem test_chain_forward :
    sees (issue 0x06000000001F0F04 (withDevices [(1, devA), (2, devB)] (startAt 8)))
      (fun s => s.chain.map (fun n => (n.dev, n.last))) []
      = [([], 8), ([0x001F, 0xF0, 0, 0, 8], 8)] := by decide +kernel

/-- P5a: the first claim wins, the conflict is flagged. -/
theorem test_double_claim_flagged :
    sees (issue 0x05000000001F0004 (withDevices [(1, devA), (3, devC)] start)) (fun s => (s.ts, s.out, s.devConflict)) (0, [], false)
      = (4, [.interrupt, .response (.data 0x42 0)], true) := by decide +kernel

/-- P5b: with STRICT a double claim is fatal; no response, no sequencer step. -/
theorem test_double_claim_fatal :
    sees (issue 0x05000000001F0004
        (withDevices [(1, devA), (3, devC)] { start with cfg := { start.cfg with strict := true } }))
      (fun s => (s.ts, s.out, s.fault)) (9, [], none)
      = (0, [.interrupt], some { code := .e3, info := .claim 3 }) := by decide +kernel

/-- V-A9: an edge later than the call is E1. -/
theorem test_late_edge_faults :
    sees (issue 0x06000000001F0F04 (withDevices [(5, devSound 1)] (startAt 100))) (·.fault) none
      = some { code := .e1, info := .edge (.dev 5 0) 101 (.notAfter 100) } := by decide +kernel

/-- V-H2. -/
theorem test_hattach_head :
    sees (issueWith 0x2000000000020000 (.device devB) (withDevices [(1, devA)] start)) (fun s => (s.chain.map (·.id), s.out)) ([], [])
      = ([2, 1], [.response (.done .unit)]) := by decide +kernel

/-- V-H3. -/
theorem test_hattach_duplicate :
    replies (issue 0x20000000000100FF (withDevices [(1, devA)] start)) = [.response (.refused .badField)] := by decide +kernel

/-- V-H4, V-H5. -/
theorem test_hdetach :
    sees (issue 0x2100000000010000 (withDevices [(2, devB), (1, devA)] start)) (fun s => s.chain.map (·.id)) [] = [2] ∧
    replies (issue 0x2100000000090000 (withDevices [(2, devB), (1, devA)] start)) = [.response (.error (.e5 9))] := by
  decide +kernel

/-- V-A10: detaching a device whose channel is at level 3. -/
theorem test_hdetach_falls :
    sees (execIowr 0x001F 0x00 (withDevices [(5, devSound 0)] (startAt 100)))
      (fun s => (detachDevice 5 (s.setTs 100)).state.audio.chans.map (fun c => (c.closing, c.ch.edges))) []
      = [(true, [{ t := 100, level := 3 }, { t := 100, level := 0 }])] := by decide +kernel

/-- V-H6, V-H7: a pending attach is not found by HLOOKUP and may be detached. -/
theorem test_hlookup_current :
    let s := (withDevices [(1, devA)] (startAt 12)).setDeferred [.attach 3 0xFF devC]
    replies (issue 0x2200000000030000 s) = [.response (.error (.e5 3))] ∧
    replies (issue 0x2100000000030000 s) = [.response .deferred] := by decide +kernel

/-! ## Host commands -/

/-- V-P2: the lock. -/
theorem test_hpage_lock : (pagingWrite 0x01 (pagingWrite 0x20 start128)).paging = some 0x20 := by decide +kernel

/-- V-P1 and V-P3. -/
theorem test_hpage :
    sees (issue 0x230000000000C700 start128) (·.paging) none = some 0x07 ∧
    replies (issue 0x2300000000000700 start) = [.response (.refused .badField)] := by decide +kernel

/-- V-H1. -/
theorem test_hflags :
    replies (issue 0x2400000000000000 start)
      = [.response (.done (.flags ⟨.running, none, false, true, 0, 0, 0⟩))] := by decide +kernel

/-- W5: the image that HSNAPSAVE returns loads back. -/
theorem test_hsnapload_own_image :
    sees (issueWith 0x2600000000000000 (.image (startAt 5000).toEngine) start) (fun s => (s.ts, s.atBoundary, s.out)) (0, false, [])
      = (5000, true, [.response (.done .unit)]) := by decide +kernel

/-- V-H8. -/
theorem test_hsnapload_invalid :
    replies (issueWith 0x2600000000000000 (.image (startAt 69888).toEngine) start)
      = [.response (.error (.e4 .timestamp))] := by decide +kernel

/-- V-V6, V-V10: 288 rows of 352 columns; border 5 around the display area, which is all index 0. -/
theorem test_hrenderv_rows :
    let b := (catchUp 0 (start.setBorder0 5)).midBuffer
    b.length = 288 ∧ (b.getD 0 []).length = 352 ∧ (b.getD 48 []).getD 47 9 = 5 ∧ (b.getD 48 []).getD 48 9 = 0 := by
  decide +kernel

/-- V-V3, V-V4, V-V5: plain, bright and flashing pixels. -/
theorem test_pixels :
    (List.range 2).map (fun i => pixelIndex ⟨0, i, 0xAA, 0x38, 0⟩) = [0, 7] ∧
    (List.range 2).map (fun i => pixelIndex ⟨0, i, 0xAA, 0x78, 0⟩) = [8, 15] ∧
    (List.range 2).map (fun i => pixelIndex ⟨0, i, 0xAA, 0xB8, 1⟩) = [7, 0] := by decide +kernel

/-- V-V9: a border change at 4994 shows from column 172 of row 6. -/
theorem test_border_split :
    let s := startAt 5100 |>.setBorderEv [{ t := 4994, colour := 2 }]
    let row := bufferRow zx48 visRef [] s.borderAt 6
    row.getD 171 9 = 0 ∧ row.getD 172 9 = 2 := by decide +kernel

/-- V-H9. -/
theorem test_hwrap_unwrapped :
    replies (issue 0x2800000000000100 start) = [.response (.refused .badField)] := by decide +kernel

/-- A wrapper that takes ports with low byte 0x3B, in the form of R284. -/
def wrapA : WrapImpl :=
  .scripted
    { readMask := 0x00FF, readValue := 0x003B, writeMask := 0x00FF, writeValue := 0x003B, pixelAdd := some 16
      geometry := none, map := none, customRead := [0x80], customWrite := [0x81] }

def wrapped : State := start.setWrap [{ impl := wrapA, enabled := true, st := [7] }]

/-- R280 at a boundary, R285: a wrapped port. -/
theorem test_hwrap_wrapped :
    sees (issue 0x2800000000000000 wrapped) (fun s => s.wrap.map (·.enabled)) [] = [false] ∧
    sees (issue 0x06000000003B5504 wrapped) (fun s => s.wrap.map (·.st)) [] = [[0x55]] := by decide +kernel

/-- R289: custom commands of the wrapper. -/
theorem test_custom :
    replies (issue 0x8000000000000000 wrapped) = [.response (.done (.nat 7))] ∧
    sees (issue 0x8100000000000900 wrapped) (fun s => s.wrap.map (·.st)) [] = [[9]] := by decide +kernel

/-- V-H11. -/
theorem test_hswitch :
    sees (issueWith 0x2900000000000000 (.model { resetArgs with params := zx128 }) (withDevices [(1, devA)] start))
      (fun s => (s.P.eof, s.chain.length, s.paging)) (0, 9, none) = (70908, 0, some 0) := by decide +kernel

/-- V-H10. -/
theorem test_hswitch_refused :
    replies (issueWith 0x2900000000000000 (.model { resetArgs with params := { zx48 with cpl := 0 } }) start)
      = [.response (.refused .badField)] := by decide +kernel

/-! ## Faults, admission -/

/-- A faulted state, mid-frame. -/
def broken : State := takeFault { code := .e3, info := .claim 3 } (startAt 50)

/-- V-X2, V-X3, P5b lines 4 to 6. -/
theorem test_faulted_admission :
    replies (issue 0x0200000000000003 broken) = [.response (.halted (some { code := .e3, info := .claim 3 }))] ∧
    replies (issue 0x2400000000000000 broken)
      = [.response (.done (.flags ⟨.faulted, some { code := .e3, info := .claim 3 }, false, false, 0, 50, 0⟩))] ∧
    sees (issue 0x2900000000000000 broken) (fun s => (s.mode, s.ts)) (.faulted, 9) = (.running, 0) := by decide +kernel

/-- V-X11. -/
theorem test_wrong_interface :
    replies (step (start.setInbox [{ iface := .stepping, word := 0x20000000000100FF, oob := .device devA }]))
      = [.response (.refused .badField)] := by decide +kernel

/-! ## The frame end -/

/-- P3 line 2: border and EAR roll over, the step at 110061/125 stays in the carry. -/
theorem test_frame_end_rolls :
    let P : Params := { zx48 with sampleRate := .given 44100, stepShape := .ramp, stepKPred := .given 1 }
    let s := (ulaWrite 0x15 69880 (startAt 69884)).setEngine
      { (ulaWrite 0x15 69880 (startAt 69884)).toEngine with cfg := { start.cfg with params := P } }
    sees (issue 0x0400000080000005 s) (fun s => (s.border0, s.borderEv, s.audio.ear)) (0, [], quietChannel 9)
      = (5, [], { edges := [], level := 1, base := 0, pend := [{ pos := 110061 / 125, delta := 1 }] }) := by decide +kernel

/-- V-P4: a deferred HPAGE acts at the next frame end. -/
theorem test_deferred_page :
    sees (issue 0x0400000080000005 ((start128.setTs 70904).setDeferred [.page 0x03])) (fun s => (s.paging, s.deferred)) (none, [.page 0])
      = (some 0x03, []) := by decide +kernel

/-- The record of vector group V-A. -/
def audioP : Params := { zx48 with sampleRate := .given 44100, stepShape := .ramp, stepKPred := .given 1 }

/-- V-A1, V-A8. -/
theorem test_firstSample :
    firstSample audioP 1 = 881 ∧ firstSample audioP 2 = 1762 ∧ firstSample audioP 3 = 2642 ∧
    firstSample { audioP with eof := 70908, cpuHz := 3546900 } 1 = 882 := by decide +kernel

/-- V-A2. -/
theorem test_levelAt_ramp :
    let c : Channel := { edges := [{ t := 20000, level := 1 }], level := 1, base := 0, pend := [] }
    c.levelAt audioP 0 252 = 0 ∧ c.levelAt audioP 0 253 = 1 / 2 ∧ c.levelAt audioP 0 254 = 1 := by decide +kernel

/-- V-A5, V-A6: the carried step in frame 1, and its settling. -/
theorem test_carried_step :
    let c : Channel := { edges := [], level := 1, base := 0, pend := [{ pos := 110061 / 125, delta := 1 }] }
    c.levelAt audioP 1 881 = 32 / 125 ∧ c.levelAt audioP 1 882 = 189 / 250 ∧
    c.roll audioP 1 = { edges := [], level := 1, base := 1, pend := [] } := by decide +kernel

/-- V-A7: without synthesis the buffer is empty. -/
theorem test_no_synthesis : audioRender audioP 0 1 false start.audio = [] := by decide +kernel

/-! ## Witnesses: for each obligation with hypotheses, states and operands that meet them together -/

/-- `s` with one word issued through an interface. -/
def queued (f : Interface) (w : CmdWord) (o : Oob) (s : State) : State := s.setInbox [{ iface := f, word := w, oob := o }]

/-- The outcome is a next state of which `q` holds. -/
def nextIs (o : Host.Outcome State Fault Refusal) (q : State → Bool) : Bool :=
  match o with
  | .next t => q t
  | .fault _ => false
  | .refused _ => false

/-- With nothing deferred and one word that is no HSNAPLOAD and no HSWITCH, the next step keeps the engine. -/
theorem keeps_queued {f : Interface} {w : CmdWord} {o : Oob} {s : State} (hd : noReplacement s)
    (hw : decode w ≠ .ok .hsnapload ∧ decode w ≠ .ok .hswitch) : keepsEngine (queued f w o s) := by
  refine ⟨hd, ?_⟩
  rintro x rest h
  cases h
  exact hw

/-- Chain `[1, 3]` of devices A and C, both at tick 0. -/
def twoClaim : State := withDevices [(1, devA), (3, devC)] start

def strict (s : State) : State := { s with cfg := { s.cfg with strict := true } }

/-- The node with handle `h`, empty if there is none. -/
def nodeOf (h : Addr) (s : State) : Node :=
  (s.chain.find? (fun n => n.id == h)).getD
    { id := 0, dev := [], clock := .abs64, last := 0, nch := 0, ops := .scripted { reads := [], writes := [], atBoundary := [] } }

/-- A device whose boundary call reports an edge after the boundary (R258). -/
def devLate : DevImpl :=
  { init := [], clock := .lin32, nch := 1
    ops := .scripted { reads := [], writes := [], atBoundary := [{ chan := 0, delay := 1, level := 1 }] } }

/-- The ordered border events of a frame that cross its end. -/
def crossing : State := (startAt 100).setBorderEv [{ t := 50, colour := 1 }, { t := 69888, colour := 2 }]

theorem witness_DecodeOfEncode :
    WellFormed (.mfetch 0xFFFF 1) = true ∧ WellFormed (.minternal 0 15) = true ∧ WellFormed (.qcontio 0xFFFFFF 0xFFFF) = true := by
  decide +kernel

theorem witness_AcceptedWordIsItsEncoding : decode 0x040000008000000F = .ok (.minternal 0x8000 15) := by decide +kernel

theorem witness_UnlistedOpcodeIsUnknown :
    (queued .host 0x7F00000000000000 .absent start).mode ≠ .faulted ∧
    (fieldsOf 0x7F00000000000000).op.toNat < 0x80 ∧ (fieldsOf 0x7F00000000000000).op ∉ mapOpcodes ∧
    (fieldsOf 0x0000000000000000).op ∉ mapOpcodes ∧ 0x80 ≤ (fieldsOf 0x8000000000000000).op.toNat ∧
    customKind start.wrap 0x80#8 = none ∧ customKind wrapped.wrap 0xFF#8 = none := by decide +kernel

theorem witness_StepRunsTheDecodedWord :
    decode 0x2400000000000000 = .ok .hflags ∧ accepts .host .hflags = true ∧
    (queued .host 0x2400000000000000 .absent broken).mode = .faulted ∧
    (queued .host 0x2400000000000000 .absent start).mode ≠ .faulted ∧ start.inbox = [] := by decide +kernel

theorem witness_RefusedWordChangesNothing :
    customOf 0x0200000100000100 start = none ∧ decode 0x0200000100000100 = .error .reservedField ∧
    decode 0x0200000040000010 = .error .badField ∧ start.mode ≠ .faulted := by decide +kernel

theorem witness_FaultedAdmitsThree :
    broken.mode = .faulted ∧ (fieldsOf 0x0200000000000003).op ∉ [0x24#8, 0x25#8, 0x29#8] ∧
    decode 0x2500000000000000 = .ok .hsnapsave ∧
    nextIs (step (queued .host 0x2900000000000000 (.model resetArgs) broken)) (fun t => decide (t.mode ≠ .faulted)) = true := by
  decide +kernel

theorem witness_InterfacesHaveTheirCommands :
    query (.qfloat 5) = true ∧ busRequest (.iord 0xFE) = true ∧ hostCommand .hrenderv = true ∧ start.mode ≠ .faulted ∧
    decode 0x1600000500000000 = .ok (.qfloat 5) ∧ decode 0x0500000000FE0004 = .ok (.iord 0xFE) ∧
    decode 0x2700000000000000 = .ok .hrenderv ∧ customOf 0x8100000000000900 wrapped = some .writes := by decide +kernel

theorem witness_CustomCommandsTouchOnlyWrap :
    (customKind (projected wrapped).wrap (fieldsOf 0x8100000000000900).op).isSome = true ∧ wrapped.atBoundary = true ∧
    (wrapped.setAtBoundary false).atBoundary = false ∧ customKind (projected wrapped).wrap (fieldsOf 0x8200000000000000).op = none ∧
    wrapped.wrap = [] ++ { impl := wrapA, enabled := true, st := [7] } :: [] ∧
    wrapCustom wrapA (fieldsOf 0x8000000000000000).op = some .reads ∧
    wrapCustom wrapA (fieldsOf 0x8100000000000900).op = some .writes := by
  decide +kernel

theorem witness_RaisedFaultEndsTheOperation :
    (match boundaryCalls (finaliseInterrupt ((withDevices [(7, devLate)] (startAt 69880)).setTs 69890)) with
      | .raised f _ => decide (f = { code := .e1, info := .edge (.dev 7 0) 69889 (.notAfter 69888) })
      | .ok _ _ => false) = true := by decide +kernel

theorem witness_RequestOutsideFrameFaults :
    requestOp (.mread 0x4000 3) = some .mread ∧ (startAt 69888).P.eof ≤ (startAt 69888).ts := by decide +kernel

/-- A device at tick 2^32 of a LIN32 clock, and one that was last asked after the instant. -/
theorem witness_DeviceClocksMoveForward :
    let n := nodeOf 1 twoClaim
    before (absTick zx48 0 5) { n with last := 6 }.last = true ∧
    before (absTick zx48 61455 256) n.last = false ∧ 2 ^ 32 ≤ (61455#64).toNat * zx48.eof + 256 ∧
    (61455#64).toNat * zx48.eof + 255 < 2 ^ 32 ∧ normInstant zx48 61455#64 256 = (61455#64, 256) ∧
    before (absTick zx48 0 5) n.last = false ∧ normInstant zx48 0 5 = (0, 5) ∧
    convInstant zx48 .lin32 0 5 = some (.lin32 5) ∧
    deviceEdges zx48 0 1 5 (advanceTo n.ops n.dev (.abs64 5)).edges twoClaim.audio = .ok () twoClaim.audio := by decide +kernel

theorem witness_SecondClaimIsFlaggedOrFatal :
    let s := twoClaim
    let n1 := nodeOf 1 s
    let n2 := nodeOf 3 s
    s.ts < s.P.eof ∧ readWrapper s.wrap 0x001F = none ∧ ulaSel 0x001F = false ∧ s.chain = [n1, n2] ∧
    readNode s.P s.frame 0x001F (dataInstant s.P s.ts (s.ioWait s.ts 0x001F)) n1 s.audio = .ok (some 0x42) (n1, s.audio) ∧
    readNode s.P s.frame 0x001F (dataInstant s.P s.ts (s.ioWait s.ts 0x001F)) n2 s.audio = .ok (some 0x99) (n2, s.audio) ∧
    (strict s).cfg.strict = true ∧ s.cfg.strict = false := by decide +kernel

/-- A set flag, and steps within the frame and over its end. -/
theorem witness_ConflictFlagStays : ∀ ts ∈ [100, 69887],
    let s := queued .stepping 0x05000000001F0004 .absent ((startAt ts).setDevConflict true)
    s.devConflict = true ∧ keepsEngine s ∧ nextIs (step s) (·.devConflict) = true := by
  intro ts h
  simp only [List.mem_cons, List.not_mem_nil, or_false] at h
  rcases h with rfl | rfl <;>
    exact ⟨rfl, keeps_queued (fun _ h => absurd h List.not_mem_nil) (by decide +kernel), by decide +kernel⟩

/-- Edges at both ends of the range that R258 allows, and beyond each. -/
theorem witness_AudioEdgesAreOrderedChanges :
    let c : DevChannel :=
      { id := 5, k := 1, closing := false, ch := { edges := [{ t := 10, level := 2 }], level := 2, base := 0, pend := [] } }
    let d : DevChannel := { c with k := 0 }
    c.id = 5 ∧ c.k = 1 ∧ c.closing = false ∧ (∀ x ∈ [d], ¬(x.id = 5 ∧ x.k = 1 ∧ x.closing = false)) ∧
    c.ch.edges.getLast? = some { t := 10, level := 2 } ∧
    chanEdge 5 1 (-1) 3 20 [d, c] = .error { code := .e1, info := .edge (.dev 5 1) (-1) (.notBefore 0) } ∧
    chanEdge 5 1 9 3 20 [d, c] = .error { code := .e1, info := .edge (.dev 5 1) 9 (.notBefore 10) } ∧
    chanEdge 5 1 21 3 20 [d, c] = .error { code := .e1, info := .edge (.dev 5 1) 21 (.notAfter 20) } ∧
    chanEdge 5 1 10 2 20 [d, c] = .ok [d, c] ∧ chanEdge 5 1 20 3 20 [d, c] = .ok [d, { c with ch := c.ch.push 20 3 }] := by
  decide +kernel

theorem witness_InterruptCheckAtRequestStart :
    start.mode = .running ∧ start.intDone = false ∧ intTs start.cfg ≤ start.ts ∧
    ¬((startAt 5).mode = .running ∧ (startAt 5).intDone = false ∧ intTs (startAt 5).cfg ≤ (startAt 5).ts) ∧
    intTs { start.cfg with scheme := .early } = 1 ∧ (startAt 5).ts < (startAt 5).P.eof := by decide +kernel

theorem witness_OneInterruptPerFrame :
    nextIs (issue 0x0200000000000003 start) (fun t => interrupts t == 1) = true ∧
    nextIs (issue 0x0200000000000003 (startAt 5)) (fun t => interrupts t == 0) = true ∧ (startAt 5).intDone = true ∧
    (start.withFetchWord 64 0x0200000000000003).inbox ≠ [] := by decide +kernel

/-- Requests that stay within the frame and that end it, with the interrupt mark clear and set. -/
theorem witness_OneInterruptAtTheRequest :
    busRequest (.mread 0 3) = true ∧ busRequest (.qfloat 5) = false ∧ requestEnd (.mread 0 3) start < start.P.eof ∧
    nextIs (exec (.mread 0 3) start) (fun t => t.intDone && interrupts t == 1) = true ∧
    nextIs (exec (.mread 0 3) (startAt 5)) (fun t => t.intDone && interrupts t == 0) = true ∧
    (startAt 69887).ts < (startAt 69887).P.eof ∧ (startAt 69887).P.eof ≤ requestEnd (.mread 0 3) (startAt 69887) ∧
    nextIs (exec (.mread 0 3) (startAt 69887)) (fun t => decide (t.mode ≠ .faulted) && interrupts t == 0) = true ∧
    nextIs (exec (.mread 0 3) ((startAt 69887).setIntDone false)) (fun t => decide (t.mode ≠ .faulted) && interrupts t == 1) = true ∧
    nextIs (exec (.qfloat 5) start) (fun t => interrupts t == 0) = true ∧
    nextIs (customCommand .reads 0x8000000000000000 wrapped) (fun t => interrupts t == 0) = true := by decide +kernel

/-- A run of one step within the frame, which signals, and a step that ends the frame. -/
theorem witness_FrameRun :
    (∃ u, FrameRun (queued .stepping 0x0200000000000003 .absent start) 1 u) ∧
    (let t := queued .stepping 0x0200000000000003 .absent ((startAt 69887).setIntDone false)
     FrameRun t 0 t ∧ t.intDone = false ∧ t.inbox ≠ [] ∧ keepsEngine t ∧ nextIs (step t) (fun u => u.frame == t.frame + 1) = true) := by
  refine ⟨?_, .start, by decide +kernel, by decide +kernel,
    keeps_queued (fun _ h => absurd h List.not_mem_nil) (by decide +kernel), by decide +kernel⟩
  have h : nextIs (step (queued .stepping 0x0200000000000003 .absent start))
      (fun u => decide (u.frame = start.frame) && interrupts u == 1) = true := by decide +kernel
  cases e : step (queued .stepping 0x0200000000000003 .absent start) with
  | next u =>
    rw [e] at h
    simp only [nextIs, Bool.and_eq_true, decide_eq_true_eq, beq_iff_eq] at h
    refine ⟨u, ?_⟩
    have r := FrameRun.step .start (by decide +kernel)
      (keeps_queued (fun _ h => absurd h List.not_mem_nil) (by decide +kernel)) e h.1
    rw [h.2] at r
    exact r
  | fault _ => rw [e] at h; cases h
  | refused _ => rw [e] at h; cases h

/-- The frame end of an engine with a device, and a mutation that completes and one that raises (an edge of the device
lies after S.ts). -/
theorem witness_FrameEndRunsItsSteps :
    (match boundaryCalls (finaliseInterrupt ((withDevices [(1, devA)] (startAt 69880)).setTs 69890)) with
      | .ok _ u => decide (u.mode = .frameComplete ∧ u.chain.map (·.last) = [69888])
      | .raised _ _ => false) = true ∧
    (match applyMutation (.detach 5) (withDevices [(5, devSound 0)] start) with
      | .ok _ u => decide (u.chain = [])
      | .raised _ _ => false) = true ∧
    (match applyMutation (.detach 5)
        { withDevices [(5, devSound 0)] start with
          audio := { start.audio with chans := [{ id := 5, k := 0, closing := false
                                                  ch := { edges := [{ t := 9, level := 1 }], level := 1, base := 0, pend := [] } }] } } with
      | .raised f _ => decide (f = { code := .e1, info := .edge (.dev 5 0) 0 (.notBefore 9) })
      | .ok _ _ => false) = true ∧
    start.chain = [] ∧ start.deferred = [] := by decide +kernel

theorem witness_AbsoluteClockCountsEveryCycle :
    busRequest (.minternal 0x8000 5) = true ∧
    nextIs (exec (.minternal 0x8000 5) ((startAt 69884).setDeferred [.attach 1 0 devA]))
      (fun t => decide (t.mode ≠ .faulted ∧ t.frame = 1 ∧ t.ts = 1)) = true := by
  decide +kernel

/-- A mutation that waits and does not replace the engine. -/
theorem witness_NoReplacement : noReplacement ((startAt 69884).setDeferred [.attach 1 0 devA]) := by
  intro m h
  rw [show m = .attach 1 0 devA from List.mem_singleton.mp h]
  simp

theorem witness_ContentionFollowsThePattern :
    191 < zx48.contLines ∧ 127 < zx48.contCycles ∧ zx48.contCycles ≤ zx48.cpl ∧ 311 < zx48.lpf ∧ 223 < zx48.cpl := by
  decide +kernel

/-- A cycle that is contended in no line: the first of the frame. -/
theorem witness_ContentionElsewhere : ∀ y h, y < zx48.contLines → h < zx48.contCycles → 0 ≠ zx48.contStart + y * zx48.cpl + h := by
  intro y h _ _ e
  rw [show zx48.contStart = 14336 from rfl] at e
  omega

theorem witness_IoWaitHasFourRows :
    start.contendedAddr 0x80FF = false ∧ start.contendedAddr 0x80FE = false ∧ start.contendedAddr 0x40FE = true ∧
    start.contendedAddr 0x40FF = true ∧ (0x80FF#16).getLsbD 0 = true ∧ (0x80FE#16).getLsbD 0 = false ∧
    14335 + (startAt 14335).ioWait 14335 0x40FF + 4 < (startAt 14335).P.eof ∧
    nextIs (exec (.iord 0x40FF) (startAt 14335)) (fun t => decide (t.mode ≠ .faulted ∧ t.ts = 14351)) = true := by decide +kernel

theorem witness_InternalCyclesSplit :
    let s := startAt 14342
    (2#8).toNat + (3#8).toNat ≤ 15 ∧ s.ts < s.P.eof ∧ requestEnd (.minternal 0x4000 (2 + 3)) s < s.P.eof ∧
    nextIs (exec (.minternal 0x4000 (2 + 3)) s) (fun t => t.ts == 14359) = true ∧
    nextIs (exec (.minternal 0x4000 2) s) (fun u => nextIs (exec (.minternal 0x4000 3) u) (fun v => v.ts == 14359)) = true := by
  decide +kernel

theorem witness_TimestampFormsAgree :
    223 < zx48.cpl ∧ 311 < zx48.lpf ∧ zx48.eof = zx48.cpl * zx48.lpf ∧ 69887 < zx48.eof := by decide +kernel

theorem witness_TickOrderWrapsAround : (7 : Nat) < 2 ^ 64 + 6 + 2 ^ 63 ∧ 2 ^ 64 - 1 < 5 + 2 ^ 64 ∧ before (2 ^ 64 - 1 : Nat) 5 = true := by
  decide +kernel


/-- The last cycle of the frame and the first past it; ROM, a page that is not the screen's, the screen page. -/
theorem witness_MemoryCycles :
    (startAt 69887).ts < (startAt 69887).P.eof ∧
    requestEnd (.mread 0x8000 1) (startAt 69887) = (startAt 69887).P.eof ∧
    requestEnd (.mfetch 0x8000 1) (startAt 69886) < (startAt 69886).P.eof ∧
    writablePage start.P (start.pageOf 0x3FFF) = false ∧
    (writablePage start.P (start.pageOf 0xFFFF) = true ∧ start.pageOf 0xFFFF ≠ start.screenPage) ∧
    (writablePage start.P (start.pageOf 0x4000) = true ∧ start.pageOf 0x4000 = start.screenPage) ∧ start.pages.wf = true ∧
    start.contendedAddr 0x3FFF = false ∧ start.contendedAddr 0x7FFF = true := by decide +kernel

theorem witness_MemoryRequestFrame :
    let s := startAt 14336
    nextIs (exec (.mwrite 0x4000 0xAA 3) s) (fun t => decide (t.pages = [(16384, 0xAA)])) = true ∧ s.ts < s.P.eof ∧
    requestEnd (.mwrite 0x4000 0xAA 3) s < s.P.eof ∧ s.deferred = [] ∧ s.pages.wf = true ∧ 0 ≠ s.addrKey 0x4000 := by
  decide +kernel

theorem witness_OnlyWritesChangeMemory :
    let s := queued .stepping 0x030000004000AA03 .absent (startAt 14336)
    decode 0x030000004000AA03 = .ok (.mwrite 0x4000 0xAA 3) ∧
    nextIs (step s) (fun t => decide (t.pages.read 16384 ≠ s.pages.read 16384)) = true ∧ s.deferred = [] ∧ s.pages.wf = true := by
  decide +kernel

theorem witness_NothingWaits : StoreInv (startAt 14336) ∧ noReplacement (startAt 14336) :=
  ⟨⟨(by decide +kernel : (startAt 14336).pages.wf = true), fun _ h => by cases h⟩, fun _ h => by cases h⟩

theorem witness_PortReadsHaveOneAnswerer :
    (readWrapper wrapped.wrap 0x003B).isSome = true ∧ readWrapper wrapped.wrap 0x00FE = none ∧ (0x00FE#16).getLsbD 0 = false ∧
    (0x00FF#16).getLsbD 0 = true ∧ start.chain = [] ∧ start.ts < start.P.eof ∧
    (match chainRead 0x001F 0 (intCheck twoClaim) with
      | .ok r _ => decide (r = some 0x42)
      | .raised _ _ => false) = true ∧
    (match chainRead 0x001F 0 (intCheck (strict twoClaim)) with
      | .raised f _ => decide (f = { code := .e3, info := .claim 3 })
      | .ok _ _ => false) = true := by decide +kernel

/-- Chain `[2, 3]`: B claims nothing, C claims; and a chain on which nothing claims. -/
theorem witness_ClaimsInChainOrder :
    let s := withDevices [(2, devB), (3, devC)] start
    let t := withDevices [(2, devB)] start
    s.chain.map (claimOf s.P s.frame 0x001F 4) = [none, some 0x99] ∧
    (match chainRead 0x001F 4 (intCheck s) with
      | .ok r _ => decide (r = some 0x99)
      | .raised _ _ => false) = true ∧
    t.chain.findSome? (claimOf t.P t.frame 0x001F 4) = none ∧
    (match chainRead 0x001F 4 (intCheck t) with
      | .ok r _ => decide (r = none)
      | .raised _ _ => false) = true := by decide +kernel

theorem witness_PortWritesReachDecodersAndChain :
    (wrapTakesWrite wrapped.wrap 0x003B = true ∧ wrapTakesWrite wrapped.wrap 0x7FFD = false) ∧
    (pagSel start128.P 0x7FFD = true ∧ (0x7FFD#16).getLsbD 0 = true) ∧
    (pagSel start128.P 0x7FFC = true ∧ (0x7FFC#16).getLsbD 0 = false) ∧
    (pagSel start128.P 0x80FE = false ∧ pagSel start128.P 0x00FF = false ∧ pagSel start.P 0x7FFD = false) ∧
    (match chainWrite 0x001F 0x0F 8 (withDevices [(1, devA), (2, devB)] (startAt 8)) with
      | .ok _ _ => true
      | .raised _ _ => false) = true ∧
    (match chainWrite 0x001F 0x0F 8 (withDevices [(5, devSound 1)] (startAt 8)) with
      | .raised f _ => decide (f = { code := .e1, info := .edge (.dev 5 0) 9 (.notAfter 8) })
      | .ok _ _ => false) = true := by decide +kernel

theorem witness_ChipsetRegistersLatchWrites :
    start128.paging = some 0x00 ∧ (0x00#8).getLsbD 5 = false ∧ (0x20#8).getLsbD 5 = true ∧ start.paging = none ∧
    (0x3F#8 : Byte) = 0xFF &&& 0x3F := by decide +kernel

theorem witness_LockedPagingStays :
    let s := queued .stepping 0x060000007FFD0104 .absent (start128.setPaging (some 0x20))
    s.paging = some 0x20 ∧ (0x20#8).getLsbD 5 = true ∧ keepsEngine s ∧
    decode 0x060000007FFD0104 = .ok (.iowr 0x7FFD 0x01) ∧ nextIs (step s) (fun t => decide (t.paging = some 0x20)) = true :=
  ⟨rfl, by decide +kernel, keeps_queued (fun _ h => absurd h List.not_mem_nil) (by decide +kernel), by decide +kernel,
    by decide +kernel⟩

theorem witness_ChainCallsKeepTheChain :
    let s := withDevices [(1, devA), (2, devB)] (startAt 8)
    let n1 := nodeOf 1 s
    let n2 := nodeOf 2 s
    s.chain = [n1, n2] ∧ 0 < s.P.eof ∧
    writeNode s.P s.frame 0x001F 8 0x0F n1 s.audio = .ok 0xF0 (n1, s.audio) ∧
    writeNode s.P s.frame 0x001F 8 0xF0 n2 s.audio = .ok 0xF0 ({ n2 with dev := [0x001F, 0xF0, 0, 0, 8] }, s.audio) ∧
    readNode s.P s.frame 0x001F 8 n1 s.audio = .ok (some 0x42) (n1, s.audio) ∧
    readNode s.P s.frame 0x001F 8 n2 s.audio = .ok none (n2, s.audio) ∧
    (match readNode s.P s.frame 0x001F 7 n2 s.audio with
      | .raised f _ => decide (f = { code := .e1, info := .clockBack 2 7 8 })
      | .ok _ _ => false) = true ∧
    boundaryNode s.P s.frame n1 s.audio = .ok () ({ n1 with last := 69888 }, s.audio) ∧
    (match chainWrite 0x001F 0x0F 8 s with
      | .ok _ u => decide (u.chain.map (·.last) = [8, 8])
      | .raised _ _ => false) = true ∧
    (match boundaryFrom [] [nodeOf 7 (withDevices [(7, devLate)] s)] (withDevices [(7, devLate)] s) with
      | .raised f _ => decide (f = { code := .e1, info := .edge (.dev 7 0) 69889 (.notAfter 69888) })
      | .ok _ _ => false) = true ∧
    (match chainRead 0x001F 8 s with
      | .ok r u => decide (r = some 0x42 ∧ u.chain.map (·.last) = [8, 8])
      | .raised _ _ => false) = true ∧
    (match boundaryCalls s with
      | .ok _ u => decide (u.chain.map (·.last) = [69888, 69888])
      | .raised _ _ => false) = true := by decide +kernel

theorem witness_IoRequestFrame :
    let s := withDevices [(1, devA)] (startAt 69000)
    s.deferred = [] ∧ s.ts < s.P.eof ∧ requestEnd (.iord 0x001F) s < s.P.eof ∧ requestEnd (.iowr 0x00FE 7) s < s.P.eof ∧
    nextIs (exec (.iord 0x001F) s) (fun t => decide (t.ts = 69004)) = true ∧
    nextIs (exec (.iowr 0x00FE 7) s) (fun t => decide (t.ula = 7)) = true := by decide +kernel

theorem witness_FloatingBusIsTheFetchedByte :
    zx48.wellFormed = true ∧ zx128.wellFormed = true ∧ 191 < zx48.contLines ∧ 31 < zx48.contCycles / 4 ∧ 0 < zx48.eof := by
  decide +kernel

/-- A cycle at which nothing is fetched. -/
theorem witness_FloatingBusIdle : ∀ y x, y < zx48.contLines → x < zx48.contCycles / 4 →
    0 ≠ fetchBmp zx48 y x ∧ 0 ≠ fetchAtt zx48 y x := by
  intro y x _ _
  unfold fetchAtt fetchBmp
  rw [show zx48.fetchStart = 14339 from rfl]
  omega

theorem witness_QueriesAnswerOrFault :
    (311#12).toNat < zx48.lpf ∧ (223#12).toNat < zx48.cpl ∧ zx48.lpf ≤ (312#12).toNat ∧ zx48.cpl ≤ (224#12).toNat ∧
    (69887#24).toNat < zx48.eof ∧ zx48.eof ≤ (69888#24).toNat := by decide +kernel

/-- At a boundary with chain `[1, 2]`: a handle in use, a free one at the head, in the middle, past the tail and by default. -/
theorem witness_AttachInsertsTheNode :
    let s := (withDevices [(1, devA), (2, devB)] start).setOob (.device devC)
    s.oob = .device devC ∧ 2 ∈ handles (projected s).chain ∧ 3 ∉ handles (projected s).chain ∧ s.atBoundary = true ∧
    (s.setAtBoundary false).atBoundary = false ∧ attachIndex 0 s.chain = 0 ∧ attachIndex 1 s.chain = 1 ∧
    attachIndex 2 s.chain = 2 ∧ attachIndex 0xFF s.chain = 2 := by decide +kernel

/-- Chain `[1, 5]` at a boundary, the channel of 5 at level 3: it falls. -/
theorem witness_DetachRemovesTheNode :
    let c : DevChannel :=
      { id := 5, k := 0, closing := false, ch := { edges := [{ t := 0, level := 3 }], level := 3, base := 0, pend := [] } }
    let s0 := withDevices [(1, devA), (5, devSound 0)] start
    let s := { s0 with audio := { s0.audio with chans := [c] } }
    9 ∉ handles (projected s).chain ∧ 5 ∈ handles (projected s).chain ∧ (s.setAtBoundary false).atBoundary = false ∧
    s.deferred = [] ∧ s.atBoundary = true ∧ s.chain = [nodeOf 1 s] ++ nodeOf 5 s :: [] ∧ (nodeOf 5 s).id = 5 ∧
    (∀ m ∈ [nodeOf 1 s], m.id ≠ 5) ∧ (∀ x ∈ s.audio.chans, x.id = 5 → ∀ e ∈ x.ch.edges, e.t ≤ s.ts) ∧
    s.audio.chans = [] ++ c :: [] ∧ c.k < (nodeOf 5 s).nch ∧
    ({ c with closing := true, ch := c.ch.push 0 0 } : DevChannel).gone = false := by decide +kernel

theorem witness_HostReadsChangeNothing :
    let s := withDevices [(1, devA), (2, devB)] start
    s.chain = [nodeOf 1 s] ++ nodeOf 2 s :: [] ∧ (∀ m ∈ [nodeOf 1 s], m.id ≠ (nodeOf 2 s).id) ∧ 3 ∉ handles s.chain := by
  decide +kernel

theorem witness_PageAndWrapCommands :
    (projected start).P.paging = none ∧ (projected start128).P.paging ≠ none ∧ start128.atBoundary = true ∧
    (startAt 5).atBoundary = false ∧ (projected start).wrap = [] ∧ (projected wrapped).wrap ≠ [] ∧ wrapped.atBoundary = true ∧
    wrapped.wrap = { impl := wrapA, enabled := true, st := [7] } :: [] := by decide +kernel

theorem witness_SnapshotLoadIsAllOrNothing :
    let good := (startAt 5000).toEngine
    let bad := (startAt 69888).toEngine
    snapFailure (projected start).toEngine bad = some .timestamp ∧ snapFailure (projected start).toEngine good = none ∧
    (start.setOob (.image good)).oob = .image good ∧ (start.setOob .undecodable).oob = .undecodable ∧ start.atBoundary = true := by
  decide +kernel

theorem witness_SnapshotRoundTrip :
    let s := startAt 5000
    let u := start.setOob (.image s.toEngine)
    snapFailure u.toEngine s.toEngine = none ∧ u.deferred = [] ∧ u.atBoundary = true ∧ u.oob = .image s.toEngine ∧
    (s.setAtBoundary true).atBoundary = true := by decide +kernel

theorem witness_MidFrameRenderOnlyFetches :
    (startAt 69887).ts < (startAt 69887).P.eof ∧ (startAt 69888).P.eof ≤ (startAt 69888).ts := by decide +kernel

theorem witness_ModelSwitchConstructsAnew :
    let args := { resetArgs with params := zx128 }
    (start.setOob (.model args)).oob = .model args ∧ args.params.wellFormed = true ∧ args.params.intTs? args.scheme ≠ none ∧
    args.params.intTs? .early = none ∧ ({ zx48 with cpl := 0 } : Params).wellFormed = false ∧ start.atBoundary = true ∧
    broken.mode = .faulted ∧ (startAt 5).atBoundary = false ∧ (startAt 5).mode ≠ .faulted := by decide +kernel

theorem witness_MutationsWaitForTheBoundary :
    mutation (.hdetach 9) = true ∧ (startAt 5).atBoundary = false ∧ (startAt 5).mode ≠ .faulted ∧
    nextIs (exec (.hdetach 9) (startAt 5)) (fun t => decide (t.out = [.response (.error (.e5 9))])) = true ∧
    nextIs (exec (.hattach 9 0) ((startAt 5).setOob (.device devA))) (fun t => decide (t.out = [.response .deferred])) = true := by
  decide +kernel

/-- A write at the last instant before a fetch, and at the fetch's own. -/
theorem witness_FetchSeesEarlierWritesOnly :
    let a : Addr := 0x4000
    (∀ ts ∈ [14338, 14334], (startAt ts).ts < (startAt ts).P.eof ∧ requestEnd (.mwrite a 0xFF 3) (startAt ts) < (startAt ts).P.eof ∧
      (startAt ts).pages.wf = true ∧ writablePage (startAt ts).P ((startAt ts).pageOf a) = true ∧
      (startAt ts).pageOf a = (startAt ts).screenPage ∧
      nextIs (exec (.mwrite a 0xFF 3) (startAt ts)) (fun _ => true) = true) ∧
    (start.vcache[0]?.bind (fun l => l.cells[0]?)).map (fun c => (c.seenBmp, c.seenAtt)) = some (false, false) ∧
    offOf zx48 a = bmpOff 0 0 ∧ bmpOff 0 0 < zx48.windowSize ∧ offOf zx48 0x5800 = attOff 0 0 ∧ fetchBmp zx48 0 0 = 14339 ∧
    14338 + start.memWait a 14338 = 14342 ∧ 14334 + start.memWait a 14334 = 14334 := by decide +kernel

/-- The bitmap fetch of the first cell, one cycle before its instant, at it, and already performed. -/
theorem witness_CatchUpPerformsWhatIsDue :
    let c0 := fun T => ((catchUp T start).vcache[0]?.bind (fun l => l.cells[0]?)).map (fun c => (c.seenBmp, c.seenAtt))
    c0 14338 = some (false, false) ∧ c0 14339 = some (true, false) ∧ c0 14340 = some (true, true) := by decide +kernel

theorem witness_BufferShowsPixelsAndBorder :
    287 < visRef.lines ∧ 175 < visRef.hCount ∧ zx48.displayLine0 ≤ visRef.lineFirst + 48 ∧
    visRef.lineFirst + 48 < zx48.displayLine0 + zx48.contLines ∧ 0 ≤ visRef.hFirst + 24 ∧ visRef.hFirst + 24 < zx48.contCycles ∧
    ¬(zx48.displayLine0 ≤ visRef.lineFirst + 47) ∧ ¬(0 ≤ visRef.hFirst + 23) ∧ 0 < start.cfg.params.flashPeriod ∧
    (0xB8#8).getLsbD 7 = true ∧ ¬((0x38#8).getLsbD 7 = true) ∧ ((start.vcache.headD ⟨[], false, none⟩).cells[0]?).isSome = true ∧
    (∀ n ∈ wrapped.wrap, n.enabled = true) ∧ (∀ n ∈ setEnabled false wrapped.wrap, n.enabled = false) := by decide +kernel

/-- R291: the pixel function of each wrapper is applied to the pixel of its inner instance (two wrappers that add 16). -/
theorem test_wrapped_pixels_compose :
    let n : WrapNode := { impl := wrapA, enabled := true, st := [] }
    wrappedPixel [n, n] ⟨0, 0, 0xAA, 0x38, 0⟩ 5 = 37 ∧ wrappedPixel [n, { n with enabled := false }] ⟨0, 0, 0xAA, 0x38, 0⟩ 5 = 21 := by
  decide +kernel

theorem witness_BorderRollKeepsTheColour :
    crossing.borderEv.Pairwise (fun a b => a.t ≤ b.t) ∧ (borderRoll crossing).borderAt 0 = 2 ∧
    (borderRoll crossing).borderAt (-1) = 1 := by decide +kernel

/-- Rows that a render gives are no empty case. -/
theorem witness_RowReuseIsInvisible : RowsTrue start.toEngine ∧ ((renderRows start).vcache.map (fun l => l.row.isSome)).all id = true := by
  refine ⟨?_, by decide +kernel⟩
  intro y l r hl hr
  have e : start.vcache = emptyVcache zx48 := rfl
  have hm := List.mem_of_getElem? (e ▸ hl)
  rw [emptyVcache, List.mem_replicate] at hm
  rw [hm.2] at hr
  cases hr

/-- An ordered queue with an edge in this frame and one in the next. -/
theorem witness_AudioFramesJoin :
    let c : Channel := { edges := [{ t := 69887, level := 1 }, { t := 69888, level := 0 }], level := 0, base := 0, pend := [] }
    0 < audioP.cpuHz ∧ List.Pairwise (fun a b : Edge => a.t ≤ b.t) c.edges ∧
    (∀ e ∈ c.edges, e.t < 2 * audioP.eof) ∧ 880 < firstSample audioP 1 ∧ firstSample audioP 1 ≤ 881 ∧
    (quietChannel 1).edges = [] ∧ (quietChannel 1).pend = [] := by decide +kernel

theorem witness_SynthesisSwitchLeavesNoTrace :
    nextIs (exec (.minternal 0x8000 5) (withSynth (.given false) (startAt 69884))) (fun t => decide (t.frame = 1)) = true := by
  decide +kernel

theorem witness_DisabledWrapperIsTheInnerChipset :
    let s := wrapped.setWrap (setEnabled false wrapped.wrap)
    (∀ n ∈ s.wrap, n.enabled = false) ∧ s.wrap ≠ [] ∧ s.deferred = [] ∧
    nextIs (exec (.iord 0x003B) s) (fun t => decide (t.out = [.interrupt, .response (.data 0xFF 0)])) = true := by
  decide +kernel

/-- A state in mid-frame, with the MIC and EAR edges of a port write, meets every invariant; and a step leads on from it. -/
def busy : State := ulaWrite 0x1A 100 (startAt 104)

theorem busy_sources : ∀ sc ∈ busy.audio.sources, sc.2 = ⟨[⟨100, 1⟩], 1, 0, []⟩ := by decide +kernel

theorem witness_AudioBalanceKept : AudioInv busy := by
  refine ⟨⟨fun sc h => ?_, fun _ sc h => ?_⟩, fun _ h => by cases h⟩ <;> rw [busy_sources sc h]
  · exact ⟨List.pairwise_singleton _ _, by decide +kernel⟩
  · intro e he
    cases List.mem_singleton.mp he
    decide +kernel

theorem witness_StoreAndShapeKept : StoreInv busy ∧ CfgInv busy ∧ ShapeInv busy ∧ CellsInv busy :=
  ⟨⟨(by decide +kernel : busy.pages.wf = true), fun _ h => by cases h⟩,
    ⟨⟨⟨by decide +kernel, by decide +kernel⟩, fun _ h => by cases h⟩, fun _ h => by cases h⟩,
    ⟨⟨by decide +kernel, by decide +kernel⟩, fun _ h => by cases h⟩,
    ⟨fun _ h => absurd h List.not_mem_nil, fun _ h => by cases h⟩⟩

theorem witness_ClockAndQueueKept :
    ClockInv busy ∧ BoundaryInv busy ∧ BorderInv busy ∧ HandlesInv busy ∧ NodeClocksInv busy :=
  ⟨⟨⟨⟨by decide +kernel, by decide +kernel, fun _ _ => by decide +kernel⟩, fun _ h => by cases h⟩, witness_StoreAndShapeKept.2.1⟩,
    fun _ _ => rfl,
    ⟨⟨List.pairwise_singleton _ _, fun _ ev h => by cases List.mem_singleton.mp h; decide +kernel⟩, fun _ h => by cases h⟩,
    ⟨List.nodup_nil, fun _ k => by
      rw [show busy.deferred = [] from rfl, List.take_nil]
      exact List.nodup_nil⟩,
    ⟨fun _ _ h => absurd h List.not_mem_nil, fun _ h => by cases h⟩⟩

/-- A running engine in mid-frame with a port write and a device behind it meets every premise of its image's validity. -/
theorem witness_SnapshotOfAnInvariantState :
    let s := withDevices [(1, devA)] busy
    let u := start.setOob (.image s.toEngine)
    s.mode ≠ .faulted ∧ s.P.shortRequests = true ∧ s.P.ioDataOffset ≤ 4 ∧ s.P.eof ≤ 2 ^ 63 ∧ s.toEngine.StoreOk ∧
    s.toEngine.CellsOk ∧ s.toEngine.ShapeOk ∧ s.toEngine.ClockOk ∧ s.toEngine.AudioOk ∧ s.toEngine.BorderOk ∧
    s.toEngine.NodeClocksOk ∧ (handles s.chain).Nodup ∧ u.cfg = s.cfg ∧ u.wrap.map (·.impl) = s.wrap.map (·.impl) ∧
    u.deferred = [] ∧ u.atBoundary = true := by
  have hc : (withDevices [(1, devA)] busy).chain.map (fun n => (n.id, n.last)) = [(1, 104)] := by decide +kernel
  refine ⟨by decide +kernel, by decide +kernel, by decide +kernel, by decide +kernel, (by decide +kernel : busy.pages.wf = true),
    fun _ h => absurd h List.not_mem_nil, ⟨by decide +kernel, by decide +kernel⟩,
    ⟨by decide +kernel, by decide +kernel, fun _ _ => by decide +kernel⟩, witness_AudioBalanceKept.1,
    witness_ClockAndQueueKept.2.2.1.1, fun _ n hn => ?_, by decide +kernel, rfl, rfl, rfl, rfl⟩
  have h := List.mem_map_of_mem (f := fun n : Node => (n.id, n.last)) hn
  rw [hc] at h
  have e := congrArg Prod.snd (List.mem_singleton.mp h)
  rw [show n.last = 104 from e]
  decide +kernel

theorem witness_InvariantSteps : nextIs (issue 0x0600000000FE0204 busy) (fun t => decide (t.ts = 108)) = true := by decide +kernel

/-- A wrapper that shows page 1 in window 0 and replaces the geometry. -/
def wrapM : WrapNode :=
  { impl := .scripted
      { readMask := 0xFFFF, readValue := 0, writeMask := 0xFFFF, writeValue := 0, pixelAdd := none
        geometry := some { visRef with lines := 300 }, map := some [.const 1], customRead := [], customWrite := [] }
    enabled := true, st := [] }

/-- Where addresses go: both records, each window's edges, the paging register at both values of its fields; a map override. -/
theorem witness_AddressesShowPages :
    start.cfg.params = zx48 ∧ (∀ n ∈ start.wrap, n.enabled = false) ∧ start.addrKey 0x3FFF = 0x3FFF ∧
    start.contendedAddr 0x7FFF = true ∧ start.contendedAddr 0x8000 = false ∧ start128.cfg.params = zx128 ∧
    (∀ n ∈ start128.wrap, n.enabled = false) ∧ start128.paging = some 0x00 ∧ start128.pageOf 0x3FFF = 0 ∧
    (start128.setPaging (some 0x1F)).pageOf 0x0000 = 1 ∧ (start128.setPaging (some 0x1F)).pageOf 0xC000 = bank 7 ∧
    start128.pageOf 0xFFFF = bank 0 ∧ (start.setWrap [wrapM]).wrap = [] ++ wrapM :: [] ∧
    overridePage wrapM.impl wrapM.st 0 0 = some 1 ∧ zx48.pageOk 1 = true ∧ (start.setWrap [wrapM]).page 0 = 1 := by
  decide +kernel

theorem witness_WrapperChoices :
    wrapped.wrap = [] ++ { impl := wrapA, enabled := true, st := [7] } :: [] ∧ wrapSelR wrapA 0x003B = true ∧
    (∀ n ∈ wrapped.wrap, (n.enabled && wrapSelR n.impl 0x00FE) = false) ∧
    (∀ n ∈ wrapped.wrap, (n.enabled && wrapSelW n.impl 0x00FE) = false) ∧
    wrapGeometry wrapM.impl wrapM.st = some { visRef with lines := 300 } ∧ (start.setWrap [wrapM]).geometry.lines = 300 ∧
    start.geometry = visRef := by decide +kernel

/-- Instants at both ends of the frame and of the next; display places at both ends; an event at its instant and before it. -/
theorem witness_InstantsAndPlaces :
    69887 < zx48.eof ∧ zx48.eof ≤ 69888 ∧ 139775 < 2 * zx48.eof ∧ bmpOff 191 31 = 0x17FF ∧ attOff 191 31 = 0x1AFF ∧
    16383 < zx48.windowSize ∧ crossing.borderEv = [{ t := 50, colour := 1 }] ++ { t := 69888, colour := 2 } :: [] ∧
    crossing.borderAt 69888 = 2 ∧ crossing.borderAt 69887 = 1 ∧ crossing.borderAt 49 = crossing.border0 ∧
    ((startAt 5).setDeferred [.wrap true]).deferred = [] ++ [.wrap true] := by decide +kernel

theorem witness_ConstructionLoadsTheImages :
    let args := { resetArgs with roms := [(0, 0xF3), (16383, 0x3C)], ram := [(16384, 0xAA), (65535, 0x55)] }
    (args.roms.map (·.1)).Nodup ∧ (args.ram.map (·.1)).Nodup ∧ ((16383, 0x3C) : Host.Cell) ∈ args.roms ∧
    (keyPage args.params 16383).any (fun d => !d.writable) = true ∧ ((16384, 0xAA) : Host.Cell) ∈ args.ram ∧
    (keyPage args.params 16384).any (fun d => d.writable) = true := by decide +kernel

end Sys2Proof.Tests
end

section
/-! PROOFS of the encoding family: which words the decoder refuses as bad_field (R123), and what a refused word does (R127). -/

namespace Sys2Proof

/-! ## The words refused as bad_field -/

@[simp] theorem checked_eq_badField {r v : Bool} {i : Instr} :
    checked r v i = .error .badField ↔ r = true ∧ v = false := by
  simp [checked_eq_error]

/-- R123 on the fields of a word: those of a memory request with a phase count out of range, or of an I/O request with `n`
other than 4. -/
def BadCount (f : Fields) : Prop :=
  (∃ i, WellFormed i = false ∧ f = encodeFields i) ∨
    ∃ n : BitVec 8, n ≠ 4 ∧
      ((∃ p, f = { encodeFields (.iord p) with n := n }) ∨ ∃ p d, f = { encodeFields (.iowr p d) with n := n })

theorem decodeFields_of_badCount {f : Fields} (h : BadCount f) : decodeFields f = .error .badField := by
  obtain ⟨i, hi, rfl⟩ | ⟨n, hn, ⟨p, rfl⟩ | ⟨p, d, rfl⟩⟩ := h
  · -- the first `simp` leaves the four memory requests, with `hi` about their phase count
    cases i <;> simp only [WellFormed, reduceCtorEq] at hi <;> simp [decodeFields, encodeFields, hi]
  · simpa [decodeFields, encodeFields] using hn
  · simpa [decodeFields, encodeFields] using hn

/-- A row of the decoder without a value constraint does not give bad_field. -/
theorem ite_checked_eq_badField {c : Prop} [Decidable c] {r : Bool} {i : Instr} {rest : Except Reason Instr} :
    (if c then checked r true i else rest) = .error .badField ↔ ¬c ∧ rest = .error .badField := by
  by_cases hc : c <;> simp [hc]

/-- Only the six bus requests have a value constraint, so no other opcode is refused as bad_field. -/
theorem op_of_decodeFields_badField {f : Fields} (h : decodeFields f = .error .badField) :
    f.op = 0x01#8 ∨ f.op = 0x02#8 ∨ f.op = 0x03#8 ∨ f.op = 0x04#8 ∨ f.op = 0x05#8 ∨ f.op = 0x06#8 := by
  by_contra hop
  simp only [not_or] at hop
  obtain ⟨h1, h2, h3, h4, h5, h6⟩ := hop
  rw [decodeFields, if_neg h1, if_neg h2, if_neg h3, if_neg h4, if_neg h5, if_neg h6] at h
  simp [ite_checked_eq_badField] at h

theorem badCount_of_decodeFields {f : Fields} (h : decodeFields f = .error .badField) : BadCount f := by
  have hop := op_of_decodeFields_badField h
  obtain ⟨op, arg, a, d, n⟩ := f
  obtain rfl | rfl | rfl | rfl | rfl | rfl := hop <;>
    simp only [decodeFields, BitVec.reduceEq, if_true, if_false, checked_eq_badField, Bool.and_eq_true, beq_iff_eq,
      beq_eq_false_iff_ne] at h
  · obtain ⟨⟨rfl, rfl⟩, hn⟩ := h
    exact .inl ⟨.mfetch a n, hn, rfl⟩
  · obtain ⟨⟨rfl, rfl⟩, hn⟩ := h
    exact .inl ⟨.mread a n, hn, rfl⟩
  · obtain ⟨rfl, hn⟩ := h
    exact .inl ⟨.mwrite a d n, hn, rfl⟩
  · obtain ⟨⟨rfl, rfl⟩, hn⟩ := h
    exact .inl ⟨.minternal a n, hn, rfl⟩
  · obtain ⟨⟨rfl, rfl⟩, hn⟩ := h
    exact .inr ⟨n, hn, .inl ⟨a, rfl⟩⟩
  · obtain ⟨rfl, hn⟩ := h
    exact .inr ⟨n, hn, .inr ⟨a, d, rfl⟩⟩

theorem decodeFields_eq_badField_iff {f : Fields} : decodeFields f = .error .badField ↔ BadCount f :=
  ⟨badCount_of_decodeFields, decodeFields_of_badCount⟩

theorem fieldsOf_eq_iff {w : CmdWord} {f : Fields} : fieldsOf w = f ↔ w = pack f :=
  ⟨fun h => by rw [← h, pack_fieldsOf], fun h => by rw [h, fieldsOf_pack]⟩

/-- Settles O5: on the fields of the word the decoder's answer is `BadCount`, and a word is the packing of its fields. -/
theorem badFieldExactly : Obligations.BadFieldExactly := by
  intro w
  rw [decode, decodeFields_eq_badField_iff]
  simp only [BadCount, fieldsOf_eq_iff, encode]

/-! ## What a refused word does -/

namespace Machine

/-- Outside mode Faulted, a word that is no custom command and does not decode is answered with the decoder's reason. -/
theorem step_of_decode_error {s : State} {x : Issue} {rest : List Issue} {r : Reason} (hin : s.inbox = x :: rest)
    (hmode : s.mode ≠ .faulted) (hcustom : customOf x.word s = none) (hdec : decode x.word = .error r) :
    step s = .next (respond (.refused r) (takeIssue x rest s)) := by
  obtain ⟨ha, -⟩ | ⟨-, k, hk, -⟩ | ⟨-, -, r', hr, hstep⟩ | ⟨-, i, hi, -⟩ := step_cases hin
  · rw [admitted_of_running hmode] at ha; cases ha
  · rw [hcustom] at hk; cases hk
  · rw [hdec] at hr; cases hr; exact hstep
  · rw [hdec] at hi; cases hi

/-- Settles O7: the step only takes the issue and responds, and both leave the engine alone. -/
theorem refusedWordChangesNothing : Obligations.RefusedWordChangesNothing := by
  intro s x rest r hin hmode hcustom hdec
  exact ⟨_, step_of_decode_error hin hmode hcustom hdec, by simp⟩

end Machine

end Sys2Proof
end

section
/-! PROOFS of the contention family: memory contention (R151 to R153), the I/O wait (R155, R156), the two forms of a timestamp
(R141, R142) and the order of ticks (R146). -/

namespace Sys2Proof.Machine

/-! ## Memory contention -/

/-- R151: within the region the wait is the pattern's, by the cycle within the line. -/
theorem contention_at {P : Params} {y h : Nat} (hy : y < P.contLines) (hh : h < P.contCycles) (hc : P.contCycles ≤ P.cpl) :
    contention P (P.contStart + y * P.cpl + h) = patternAt P h := by
  simp only [contention, inRegion_at hy hh hc]

theorem contention_outside {P : Params} {t : Nat}
    (ht : ∀ y h, y < P.contLines → h < P.contCycles → t ≠ P.contStart + y * P.cpl + h) : contention P t = 0 := by
  unfold contention
  split
  · next y h e =>
    obtain ⟨het, hy, hh⟩ := inRegion_some e
    exact absurd het (ht y h hy hh)
  · rfl

/-- R153 for the wrapping form. -/
theorem contentionWrap_le_maxWait (P : Params) (t : Nat) : contentionWrap P t ≤ P.maxWait := contention_le_maxWait ..

/-- Settles O20: a cycle of the region is found there with its place in the line, and no other cycle is found. -/
theorem contentionFollowsThePattern : Obligations.ContentionFollowsThePattern := by
  refine ⟨fun _ _ _ => contention_at, fun _ _ => contention_outside, contention_le_maxWait, fun _ _ => rfl,
    fun _ _ _ _ _ => contention_le_maxWait .., fun P k _ => pattern_le_maxWait P k, ?_⟩
  decide

/-! ## The I/O wait -/

/-- R155, row C:1 ×4: each of the four phases waits as of its own start. -/
theorem ioWaitRow_true_false (P : Params) (t0 : Nat) :
    let C := contentionWrap P
    let t1 := t0 + C t0 + 1
    let t2 := t1 + C t1 + 1
    let t3 := t2 + C t2 + 1
    ioWaitRow P true false t0 = C t0 + C t1 + C t2 + C t3 := by
  simp only [ioWaitRow, contendedPhases]
  omega

/-- Each contended phase lasts its one cycle and at most the greatest wait. -/
theorem contendedPhases_le (P : Params) (k t : Nat) : contendedPhases P k t ≤ t + k * (P.maxWait + 1) := by
  induction k generalizing t with
  | zero => simp [contendedPhases]
  | succ k ih =>
    have hwait := contentionWrap_le_maxWait P t
    have hrest := ih (t + contentionWrap P t + 1)
    rw [contendedPhases, Nat.add_one_mul]
    omega

/-- R156: no row has more than four waits. -/
theorem ioWaitRow_le (P : Params) (hc ula : Bool) (t0 : Nat) : ioWaitRow P hc ula t0 ≤ 4 * P.maxWait := by
  have hC := contentionWrap_le_maxWait P
  match hc, ula with
  | false, false => exact Nat.zero_le _
  | false, true =>
    have h1 := hC (t0 + 1)
    simp only [ioWaitRow]
    omega
  | true, true =>
    have h0 := hC t0
    have h1 := hC (t0 + contentionWrap P t0 + 1)
    simp only [ioWaitRow]
    omega
  | true, false =>
    have h4 := contendedPhases_le P 4 t0
    simp only [ioWaitRow]
    omega

/-- R155: the row is chosen by whether the port lies in a contended page and by its lowest bit. -/
theorem ioWait_eq_row {e : Engine} {p : Addr} {hc b : Bool} (hp : e.contendedAddr p = hc) (hb : p.getLsbD 0 = b) (t0 : Nat) :
    e.ioWait t0 p = ioWaitRow e.cfg.params hc (!b) t0 := by
  rw [Engine.ioWait, ulaSel, hp, hb]

/-! ## What a port access leaves of the clock -/

/-- The clock and the configuration, by which the sequencer step goes (R216), are the same in both states. -/
def SameClock (s t : State) : Prop := t.ts = s.ts ∧ t.cfg = s.cfg

theorem SameClock.trans {s t u : State} (h : SameClock s t) (h' : SameClock t u) : SameClock s u :=
  ⟨h'.1.trans h.1, h'.2.trans h.2⟩

theorem WalkKeeps.sameClock {s t : State} (h : WalkKeeps s t) : SameClock s t := ⟨by rw [h.state]; rfl, h.cfg⟩

theorem intCheck_sameClock (s : State) : SameClock s (intCheck s) := ⟨intCheck_ts s, intCheck_cfg s⟩

theorem chipsetWrite_sameClock (p : Addr) (v : Byte) (te : Nat) (s : State) : SameClock s (chipsetWrite p v te s) := by
  obtain ⟨vc, q, evs, ear, mic, u, h⟩ := chipsetWrite_keeps p v te s
  rw [h]
  exact ⟨rfl, rfl⟩

theorem portRead_sameClock (p : Addr) (td : Nat) (s : State) : SameClock s (portRead p td s).state := by
  unfold portRead
  split
  · exact ⟨rfl, rfl⟩
  · split
    · exact ⟨rfl, rfl⟩
    · exact Res.bind_state (SameClock s) (chainRead_keeps p td s).sameClock fun _ _ _ h => h

theorem portWrite_sameClock (p : Addr) (v : Byte) (te : Nat) (s : State) : SameClock s (portWrite p v te s).state := by
  unfold portWrite
  refine SameClock.trans ?_ (chainWrite_keeps p v te _).sameClock
  split
  · exact ⟨rfl, rfl⟩
  · exact chipsetWrite_sameClock p v te s

theorem takeFault_mode (f : FaultRec) (s : State) : (takeFault f s).mode = .faulted := rfl

/-- R216 within the frame: a request that takes no fault lasts its wait and its phases. -/
theorem ts_of_access_within {α : Type} {s t : State} {acc : Res State α} {resp : α → Response} {w n : Nat}
    (hacc : SameClock s acc.state) (hend : s.ts + w + n < s.P.eof) (ht : t.mode ≠ .faulted)
    (e : endRequest (acc.bind fun v u => sequencerStep w n (respond (resp v) u)) = .next t) : t.ts = s.ts + w + n := by
  cases acc with
  | raised f u =>
    cases e
    exact absurd (takeFault_mode f u) ht
  | ok v u =>
    obtain ⟨hts, hcfg⟩ : u.ts = s.ts ∧ u.cfg = s.cfg := hacc
    have hstep := sequencerStep_within (s := respond (resp v) u) (wait := w) (n := n) (by simpa [State.P, hts, hcfg] using hend)
    rw [Res.bind_ok, hstep] at e
    cases e
    simp [hts]

/-- Settles O21: the rows are those of `ioWaitRow`, and a port access leaves the clock to the sequencer step. -/
theorem ioWaitHasFourRows : Obligations.IoWaitHasFourRows := by
  refine ⟨fun e t0 p => ?_, fun s t p d hts hend ht e => ?_⟩
  · exact ⟨fun hp hb => ioWait_eq_row hp hb t0, fun hp hb => ioWait_eq_row hp hb t0, fun hp hb => ioWait_eq_row hp hb t0,
      fun hp hb => (ioWait_eq_row hp hb t0).trans (ioWaitRow_true_false ..), ioWaitRow_le ..⟩
  · obtain e | e := e
    · rw [exec_iord hts] at e
      exact ts_of_access_within ((intCheck_sameClock s).trans (portRead_sameClock ..)) hend ht e
    · rw [exec_iowr hts] at e
      exact ts_of_access_within (resp := fun _ => .wait _) ((intCheck_sameClock s).trans (portWrite_sameClock ..)) hend ht e

/-! ## The two forms of a timestamp -/

theorem fts_lin {P : Params} {cycle : Nat} (line : Nat) (hc : cycle < P.cpl) : fts P (lin P line cycle) = (line, cycle) := by
  have hpos : 0 < P.cpl := Nat.zero_lt_of_lt hc
  rw [fts, lin, Nat.mul_comm, Nat.mul_add_div hpos, Nat.mul_add_mod, Nat.div_eq_of_lt hc, Nat.mod_eq_of_lt hc, Nat.add_zero]

theorem lin_fts (P : Params) (t : Nat) : lin P (fts P t).1 (fts P t).2 = t := Nat.div_add_mod' t P.cpl

/-- A cycle of an earlier line comes before every instant of a later line. -/
theorem lin_lt_lin_of_line_lt {P : Params} {l1 l2 c1 : Nat} (c2 : Nat) (hc : c1 < P.cpl) (hl : l1 < l2) :
    lin P l1 c1 < lin P l2 c2 := by
  have hline : (l1 + 1) * P.cpl ≤ l2 * P.cpl := Nat.mul_le_mul_right _ hl
  rw [Nat.add_one_mul] at hline
  unfold lin
  omega

/-- R142: the order of the lines and cycles is that of the cycles from the frame's start. -/
theorem lin_lt_lin_iff {P : Params} {l1 c1 l2 c2 : Nat} (h1 : c1 < P.cpl) (h2 : c2 < P.cpl) :
    lin P l1 c1 < lin P l2 c2 ↔ l1 < l2 ∨ l1 = l2 ∧ c1 < c2 := by
  obtain hl | rfl | hl := Nat.lt_trichotomy l1 l2
  · simp [hl, lin_lt_lin_of_line_lt c2 h1 hl]
  · simp [lin]
  · have hgt := lin_lt_lin_of_line_lt c1 h2 hl
    constructor
    · intro h; omega
    · rintro (h | ⟨h, -⟩) <;> omega

theorem lin_lt_eof {P : Params} {line cycle : Nat} (heof : P.eof = P.cpl * P.lpf) (hl : line < P.lpf) (hc : cycle < P.cpl) :
    lin P line cycle < P.eof := by
  have hend : lin P P.lpf 0 = P.eof := by rw [heof, lin, Nat.add_zero, Nat.mul_comm]
  exact hend ▸ lin_lt_lin_of_line_lt 0 hc hl

theorem fts_lt {P : Params} {t : Nat} (heof : P.eof = P.cpl * P.lpf) (ht : t < P.eof) :
    (fts P t).1 < P.lpf ∧ (fts P t).2 < P.cpl := by
  rw [heof] at ht
  exact ⟨Nat.div_lt_of_lt_mul ht, Nat.mod_lt t (Nat.pos_of_mul_pos_right (Nat.zero_lt_of_lt ht))⟩

/-- Settles O23: `lin` and `fts` are inverse to each other and keep to the frame, and `lin` keeps the order. -/
theorem timestampFormsAgree : Obligations.TimestampFormsAgree := fun P =>
  ⟨fun line _ hc => fts_lin line hc, lin_fts P,
    fun heof => ⟨fun _ _ => lin_lt_eof heof, fun _ => fts_lt heof⟩, fun _ _ _ _ => lin_lt_lin_iff⟩

/-! ## The order of ticks -/

/-- R146: of two ticks the later one is less than half the circle ahead. -/
theorem before_iff (a b : Tick) : before a b = true ↔ 0 < (b - a).toNat ∧ (b - a).toNat < 2 ^ 63 := by
  have hlt := (b - a).isLt
  rw [before, decide_eq_true_iff, BitVec.toInt_eq_toNat_cond]
  split <;> omega

/-- Settles O24: less than 2^63 apart, the forward distance is the difference, or 2^64 less it. -/
theorem tickOrderWrapsAround : Obligations.TickOrderWrapsAround := by
  refine ⟨before_iff, fun a b hab hba => ?_⟩
  rw [before_iff, BitVec.toNat_sub, BitVec.toNat_ofNat, BitVec.toNat_ofNat]
  omega

end Sys2Proof.Machine
end

section
/-! PROOFS of the memory-cycle family: the read cycles (R171, R172), the write cycle (R173), the internal cycle (R174) and
their waits (R165, R174). -/

namespace Sys2Proof.Machine

open Sys2Proof.Claims

/-- R216: a request whose access leaves `u` ends with its response and the sequencer step, which stays in the frame or runs
the frame end. -/
theorem endsWith_sequencerStep (r : Response) (wait n : Nat) (u : State) :
    endsWith r wait n u (endRequest (sequencerStep wait n (respond r u))) := by
  constructor
  · intro h
    rw [sequencerStep_within (s := respond r u) h]
    rfl
  · intro h
    rw [sequencerStep_past (s := respond r u) h]
    rfl

/-! ## The read cycles -/

theorem memWait_eq_ite (e : Engine) (a : Addr) (ts : Nat) :
    e.memWait a ts = if e.contendedAddr a = true then contention e.cfg.params (ts % e.cfg.params.eof) else 0 := rfl

/-- Settles O25: both cycles respond right after the interrupt check, which leaves the memory and the clock as they are. -/
theorem readCyclesAnswerTheByte : Obligations.ReadCyclesAnswerTheByte := by
  refine ⟨fun e a ts => ⟨fun hc => ?_, fun hc => ?_⟩, fun s a n hts => ⟨?_, ?_⟩⟩
  · rw [memWait_eq_ite, if_pos hc]
  · rw [memWait_eq_ite, hc, if_neg Bool.false_ne_true]
  · rw [exec_mfetch hts]
    exact endsWith_sequencerStep ..
  · rw [exec_mread hts]
    exact endsWith_sequencerStep ..

/-! ## The write cycle -/

theorem memRead_setPages_write {s : State} (hwf : s.pages.wf = true) (a : Addr) (v : Byte) :
    (s.setPages (s.pages.write (s.addrKey a) v)).memRead a = v := by
  have hkey : (s.setPages (s.pages.write (s.addrKey a) v)).addrKey a = s.addrKey a := rfl
  rw [Engine.memRead, setPages_pages, hkey, Memory.read_write hwf, if_pos rfl]

theorem storeByte_of_not_writable {s : State} {a : Addr} (hw : writablePage s.P (s.pageOf a) = false) (v : Byte) (tw : Nat) :
    storeByte a v tw s = s := by
  simpa [hw] using storeByte_cases a v tw s

theorem storeByte_of_not_screen {s : State} {a : Addr} (hw : writablePage s.P (s.pageOf a) = true)
    (hp : s.pageOf a ≠ s.screenPage) (v : Byte) (tw : Nat) :
    storeByte a v tw s = s.setPages (s.pages.write (s.addrKey a) v) := by
  simpa [hw, hp] using storeByte_cases a v tw s

theorem storeByte_of_screen {s : State} {a : Addr} (hw : writablePage s.P (s.pageOf a) = true)
    (hp : s.pageOf a = s.screenPage) (v : Byte) (tw : Nat) :
    storeByte a v tw s = (catchUp tw s).setPages (s.pages.write (s.addrKey a) v) := by
  rw [hp] at hw
  simpa [hw, hp] using storeByte_cases a v tw s

/-- R173: a byte stored into a writable page reads back, with or without a catch-up before the store. -/
theorem memRead_storeByte {s : State} {a : Addr} (hw : writablePage s.P (s.pageOf a) = true) (hwf : s.pages.wf = true)
    (v : Byte) (tw : Nat) : (storeByte a v tw s).memRead a = v := by
  by_cases hp : s.pageOf a = s.screenPage
  · rw [storeByte_of_screen hw hp]
    exact memRead_setPages_write (s := catchUp tw s) hwf a v
  · rw [storeByte_of_not_screen hw hp]
    exact memRead_setPages_write hwf a v

/-- Settles O26: the access is a store after the interrupt check, which leaves the map and the page store as they are. -/
theorem writeCyclesStoreTheByte : Obligations.WriteCyclesStoreTheByte := by
  intro s a d n hts
  have hpage : writablePage (intCheck s).P ((intCheck s).pageOf a) = writablePage s.P (s.pageOf a) := by simp [State.P]
  refine ⟨memWait_eq_ite .., storeByte a d (s.ts + s.memWait a s.ts) (intCheck s), ?_, fun hw => ?_, fun hw hp => ?_,
    fun hw hp => ?_, fun hw hwf => ?_⟩
  · rw [exec_mwrite hts]
    exact endsWith_sequencerStep ..
  · exact storeByte_of_not_writable (hpage.trans hw) ..
  · simpa using storeByte_of_not_screen (s := intCheck s) (hpage.trans hw) (by simpa using hp) ..
  · simpa using storeByte_of_screen (s := intCheck s) (hpage.trans hw) (by simpa using hp) ..
  · exact memRead_storeByte (hpage.trans hw) (by simpa using hwf) ..

/-! ## The internal cycle -/

theorem internalWait_of_not_contended {e : Engine} {a : Addr} (hc : e.contendedAddr a = false) (n ts : Nat) :
    e.internalWait a n ts = 0 := by
  rw [Engine.internalWait, hc, if_neg Bool.false_ne_true]

theorem internalWait_of_contended {e : Engine} {a : Addr} (hc : e.contendedAddr a = true) (n ts : Nat) :
    e.internalWait a n ts = contendedPhases e.cfg.params n ts - ts - n := by
  rw [Engine.internalWait, if_pos hc]

theorem internalWait_zero (e : Engine) (a : Addr) (ts : Nat) : e.internalWait a 0 ts = 0 := by
  simp [Engine.internalWait, contendedPhases]

/-- R174: the first phase waits as of its start, and the others wait as a cycle that starts after it. -/
theorem internalWait_succ {e : Engine} {a : Addr} (hc : e.contendedAddr a = true) (n ts : Nat) :
    e.internalWait a (n + 1) ts =
      contentionWrap e.cfg.params ts + e.internalWait a n (ts + contentionWrap e.cfg.params ts + 1) := by
  have hge := contendedPhases_ge e.cfg.params n (ts + contentionWrap e.cfg.params ts + 1)
  rw [internalWait_of_contended hc, internalWait_of_contended hc, contendedPhases]
  omega

/-- Settles O27: the cycle has no access between the interrupt check and its response, and its wait is by recursion on its
phases. -/
theorem internalCyclesWaitPerPhase : Obligations.InternalCyclesWaitPerPhase := by
  refine ⟨fun s a n hts => ?_, fun e a n ts => ⟨fun hc => ?_, fun hc => ⟨?_, ?_⟩⟩⟩
  · rw [exec_minternal hts]
    exact endsWith_sequencerStep ..
  · exact internalWait_of_not_contended hc n ts
  · exact internalWait_zero e a ts
  · exact internalWait_succ hc n ts

end Sys2Proof.Machine
end

section
/-! PROOFS of the device-chain family: the device clocks (R144, R148, R200), the second claim of a read (R201), the chipset's
registers (R191, R193) and the floating bus (R202, R204). -/

namespace Sys2Proof.Machine

open Sys2Proof.Claims

/-! ## Device clocks -/

theorem normInstant_of_lt {P : Params} (f : Tick) {t : Nat} (ht : t < P.eof) : normInstant P f t = (f, t) := by
  simp [normInstant, Nat.div_eq_of_lt ht, Nat.mod_eq_of_lt ht]

theorem normInstant_of_next {P : Params} (f : Tick) {t : Nat} (h : P.eof ≤ t) (h' : t < 2 * P.eof) :
    normInstant P f t = (f + 1, t - P.eof) := by
  have hdiv : t / P.eof = 1 := Nat.div_eq_of_lt_le (by omega) (by omega)
  have hmod : t % P.eof = t - P.eof := by rw [Nat.mod_eq_sub_mod h, Nat.mod_eq_of_lt (by omega)]
  rw [normInstant, hdiv, hmod]
  rfl

theorem absTick_eq_ofNat (P : Params) (f : Tick) (t : Nat) : absTick P f t = BitVec.ofNat 64 (f.toNat * P.eof + t) := by
  rw [absTick, BitVec.ofNat_add, BitVec.ofNat_mul, BitVec.ofNat_toNat, BitVec.setWidth_eq]

theorem convInstant_lin32_of_lt {P : Params} {f : Tick} {t : Nat} (h : f.toNat * P.eof + t < 2 ^ 32) :
    convInstant P .lin32 f t = some (.lin32 (BitVec.ofNat 32 (f.toNat * P.eof + t))) := if_pos h

theorem convInstant_lin32_of_ge {P : Params} {f : Tick} {t : Nat} (h : 2 ^ 32 ≤ f.toNat * P.eof + t) :
    convInstant P .lin32 f t = none := if_neg (Nat.not_lt.2 h)

/-- R148: only LIN32 can overflow. -/
theorem convInstant_isSome {P : Params} {c : ClockRepr} {f : Tick} {t : Nat}
    (h : c = .lin32 → f.toNat * P.eof + t < 2 ^ 32) : ∃ x, convInstant P c f t = some x := by
  cases c with
  | frame => exact ⟨_, rfl⟩
  | abs64 => exact ⟨_, rfl⟩
  | lin32 => exact ⟨_, convInstant_lin32_of_lt (h rfl)⟩

section
variable {P : Params} {f g : Tick} {t u : Nat} {n : Node} {a : Audio}

theorem syncNode_of_before (hi : normInstant P f t = (g, u)) (hb : before (absTick P g u) n.last = true) :
    syncNode P f t n a = .raised { code := .e1, info := .clockBack n.id (absTick P g u) n.last } (n, a) := by
  simp [syncNode, hi, hb]

theorem syncNode_of_conv_none (hi : normInstant P f t = (g, u)) (hb : before (absTick P g u) n.last = false)
    (hc : convInstant P n.clock g u = none) :
    syncNode P f t n a = .raised { code := .e2, info := .conversion n.id g u } (n, a) := by
  simp [syncNode, hi, hb, hc]

/-- R200: `advance_to` runs, its edges are handled, and the node's tick is set. -/
theorem syncNode_of_conv_some {x : DevTime} {a' : Audio} (hi : normInstant P f t = (g, u))
    (hb : before (absTick P g u) n.last = false) (hc : convInstant P n.clock g u = some x)
    (he : deviceEdges P f n.id t (advanceTo n.ops n.dev x).edges a = .ok () a') :
    syncNode P f t n a = .ok x ({ n with dev := (advanceTo n.ops n.dev x).dev, last := absTick P g u }, a') := by
  simp [syncNode, settleReply, hi, hb, hc, he]

end

/-- Settles O13: an instant has its place by division, and `sync` first compares ticks, then converts, then advances. -/
theorem deviceClocksMoveForward : Obligations.DeviceClocksMoveForward := by
  refine ⟨fun P f t => ?_, fun P f t n a g u hi => ⟨fun hb => ?_, fun hb hclock hge => ?_, fun hb hlin => ?_⟩⟩
  · exact ⟨normInstant_of_lt f, normInstant_of_next f, rfl, congrArg (some ∘ DevTime.abs64) (absTick_eq_ofNat P f t),
      convInstant_lin32_of_lt, convInstant_lin32_of_ge⟩
  · exact syncNode_of_before hi hb
  · exact syncNode_of_conv_none hi hb (hclock ▸ convInstant_lin32_of_ge hge)
  · obtain ⟨x, hx⟩ := convInstant_isSome hlin
    exact ⟨x, hx, fun a' he => syncNode_of_conv_some hi hb hx he⟩

/-! ## The second claim -/

section
variable {s : State} {p : Addr} {td : Nat} {pre post : List Node} {n : Node} {b0 b : Byte} {c : NodeCtx}

/-- R198: the first claim becomes the value of the read. -/
theorem chainReadFrom_first_claim (hr : readNode s.P s.frame p td n s.audio = .ok (some b) c) :
    chainReadFrom p td pre (n :: post) none s = chainReadFrom p td (pre ++ [c.1]) post (some b) (putNode pre post s c) := by
  rw [chainReadFrom, hr]

/-- R201: a further claim is a double claim, and the walk goes on with the first. -/
theorem chainReadFrom_second_claim (hr : readNode s.P s.frame p td n s.audio = .ok (some b) c) :
    chainReadFrom p td pre (n :: post) (some b0) s =
      (doubleClaim n.id (putNode pre post s c)).bind fun _ u => chainReadFrom p td (pre ++ [c.1]) post (some b0) u := by
  rw [chainReadFrom, hr]

end

theorem doubleClaim_of_strict {s : State} (h : s.cfg.strict = true) (id : Addr) :
    doubleClaim id s = .raised { code := .e3, info := .claim id } s := if_pos h

theorem doubleClaim_of_not_strict {s : State} (h : s.cfg.strict = false) (id : Addr) :
    doubleClaim id s = .ok () (s.setDevConflict true) := if_neg (by simp [h])

/-- The read of a chain of two devices that both claim it, from the second claim on. -/
theorem chainRead_of_two_claims {s : State} {p : Addr} {td : Nat} {n1 n2 : Node} {b1 b2 : Byte} {c1 c2 : NodeCtx}
    (hs : s.chain = [n1, n2]) (h1 : readNode s.P s.frame p td n1 s.audio = .ok (some b1) c1)
    (h2 : readNode s.P s.frame p td n2 c1.2 = .ok (some b2) c2) :
    chainRead p td s =
      (doubleClaim n2.id ((s.setChain [c1.1, c2.1]).setAudio c2.2)).bind fun _ u => .ok (some b1) u := by
  rw [chainRead, hs, chainReadFrom_first_claim h1, chainReadFrom_second_claim (s := putNode [] [n2] s c1) h2]
  rfl

/-- R186: with no wrapper and not the chipset port, the chain answers, or else the floating bus. -/
theorem portRead_of_chain {s : State} {p : Addr} (hw : readWrapper s.wrap p = none) (hu : ulaSel p = false) (td : Nat) :
    portRead p td s = (chainRead p td s).bind fun r u => .ok (r.getD (u.floatingBus td)) u := by
  simp [portRead, hw, hu]

/-- A mutation that leaves the engine in place: no snapshot and no model switch. -/
def Mutation.LeavesEngine (m : Mutation) : Prop := (∀ img, m ≠ .load img) ∧ ∀ args, m ≠ .switch args

/-- R37: every update but a replacement of the engine keeps a set flag, and no replacement comes to wait. -/
theorem conflictFlag_stable :
    Stable (fun s => s.devConflict = true ∧ noReplacement s) Mutation.LeavesEngine (fun _ _ => True) := by
  constructor
  case devConflict => exact fun _ h => ⟨rfl, h.2⟩
  case paging =>
    intro s v h
    obtain ⟨q, e⟩ := pagingWrite_keeps v s
    rw [e]
    exact h
  case pop =>
    intro s m rest ⟨hc, hn⟩ e
    exact ⟨hc, fun m' hm => hn m' (e ▸ List.mem_cons_of_mem m hm)⟩
  case popLoad =>
    intro s img rest ⟨_, hn⟩ e
    exact absurd rfl ((hn (.load img) (by simp [e])).1 img)
  case popSwitch =>
    intro s args rest ⟨_, hn⟩ e
    exact absurd rfl ((hn (.switch args) (by simp [e])).2 args)
  case defer =>
    intro s m ⟨hc, hn⟩ hm _
    refine ⟨hc, fun m' hm' => ?_⟩
    obtain h | rfl := List.mem_append.1 hm' |>.imp_right List.mem_singleton.1
    · exact hn m' h
    · exact hm
  case load => exact fun s img _ hm => absurd rfl (hm.1 img)
  case switch => exact fun s args _ hm => absurd rfl (hm.2 args)
  case store => exact fun _ _ _ h _ _ => h
  case renderRows | clearLines => exact fun _ h => h
  all_goals exact fun _ _ h => h

theorem leavesEngine_of_issued {s : State} (hk : keepsEngine s) {x : Issue} {rest : List Issue} {m : Mutation}
    (hin : s.inbox = x :: rest) (hm : Issued x m) : m.LeavesEngine :=
  ⟨fun img e => (hk.2 x rest hin).1 (hm.1 img e).1, fun args e => (hk.2 x rest hin).2 (hm.2 args e).1⟩

/-- R37, R302: the flag is sticky. -/
theorem devConflict_step {s t : State} (hc : s.devConflict = true) (hk : keepsEngine s) (e : step s = .next t) :
    t.devConflict = true :=
  (conflictFlag_stable.step ⟨hc, hk.1⟩ (fun _ _ _ hin hm => leavesEngine_of_issued hk hin hm)
    (fun _ _ _ _ _ _ _ => trivial) e).1

/-- Settles O14: `double_claim` raises or flags, and the walk over the chain goes on from what it leaves. -/
theorem secondClaimIsFlaggedOrFatal : Obligations.SecondClaimIsFlaggedOrFatal := by
  refine ⟨fun s p td pre post n b0 b c hr => ⟨chainReadFrom_first_claim hr, fun hst => ?_, fun hst => ?_⟩,
    fun s t => devConflict_step, fun s p n1 n2 b1 b2 c1 c2 hts hw hu hs h1 h2 => ?_⟩
  · rw [chainReadFrom_second_claim hr, doubleClaim_of_strict (s := putNode pre post s c) hst]
    rfl
  · rw [chainReadFrom_second_claim hr, doubleClaim_of_not_strict (s := putNode pre post s c) hst]
    rfl
  · have hread := chainRead_of_two_claims (s := intCheck s) (by simpa using hs) (by simpa [State.P] using h1)
      (by simpa [State.P] using h2)
    rw [exec_iord hts, portRead_of_chain (by simpa using hw) hu, hread]
    refine ⟨fun hst => ?_, fun hst => ?_⟩
    · rw [doubleClaim_of_strict (by simpa using hst)]
      rfl
    · rw [doubleClaim_of_not_strict (by simpa using hst)]
      exact endsWith_sequencerStep ..

/-! ## The chipset's registers -/

/-- R191: a write of the present colour records no border event. -/
theorem ulaWrite_of_same_border {v : Byte} {s : State} (hb : borderBits v = s.curBorder) (te : Nat) :
    ulaWrite v te s = (s.setAudio
      { s.audio with ear := s.audio.ear.push te (earLevel v), mic := s.audio.mic.push te (micLevel v) }).setUla v := by
  rw [ulaWrite, if_pos hb]

theorem ulaWrite_of_new_border {v : Byte} {s : State} (hb : borderBits v ≠ s.curBorder) (te : Nat) :
    ulaWrite v te s = ((s.setBorderEv (s.borderEv ++ [{ t := te, colour := borderBits v }])).setAudio
      { s.audio with ear := s.audio.ear.push te (earLevel v), mic := s.audio.mic.push te (micLevel v) }).setUla v := by
  rw [ulaWrite, if_neg hb]
  rfl

/-- R193: the six low bits, as a mask. -/
theorem extractLsb_six_eq_and (v : Byte) : (v.extractLsb' 0 6).setWidth 8 = v &&& 0x3F := by
  apply BitVec.eq_of_toNat_eq
  have hmask : v.toNat &&& 63 = v.toNat % 64 := Nat.and_two_pow_sub_one_eq_mod v.toNat 6
  simp [hmask]
  omega

theorem pagingWrite_of_unlocked {s : State} {q : Byte} (hq : s.paging = some q) (hl : q.getLsbD 5 = false) (v : Byte) :
    pagingWrite v s = s.setPaging (some (v &&& 0x3F)) := by
  simp only [pagingWrite, hq, hl, extractLsb_six_eq_and, if_neg Bool.false_ne_true]

theorem pagingWrite_of_locked {s : State} {q : Byte} (hq : s.paging = some q) (hl : q.getLsbD 5 = true) (v : Byte) :
    pagingWrite v s = s := by
  simp only [pagingWrite, hq, hl, if_true]

theorem pagingWrite_of_none {s : State} (hq : s.paging = none) (v : Byte) : pagingWrite v s = s := by
  simp [pagingWrite, hq]

/-- Settles O32: a border event where the colour changes, both channels by `push`, the latch; and the lock bit decides. -/
theorem chipsetRegistersLatchWrites : Obligations.ChipsetRegistersLatchWrites := by
  refine ⟨fun v te s => ?_, fun v s => ⟨fun q hq hl => pagingWrite_of_unlocked hq hl v,
    fun q hq hl => pagingWrite_of_locked hq hl v, fun hq => pagingWrite_of_none hq v⟩⟩
  by_cases hb : borderBits v = s.curBorder
  · rw [ulaWrite_of_same_border hb, if_pos (c := v.extractLsb' 0 3 = s.curBorder) hb]
    rfl
  · rw [ulaWrite_of_new_border hb, if_neg (c := v.extractLsb' 0 3 = s.curBorder) hb]
    rfl

/-! ## The floating bus -/

/-- R14: the display fetches lie within the frame, in whole groups of eight cycles of a line. -/
theorem fetchRegion_of_wellFormed {P : Params} (hwf : P.wellFormed = true) :
    P.contCycles ≤ P.cpl ∧ P.contCycles % 8 = 0 ∧
      (P.fetchStart : Int) + ((P.contLines : Int) - 1) * P.cpl + P.contCycles ≤ P.eof := by
  simp only [Params.wellFormed, Bool.and_eq_true, decide_eq_true_eq] at hwf
  tauto

/-- R202: each cycle of the fetch region comes before the frame end and is found at its line and cycle. -/
theorem inRegion_fetch {P : Params} (hwf : P.wellFormed = true) {y h : Nat} (hy : y < P.contLines) (hh : h < P.contCycles) :
    P.fetchStart + y * P.cpl + h < P.eof ∧
      inRegion P P.fetchStart ((P.fetchStart + y * P.cpl + h) % P.eof) = some (y, h) := by
  obtain ⟨hcpl, -, heof⟩ := fetchRegion_of_wellFormed hwf
  have hline : (y : Int) * P.cpl ≤ ((P.contLines : Int) - 1) * P.cpl :=
    Int.mul_le_mul_of_nonneg_right (by omega) (by omega)
  have hlt : P.fetchStart + y * P.cpl + h < P.eof := by
    zify
    omega
  exact ⟨hlt, by rw [Nat.mod_eq_of_lt hlt, inRegion_at hy hh hcpl]⟩

section
variable {e : Engine} {t y h : Nat} (hr : inRegion e.cfg.params e.cfg.params.fetchStart (t % e.cfg.params.eof) = some (y, h))
include hr

/-- R202: in the first half of a group of eight cycles, two columns are fetched. -/
theorem floatingBus_of_fetch_cycle (k : Nat) :
    (h = 8 * k → e.floatingBus t = e.screenRead (bmpOff y (2 * k))) ∧
    (h = 8 * k + 1 → e.floatingBus t = e.screenRead (attOff y (2 * k))) ∧
    (h = 8 * k + 2 → e.floatingBus t = e.screenRead (bmpOff y (2 * k + 1))) ∧
    (h = 8 * k + 3 → e.floatingBus t = e.screenRead (attOff y (2 * k + 1))) := by
  rw [Engine.floatingBus, hr]
  refine ⟨?_, ?_, ?_, ?_⟩ <;> rintro rfl <;> simp [Nat.mul_add_div]

/-- R202: in its second half, nothing is. -/
theorem floatingBus_of_idle_cycle (h4 : 4 ≤ h % 8) : e.floatingBus t = e.cfg.params.idleBus := by
  obtain ⟨j, hj⟩ := Nat.exists_eq_add_of_le' h4
  simp only [Engine.floatingBus, hr, hj]

end

theorem fetchBmp_even (P : Params) (y k : Nat) : fetchBmp P y (2 * k) = P.fetchStart + y * P.cpl + 8 * k := by
  unfold fetchBmp
  omega

theorem fetchBmp_odd (P : Params) (y k : Nat) : fetchBmp P y (2 * k + 1) = P.fetchStart + y * P.cpl + (8 * k + 2) := by
  unfold fetchBmp
  omega

/-- R204 at the fetch instant of the byte at `bmpOff`. -/
theorem floatingBus_fetchBmp {e : Engine} (hwf : e.cfg.params.wellFormed = true) {y x : Nat} (hy : y < e.cfg.params.contLines)
    (hx : x < e.cfg.params.contCycles / 4) :
    fetchBmp e.cfg.params y x < e.cfg.params.eof ∧
      e.floatingBus (fetchBmp e.cfg.params y x) = e.screenRead (bmpOff y x) := by
  obtain ⟨-, h8, -⟩ := fetchRegion_of_wellFormed hwf
  obtain ⟨k, rfl | rfl⟩ := Nat.even_or_odd' x
  · obtain ⟨hlt, hr⟩ := inRegion_fetch hwf hy (h := 8 * k) (by omega)
    obtain ⟨hfb, -, -, -⟩ := floatingBus_of_fetch_cycle hr k
    rw [fetchBmp_even]
    exact ⟨hlt, hfb rfl⟩
  · obtain ⟨hlt, hr⟩ := inRegion_fetch hwf hy (h := 8 * k + 2) (by omega)
    obtain ⟨-, -, hfb, -⟩ := floatingBus_of_fetch_cycle hr k
    rw [fetchBmp_odd]
    exact ⟨hlt, hfb rfl⟩

/-- R204 at the fetch instant of the byte at `attOff`. -/
theorem floatingBus_fetchAtt {e : Engine} (hwf : e.cfg.params.wellFormed = true) {y x : Nat} (hy : y < e.cfg.params.contLines)
    (hx : x < e.cfg.params.contCycles / 4) :
    fetchAtt e.cfg.params y x < e.cfg.params.eof ∧
      e.floatingBus (fetchAtt e.cfg.params y x) = e.screenRead (attOff y x) := by
  obtain ⟨-, h8, -⟩ := fetchRegion_of_wellFormed hwf
  obtain ⟨k, rfl | rfl⟩ := Nat.even_or_odd' x
  · obtain ⟨hlt, hr⟩ := inRegion_fetch hwf hy (h := 8 * k + 1) (by omega)
    obtain ⟨-, hfb, -, -⟩ := floatingBus_of_fetch_cycle hr k
    rw [fetchAtt, fetchBmp_even]
    exact ⟨hlt, hfb rfl⟩
  · obtain ⟨hlt, hr⟩ := inRegion_fetch hwf hy (h := 8 * k + 3) (by omega)
    obtain ⟨-, -, -, hfb⟩ := floatingBus_of_fetch_cycle hr k
    rw [fetchAtt, fetchBmp_odd]
    exact ⟨hlt, hfb rfl⟩

/-- R202, R237: the first four cycles of a group of eight are fetch instants. -/
theorem fetch_of_cycle {P : Params} (h8 : P.contCycles % 8 = 0) (y : Nat) {h : Nat} (hh : h < P.contCycles) (h4 : h % 8 < 4) :
    ∃ x < P.contCycles / 4,
      P.fetchStart + y * P.cpl + h = fetchBmp P y x ∨ P.fetchStart + y * P.cpl + h = fetchAtt P y x := by
  refine ⟨2 * (h / 8) + h % 8 / 2, by omega, ?_⟩
  unfold fetchAtt fetchBmp
  omega

/-- R204 at an instant of the frame without a fetch. -/
theorem floatingBus_idle {e : Engine} (hwf : e.cfg.params.wellFormed = true) {t : Nat} (ht : t < e.cfg.params.eof)
    (hno : ∀ y x, y < e.cfg.params.contLines → x < e.cfg.params.contCycles / 4 →
      t ≠ fetchBmp e.cfg.params y x ∧ t ≠ fetchAtt e.cfg.params y x) : e.floatingBus t = e.cfg.params.idleBus := by
  obtain ⟨-, h8, -⟩ := fetchRegion_of_wellFormed hwf
  cases hr : inRegion e.cfg.params e.cfg.params.fetchStart (t % e.cfg.params.eof) with
  | none => rw [Engine.floatingBus, hr]
  | some yh =>
    obtain ⟨y, h⟩ := yh
    obtain ⟨het, hy, hh⟩ := inRegion_some hr
    rw [Nat.mod_eq_of_lt ht] at het
    obtain h4 | h4 := Nat.lt_or_ge (h % 8) 4
    · obtain ⟨x, hx, hf⟩ := fetch_of_cycle h8 y hh h4
      obtain ⟨hb, ha⟩ := hno y x hy hx
      exact absurd hf (het ▸ not_or.2 ⟨hb, ha⟩)
    · exact floatingBus_of_idle_cycle hr h4

/-- Settles O36: a fetch instant is found at its line and cycle, and a cycle found elsewhere is in the idle half of its group. -/
theorem floatingBusIsTheFetchedByte : Obligations.FloatingBusIsTheFetchedByte := by
  refine fun e hwf => ⟨fun y x hy hx => ?_, fun t ht hno => floatingBus_idle hwf ht hno⟩
  obtain ⟨hblt, hb⟩ := floatingBus_fetchBmp hwf hy hx
  obtain ⟨halt, ha⟩ := floatingBus_fetchAtt hwf hy hx
  exact ⟨hblt, halt, hb, ha⟩

end Sys2Proof.Machine
end

section
/-! PROOFS of the sequencer family: the interrupt check at the start of a bus request (R218) and the interrupt line (R219). -/

namespace Sys2Proof.Machine

open Sys2Proof.Claims

/-! ## The interrupt line -/

theorem intTs_of_some {c : EngineCfg} {v : Nat} (h : c.params.intTs? c.scheme = some v) : intTs c = v := by
  rw [intTs, h, Option.getD_some]

theorem intLine_iff (c : EngineCfg) (t : Nat) : intLine c t = true ↔ intTs c ≤ t ∧ t < intTs c + c.params.intPulse :=
  decide_eq_true_iff

/-! ## The interrupt check -/

/-- R218 where the interrupt is due: it is signalled, once in the frame. -/
theorem intCheck_due {s : State} (h : s.mode = .running ∧ s.intDone = false ∧ intTs s.cfg ≤ s.ts) :
    intCheck s = { s with atBoundary := false, intDone := true, out := s.out ++ [.interrupt] } :=
  if_pos h

theorem intCheck_not_due {s : State} (h : ¬(s.mode = .running ∧ s.intDone = false ∧ intTs s.cfg ≤ s.ts)) :
    intCheck s = { s with atBoundary := false } :=
  if_neg h

/-! ## The start of a request -/

/-- The check of R226, on the state that the interrupt check leaves. -/
def checkInFrame (op : RequestOp) (s : State) : Res State Unit :=
  if s.P.eof ≤ s.ts then .raised { code := .e1, info := .requestAt op s.ts (.below s.P.eof) } s else .ok () s

theorem startRequest_eq (op : RequestOp) (s : State) : startRequest op s = checkInFrame op (intCheck s) := rfl

/-- R218, R226: whatever the access `k`, a request reads the state only after the interrupt check. -/
theorem request_of_intCheck (op : RequestOp) (k : State → Res State Unit) :
    ∃ o : State → Host.Outcome State Fault Refusal,
      ∀ u, endRequest ((startRequest op u).bind fun _ s1 => k s1) = o (intCheck u) :=
  ⟨fun v => endRequest ((checkInFrame op v).bind fun _ s1 => k s1), fun u => by rw [startRequest_eq]⟩

theorem exec_of_intCheck {i : Instr} (hi : busRequest i = true) :
    ∃ o : State → Host.Outcome State Fault Refusal, ∀ u, exec i u = o (intCheck u) := by
  cases i with
  | mfetch a n => exact request_of_intCheck .mfetch (readCycle a (phases n))
  | mread a n => exact request_of_intCheck .mread (readCycle a (phases n))
  | mwrite a d n => exact request_of_intCheck .mwrite (writeCycle a d (phases n))
  | minternal a n => exact request_of_intCheck .minternal (internalCycle a (phases n))
  | iord p => exact request_of_intCheck .iord (ioReadCycle p)
  | iowr p d => exact request_of_intCheck .iowr (ioWriteCycle p d)
  | _ => exact absurd hi Bool.false_ne_true

/-- Settles O16: each of the six requests is `startRequest`, which is the interrupt check and then the check of R226, followed by
its access. -/
theorem interruptCheckAtRequestStart : Obligations.InterruptCheckAtRequestStart := by
  refine ⟨fun c v h => ?_, by decide, fun s => ⟨fun hm hd ht => intCheck_due ⟨hm, hd, ht⟩, intCheck_not_due,
    fun i => exec_of_intCheck⟩⟩
  have hv := intTs_of_some h
  exact ⟨hv, fun t => hv ▸ intLine_iff c t⟩

end Sys2Proof.Machine
end

section
/-! PROOFS of the video family: the mid-frame render (R249, R250, R279). -/

namespace Sys2Proof.Machine

/-! ## The mid-frame render -/

/-- R249: the buffer shows the fetches performed by `t`, with the border and the geometry of the state before them. -/
theorem catchUp_midBuffer (t : Nat) (s : State) :
    (catchUp t s).midBuffer =
      pixelBuffer s.P s.geometry (mapFrom (linePixels (catchUp t s).toEngine) 0 (catchUp t s).vcache)
        (borderFrom s.border0 (s.borderEv.filter (fun ev => decide (ev.t ≤ s.ts)))) := rfl

theorem renderMid_within {s : State} (h : s.ts < s.P.eof) :
    renderMid s = .ok () (respond (.done (.pixels (catchUp s.ts s).midBuffer)) (catchUp s.ts s)) :=
  if_neg (Nat.not_le.2 h)

theorem renderMid_past {s : State} (h : s.P.eof ≤ s.ts) :
    renderMid s = .raised { code := .e1, info := .renderAt s.ts (.below s.P.eof) } s :=
  if_pos h

/-- Settles O45: the render is the catch-up to `S.ts`, which replaces the video cache alone, and its response is the buffer
after it; past the frame it raises on the state as it is. -/
theorem midFrameRenderOnlyFetches : Obligations.MidFrameRenderOnlyFetches := by
  refine fun s => ⟨fun h => ?_, fun h => ?_⟩
  · have hstate : catchUp s.ts s = { s with vcache := (catchUp s.ts s).vcache } := catchUp_eq s.ts s
    calc exec .hrenderv s
      _ = .next (respond (.done (.pixels (catchUp s.ts s).midBuffer)) (catchUp s.ts s)) := by
        rw [exec, execHrenderv, renderMid_within h, endCommand]
      _ = _ := by rw [catchUp_midBuffer, ← hstate]
  · show exec .hrenderv s = _
    rw [exec, execHrenderv, renderMid_past h, endCommand]

end Sys2Proof.Machine
end

section
/-! PROOFS of the host command family: the host reads (R274, R276, R277). -/

namespace Sys2Proof.Machine

/-! ## The host reads -/

/-- R274: the lookup answers the first node with the handle, and its index is the number of nodes in front of it. -/
theorem lookupAnswer_of_first {pre : List Node} {n : Node} (post : List Node) (h : ∀ m ∈ pre, m.id ≠ n.id) :
    lookupAnswer n.id (pre ++ n :: post) = .done (.found pre.length n.dev n.last) := by
  have hpre : ∀ m ∈ pre, (m.id == n.id) = false := fun m hm => beq_false_of_ne (h m hm)
  have hidx : (pre ++ n :: post).findIdx? (fun m => m.id == n.id) = some pre.length := by
    simp [List.findIdx?_append, List.findIdx?_eq_none_iff.2 hpre, List.findIdx?_cons]
  have hnode : (pre ++ n :: post).find? (fun m => m.id == n.id) = some n := by
    rw [List.find?_append, List.find?_eq_none.2 fun m hm => by simp [h m hm], Option.none_or]
    exact List.find?_cons_of_pos (beq_self_eq_true n.id)
  rw [lookupAnswer, hidx, hnode]

/-- R274: a handle of no node in the chain is E5. -/
theorem lookupAnswer_of_not_mem {h : Addr} {chain : List Node} (hh : h ∉ handles chain) :
    lookupAnswer h chain = .error (.e5 h) := by
  have hne : ∀ m ∈ chain, (m.id == h) = false := fun m hm =>
    beq_false_of_ne fun e => hh (e ▸ List.mem_map_of_mem hm)
  rw [lookupAnswer, List.findIdx?_eq_none_iff.2 hne]

theorem exec_hlookup (h : Addr) (s : State) : exec (.hlookup h) s = .next (respond (lookupAnswer h s.chain) s) := rfl

theorem exec_hflags (s : State) : exec .hflags s = .next (respond (.done (.flags (statusFlags s))) s) := rfl

theorem exec_hsnapsave (s : State) : exec .hsnapsave s = .next (respond (.done (.image s.toEngine)) s) := rfl

/-- Settles O40: each of the three only responds, and the response of a lookup is that of the first node with the handle. -/
theorem hostReadsChangeNothing : Obligations.HostReadsChangeNothing := by
  refine fun s => ⟨fun pre n post hc hpre => ?_, fun h hh => ?_, exec_hflags s, exec_hsnapsave s⟩
  · rw [exec_hlookup, hc, lookupAnswer_of_first post hpre]
  · rw [exec_hlookup, lookupAnswer_of_not_mem hh]

end Sys2Proof.Machine
end

section
/-! PROOFS of the exception family: which interface accepts a word (R313), and what raising a fatal fault does (R296). -/

namespace Sys2Proof.Machine

open Sys2Proof.Claims

/-! ## The interfaces

In each case split the first `simp` leaves the instructions of the set. -/

theorem accepts_of_query {i : Instr} (h : query i = true) (f : Interface) : accepts f i = true := by
  cases i <;> simp [query] at h <;> rfl

theorem accepts_of_busRequest {i : Instr} (h : busRequest i = true) (f : Interface) :
    accepts f i = decide (f = .stepping) := by
  cases i <;> simp [busRequest] at h <;> rfl

theorem accepts_of_hostCommand {i : Instr} (h : hostCommand i = true) (f : Interface) :
    accepts f i = decide (f = .host) := by
  cases i <;> simp [hostCommand, busRequest, query] at h <;> rfl

section Running

variable {s : State} {x : Issue} {rest : List Issue} (hin : s.inbox = x :: rest) (hmode : s.mode ≠ .faulted)

include hin hmode

/-- Outside mode Faulted the interface check alone decides what becomes of a word that decodes. -/
theorem step_of_decode {i : Instr} (hdec : decode x.word = .ok i) :
    step s = if accepts x.iface i then exec i (takeIssue x rest s)
      else .next (respond (.refused .badField) (takeIssue x rest s)) := by
  obtain ⟨ha, -⟩ | ⟨-, k, hk, -⟩ | ⟨-, -, r, hr, -⟩ | ⟨-, j, hj, ⟨hacc, hstep⟩ | ⟨hacc, hstep⟩⟩ := step_cases hin
  · rw [admitted_of_running hmode] at ha; cases ha
  · rw [customOf_of_decode hdec] at hk; cases hk
  · rw [hdec] at hr; cases hr
  · rw [hdec] at hj; cases hj; rw [hstep, if_pos hacc]
  · rw [hdec] at hj; cases hj; rw [hstep, hacc, if_neg Bool.false_ne_true]

/-- Outside mode Faulted a custom command is performed through the host interface and refused through the other. -/
theorem step_of_customOf {k : CustomKind} (hk : customOf x.word s = some k) :
    step s = if x.iface = .host then customCommand k x.word (takeIssue x rest s)
      else .next (respond (.refused .badField) (takeIssue x rest s)) := by
  obtain ⟨ha, -⟩ | ⟨-, k', hk', ⟨hf, hstep⟩ | ⟨hf, hstep⟩⟩ | ⟨-, hnone, -⟩ | ⟨-, i, hi, -⟩ := step_cases hin
  · rw [admitted_of_running hmode] at ha; cases ha
  · rw [hk] at hk'; cases hk'; rw [hstep, if_pos hf]
  · rw [hstep, hf, if_neg (by decide)]
  · rw [hk] at hnone; cases hnone
  · rw [customOf_of_decode hi] at hk; cases hk

end Running

/-- Settles O9: each set of instructions has one answer of the interface check, and that check decides the step. -/
theorem interfacesHaveTheirCommands : Obligations.InterfacesHaveTheirCommands := by
  refine fun s x rest hin hmode => ⟨fun i hdec => ?_, fun k hk => ?_⟩
  · rw [step_of_decode hin hmode hdec]
    refine ⟨fun hq => ?_, fun hb hf => ?_, fun hb hf => ?_, fun hc hf => ?_, fun hc hf => ?_⟩
    · rw [accepts_of_query hq, if_pos rfl]
    · rw [accepts_of_busRequest hb, hf]; rfl
    · rw [accepts_of_busRequest hb, hf]; rfl
    · rw [accepts_of_hostCommand hc, hf]; rfl
    · rw [accepts_of_hostCommand hc, hf]; rfl
  · rw [step_of_customOf hin hmode hk]
    exact ⟨fun hf => if_pos hf, fun hf => if_neg (by rw [hf]; decide)⟩

/-! ## Raising a fatal fault -/

/-- R296: a fault that stands stays, else the raised one is latched; the mode is Faulted either way. -/
theorem takeFault_eq (f : FaultRec) (s : State) :
    takeFault f s = { s with mode := .faulted, fault := some (s.fault.getD f) } := by
  rw [takeFault]
  cases hf : s.fault with
  | none => rfl
  | some g =>
    change s.setMode .faulted = { s with mode := .faulted, fault := some g }
    rw [← hf]; rfl

/-- Settles O11: the latch is `takeFault_eq`, the frame end `frameEnd_of_raise`; a raise before any other statement, and the
ends of a request and of a command, are the definitions of `Res.bind`, `endRequest` and `endCommand`. -/
theorem raisedFaultEndsTheOperation : Obligations.RaisedFaultEndsTheOperation :=
  fun f s => ⟨takeFault_eq f s, fun _ => rfl, rfl, rfl, fun _ h => frameEnd_of_raise h⟩

end Sys2Proof.Machine
end

section
/-! PROOFS of the encoding family, second part: decoding and encoding are each other's inverses (R118, R121, R122), and the
opcodes that nothing defines (R124, R125). -/

namespace Sys2Proof

open Sys2Proof.Machine Sys2Proof.Claims

/-! ## Decode and encode -/

/-- The opcode of an instruction selects its own row, whose fixed fields are as the encoder wrote them (R118, R122). -/
theorem decodeFields_encodeFields {i : Instr} (h : WellFormed i = true) : decodeFields (encodeFields i) = .ok i := by
  cases i with
  | mfetch a n | mread a n | mwrite a d n | minternal a n =>
    have hn : phasesOk n = true := h
    simp [decodeFields, encodeFields, checked, hn]
  | qtslin line cycle => simp [decodeFields, encodeFields, checked, argLine_join, argCycle_join]
  | hwrap e => cases e <;> rfl
  | _ => simp [decodeFields, encodeFields, checked]

/-- Settles O2: the fields of the encoding are those the instruction was packed from. -/
theorem decodeOfEncode : Obligations.DecodeOfEncode := by
  intro i h
  rw [decode, encode, fieldsOf_pack, decodeFields_encodeFields h]

/-- R122: a byte whose bits 7 to 1 are 0 is its bit 0. -/
theorem ite_bit_eq_of_high_zero {d : Byte} (h : d.extractLsb' 1 7 = 0) : (if d.getLsbD 0 then 1 else 0) = d := by
  revert d
  decide

/-- R121, R122: an accepted word holds nothing but its instruction. The opcode is that of the instruction, so each case has
one row of the decoder left, whose check says what the fields are. -/
theorem encodeFields_of_decodeFields {f : Fields} {i : Instr} (h : decodeFields f = .ok i) :
    WellFormed i = true ∧ encodeFields i = f := by
  have hop := decodeFields_op h
  obtain ⟨op, arg, a, d, n⟩ := f
  cases i with
  | mfetch a' n' | mread a' n' | minternal a' n' =>
    subst hop
    simp [decodeFields, encodeFields, checked_eq_ok] at h
    obtain ⟨⟨rfl, rfl⟩, hn, rfl, rfl⟩ := h
    exact ⟨hn, rfl⟩
  | mwrite a' d' n' =>
    subst hop
    simp [decodeFields, encodeFields, checked_eq_ok] at h
    obtain ⟨rfl, hn, rfl, rfl, rfl⟩ := h
    exact ⟨hn, rfl⟩
  | qtslin line cycle =>
    subst hop
    simp [decodeFields, encodeFields, checked_eq_ok] at h
    obtain ⟨⟨⟨rfl, rfl⟩, rfl⟩, rfl, rfl⟩ := h
    simp [WellFormed, encodeFields, join_argLine_argCycle]
  | hwrap e =>
    subst hop
    simp [decodeFields, encodeFields, checked_eq_ok] at h
    obtain ⟨⟨⟨⟨rfl, rfl⟩, rfl⟩, hd⟩, rfl⟩ := h
    simpa [WellFormed, encodeFields] using ite_bit_eq_of_high_zero hd
  | _ =>
    subst hop
    simp [decodeFields, encodeFields, checked_eq_ok] at h
    simp [WellFormed, encodeFields, h]

/-- Settles O3: the word is the packing of its fields, and these are the instruction's. -/
theorem acceptedWordIsItsEncoding : Obligations.AcceptedWordIsItsEncoding := by
  intro w i h
  obtain ⟨hwf, hf⟩ := encodeFields_of_decodeFields h
  exact ⟨hwf, by rw [encode, hf, pack_fieldsOf]⟩

/-! ## Written words -/

/-- Settles O1: each word is closed, so the decoder evaluates it. -/
theorem writtenWordsDecode : Obligations.WrittenWordsDecode := by
  unfold Obligations.WrittenWordsDecode
  decide

/-! ## Opcodes that nothing defines -/

/-- R124: the decoder knows the opcodes of the map alone. -/
theorem decodeFields_of_unlisted {f : Fields} (h : f.op ∉ mapOpcodes) : decodeFields f = .error .unknownOpcode := by
  simp only [mapOpcodes, List.mem_cons, List.not_mem_nil, or_false, not_or, BitVec.ofNat_eq_ofNat] at h
  simp [decodeFields, h]

/-- R125: no opcode of the map lies in the custom space. -/
theorem lt_of_mem_mapOpcodes {op : BitVec 8} (h : op ∈ mapOpcodes) : op.toNat < 0x80 := by
  revert op
  decide

theorem customBit_iff (op : BitVec 8) : op.getLsbD 7 = true ↔ 0x80 ≤ op.toNat := by
  revert op
  decide

namespace Machine

theorem customOf_of_low {w : CmdWord} (h : (fieldsOf w).op.toNat < 0x80) (s : State) : customOf w s = none := by
  rw [customOf, if_neg (by rw [customBit_iff]; omega)]

theorem customOf_of_undefined {w : CmdWord} {s : State} (h : customKind s.wrap (fieldsOf w).op = none) :
    customOf w s = none := by
  rw [customOf, h, ite_self]

/-- Settles O4: such a word is no custom command, and the decoder does not know its opcode. -/
theorem unlistedOpcodeIsUnknown : Obligations.UnlistedOpcodeIsUnknown := by
  rintro s x rest hin hmode (⟨hlow, hop⟩ | ⟨hhigh, hnone⟩)
  · exact step_of_decode_error hin hmode (customOf_of_low hlow s) (decodeFields_of_unlisted hop)
  · have hop : (fieldsOf x.word).op ∉ mapOpcodes := fun hmem => absurd (lt_of_mem_mapOpcodes hmem) (by omega)
    exact step_of_decode_error hin hmode (customOf_of_undefined hnone) (decodeFields_of_unlisted hop)

end Machine

end Sys2Proof
end

section
/-! PROOFS of what every step keeps, first part: memory and the locked paging register (R89, R97, R193), the rows of the video
cache (R248), and the shape of store, configuration and tables (R34, R39, R44, R321). -/

namespace Sys2Proof.Machine

open Sys2Proof.Claims

/-! ## Where nothing replaces the engine -/

/-- A property of the paging register and the page store alone, kept by paging writes and by the stores of `St`, is kept with the
absence of a replacement. -/
theorem stable_of_pagingPages {R : State → Prop} {St : Addr → Byte → Prop}
    (hext : ∀ {s t : State}, R s → t.paging = s.paging → t.pages = s.pages → R t) (hpaging : ∀ s v, R s → R (pagingWrite v s))
    (hstore : ∀ s a v, R s → St a v → writablePage s.P (s.pageOf a) = true →
      R (s.setPages (s.pages.write (s.addrKey a) v))) :
    Stable (fun s => R s ∧ noReplacement s) Mutation.LeavesEngine St := by
  constructor
  case paging =>
    intro s v h
    refine ⟨hpaging s v h.1, ?_⟩
    obtain ⟨q, e⟩ := pagingWrite_keeps v s
    rw [e]
    exact h.2
  case store => exact fun s a v h hs hw => ⟨hstore s a v h.1 hs hw, h.2⟩
  case pop =>
    intro s m rest ⟨hR, hn⟩ e
    exact ⟨hext hR rfl rfl, fun m' hm => hn m' (e ▸ List.mem_cons_of_mem m hm)⟩
  case popLoad =>
    intro s img rest ⟨_, hn⟩ e
    exact absurd rfl ((hn (.load img) (by simp [e])).1 img)
  case popSwitch =>
    intro s args rest ⟨_, hn⟩ e
    exact absurd rfl ((hn (.switch args) (by simp [e])).2 args)
  case defer =>
    intro s m ⟨hR, hn⟩ hm _
    refine ⟨hext hR rfl rfl, fun m' hm' => ?_⟩
    obtain h | rfl := List.mem_append.1 hm' |>.imp_right List.mem_singleton.1
    · exact hn m' h
    · exact hm
  case load => exact fun s img _ hm => absurd rfl (hm.1 img)
  case switch => exact fun s args _ hm => absurd rfl (hm.2 args)
  case devConflict | renderRows | clearLines => exact fun _ h => ⟨hext h.1 rfl rfl, h.2⟩
  all_goals exact fun _ _ h => ⟨hext h.1 rfl rfl, h.2⟩

/-- R193: the updates of a step keep a locked paging register. -/
theorem lockedPaging_stable {q : Byte} (hq : q.getLsbD 5 = true) :
    Stable (fun s => s.paging = some q ∧ noReplacement s) Mutation.LeavesEngine (fun _ _ => True) :=
  stable_of_pagingPages (fun h hp _ => hp.trans h) (fun s v h => by rw [pagingWrite_of_locked h hq]; exact h)
    (fun _ _ _ h _ _ => h)

/-- Settles O33: a paging write is ignored once the lock bit is set, and no other update writes the register. -/
theorem lockedPagingStays : Obligations.LockedPagingStays := by
  intro s t q hp hq hk e
  exact ((lockedPaging_stable hq).step ⟨hp, hk.1⟩ (fun _ _ _ hin hm => leavesEngine_of_issued hk hin hm)
    (fun _ _ _ _ _ _ _ => trivial) e).1

/-! ## Memory changes by stores alone -/

/-- Without a store and without a replacement of the engine the page store stays. -/
theorem pages_stable (m : Memory) :
    Stable (fun s => s.pages = m ∧ noReplacement s) Mutation.LeavesEngine (fun _ _ => False) :=
  stable_of_pagingPages (fun h _ hm => hm.trans h)
    (fun s v h => by obtain ⟨q, e⟩ := pagingWrite_keeps v s; rw [e]; exact h) (fun _ _ _ _ hs _ => absurd hs id)

theorem storeByte_deferred (a : Addr) (v : Byte) (tw : Nat) (s : State) : (storeByte a v tw s).deferred = s.deferred := by
  rcases storeByte_cases a v tw s with ⟨-, e⟩ | ⟨-, -, e⟩ | ⟨-, -, e⟩ <;> rw [e] <;> rfl

/-- R173: a store into a writable page writes the byte at its key, and any other store leaves the page store. -/
theorem storeByte_pages (a : Addr) (v : Byte) (tw : Nat) (s : State) :
    (storeByte a v tw s).pages = if writablePage s.P (s.pageOf a) then s.pages.write (s.addrKey a) v else s.pages := by
  rcases storeByte_cases a v tw s with ⟨hw, e⟩ | ⟨hw, -, e⟩ | ⟨hw, -, e⟩ <;> rw [e, hw] <;> rfl

theorem pages_of_sequencerStep {u t : State} {r : Response} {w n : Nat} (hn : noReplacement u)
    (e : endRequest (sequencerStep w n (respond r u)) = .next t) : t.pages = u.pages := by
  have S := pages_stable u.pages
  have h0 : (respond r u).pages = u.pages ∧ noReplacement (respond r u) := ⟨rfl, hn⟩
  exact (S.endRequest (S.sequencerStep h0 w n) e).1

/-- R173: an MWRITE changes the page store by its store alone, where nothing waits that replaces the engine. -/
theorem pages_of_mwrite {s t : State} {a : Addr} {d : Byte} {n : BitVec 8} (hn : noReplacement s)
    (e : exec (.mwrite a d n) s = .next t) :
    t.pages = s.pages ∨ writablePage s.P (s.pageOf a) = true ∧ t.pages = s.pages.write (s.addrKey a) d := by
  by_cases hts : s.ts < s.P.eof
  · rw [exec_mwrite hts] at e
    have hn' : noReplacement (storeByte a d (s.ts + s.memWait a s.ts) (intCheck s)) := by
      simpa [noReplacement, storeByte_deferred] using hn
    rw [pages_of_sequencerStep hn' e, storeByte_pages]
    simp only [State.P, intCheck_cfg, intCheck_pageOf, intCheck_pages, intCheck_addrKey]
    cases hw : writablePage s.cfg.params (s.pageOf a) with
    | true => exact .inr ⟨rfl, rfl⟩
    | false => exact .inl rfl
  · left
    rw [exec, execMwrite, endRequest_late _ (Nat.le_of_not_lt hts)] at e
    cases e
    rw [takeFault_eq]
    exact intCheck_pages s

/-- Every other word leaves the page store, where nothing replaces the engine. -/
theorem pages_of_step {s t : State} {x : Issue} {rest : List Issue} (hin : s.inbox = x :: rest) (hk : keepsEngine s)
    (hw : ∀ a d n, decode x.word ≠ .ok (.mwrite a d n)) (e : step s = .next t) : t.pages = s.pages := by
  refine ((pages_stable s.pages).step ⟨rfl, hk.1⟩ (fun _ _ _ hin hm => leavesEngine_of_issued hk hin hm) ?_ e).1
  intro y rest' a d n hy hd
  rw [hin] at hy
  cases hy
  exact hw a d n hd

/-- Settles O29: only an MWRITE changes the page store, and it writes one byte. -/
theorem onlyWritesChangeMemory : Obligations.OnlyWritesChangeMemory := by
  intro s t x rest key hin hwf hn hl hs e hne
  have hk : keepsEngine s := ⟨hn, fun y rest' hy => by rw [hin] at hy; cases hy; exact ⟨hl, hs⟩⟩
  by_cases hw : ∃ a d n, decode x.word = .ok (.mwrite a d n)
  · obtain ⟨a, d, n, hd⟩ := hw
    rcases step_cases hin with ⟨-, he⟩ | ⟨-, k, hc, -⟩ | ⟨-, -, r, hr, -⟩ | ⟨-, i, hi, ⟨-, he⟩ | ⟨-, he⟩⟩
    · rw [he] at e; cases e; exact absurd rfl hne
    · rw [customOf_of_decode hd] at hc; cases hc
    · rw [hd] at hr; cases hr
    · rw [hd] at hi; cases hi
      rw [he] at e
      rcases pages_of_mwrite (s := takeIssue x rest s) hn e with hp | ⟨hwr, hp⟩
      · rw [hp] at hne; exact absurd rfl hne
      · have hread := Memory.read_write (m := s.pages) hwf.1 (s.addrKey a) d key
        rw [hp] at hne ⊢
        by_cases hkey : key = s.addrKey a
        · exact ⟨a, d, n, hd, hkey.symm, hwr, hread.trans (if_pos hkey)⟩
        · exact absurd (hread.trans (if_neg hkey)) hne
    · rw [he] at e; cases e; exact absurd rfl hne
  · rw [pages_of_step hin hk (by simpa using hw) e] at hne
    exact absurd rfl hne

end Sys2Proof.Machine
end

section
/-! PROOFS of what every step keeps, second part: the rows of the video cache (R248), and the shape of store, configuration and
tables (R34, R39, R44, R321). -/

namespace Sys2Proof.Machine

open Sys2Proof.Claims

/-! ## Rows (R248) -/

theorem linePixels_eq_rowPixels (e : Engine) (y : Nat) (l : VLine) :
    linePixels e y l = rowPixels e.flashPhase e.wrap y l := rfl

/-- R246, R287: a row depends on the bytes of its line, on the enabled wrappers, and on the flash phase where a
colour byte of the line flashes. -/
theorem rowPixels_congr {phase phase' : Nat} {w w' : List WrapNode} {l l' : VLine} (y : Nat)
    (hw : wrapKey w = wrapKey w') (hl : lineBytes l = lineBytes l')
    (hp : phase = phase' ∨ l.cells.any (fun c => c.att.getLsbD 7) = false) :
    rowPixels phase w y l = rowPixels phase' w' y l' := by
  have hseen : ∀ b ∈ lineBytes l, seenPhase b.2 phase = seenPhase b.2 phase' := by
    rcases hp with rfl | hp
    · exact fun _ _ => rfl
    · intro b hb
      obtain ⟨c, hc, rfl⟩ := List.mem_map.1 hb
      have h7 : c.att.getLsbD 7 = false := by simpa using List.any_eq_false.1 hp c hc
      simp only [seenPhase, h7, Bool.false_eq_true, if_false]
  have hcells : l.cells.map (fun c => (c.bmp, c.att, seenPhase c.att phase)) =
      l'.cells.map (fun c => (c.bmp, c.att, seenPhase c.att phase')) := by
    calc l.cells.map (fun c => (c.bmp, c.att, seenPhase c.att phase))
      _ = (lineBytes l).map (fun b => (b.1, b.2, seenPhase b.2 phase)) := by rw [lineBytes, List.map_map]; rfl
      _ = (lineBytes l).map (fun b => (b.1, b.2, seenPhase b.2 phase')) :=
        List.map_congr_left fun b hb => by rw [hseen b hb]
      _ = _ := by rw [hl, lineBytes, List.map_map]; rfl
  refine congrArg List.flatten (mapFrom_congr _ _ _ _ (fun x c c' hc => ?_) 0 _ _ hcells)
  simp only [Prod.mk.injEq] at hc
  obtain ⟨hb, ha, hs⟩ := hc
  rw [ha] at hs
  simp only [hb, ha, hs, wrappedPixel_key w w' hw]

theorem rowTrue_fresh (e : Engine) (y : Nat) (l : VLine) :
    RowTrue y { bytes := lineBytes l, phase := e.flashPhase, wrap := wrapKey e.wrap, pixels := linePixels e y l } :=
  fun _ _ hw hl => rowPixels_congr y hw.symm hl.symm (.inl rfl)

/-- R248: everything that rendering a line can do. -/
theorem renderLine_cases (e : Engine) (y : Nat) (l : VLine) :
    (renderLine e y l).row = some
      { bytes := lineBytes l, phase := e.flashPhase, wrap := wrapKey e.wrap, pixels := linePixels e y l } ∨
    ∃ r, l.row = some r ∧ (renderLine e y l).row = some r ∧ r.bytes = lineBytes l ∧ r.wrap = wrapKey e.wrap ∧
      (r.phase = e.flashPhase ∨ l.cells.any (fun c => c.att.getLsbD 7) = false) := by
  unfold renderLine
  split
  · exact .inl rfl
  · next h =>
    right
    simp only [Bool.or_eq_true, not_or, Bool.not_eq_true, rowStale] at h
    obtain ⟨-, hs⟩ := h
    cases hr : l.row with
    | none => rw [hr] at hs; cases hs
    | some r =>
      rw [hr] at hs
      refine ⟨r, rfl, rfl, ?_⟩
      simpa [Classical.or_iff_not_imp_left, and_assoc] using hs

theorem renderLine_true {e : Engine} {y : Nat} {l : VLine} (h : ∀ r, l.row = some r → RowTrue y r) :
    ∀ r, (renderLine e y l).row = some r → RowTrue y r := by
  intro r hr
  rcases renderLine_cases e y l with hf | ⟨r', hl, hk, -⟩
  · rw [hf] at hr; cases hr; exact rowTrue_fresh e y l
  · rw [hk] at hr; cases hr; exact h r hl

/-- R248: a line shows what recomputing it would show. -/
theorem renderLine_pixels {e : Engine} {y : Nat} {l : VLine} (h : ∀ r, l.row = some r → RowTrue y r) :
    ((renderLine e y l).row.map (·.pixels)).getD [] = linePixels e y l := by
  rcases renderLine_cases e y l with hf | ⟨r, hl, hk, hb, hw, hp⟩
  · rw [hf]; rfl
  · rw [hk]
    calc r.pixels
      _ = rowPixels r.phase e.wrap y l := h r hl e.wrap l hw.symm hb.symm
      _ = linePixels e y l := rowPixels_congr y rfl rfl hp

/-- A map over lines that keeps true rows true keeps the whole cache true. -/
theorem rowsTrue_mapFrom {e : Engine} {g : Nat → VLine → VLine}
    (hg : ∀ y l, (∀ r, l.row = some r → RowTrue y r) → ∀ r, (g y l).row = some r → RowTrue y r) (h : RowsTrue e) :
    RowsTrue { e with vcache := mapFrom g 0 e.vcache } := by
  intro y l r hl hr
  have hl : (mapFrom g 0 e.vcache)[y]? = some l := hl
  rw [mapFrom_getElem?, Nat.zero_add, Option.map_eq_some_iff] at hl
  obtain ⟨l0, hl0, rfl⟩ := hl
  exact hg y l0 (fun r0 h0 => h y l0 r0 hl0 h0) r hr

theorem rowsTrue_renderRows {e : Engine} (h : RowsTrue e) :
    RowsTrue { e with vcache := mapFrom (renderLine e) 0 e.vcache } := rowsTrue_mapFrom (fun _ _ => renderLine_true) h

theorem rows_of_renderRows {e : Engine} (h : RowsTrue e) :
    (mapFrom (renderLine e) 0 e.vcache).map (fun l => (l.row.map (·.pixels)).getD []) =
      mapFrom (linePixels e) 0 e.vcache := by
  apply List.ext_getElem?
  intro y
  rw [List.getElem?_map, mapFrom_getElem?, mapFrom_getElem?, Option.map_map, Nat.zero_add]
  cases hl : e.vcache[y]? with
  | none => rfl
  | some l => exact congrArg some (renderLine_pixels fun r hr => h y l r hl hr)

theorem frameBuffer_renderRows {s : State} (h : RowsTrue s.toEngine) :
    (renderRows s).frameBuffer =
      pixelBuffer s.P s.geometry (mapFrom (linePixels s.toEngine) 0 s.vcache) s.borderAt := by
  rw [← rows_of_renderRows h]
  rfl

/-- A cache without rows has none that is false. -/
theorem rowsTrue_of_no_rows {e : Engine} (h : ∀ l ∈ e.vcache, l.row = none) : RowsTrue e := by
  intro y l r hl hr
  rw [h l (List.mem_of_getElem? hl)] at hr
  cases hr

theorem rowsTrue_construct (args : SwitchArgs) : RowsTrue (construct args) :=
  rowsTrue_of_no_rows fun _ hl => by rw [(List.mem_replicate.1 hl).2]

theorem rowsTrue_map {e : Engine} {g : VLine → VLine} (hg : ∀ l, (g l).row = l.row) (h : RowsTrue e) :
    RowsTrue { e with vcache := e.vcache.map g } := by
  intro y l r hl hr
  have hl : (e.vcache.map g)[y]? = some l := hl
  rw [List.getElem?_map, Option.map_eq_some_iff] at hl
  obtain ⟨l0, hl0, rfl⟩ := hl
  exact h y l0 r hl0 ((hg l0).symm.trans hr)

/-- R248: the updates of a step keep rows true, of the engine and of every image that waits, where only images with true
rows are loaded. -/
theorem rowsTrue_stable :
    Stable (fun s => EveryEngine RowsTrue s ∧ EverySwitch (fun _ => True) s)
      (fun m => ∀ img, m = .load img → RowsTrue img) (fun _ _ => True) := by
  apply everyEngine_stable
  case hext => intro e f _ _ _ hv h y l r hl; exact h y l r (hv ▸ hl)
  case hcatch => exact fun e t h => rowsTrue_mapFrom (fun _ _ h => h) h
  case hrender => exact fun e h => rowsTrue_renderRows h
  case hclear => exact fun e h => rowsTrue_map (fun _ => rfl) h
  case hpag => exact fun _ _ _ h _ => h
  case hstore => exact fun _ _ _ h => h
  case hload => exact fun _ img ok _ _ _ => ok img rfl
  case hk => exact fun _ _ => trivial
  case hcons => exact fun args _ => rowsTrue_construct args

/-- Settles O51: a line that is not recomputed has a row which is true and was rendered from what the line now shows. -/
theorem rowReuseIsInvisible : Obligations.RowReuseIsInvisible := by
  refine ⟨fun s h => ⟨rowsTrue_renderRows h, frameBuffer_renderRows h⟩, ⟨rowsTrue_construct _, ?_⟩, fun s t himg e h => ?_⟩
  · exact fun img hm => absurd hm (List.not_mem_nil)
  · refine (rowsTrue_stable.step ⟨h, fun _ _ => trivial⟩ ?_ (fun _ _ _ _ _ _ _ => trivial) e).1
    rintro x rest m hin hm img rfl
    exact himg x img (by simp [hin]) (hm.1 img rfl).2

/-! ## The shape of store, configuration and tables -/

/-- What every application of a waiting mutation keeps holds of the projected state (R271). -/
theorem projected_induct {R : State → Prop} {s : State} (h : R s)
    (hstep : ∀ m ∈ s.deferred, ∀ t, R t → R (applyMutation m t).state) : R (projected s) :=
  List.foldlRecOn s.deferred _ h fun t ht m hm => hstep m hm t ht

theorem pagesValid_iff {P : Params} {m : Memory} :
    pagesValid P m = true ↔ m.wf = true ∧ ∀ c ∈ m, (keyPage P c.1).isSome = true := by
  simp [pagesValid]

/-- The page store of a valid image (R281). -/
theorem pages_of_valid {img : Engine} {sp : State} (h : invalid (.load img) sp = none) : img.StoreOk ∧ img.CellsOk := by
  obtain ⟨-, -, -, -, hp, -⟩ := snapFailure_none (snapFailure_of_valid h)
  exact pagesValid_iff.1 hp

/-- The updates of a step keep the canonical form of the page store (R39). -/
theorem storeOk_stable :
    Stable (fun s => EveryEngine Engine.StoreOk s ∧ EverySwitch (fun _ => True) s) (fun _ => True) (fun _ _ => True) := by
  apply everyEngine_stable
  case hext => exact fun e f _ _ hp _ h => (congrArg Memory.wf hp).symm.trans h
  case hcatch => exact fun _ _ h => h
  case hrender | hclear => exact fun _ h => h
  case hpag => exact fun _ _ _ h _ => h
  case hstore => exact fun e a v h => Memory.write_wf h _ _
  case hload => exact fun _ _ _ _ _ hv => (pages_of_valid hv).1
  case hk => exact fun _ _ => trivial
  case hcons => exact fun args _ => Memory.ofCells_wf _

/-- R34, R193: what a paging write stores has bits 7:6 clear. -/
theorem pagingValid_masked {P : Params} {q : Byte} (h : pagingValid P (some q) = true) (v : Byte) :
    pagingValid P (some ((v.extractLsb' 0 6).setWidth 8)) = true := by
  have hbits : ∀ v : Byte, (((v.extractLsb' 0 6).setWidth 8).extractLsb' 6 2 == 0) = true := by decide
  simp only [pagingValid, Bool.and_eq_true] at h ⊢
  exact ⟨h.1, hbits v⟩

theorem vcacheValid_iff {P : Params} {v : List VLine} :
    vcacheValid P v = true ↔ v.length = P.contLines ∧ ∀ l ∈ v, l.cells.length = P.contCycles / 4 := by
  simp [vcacheValid]

/-- R44: a map over lines that keeps their length keeps the dimensions of the cache. -/
theorem vcacheValid_mapFrom {P : Params} {v : List VLine} {g : Nat → VLine → VLine}
    (hg : ∀ y l, (g y l).cells.length = l.cells.length) (h : vcacheValid P v = true) :
    vcacheValid P (mapFrom g 0 v) = true := by
  rw [vcacheValid, Bool.and_eq_true, mapFrom_length] at *
  exact ⟨h.1, mapFrom_all g 0 v _ _ (fun y l hl => by rwa [hg]) h.2⟩

theorem catchLine_cells_length (e : Engine) (t y : Nat) (l : VLine) :
    (catchLine e t y l).cells.length = l.cells.length := mapFrom_length ..

theorem renderLine_cells (e : Engine) (y : Nat) (l : VLine) : (renderLine e y l).cells = l.cells := by
  unfold renderLine
  split <;> rfl

theorem shapeOk_construct (args : SwitchArgs) : (construct args).ShapeOk := by
  constructor
  · show pagingValid args.params (if args.params.paging.isSome then some 0x00 else none) = true
    cases h : args.params.paging <;> simp [pagingValid, h]
  · refine vcacheValid_iff.2 ⟨List.length_replicate, fun l hl => ?_⟩
    rw [(List.mem_replicate.1 hl).2]
    exact List.length_replicate

/-- The updates of a step keep the shape of the paging register and of the video cache (R34, R44). -/
theorem shapeOk_stable :
    Stable (fun s => EveryEngine Engine.ShapeOk s ∧ EverySwitch (fun _ => True) s) (fun _ => True) (fun _ _ => True) := by
  apply everyEngine_stable
  case hext => exact fun e f hc hp _ hv h => by unfold Engine.ShapeOk; rwa [← hc, ← hp, ← hv]
  case hcatch => exact fun e t h => ⟨h.1, vcacheValid_mapFrom (catchLine_cells_length e t) h.2⟩
  case hrender => exact fun e h => ⟨h.1, vcacheValid_mapFrom (fun y l => by rw [renderLine_cells]) h.2⟩
  case hclear =>
    refine fun e h => ⟨h.1, ?_⟩
    obtain ⟨hlen, hcells⟩ := vcacheValid_iff.1 h.2
    refine vcacheValid_iff.2 ⟨by simpa using hlen, fun l hl => ?_⟩
    obtain ⟨l0, hl0, rfl⟩ := List.mem_map.1 hl
    simpa [clearLine] using hcells l0 hl0
  case hpag =>
    refine fun e q v h hq => ⟨?_, h.2⟩
    have h1 := h.1
    rw [hq] at h1
    exact pagingValid_masked h1 v
  case hstore => exact fun _ _ _ h => h
  case hload =>
    intro s img _ _ _ hv
    obtain ⟨-, -, -, -, -, hp, -, -, -, hvc, -⟩ := snapFailure_none (snapFailure_of_valid hv)
    exact ⟨hp, hvc⟩
  case hk => exact fun _ _ => trivial
  case hcons => exact fun args _ => shapeOk_construct args

/-! ## The configuration -/

theorem constructible_iff {args : SwitchArgs} : constructible args = true ↔ (construct args).CfgOk := by
  simp [constructible, Engine.CfgOk, construct]

/-- A mutation that does not replace the engine keeps its configuration. -/
theorem applyMutation_cfg {m : Mutation} (hm : m.LeavesEngine) (s : State) : (applyMutation m s).state.cfg = s.cfg := by
  cases m with
  | detach a =>
    show (detachDevice a s).state.cfg = _
    unfold detachDevice
    split
    · rfl
    · next n _ => cases fallEdges a s.ts (List.range n.nch) s.audio <;> rfl
  | page v =>
    show (pagingWrite v (catchUp s.ts s)).cfg = _
    obtain ⟨q, e⟩ := pagingWrite_keeps v (catchUp s.ts s)
    rw [e]; rfl
  | load img => exact absurd rfl (hm.1 img)
  | switch args => exact absurd rfl (hm.2 args)
  | _ => rfl

/-- A mutation replaces the engine by an image or by a construction, or it leaves it. -/
theorem Mutation.replaces_or_leaves (m : Mutation) :
    (∃ img, m = .load img) ∨ (∃ args, m = .switch args) ∨ m.LeavesEngine := by
  cases m with
  | load img => exact .inl ⟨img, rfl⟩
  | switch args => exact .inr (.inl ⟨args, rfl⟩)
  | _ => exact .inr (.inr ⟨by simp, by simp⟩)

/-- The projected state is configured as the engine, as an image that waits, or as a switch that waits (R271). -/
theorem projected_cfgOk {s : State} (h : EveryEngine Engine.CfgOk s) (hs : EverySwitch (fun a => constructible a = true) s) :
    (projected s).CfgOk := by
  refine projected_induct (R := fun t => t.CfgOk) h.1 fun m hm t ht => ?_
  rcases m.replaces_or_leaves with ⟨img, rfl⟩ | ⟨args, rfl⟩ | hl
  · exact h.2 img hm
  · exact constructible_iff.1 (hs args hm)
  · unfold Engine.CfgOk
    rwa [applyMutation_cfg hl]

theorem cfg_of_valid {img : Engine} {sp : State} (h : invalid (.load img) sp = none) : img.cfg = sp.cfg :=
  (snapFailure_none (snapFailure_of_valid h)).1

theorem cfgOk_of_valid {s : State} {img : Engine} (h : EveryEngine Engine.CfgOk s)
    (hs : EverySwitch (fun a => constructible a = true) s) (hv : invalid (.load img) (projected s) = none) : img.CfgOk := by
  have hp := projected_cfgOk h hs
  unfold Engine.CfgOk at hp ⊢
  rwa [cfg_of_valid hv]

/-- The updates of a step keep the configurations and the waiting switches well-formed (R14, R321). -/
theorem cfgOk_stable :
    Stable (fun s => EveryEngine Engine.CfgOk s ∧ EverySwitch (fun a => constructible a = true) s) (fun _ => True)
      (fun _ _ => True) := by
  apply everyEngine_stable
  case hext => exact fun e f hc _ _ _ h => by unfold Engine.CfgOk; rwa [← hc]
  case hcatch => exact fun _ _ h => h
  case hrender | hclear => exact fun _ h => h
  case hpag => exact fun _ _ _ h _ => h
  case hstore => exact fun _ _ _ h => h
  case hload => exact fun _ _ _ h hs hv => cfgOk_of_valid h hs hv
  case hk => exact fun _ h => h
  case hcons => exact fun _ h => constructible_iff.1 h

/-! ## Every cell lies in a page -/

/-- R14: what the memory map of a well-formed record rests on. -/
theorem map_of_wellFormed {P : Params} (hwf : P.wellFormed = true) :
    P.windowSize * P.nWindows = 65536 ∧ P.map.length = P.nWindows ∧ P.map.all P.selOk = true := by
  simp only [Params.wellFormed, Bool.and_eq_true, decide_eq_true_eq] at hwf
  tauto

/-- R14, R88: a selector has a page of PAGES for every value of the paging register. -/
theorem pageOk_pick {P : Params} {sel : PageSel} (h : P.selOk sel = true) (q : Byte) : P.pageOk (sel.pick q) = true := by
  simp only [Params.selOk, Bool.and_eq_true, decide_eq_true_eq, List.all_eq_true] at h
  obtain ⟨hlen, hall⟩ := h
  have hlt : q.toNat / 2 ^ sel.lo % 2 ^ sel.width < sel.pages.length := by
    rw [hlen]
    exact Nat.mod_lt _ (Nat.two_pow_pos _)
  rw [PageSel.pick, List.getD_eq_getElem _ _ hlt]
  exact hall _ (List.getElem_mem hlt)

theorem windowSize_pos {P : Params} (hwf : P.wellFormed = true) : 0 < P.windowSize := by
  obtain ⟨h, -, -⟩ := map_of_wellFormed hwf
  exact Nat.pos_of_mul_pos_right (by omega : 0 < P.windowSize * P.nWindows)

/-- R84: an address lies in a window of the map. -/
theorem winOf_lt {P : Params} (hwf : P.wellFormed = true) (a : Addr) : winOf P a < P.map.length := by
  obtain ⟨h, hlen, -⟩ := map_of_wellFormed hwf
  rw [hlen, winOf, Nat.div_lt_iff_lt_mul (windowSize_pos hwf), Nat.mul_comm, h]
  exact a.isLt

/-- R14, R86: the map names pages of PAGES. -/
theorem pageOk_mapPage {P : Params} (hwf : P.wellFormed = true) (q : Byte) (a : Addr) :
    P.pageOk (mapPage P q (winOf P a)) = true := by
  obtain ⟨-, -, hall⟩ := map_of_wellFormed hwf
  have hlt := winOf_lt hwf a
  rw [mapPage, List.getElem?_eq_getElem hlt]
  exact pageOk_pick (List.all_eq_true.1 hall _ (List.getElem_mem hlt)) q

/-- R284: a wrapper's override counts for a page of PAGES only. -/
theorem pageOk_wrapMapPage {P : Params} {wrap : List WrapNode} {q : Byte} {w id : Nat}
    (h : wrapMapPage P wrap q w = some id) : P.pageOk id = true := by
  obtain ⟨n, -, hn⟩ := List.exists_of_findSome?_eq_some h
  cases he : n.enabled with
  | true => rw [he, if_pos rfl, Option.filter_eq_some_iff] at hn; exact hn.2
  | false => rw [he] at hn; cases hn

/-- R14, R86: every address shows a page of PAGES. -/
theorem pageOk_pageOf {e : Engine} (hwf : e.cfg.params.wellFormed = true) (a : Addr) :
    e.cfg.params.pageOk (e.pageOf a) = true := by
  unfold Engine.pageOf Engine.page
  cases h : wrapMapPage e.cfg.params e.wrap e.pagingByte (winOf e.cfg.params a) with
  | none => exact pageOk_mapPage hwf _ a
  | some id => exact pageOk_wrapMapPage h

theorem offOf_lt {P : Params} (hwf : P.wellFormed = true) (a : Addr) : offOf P a < P.windowSize :=
  Nat.mod_lt _ (windowSize_pos hwf)

/-- R82: a key within a page lies in that page. -/
theorem keyPage_pageKey {P : Params} {id off : Nat} (h : off < P.windowSize) : keyPage P (pageKey P id off) = P.page? id := by
  rw [keyPage, pageKey, Nat.mul_comm, Nat.mul_add_div (by omega), Nat.div_eq_of_lt h, Nat.add_zero]

theorem keyPage_addrKey {e : Engine} (hwf : e.cfg.params.wellFormed = true) (a : Addr) :
    (keyPage e.cfg.params (e.addrKey a)).isSome = true := by
  have hok := pageOk_pageOf hwf a
  rw [Engine.addrKey, keyPage_pageKey (offOf_lt hwf a)]
  unfold Params.pageOk at hok
  cases hp : e.cfg.params.page? (e.pageOf a) with
  | none => rw [hp] at hok; cases hok
  | some d => rfl

/-- A write lists no cell but its own beside those listed. -/
theorem Memory.mem_write {m : Memory} {a : Nat} {v : Byte} {c : Host.Cell} (h : c ∈ m.write a v) : c.1 = a ∨ c ∈ m := by
  have hcell : ∀ c ∈ Memory.cell a v, c.1 = a := by
    unfold Memory.cell
    split <;> simp
  induction m with
  | nil => exact .inl (hcell c h)
  | cons d rest ih =>
    obtain ⟨k, b⟩ := d
    unfold Memory.write at h
    split at h
    · exact (List.mem_append.1 h).imp (hcell c) (List.mem_cons_of_mem _)
    · split at h
      · exact (List.mem_append.1 h).imp_left (hcell c)
      · obtain rfl | h := List.mem_cons.1 h
        · exact .inr List.mem_cons_self
        · exact (ih h).imp_right (List.mem_cons_of_mem _)

theorem Memory.mem_foldl_write {cells : List Host.Cell} {m : Memory} {c : Host.Cell}
    (h : c ∈ cells.foldl (fun m c => Memory.write m c.1 c.2) m) : (∃ d ∈ cells, d.1 = c.1) ∨ c ∈ m := by
  induction cells generalizing m with
  | nil => exact .inr h
  | cons d rest ih =>
    obtain ⟨d', hd, he⟩ | h := ih h
    · exact .inl ⟨d', List.mem_cons_of_mem _ hd, he⟩
    · exact (Memory.mem_write h).imp_left fun he => ⟨d, List.mem_cons_self, he.symm⟩

/-- R321: construction loads bytes of ROM and RAM pages only. -/
theorem cellsOk_construct (args : SwitchArgs) : (construct args).CellsOk := by
  intro c hc
  obtain ⟨d, hd, he⟩ | h := Memory.mem_foldl_write (m := []) hc
  · rw [← he]
    show (keyPage args.params d.1).isSome = true
    simp only [List.mem_append, List.mem_filter] at hd
    obtain ⟨-, h⟩ | ⟨-, h⟩ := hd <;> exact Option.isSome_of_any h
  · cases h

/-- The updates of a step keep every cell in a page (R39), where the configurations are well-formed. -/
theorem cellsOk_stable :
    Stable (fun s => EveryEngine (fun e => e.CfgOk ∧ e.CellsOk) s ∧ EverySwitch (fun a => constructible a = true) s)
      (fun _ => True) (fun _ _ => True) := by
  apply everyEngine_stable
  case hext =>
    intro e f hc _ hp _ h
    unfold Engine.CfgOk Engine.CellsOk
    rwa [← hc, ← hp]
  case hcatch => exact fun _ _ h => h
  case hrender | hclear => exact fun _ h => h
  case hpag => exact fun _ _ _ h _ => h
  case hstore =>
    refine fun e a v h => ⟨h.1, fun c hc => ?_⟩
    obtain hk | hc := Memory.mem_write hc
    · rw [hk]; exact keyPage_addrKey h.1.1 a
    · exact h.2 c hc
  case hload =>
    intro s img _ h hs hv
    exact ⟨cfgOk_of_valid ⟨h.1.1, fun i hi => (h.2 i hi).1⟩ hs hv, (pages_of_valid hv).2⟩
  case hk => exact fun _ h => h
  case hcons => exact fun args h => ⟨constructible_iff.1 h, cellsOk_construct args⟩

/-- Settles O55: each of the four is kept by the updates a step is made of. -/
theorem storeAndShapeKept : Obligations.StoreAndShapeKept := by
  intro s t e
  have every : ∀ {Q : Engine → Prop} {K : SwitchArgs → Prop},
      Stable (fun s => EveryEngine Q s ∧ EverySwitch K s) (fun _ => True) (fun _ _ => True) →
      EveryEngine Q s → EverySwitch K s → EveryEngine Q t ∧ EverySwitch K t := fun S h hk =>
    S.step ⟨h, hk⟩ (fun _ _ _ _ _ => trivial) (fun _ _ _ _ _ _ _ => trivial) e
  refine ⟨fun h => (every storeOk_stable h fun _ _ => trivial).1, fun h => every cfgOk_stable h.1 h.2,
    fun h => (every shapeOk_stable h fun _ _ => trivial).1, fun hcfg h => ?_⟩
  have hboth := (every cellsOk_stable ⟨⟨hcfg.1.1, h.1⟩, fun img hm => ⟨hcfg.1.2 img hm, h.2 img hm⟩⟩ hcfg.2).1
  exact ⟨hboth.1.2, fun img hm => (hboth.2 img hm).2⟩

end Sys2Proof.Machine
end

section
/-! SUPPORT for the step invariants and the clock: a bus request with its own wait and phases, what each phase leaves alone, and
what a step does with the word it takes. -/

namespace Sys2Proof.Machine

open Sys2Proof.Claims

/-! ## Bus requests with their wait and their phases -/

theorem Res.bind_ok_unit {σ : Type} (r : Res σ Unit) : (r.bind fun _ u => .ok () u) = r := by
  cases r <;> rfl

/-- R171 to R174, R186, R187, R226: a bus request raises E1 outside the frame, or makes its access with its wait and lasts its
phases. -/
theorem busRequest_phases {i : Instr} {s t : State} (hb : busRequest i = true) (e : exec i s = .next t) :
    (s.P.eof ≤ s.ts ∧ ∃ f, t = takeFault f (intCheck s)) ∨
      s.ts < s.P.eof ∧
        ∃ acc, Access s (requestWait i s) (requestPhases i) acc ∧ Finishes (requestWait i s) (requestPhases i) acc t := by
  by_cases hts : s.P.eof ≤ s.ts
  · refine .inl ⟨hts, ?_⟩
    cases i with
    | mfetch a n | mread a n | mwrite a d n | minternal a n | iord p | iowr p d =>
      exact ⟨_, Host.Outcome.next.inj (e.symm.trans (endRequest_late _ hts _))⟩
    | _ => cases hb
  · have hts := Nat.lt_of_not_le hts
    refine .inr ⟨hts, ?_⟩
    cases i with
    | mfetch a n => rw [exec_mfetch hts] at e; exact ⟨_, .none _, finishes_ok e⟩
    | mread a n => rw [exec_mread hts] at e; exact ⟨_, .none _, finishes_ok e⟩
    | mwrite a d n => rw [exec_mwrite hts] at e; exact ⟨_, .store a d _, finishes_ok e⟩
    | minternal a n => rw [exec_minternal hts] at e; exact ⟨_, .none _, finishes_ok e⟩
    | iord p => rw [exec_iord hts] at e; exact ⟨_, .read p, bind_finishes e⟩
    | iowr p d =>
      rw [exec_iowr hts] at e
      have hf := bind_finishes (resp := fun _ => .wait _) e
      rw [Res.bind_ok_unit] at hf
      exact ⟨_, .write p d, hf⟩
    | _ => cases hb

/-- R313: every other instruction is a query or a host command. -/
theorem exec_command {i : Instr} {s t : State} (hb : busRequest i = false) (e : exec i s = .next t) : CommandDoes i s t := by
  cases i with
  | mfetch a n | mread a n | mwrite a d n | minternal a n | iord p | iowr p d => cases hb
  | qtslin l c | qlints x | qtsabs x | qcont x | qcontio x p | qfloat x => exact query_does e
  | hdetach a | hpage v | hwrap b => exact mutation_does e (by simp) (by simp)
  | hlookup a | hflags | hsnapsave => cases e; exact .inl ⟨_, rfl⟩
  | hattach a pos =>
    cases ho : s.oob.device? with
    | some d => rw [exec, execHattach, ho] at e; exact mutation_does e (by simp) (by simp)
    | none => rw [exec, execHattach, ho] at e; cases e; exact .inl ⟨_, rfl⟩
  | hsnapload =>
    rw [exec, execHsnapload, loadCommand] at e
    cases ho : s.oob with
    | image img =>
      rw [ho] at e
      exact .inr (.inr (.inr ⟨_, e, fun x h => (by cases h; exact ⟨rfl, ho⟩), fun x h => by cases h⟩))
    | _ => rw [ho] at e; cases e; exact .inl ⟨_, rfl⟩
  | hrenderv =>
    rw [exec, execHrenderv] at e
    by_cases hts : s.P.eof ≤ s.ts
    · rw [renderMid_past hts] at e; cases e; exact .inr (.inl ⟨_, _, rfl⟩)
    · rw [renderMid_within (Nat.lt_of_not_le hts)] at e; cases e; exact .inr (.inr (.inl ⟨_, rfl⟩))
  | hswitch =>
    rw [exec, execHswitch] at e
    cases ho : s.oob with
    | model args =>
      rw [ho] at e
      exact .inr (.inr (.inr ⟨_, e, fun x h => (by cases h), fun x h => by cases h; exact ⟨rfl, ho⟩⟩))
    | _ => rw [ho] at e; cases e; exact .inl ⟨_, rfl⟩

/-! ## What the parts of a request and the mutations leave alone -/

/-- The fields that no access of a bus request and no application of a mutation changes, unless it replaces the engine. -/
structure ClockKept (s t : State) : Prop where
  ts : t.ts = s.ts
  cfg : t.cfg = s.cfg
  mode : t.mode = s.mode
  fault : t.fault = s.fault
  frame : t.frame = s.frame
  intDone : t.intDone = s.intDone
  atBoundary : t.atBoundary = s.atBoundary
  deferred : t.deferred = s.deferred
  args : t.args = s.args
  out : t.out = s.out

theorem ClockKept.refl (s : State) : ClockKept s s := ⟨rfl, rfl, rfl, rfl, rfl, rfl, rfl, rfl, rfl, rfl⟩

theorem ClockKept.trans {s t u : State} (h : ClockKept s t) (h' : ClockKept t u) : ClockKept s u :=
  ⟨h'.ts.trans h.ts, h'.cfg.trans h.cfg, h'.mode.trans h.mode, h'.fault.trans h.fault, h'.frame.trans h.frame,
    h'.intDone.trans h.intDone, h'.atBoundary.trans h.atBoundary, h'.deferred.trans h.deferred, h'.args.trans h.args,
    h'.out.trans h.out⟩

theorem WalkKeeps.clockKept {s t : State} (h : WalkKeeps s t) : ClockKept s t := by
  rw [h.state]
  exact ⟨rfl, rfl, rfl, rfl, rfl, rfl, rfl, rfl, rfl, rfl⟩

theorem setWrap_clockKept (s : State) (w : List WrapNode) : ClockKept s (s.setWrap w) :=
  ⟨rfl, rfl, rfl, rfl, rfl, rfl, rfl, rfl, rfl, rfl⟩

theorem chipsetWrite_clockKept (p : Addr) (v : Byte) (te : Nat) (s : State) : ClockKept s (chipsetWrite p v te s) := by
  obtain ⟨vc, q, evs, ear, mic, u, h⟩ := chipsetWrite_keeps p v te s
  rw [h]
  constructor <;> simp

theorem storeByte_clockKept (a : Addr) (v : Byte) (tw : Nat) (s : State) : ClockKept s (storeByte a v tw s) := by
  rcases storeByte_cases a v tw s with ⟨-, e⟩ | ⟨-, -, e⟩ | ⟨-, -, e⟩ <;> rw [e] <;>
    exact ⟨rfl, rfl, rfl, rfl, rfl, rfl, rfl, rfl, rfl, rfl⟩

theorem portRead_walk (p : Addr) (td : Nat) (s : State) : WalkKeeps s (portRead p td s).state := by
  unfold portRead
  split
  · exact .refl s
  · split
    · exact .refl s
    · exact Res.bind_state (WalkKeeps s) (chainRead_keeps p td s) fun _ _ _ h => h

/-- What a port write does before it is offered to the chain (R187, R285). -/
def decodersWrite (p : Addr) (v : Byte) (te : Nat) (s : State) : State :=
  if wrapTakesWrite s.wrap p then s.setWrap (wrapWriteAll p v te s.wrap) else chipsetWrite p v te s

theorem portWrite_eq (p : Addr) (v : Byte) (te : Nat) (s : State) :
    portWrite p v te s = chainWrite p v te (decodersWrite p v te s) := rfl

theorem decodersWrite_clockKept (p : Addr) (v : Byte) (te : Nat) (s : State) : ClockKept s (decodersWrite p v te s) := by
  unfold decodersWrite
  split
  · exact setWrap_clockKept ..
  · exact chipsetWrite_clockKept ..

theorem portWrite_clockKept (p : Addr) (v : Byte) (te : Nat) (s : State) : ClockKept s (portWrite p v te s).state :=
  (decodersWrite_clockKept p v te s).trans (chainWrite_keeps p v te _).clockKept

theorem Access.clockKept {s : State} {w n : Nat} {acc : Res State Unit} (h : Access s w n acc) :
    ClockKept (intCheck s) acc.state := by
  cases h with
  | none n => exact .refl _
  | store a d n => exact storeByte_clockKept ..
  | read p => exact Res.bind_state (ClockKept (intCheck s)) (portRead_walk p _ _).clockKept fun _ _ _ h => h
  | write p d => exact portWrite_clockKept ..

theorem detachDevice_state (h : Addr) (s : State) : ∃ chain audio,
    (detachDevice h s).state = (s.setAudio audio).setChain chain := by
  unfold detachDevice
  split
  · exact ⟨s.chain, s.audio, rfl⟩
  · next n _ =>
    cases fallEdges h s.ts (List.range n.nch) s.audio with
    | ok u a => exact ⟨_, _, rfl⟩
    | raised f a => exact ⟨s.chain, a, rfl⟩

theorem applyMutation_clockKept {m : Mutation} (hm : m.LeavesEngine) (s : State) :
    ClockKept s (applyMutation m s).state := by
  cases m with
  | detach a =>
    obtain ⟨chain, audio, e⟩ := detachDevice_state a s
    show ClockKept s (detachDevice a s).state
    rw [e]
    exact ⟨rfl, rfl, rfl, rfl, rfl, rfl, rfl, rfl, rfl, rfl⟩
  | page v =>
    obtain ⟨q, e⟩ := pagingWrite_keeps v (catchUp s.ts s)
    show ClockKept s (pagingWrite v (catchUp s.ts s))
    rw [e]
    exact ⟨rfl, rfl, rfl, rfl, rfl, rfl, rfl, rfl, rfl, rfl⟩
  | load img => exact absurd rfl (hm.1 img)
  | switch args => exact absurd rfl (hm.2 args)
  | attach | wrap | custom => exact ⟨rfl, rfl, rfl, rfl, rfl, rfl, rfl, rfl, rfl, rfl⟩

/-- R222 steps 4 to 6 keep what no engine update of theirs names; the clock wraps (R221). -/
theorem frameTail_clock (u : State) :
    let t := frameWrap (rollOver (renderFrame u))
    t.ts = u.ts - u.P.eof ∧ t.cfg = u.cfg ∧ t.mode = .running ∧ t.fault = u.fault ∧ t.frame = u.frame + 1 ∧
      t.intDone = false ∧ t.atBoundary = true ∧ t.deferred = u.deferred ∧ t.chain = u.chain ∧
      t.audio = u.audio.roll u.P u.frame.toNat ∧ t.borderEv = carryEvents u.P.eof u.borderEv := by
  rw [frameWrap_rollOver_renderFrame]
  simp

/-- R222 steps 1 and 2 change the mode, the interrupt mark and the outputs alone. -/
theorem finaliseInterrupt_clock (s : State) :
    let t := finaliseInterrupt s
    t.ts = s.ts ∧ t.cfg = s.cfg ∧ t.fault = s.fault ∧ t.frame = s.frame ∧ t.deferred = s.deferred ∧ t.chain = s.chain ∧
      t.audio = s.audio ∧ t.borderEv = s.borderEv := by
  rw [finaliseInterrupt_eq]
  simp

@[simp] theorem takeFault_deferred (f : FaultRec) (s : State) : (takeFault f s).deferred = s.deferred := by rw [takeFault_eq]
@[simp] theorem takeFault_chain (f : FaultRec) (s : State) : (takeFault f s).chain = s.chain := by rw [takeFault_eq]
@[simp] theorem takeFault_cfg (f : FaultRec) (s : State) : (takeFault f s).cfg = s.cfg := by rw [takeFault_eq]
@[simp] theorem takeFault_intDone (f : FaultRec) (s : State) : (takeFault f s).intDone = s.intDone := by rw [takeFault_eq]
@[simp] theorem takeFault_out (f : FaultRec) (s : State) : (takeFault f s).out = s.out := by rw [takeFault_eq]

@[simp] theorem deferredAfter_engine (m : Mutation) (s : State) : (deferredAfter m s).toEngine = s.toEngine := by
  unfold deferredAfter
  split <;> rfl

@[simp] theorem deferredAfter_out (m : Mutation) (s : State) : (deferredAfter m s).out = s.out := by
  unfold deferredAfter
  split <;> rfl

/-- R271, R283: only a switch that acts at once takes entries out of S.deferred. -/
theorem mem_of_mem_deferredAfter {m m' : Mutation} {s : State} (h : m' ∈ (deferredAfter m s).deferred) : m' ∈ s.deferred := by
  unfold deferredAfter at h
  split at h
  · exact absurd h List.not_mem_nil
  · exact h

/-! ## What a step does -/

/-- Everything a step can do with an issue `x` taken, `s'` being the state that takes it: respond only; where the mode is not
Faulted, perform a bus request, or take a fault or perform fetches and respond; or perform a host mutation, in mode Faulted a
switch alone. -/
theorem step_performs {s t : State} {x : Issue} {rest : List Issue} (hi : s.inbox = x :: rest) (e : step s = .next t) :
    let s' := takeIssue x rest s
    (∃ r, t = respond r s') ∨
    (s.mode ≠ .faulted ∧ ∃ i, decode x.word = .ok i ∧ busRequest i = true ∧ exec i s' = .next t) ∨
    (s.mode ≠ .faulted ∧ ((∃ f r, t = respond r (takeFault f s')) ∨ (∃ r, t = respond r (catchUp s'.ts s')))) ∨
    ∃ m, endCommand (hostMutation m s') = .next t ∧ (s.mode ≠ .faulted ∨ ∃ args, m = .switch args) ∧ Issued x m := by
  intro s'
  by_cases hf : s.mode = .faulted
  · obtain h | ⟨hm, -⟩ | ⟨hm, -⟩ | h := step_does hi e
    · exact .inl h
    · exact absurd hf hm
    · exact absurd hf hm
    · exact .inr (.inr (.inr h))
  rcases step_cases hi with ⟨-, he⟩ | ⟨-, k, -, ⟨-, he⟩ | ⟨-, he⟩⟩ | ⟨-, -, r, -, he⟩ | ⟨-, i, hd, ⟨-, he⟩ | ⟨-, he⟩⟩ <;>
    rw [he] at e
  · cases e; exact .inl ⟨_, rfl⟩
  · cases k with
    | reads => cases e; exact .inl ⟨_, rfl⟩
    | writes => exact .inr (.inr (.inr ⟨_, e, .inl hf, fun _ h => (by cases h), fun _ h => by cases h⟩))
  · cases e; exact .inl ⟨_, rfl⟩
  · cases e; exact .inl ⟨_, rfl⟩
  · cases hb : busRequest i with
    | true => exact .inr (.inl ⟨hf, i, hd, hb, e⟩)
    | false =>
      obtain ⟨r, h⟩ | h | h | ⟨m, h, hl, hw⟩ := exec_command hb e
      · exact .inl ⟨r, h⟩
      · exact .inr (.inr (.inl ⟨hf, .inl h⟩))
      · exact .inr (.inr (.inl ⟨hf, .inr h⟩))
      · refine .inr (.inr (.inr ⟨m, h, .inl hf, fun img hm => ?_, fun args hm => ?_⟩))
        · obtain ⟨rfl, ho⟩ := hl img hm; exact ⟨hd, ho⟩
        · obtain ⟨rfl, ho⟩ := hw args hm; exact ⟨hd, ho⟩
  · cases e; exact .inl ⟨_, rfl⟩

end Sys2Proof.Machine
end

section
/-! SUPPORT for the clock, the interrupt and the handles: how a bus request ends, and what a detach does. -/

namespace Sys2Proof.Machine

open Sys2Proof.Claims

/-! ## Handles -/

theorem handles_eq_of_fixed {a b : List Node} (h : a.map Node.fixed = b.map Node.fixed) : handles a = handles b := by
  have h1 := congrArg (List.map Prod.fst) h
  rwa [List.map_map, List.map_map] at h1

theorem WalkKeeps.handles {s t : State} (h : WalkKeeps s t) : handles t.chain = handles s.chain := handles_eq_of_fixed h.wiring

theorem decodersWrite_chain (p : Addr) (v : Byte) (te : Nat) (s : State) : (decodersWrite p v te s).chain = s.chain := by
  unfold decodersWrite
  split
  · rfl
  · obtain ⟨vc, q, evs, ear, mic, u, h⟩ := chipsetWrite_keeps p v te s
    rw [h]
    simp

/-- No access of a request changes which devices the chain holds (R198, R199). -/
theorem Access.fixed {s : State} {w n : Nat} {acc : Res State Unit} (h : Access s w n acc) :
    acc.state.chain.map Node.fixed = s.chain.map Node.fixed := by
  rw [← intCheck_chain s]
  cases h with
  | none n => rfl
  | store a d n =>
    rcases storeByte_cases a d (s.ts + w) (intCheck s) with ⟨-, e⟩ | ⟨-, -, e⟩ | ⟨-, -, e⟩ <;> rw [Res.state_ok, e] <;> rfl
  | read p =>
    exact Res.bind_state (fun u : State => u.chain.map Node.fixed = (intCheck s).chain.map Node.fixed)
      (portRead_walk p _ (intCheck s)).wiring fun _ _ _ h => h
  | write p d =>
    rw [← decodersWrite_chain p d (dataInstant s.P s.ts w) (intCheck s)]
    exact (chainWrite_keeps p d _ _).wiring

/-! ## Interrupt signals -/

/-- From `s` to `t` the interrupt was not signalled, or it was signalled once and marked (R218). -/
def Signals (s t : State) : Prop :=
  t.intDone = s.intDone ∧ interrupts t = interrupts s ∨
    s.intDone = false ∧ t.intDone = true ∧ interrupts t = interrupts s + 1

theorem Signals.trans {s t u : State} (h : Signals s t) (h' : Signals t u) : Signals s u := by
  unfold Signals at *
  rcases h with ⟨h1, h2⟩ | ⟨h1, h2, h3⟩ <;> rcases h' with ⟨h4, h5⟩ | ⟨h4, h5, h6⟩ <;> simp_all

/-- An update of neither the interrupt mark nor the signals. -/
theorem Signals.of_eq {s t : State} (hd : t.intDone = s.intDone) (ho : t.out = s.out) : Signals s t :=
  .inl ⟨hd, by rw [interrupts, interrupts, ho]⟩

theorem interrupts_respond (r : Response) (s : State) : interrupts (respond r s) = interrupts s := by
  simp [interrupts, List.count_append]

theorem signals_respond (r : Response) (s : State) : Signals s (respond r s) := .inl ⟨rfl, interrupts_respond r s⟩

theorem signals_takeFault (f : FaultRec) (s : State) : Signals s (takeFault f s) :=
  .of_eq (takeFault_intDone f s) (takeFault_out f s)

theorem ClockKept.signals {s t : State} (h : ClockKept s t) : Signals s t := .of_eq h.intDone h.out

theorem signals_intCheck (s : State) : Signals s (intCheck s) := by
  by_cases h : s.mode = .running ∧ s.intDone = false ∧ intTs s.cfg ≤ s.ts
  · rw [intCheck_due h]
    exact .inr ⟨h.2.1, rfl, by simp [interrupts, List.count_append]⟩
  · rw [intCheck_not_due h]
    exact .inl ⟨rfl, rfl⟩

/-- R222 step 2: after it the interrupt has been signalled in the frame. -/
theorem interrupts_finaliseInterrupt (s : State) :
    (finaliseInterrupt s).intDone = true ∧
      interrupts (finaliseInterrupt s) = interrupts s + if s.intDone then 0 else 1 := by
  rw [finaliseInterrupt_eq]
  cases h : s.intDone <;> simp [interrupts, List.count_append]

theorem signals_finaliseInterrupt (s : State) : Signals s (finaliseInterrupt s) := by
  obtain ⟨hd, ho⟩ := interrupts_finaliseInterrupt s
  cases h : s.intDone with
  | true => exact .inl ⟨hd.trans h.symm, by simpa [h] using ho⟩
  | false => exact .inr ⟨h, hd, by simpa [h] using ho⟩

/-! ## The frame end up to its device calls -/

/-- The state `v` in which the device calls of the frame end of `g` complete or raise (R222 steps 1 to 3). -/
structure Called (g v : State) : Prop where
  ts : v.ts = g.ts
  cfg : v.cfg = g.cfg
  fault : v.fault = g.fault
  frame : v.frame = g.frame
  deferred : v.deferred = g.deferred
  handles : handles v.chain = handles g.chain
  intDone : v.intDone = true
  interrupts : interrupts v = Claims.interrupts g + if g.intDone then 0 else 1

theorem boundaryCalls_called (g : State) : Called g (boundaryCalls (finaliseInterrupt g)).state := by
  have hw := boundaryCalls_keeps (finaliseInterrupt g)
  have hk := hw.clockKept
  obtain ⟨hts, hcfg, hfault, hframe, hdef, hchain, -, -⟩ := finaliseInterrupt_clock g
  obtain ⟨hdone, hint⟩ := interrupts_finaliseInterrupt g
  refine ⟨hk.ts.trans hts, hk.cfg.trans hcfg, hk.fault.trans hfault, hk.frame.trans hframe, hk.deferred.trans hdef,
    hw.handles.trans (congrArg _ hchain), hk.intDone.trans hdone, ?_⟩
  rw [interrupts, hk.out]
  exact hint

theorem Called.signals {g v : State} (h : Called g v) : Signals g v := by
  have hi := h.interrupts
  cases hd : g.intDone with
  | true => exact .inl ⟨h.intDone.trans hd.symm, by simpa [hd] using hi⟩
  | false => exact .inr ⟨hd, h.intDone, by simpa [hd] using hi⟩

/-! ## How a bus request ends -/

/-- Everything a bus request that starts in `s` can leave: a fault of its check, its access or the device calls of the frame end,
taken in `u`; or, after its access and its response, the clock moved on within the frame; or the frame wrapped and the deferred
mutations applied (R216, R222, R226, R296). -/
inductive RequestEnds (i : Instr) (s t : State) : Prop where
  | faulted (f : FaultRec) (u : State) (deferred : u.deferred = s.deferred) (frame : u.frame = s.frame)
      (handles : handles u.chain = handles s.chain) (signals : Signals s u) (eq : t = takeFault f u)
  | within (r : Response) (u : State) (kept : ClockKept (intCheck s) u) (handles : handles u.chain = handles s.chain)
      (start : s.ts < s.P.eof) (before : requestEnd i s < s.P.eof) (eq : t = (respond r u).setTs (requestEnd i s))
  | past (r : Response) (u v : State) (kept : ClockKept (intCheck s) u) (handles : handles u.chain = handles s.chain)
      (start : s.ts < s.P.eof) (after : s.P.eof ≤ requestEnd i s) (called : Called ((respond r u).setTs (requestEnd i s)) v)
      (eq : endRequest (applyAll v.deferred (frameWrap (rollOver (renderFrame v)))) = .next t)

theorem busRequest_ends {i : Instr} {s t : State} (hb : busRequest i = true) (e : exec i s = .next t) : RequestEnds i s t := by
  rcases busRequest_phases hb e with ⟨-, f, rfl⟩ | ⟨hts, acc, ha, hf⟩
  · exact .faulted f _ (intCheck_deferred s) (intCheck_frame s) (congrArg _ (intCheck_chain s)) (signals_intCheck s) rfl
  have hk := ha.clockKept
  have hh := handles_eq_of_fixed ha.fixed
  rcases hf with ⟨f, u, rfl, rfl⟩ | ⟨u, r, rfl, e⟩
  · exact .faulted f u (hk.deferred.trans (intCheck_deferred s)) (hk.frame.trans (intCheck_frame s)) hh
      ((signals_intCheck s).trans hk.signals) rfl
  rw [Res.state_ok] at hk hh
  have hcfg : u.cfg = s.cfg := hk.cfg.trans (intCheck_cfg s)
  have hend : (respond r u).ts + requestWait i s + requestPhases i = requestEnd i s := by
    rw [respond_ts, hk.ts, intCheck_ts, requestEnd]
  have heof : (respond r u).P.eof = s.P.eof := by rw [State.P, respond_cfg, hcfg]
  have hcalled := boundaryCalls_called ((respond r u).setTs (requestEnd i s))
  have hsig : Signals s ((respond r u).setTs (requestEnd i s)) :=
    ((signals_intCheck s).trans hk.signals).trans (signals_respond r u)
  rcases sequencer_cases e with ⟨hin, rfl⟩ | ⟨hpast, f, v, hb, rfl⟩ | ⟨hpast, v, hb, e⟩ <;> rw [hend, heof] at *
  · exact .within r u hk hh hts hin rfl
  · rw [hb, Res.state_raised] at hcalled
    exact .faulted f v (hcalled.deferred.trans (hk.deferred.trans (intCheck_deferred s)))
      (hcalled.frame.trans (hk.frame.trans (intCheck_frame s))) (hcalled.handles.trans hh) (hsig.trans hcalled.signals) rfl
  · rw [hb, Res.state_ok] at hcalled
    exact .past r u v hk hh hts hpast hcalled e

/-! ## A detach (R273) -/

section Detach

variable {h : Addr} {s : State} {n : Node}

theorem detachDevice_of_not_found (hf : s.chain.find? (fun n => n.id == h) = none) : detachDevice h s = .ok .unit s := by
  unfold detachDevice
  rw [hf]

theorem detachDevice_of_fall {a : Audio} (hf : s.chain.find? (fun n => n.id == h) = some n)
    (hr : fallEdges h s.ts (List.range n.nch) s.audio = .ok () a) :
    detachDevice h s =
      .ok (.device n.dev) ((s.setAudio (closeChannels h a)).setChain (s.chain.eraseP fun m => m.id == h)) := by
  unfold detachDevice
  rw [hf]
  dsimp only
  rw [hr]
  rfl

theorem detachDevice_of_raise {f : FaultRec} {a : Audio} (hf : s.chain.find? (fun n => n.id == h) = some n)
    (hr : fallEdges h s.ts (List.range n.nch) s.audio = .raised f a) : detachDevice h s = .raised f (s.setAudio a) := by
  unfold detachDevice
  rw [hf]
  dsimp only
  rw [hr]
  rfl

end Detach

theorem eraseP_of_not_found {chain : List Node} {h : Addr} (hf : chain.find? (fun n => n.id == h) = none) :
    chain.eraseP (fun n => n.id == h) = chain :=
  List.eraseP_of_forall_not (by simpa using hf)

/-- A detach that completes takes the node out; one that raises leaves the chain. -/
theorem detachDevice_chain (h : Addr) (s : State) :
    (∀ v u, detachDevice h s = .ok v u → u.chain = s.chain.eraseP fun n => n.id == h) ∧
      ∀ f u, detachDevice h s = .raised f u → u.chain = s.chain := by
  cases hf : s.chain.find? (fun n => n.id == h) with
  | none =>
    rw [detachDevice_of_not_found hf]
    exact ⟨fun v u e => by cases e; exact (eraseP_of_not_found hf).symm, fun f u e => by cases e⟩
  | some n =>
    cases hr : fallEdges h s.ts (List.range n.nch) s.audio with
    | ok a b =>
      rw [detachDevice_of_fall hf hr]
      exact ⟨fun v u e => by cases e; rfl, fun f u e => by cases e⟩
    | raised g b =>
      rw [detachDevice_of_raise hf hr]
      exact ⟨fun v u e => (by cases e), fun f u e => by cases e; rfl⟩

end Sys2Proof.Machine
end

section
/-! SUPPORT for the invariants that speak of instants (R43, R45, R200): an invariant with a bound is kept because each phase of a
step moves the bound on. -/

namespace Sys2Proof.Machine

open Sys2Proof.Claims

/-! ## Walks over the chain at one instant -/

/-- What a walk over the chain at instant `td` does: it keeps all but the devices; the audio state changes by edges of device calls
at `td`; and where it completes, every node is at `td`. -/
structure WalkedTo {α : Type} (td : Nat) (s : State) (r : Res State α) : Prop where
  keeps : WalkKeeps s r.state
  audio : ∀ A : Audio → Prop, (∀ P f id es a, A a → A (deviceEdges P f id td es a).state) → A s.audio → A r.state.audio
  last : ∀ v u, r = .ok v u → ∀ n ∈ u.chain, n.last = tickAt s.P s.frame td

section AudioOfCalls

variable {A : Audio → Prop} {td : Nat} (hA : ∀ P f id es a, A a → A (deviceEdges P f id td es a).state)
include hA

theorem settleReply_audio {α : Type} {a : Audio} (h : A a) (P : Params) (f : Tick) (n : Node) (r : DevReply α) :
    A (settleReply P f td n a r).state.2 := by
  have he := hA P f n.id r.edges a h
  unfold settleReply
  cases hd : deviceEdges P f n.id td r.edges a <;> rw [hd] at he <;> exact he

theorem syncNode_audio {a : Audio} (h : A a) (P : Params) (f : Tick) (n : Node) : A (syncNode P f td n a).state.2 := by
  unfold syncNode
  dsimp only
  split
  · exact h
  · split
    · exact h
    · exact Res.bind_state (fun c : NodeCtx => A c.2) (settleReply_audio hA h P f n _) fun _ _ _ hc => hc

theorem readNode_audio {a : Audio} (h : A a) (P : Params) (f : Tick) (p : Addr) (n : Node) :
    A (readNode P f p td n a).state.2 :=
  Res.bind_state (fun c : NodeCtx => A c.2) (syncNode_audio hA h P f n) fun _ _ _ hc => settleReply_audio hA hc ..

theorem writeNode_audio {a : Audio} (h : A a) (P : Params) (f : Tick) (p : Addr) (v : Byte) (n : Node) :
    A (writeNode P f p td v n a).state.2 :=
  Res.bind_state (fun c : NodeCtx => A c.2) (syncNode_audio hA h P f n) fun _ _ _ hc => settleReply_audio hA hc ..

theorem chainReadFrom_audio (p : Addr) (post pre : List Node) (r : Option Byte) (s : State) (h : A s.audio) :
    A (chainReadFrom p td pre post r s).state.audio := by
  induction post generalizing pre r s with
  | nil => exact h
  | cons n post ih =>
    have hn := readNode_audio hA h s.P s.frame p n
    unfold chainReadFrom
    cases hr : readNode s.P s.frame p td n s.audio with
    | raised f c => rw [hr] at hn; exact hn
    | ok v c =>
      rw [hr] at hn
      cases v with
      | none => exact ih _ _ _ hn
      | some b =>
        cases r with
        | none => exact ih _ _ _ hn
        | some b0 =>
          dsimp only
          unfold doubleClaim
          split
          · exact hn
          · exact ih _ _ _ hn

theorem chainWriteFrom_audio (p : Addr) (post pre : List Node) (v : Byte) (s : State) (h : A s.audio) :
    A (chainWriteFrom p td pre post v s).state.audio := by
  induction post generalizing pre v s with
  | nil => exact h
  | cons n post ih =>
    have hn := writeNode_audio hA h s.P s.frame p v n
    unfold chainWriteFrom
    cases hr : writeNode s.P s.frame p td v n s.audio <;> rw [hr] at hn
    · exact ih _ _ _ hn
    · exact hn

end AudioOfCalls

theorem boundaryNode_audio {A : Audio → Prop} {P : Params} (hA : ∀ P' f id es a, A a → A (deviceEdges P' f id P.eof es a).state)
    {a : Audio} (h : A a) (f : Tick) (n : Node) : A (boundaryNode P f n a).state.2 :=
  Res.bind_state (fun c : NodeCtx => A c.2) (syncNode_audio hA h P f n) fun _ _ _ hc => settleReply_audio hA hc ..

theorem boundaryFrom_audio {A : Audio → Prop} (post pre : List Node) (s : State)
    (hA : ∀ P f id es a, A a → A (deviceEdges P f id s.P.eof es a).state) (h : A s.audio) :
    A (boundaryFrom pre post s).state.audio := by
  induction post generalizing pre s with
  | nil => exact h
  | cons n post ih =>
    have hn := boundaryNode_audio hA h s.frame n
    unfold boundaryFrom
    cases hr : boundaryNode s.P s.frame n s.audio <;> rw [hr] at hn
    · exact ih _ (putNode ..) hA hn
    · exact hn

theorem chainRead_walkedTo (p : Addr) (td : Nat) (s : State) : WalkedTo td s (chainRead p td s) where
  keeps := chainRead_keeps p td s
  audio _ hA h := chainReadFrom_audio hA p s.chain [] none s h
  last _ _ h := chainReadFrom_last rfl rfl rfl (by simp) h

theorem chainWrite_walkedTo (p : Addr) (v : Byte) (te : Nat) (s : State) : WalkedTo te s (chainWrite p v te s) where
  keeps := chainWrite_keeps p v te s
  audio _ hA h := chainWriteFrom_audio hA p s.chain [] v s h
  last _ _ h := chainWriteFrom_last rfl rfl rfl (by simp) h

theorem boundaryCalls_walkedTo (s : State) : WalkedTo s.P.eof s (boundaryCalls s) where
  keeps := boundaryCalls_keeps s
  audio _ hA h := boundaryFrom_audio s.chain [] s hA h
  last _ _ h := boundaryFrom_last rfl rfl rfl (by simp) h

/-! ## Invariants and mutations -/

/-- `Q` is kept by the application of every mutation, at a boundary or at the frame end, also by one that raises. -/
def KeptByMutations (Q : Engine → Prop) : Prop :=
  ∀ (s : State) (m : Mutation), Q s.toEngine → (∀ img, m = .load img → Q img) →
    (∀ v u, applyMutation m s = .ok v u → Q u.toEngine) ∧
      ∀ f u, applyMutation m s = .raised f u → Q (takeFault f u).toEngine

namespace KeptByMutations

variable {Q : Engine → Prop} (K : KeptByMutations Q)
include K

theorem applyAll {l : List Mutation} {s t : State} (h : Q s.toEngine) (hload : ∀ img, Mutation.load img ∈ l → Q img)
    (e : endRequest (applyAll l s) = .next t) : EveryEngine Q t := by
  refine applyAll_induct (fun l s => Q s.toEngine ∧ ∀ img, Mutation.load img ∈ l → Q img) (EveryEngine Q) ?_ ?_ ?_ l s t
    ⟨h, hload⟩ e
  · exact fun s hs => ⟨hs.1, fun img hm => absurd hm List.not_mem_nil⟩
  · intro m rest s v u ⟨hs, hl⟩ hm
    obtain ⟨hok, -⟩ := K (s.setDeferred rest) m hs (fun img e => hl img (by simp [e]))
    exact ⟨hok v u hm, fun img hi => hl img (List.mem_cons_of_mem m hi)⟩
  · intro m rest s f u ⟨hs, hl⟩ hm
    obtain ⟨-, hraised⟩ := K (s.setDeferred rest) m hs (fun img e => hl img (by simp [e]))
    have hd := applyMutation_deferred m (s.setDeferred rest)
    rw [hm, Res.state_raised, setDeferred_deferred] at hd
    refine ⟨hraised f u hm, fun img hi => hl img (List.mem_cons_of_mem m ?_)⟩
    rwa [takeFault_deferred, hd] at hi

theorem hostMutation {s t : State} {m : Mutation} (h : EveryEngine Q s)
    (hload : ∀ img, m = .load img → invalid m (projected s) = none → Q img)
    (e : endCommand (hostMutation m s) = .next t) : EveryEngine Q t := by
  rcases hostMutation_cases e with ⟨r, rfl⟩ | ⟨hv, ⟨-, rfl⟩ | ⟨-, hact⟩⟩
  · exact h
  · refine ⟨h.1, fun img hi => ?_⟩
    rw [respond_deferred, setDeferred_deferred] at hi
    obtain hi | hi := List.mem_append.1 hi
    · exact h.2 img hi
    · exact hload img (List.mem_singleton.1 hi).symm hv
  · obtain ⟨hok, hraised⟩ := K (deferredAfter m s) m (by rw [deferredAfter_engine]; exact h.1)
      (fun img hm => hload img hm hv)
    have hd := applyMutation_deferred m (deferredAfter m s)
    rcases hact with ⟨v, u, hm, rfl⟩ | ⟨f, u, hm, rfl⟩ <;> rw [hm] at hd
    · exact ⟨hok v u hm, fun img hi => h.2 img (mem_of_mem_deferredAfter (hd ▸ hi))⟩
    · refine ⟨hraised f u hm, fun img hi => h.2 img (mem_of_mem_deferredAfter (m := m) ?_)⟩
      rw [respond_deferred, takeFault_deferred] at hi
      exact hd ▸ hi

end KeptByMutations

/-! ## Invariants with a bound -/

/-- `B` holds in every mode, and unless a fault is latched `W` holds with the horizon as its bound. -/
def InstantsOk (B : Engine → Prop) (W : Nat → Engine → Prop) (e : Engine) : Prop :=
  B e ∧ (e.mode ≠ .faulted → W e.horizon e)

/-- `B` and `W` speak of the queues, the border events and the chain; `W` has a bound that may grow; and each phase that changes
what they speak of keeps them, moving the bound on. -/
structure Instants (B : Engine → Prop) (W : Nat → Engine → Prop) : Prop where
  ext : ∀ {e f : Engine}, f.audio = e.audio → f.borderEv = e.borderEv → f.chain = e.chain → f.frame = e.frame →
    f.cfg = e.cfg → (B e → B f) ∧ ∀ {T}, W T e → W T f
  mono : ∀ {e : Engine} {T T' : Nat}, W T e → T ≤ T' → W T' e
  ula : ∀ {s : State} (v : Byte) {te : Nat}, B s.toEngine → W te s.toEngine →
    B (ulaWrite v te s).toEngine ∧ W te (ulaWrite v te s).toEngine
  walk : ∀ {α : Type} {td T : Nat} {s : State} {r : Res State α}, td ≤ T → B s.toEngine → W T s.toEngine → WalkedTo td s r →
    B r.state.toEngine ∧ ∀ v u, r = .ok v u → W T u.toEngine
  roll : ∀ {u : State} {T : Nat}, B u.toEngine → W T u.toEngine → u.P.eof ≤ T →
    (∀ n ∈ u.chain, n.last = tickAt u.P u.frame u.P.eof) →
    B (frameWrap (rollOver (renderFrame u))).toEngine ∧ W (T - u.P.eof) (frameWrap (rollOver (renderFrame u))).toEngine
  attach : ∀ {s : State} (h : Addr) (pos : BitVec 8) (impl : DevImpl), B s.toEngine →
    B (attachDevice h pos impl s).toEngine ∧ (W s.horizon s.toEngine → W s.horizon (attachDevice h pos impl s).toEngine)
  detach : ∀ {s : State} (h : Addr), B s.toEngine → B (detachDevice h s).state.toEngine ∧
    ∀ v u, detachDevice h s = .ok v u → W s.horizon s.toEngine → W s.horizon u.toEngine
  construct : ∀ args : SwitchArgs, B (construct args) ∧ W 0 (construct args)

namespace Instants

variable {B : Engine → Prop} {W : Nat → Engine → Prop} (H : Instants B W)

include H

theorem base_of_eq {e f : Engine} (h : B e) (ha : f.audio = e.audio) (hb : f.borderEv = e.borderEv)
    (hc : f.chain = e.chain) (hf : f.frame = e.frame) (hg : f.cfg = e.cfg) : B f :=
  (H.ext ha hb hc hf hg).1 h

theorem both_of_eq {e f : Engine} {T : Nat} (h : B e ∧ W T e) (ha : f.audio = e.audio) (hb : f.borderEv = e.borderEv)
    (hc : f.chain = e.chain) (hf : f.frame = e.frame) (hg : f.cfg = e.cfg) : B f ∧ W T f :=
  (H.ext ha hb hc hf hg).imp (· h.1) (· h.2)

/-- An update that changes neither what `B` and `W` speak of nor the clock and the mode. -/
theorem ok_of_eq {e f : Engine} (h : InstantsOk B W e) (ha : f.audio = e.audio) (hb : f.borderEv = e.borderEv)
    (hc : f.chain = e.chain) (hf : f.frame = e.frame) (hg : f.cfg = e.cfg) (ht : f.ts = e.ts) (hm : f.mode = e.mode) :
    InstantsOk B W f := by
  refine ⟨H.base_of_eq h.1 ha hb hc hf hg, fun hne => ?_⟩
  have hhor : f.horizon = e.horizon := by rw [Engine.horizon, Engine.horizon, hg, ht]
  rw [hhor]
  exact (H.both_of_eq ⟨h.1, h.2 (hm ▸ hne)⟩ ha hb hc hf hg).2

/-- In mode Faulted only `B` is asked for. -/
theorem fault {u : State} (h : B u.toEngine) (f : FaultRec) : InstantsOk B W (takeFault f u).toEngine := by
  rw [takeFault_eq]
  exact ⟨H.base_of_eq (e := u.toEngine) h rfl rfl rfl rfl rfl, fun hne => absurd rfl hne⟩

/-! ### The access -/

theorem check {s : State} {T : Nat} (h : B s.toEngine ∧ W T s.toEngine) :
    B (intCheck s).toEngine ∧ W T (intCheck s).toEngine :=
  H.both_of_eq h (intCheck_audio s) (intCheck_borderEv s) (intCheck_chain s) (intCheck_frame s) (intCheck_cfg s)

theorem chipset {s : State} {te : Nat} (h : B s.toEngine ∧ W te s.toEngine) (p : Addr) (v : Byte) :
    B (chipsetWrite p v te s).toEngine ∧ W te (chipsetWrite p v te s).toEngine := by
  have hula : B (if ulaSel p then ulaWrite v te s else s).toEngine ∧ W te (if ulaSel p then ulaWrite v te s else s).toEngine := by
    split
    · exact H.ula v h.1 h.2
    · exact h
  unfold chipsetWrite
  dsimp only
  generalize (if ulaSel p then ulaWrite v te s else s) = g at hula
  split
  · obtain ⟨q, e⟩ := pagingWrite_keeps v (catchUp te g)
    rw [e]
    exact H.both_of_eq (e := g.toEngine) hula rfl rfl rfl rfl rfl
  · exact hula

theorem decoders {s : State} {te : Nat} (h : B s.toEngine ∧ W te s.toEngine) (p : Addr) (v : Byte) :
    B (decodersWrite p v te s).toEngine ∧ W te (decodersWrite p v te s).toEngine := by
  unfold decodersWrite
  split
  · exact H.both_of_eq (e := s.toEngine) h rfl rfl rfl rfl rfl
  · exact H.chipset h p v

theorem store {s : State} {T : Nat} (h : B s.toEngine ∧ W T s.toEngine) (a : Addr) (v : Byte) (tw : Nat) :
    B (storeByte a v tw s).toEngine ∧ W T (storeByte a v tw s).toEngine := by
  rcases storeByte_cases a v tw s with ⟨-, e⟩ | ⟨-, -, e⟩ | ⟨-, -, e⟩ <;> rw [e]
  · exact h
  · exact H.both_of_eq (e := s.toEngine) h rfl rfl rfl rfl rfl
  · exact H.both_of_eq (e := s.toEngine) h rfl rfl rfl rfl rfl

theorem read {s : State} {td T : Nat} (hT : td ≤ T) (h : B s.toEngine ∧ W T s.toEngine) (p : Addr) :
    B (portRead p td s).state.toEngine ∧ ∀ v u, portRead p td s = .ok v u → W T u.toEngine := by
  unfold portRead
  split
  · exact ⟨h.1, fun _ _ e => by cases e; exact h.2⟩
  · split
    · exact ⟨h.1, fun _ _ e => by cases e; exact h.2⟩
    · obtain ⟨hB, hok⟩ := H.walk hT h.1 h.2 (chainRead_walkedTo p td s)
      cases hr : chainRead p td s with
      | raised f u => rw [hr] at hB; exact ⟨hB, fun _ _ e => by cases e⟩
      | ok r u => rw [hr] at hB; exact ⟨hB, fun _ _ e => by cases e; exact hok _ _ hr⟩

/-- After the access of a request the bound is the horizon that the request will have reached. -/
theorem access {s : State} {w n : Nat} {acc : Res State Unit} (h : B s.toEngine ∧ W s.horizon s.toEngine)
    (ha : Access s w n acc) : B acc.state.toEngine ∧
      ∀ u, acc = .ok () u → W (s.ts + w + n + (s.P.ioDataOffset - 4)) u.toEngine := by
  have hhor : s.horizon = s.ts + (s.P.ioDataOffset - 4) := rfl
  have h0 := H.check ⟨h.1, H.mono h.2 (by omega : s.horizon ≤ s.ts + w + n + (s.P.ioDataOffset - 4))⟩
  cases ha with
  | none n => exact ⟨h0.1, fun u e => by cases e; exact h0.2⟩
  | store a d n =>
    have hs := H.store h0 a d (s.ts + w)
    exact ⟨hs.1, fun u e => by cases e; exact hs.2⟩
  | read p =>
    have hT : dataInstant s.P s.ts w ≤ s.ts + w + 4 + (s.P.ioDataOffset - 4) := by unfold dataInstant; omega
    obtain ⟨hB, hok⟩ := H.read hT h0 p
    cases hr : portRead p (dataInstant s.P s.ts w) (intCheck s) with
    | raised f u => rw [hr] at hB; exact ⟨hB, fun _ e => by cases e⟩
    | ok v u => rw [hr] at hB; exact ⟨hB, fun _ e => by cases e; exact hok _ _ hr⟩
  | write p d =>
    have hte : s.horizon ≤ dataInstant s.P s.ts w := by unfold dataInstant; omega
    have hT : dataInstant s.P s.ts w ≤ s.ts + w + 4 + (s.P.ioDataOffset - 4) := by unfold dataInstant; omega
    have hd := H.decoders (H.check ⟨h.1, H.mono h.2 hte⟩) p d
    obtain ⟨hB, hok⟩ := H.walk (Nat.le_refl _) hd.1 hd.2 (chainWrite_walkedTo p d _ _)
    exact ⟨hB, fun u e => H.mono (hok () u e) hT⟩

/-! ### Mutations -/

/-- The application of a mutation, at a boundary or at the frame end. -/
theorem apply {s : State} {m : Mutation} (h : InstantsOk B W s.toEngine) (hload : ∀ img, m = .load img → InstantsOk B W img) :
    (∀ v u, applyMutation m s = .ok v u → InstantsOk B W u.toEngine) ∧
      ∀ f u, applyMutation m s = .raised f u → InstantsOk B W (takeFault f u).toEngine := by
  cases m with
  | attach a pos impl =>
    obtain ⟨hB, hW⟩ := H.attach a pos impl h.1
    exact ⟨fun v u e => by cases e; exact ⟨hB, fun hne => hW (h.2 hne)⟩, fun f u e => by cases e⟩
  | detach a =>
    obtain ⟨hB, hW⟩ := H.detach a h.1
    have hk : ClockKept s (detachDevice a s).state := applyMutation_clockKept (m := .detach a) ⟨by simp, by simp⟩ s
    constructor <;> intro x u e
    · have e : detachDevice a s = .ok x u := e
      rw [e, Res.state_ok] at hB hk
      refine ⟨hB, fun hne => ?_⟩
      have hhor : u.horizon = s.horizon := by rw [Engine.horizon, Engine.horizon, hk.ts, hk.cfg]
      rw [hhor]
      exact hW x u e (h.2 (by rw [← hk.mode]; exact hne))
    · have e : detachDevice a s = .raised x u := e
      rw [e, Res.state_raised] at hB
      exact H.fault hB x
  | page v =>
    refine ⟨fun _ u e => ?_, fun f u e => by cases e⟩
    cases e
    obtain ⟨q, e⟩ := pagingWrite_keeps v (catchUp s.ts s)
    rw [e]
    exact H.ok_of_eq (e := s.toEngine) h rfl rfl rfl rfl rfl rfl rfl
  | load img =>
    exact ⟨fun v u e => by cases e; exact H.ok_of_eq (e := img) (hload img rfl) rfl rfl rfl rfl rfl rfl rfl,
      fun f u e => by cases e⟩
  | switch args =>
    obtain ⟨hB, hW⟩ := H.construct args
    exact ⟨fun v u e => by cases e; exact ⟨hB, fun _ => H.mono hW (Nat.zero_le _)⟩, fun f u e => by cases e⟩
  | wrap | custom =>
    exact ⟨fun v u e => by cases e; exact H.ok_of_eq (e := s.toEngine) h rfl rfl rfl rfl rfl rfl rfl, fun f u e => by cases e⟩

theorem keptByMutations : KeptByMutations (InstantsOk B W) := fun _ _ h hload => H.apply h hload

/-! ### The frame end -/

theorem frameEnded {g t : State} (h : B g.toEngine ∧ W g.horizon g.toEngine) (hpast : g.P.eof ≤ g.ts)
    (hload : ∀ img, Mutation.load img ∈ g.deferred → InstantsOk B W img) (e : endRequest (frameEnd g) = .next t) :
    EveryEngine (InstantsOk B W) t := by
  obtain ⟨hts, hcfg, -, hframe, hdef, hchain, haudio, hborder⟩ := finaliseInterrupt_clock g
  have hf := H.both_of_eq (f := (finaliseInterrupt g).toEngine) h haudio hborder hchain hframe hcfg
  have hwalk := boundaryCalls_walkedTo (finaliseInterrupt g)
  have hhor : g.horizon = g.ts + (g.P.ioDataOffset - 4) := rfl
  have heof : (finaliseInterrupt g).P.eof = g.P.eof := by rw [State.P, hcfg]
  obtain ⟨hB, hok⟩ := H.walk (T := g.horizon) (by rw [heof]; omega) hf.1 hf.2 hwalk
  have hkept := hwalk.keeps.clockKept
  cases hb : boundaryCalls (finaliseInterrupt g) with
  | raised f v =>
    rw [frameEnd_of_raise hb] at e
    cases e
    rw [hb, Res.state_raised] at hB hkept
    refine ⟨H.fault hB f, fun img hi => hload img ?_⟩
    rwa [takeFault_deferred, hkept.deferred, hdef] at hi
  | ok x v =>
    rw [frameEnd_of_calls hb] at e
    rw [hb, Res.state_ok] at hB hkept
    have hvcfg : v.cfg = g.cfg := hkept.cfg.trans hcfg
    have hlast : ∀ n ∈ v.chain, n.last = tickAt v.P v.frame v.P.eof := by
      have hl := hwalk.last x v hb
      rwa [heof, State.P, hcfg, hframe, ← hframe, ← hkept.frame, ← hvcfg, State.P, ← hvcfg] at hl
    have hvP : v.P = g.P := congrArg EngineCfg.params hvcfg
    obtain ⟨hrB, hrW⟩ := H.roll hB (hok x v hb) (by rw [hvP]; omega) hlast
    obtain ⟨htts, htcfg, -⟩ := frameTail_clock v
    refine H.keptByMutations.applyAll ⟨hrB, fun _ => ?_⟩ (fun img hi => hload img ?_) e
    · have hthor : (frameWrap (rollOver (renderFrame v))).horizon = g.horizon - v.P.eof := by
        rw [Engine.horizon, htts, htcfg, hkept.ts, hts, hvcfg, hvP, hhor]
        simp only [State.P] at hpast ⊢
        omega
      rw [hthor]
      exact hrW
    · rwa [hkept.deferred, hdef] at hi

/-- The sequencer step of a request, from the bound that its access leaves. -/
theorem sequencer {u t : State} {w n : Nat} (h : B u.toEngine ∧ W (u.ts + w + n + (u.P.ioDataOffset - 4)) u.toEngine)
    (hload : ∀ img, Mutation.load img ∈ u.deferred → InstantsOk B W img)
    (e : endRequest (sequencerStep w n u) = .next t) : EveryEngine (InstantsOk B W) t := by
  have hset := H.both_of_eq (f := (u.setTs (u.ts + w + n)).toEngine) h rfl rfl rfl rfl rfl
  by_cases hend : u.ts + w + n < u.P.eof
  · rw [sequencerStep_within hend] at e
    cases e
    exact ⟨⟨hset.1, fun _ => hset.2⟩, hload⟩
  · have hend := Nat.le_of_not_lt hend
    rw [sequencerStep_past hend] at e
    exact H.frameEnded (g := u.setTs (u.ts + w + n)) hset hend hload e

/-! ### Steps -/

theorem request {i : Instr} {s t : State} (hb : busRequest i = true) (hm : s.mode ≠ .faulted)
    (h : EveryEngine (InstantsOk B W) s) (e : exec i s = .next t) : EveryEngine (InstantsOk B W) t := by
  obtain ⟨⟨hB, hW⟩, himg⟩ := h
  rcases busRequest_phases hb e with ⟨-, f, rfl⟩ | ⟨-, acc, ha, hf⟩
  · refine ⟨H.fault (H.check ⟨hB, hW hm⟩).1 f, fun img hi => himg img ?_⟩
    rwa [takeFault_deferred, intCheck_deferred] at hi
  obtain ⟨hBacc, hWacc⟩ := H.access ⟨hB, hW hm⟩ ha
  have hk := ha.clockKept
  rcases hf with ⟨f, u, rfl, rfl⟩ | ⟨u, r, rfl, e⟩
  · rw [Res.state_raised] at hk
    refine ⟨H.fault hBacc f, fun img hi => himg img ?_⟩
    rwa [takeFault_deferred, hk.deferred, intCheck_deferred] at hi
  · rw [Res.state_ok] at hk
    have hts : u.ts = s.ts := hk.ts.trans (intCheck_ts s)
    have hP : u.P = s.P := congrArg EngineCfg.params (hk.cfg.trans (intCheck_cfg s))
    refine H.sequencer (u := respond r u) ⟨hBacc, ?_⟩ (fun img hi => himg img ?_) e
    · show W (u.ts + requestWait i s + requestPhases i + (u.P.ioDataOffset - 4)) u.toEngine
      rw [hts, hP]
      exact hWacc u rfl
    · rwa [respond_deferred, hk.deferred, intCheck_deferred] at hi

/-- Every step, where each image that is loaded meets the invariant. -/
theorem step {s t : State} (himg : ∀ x img sp, x ∈ s.inbox → x.oob = .image img → invalid (.load img) sp = none →
    InstantsOk B W img) (e : step s = .next t) (h : EveryEngine (InstantsOk B W) s) : EveryEngine (InstantsOk B W) t := by
  cases hi : s.inbox with
  | nil =>
    unfold Machine.step at e
    rw [hi] at e
    cases e
    exact h
  | cons x rest =>
    have h' : EveryEngine (InstantsOk B W) (takeIssue x rest s) := h
    obtain ⟨r, rfl⟩ | ⟨hm, i, -, hb, e⟩ | ⟨-, ⟨f, r, rfl⟩ | ⟨r, rfl⟩⟩ | ⟨m, e, -, hiss⟩ := step_performs hi e
    · exact h'
    · exact H.request (s := takeIssue x rest s) hb hm h' e
    · refine ⟨H.fault h'.1.1 f, fun img hi => h'.2 img ?_⟩
      rwa [respond_deferred, takeFault_deferred] at hi
    · exact ⟨H.ok_of_eq (e := s.toEngine) h.1 rfl rfl rfl rfl rfl rfl rfl, h'.2⟩
    · exact H.keptByMutations.hostMutation h' (fun img hm hv => himg x img _ (by simp [hi]) (hiss.1 img hm).2 (hm ▸ hv)) e

end Instants

end Sys2Proof.Machine
end

section
/-! PROOFS of what every step keeps, third part: the audio queues (R258, R263). -/

namespace Sys2Proof.Machine

open Sys2Proof.Claims

/-! ## Ordered instants of an image (R281) -/

theorem orderedUpTo_iff {last : Nat} {l : List Nat} :
    orderedUpTo last l = true ↔ l.Pairwise (· ≤ ·) ∧ ∀ t ∈ l, t ≤ last := by
  induction l with
  | nil => simp [orderedUpTo]
  | cons t l ih =>
    cases l with
    | nil => simp [orderedUpTo]
    | cons u rest =>
      simp only [orderedUpTo, Bool.and_eq_true, decide_eq_true_eq, ih]
      constructor
      · rintro ⟨htu, hp, hle⟩
        have hu : ∀ x ∈ u :: rest, t ≤ x := by
          intro x hx
          rcases List.mem_cons.1 hx with rfl | hx
          · exact htu
          · exact htu.trans ((List.pairwise_cons.1 hp).1 x hx)
        refine ⟨List.pairwise_cons.2 ⟨hu, hp⟩, fun x hx => ?_⟩
        rcases List.mem_cons.1 hx with rfl | hx
        · exact htu.trans (hle u List.mem_cons_self)
        · exact hle x hx
      · rintro ⟨hp, hle⟩
        obtain ⟨hhead, htail⟩ := List.pairwise_cons.1 hp
        exact ⟨hhead u List.mem_cons_self, htail, fun x hx => hle x (List.mem_cons_of_mem t hx)⟩

/-- The events and edges of a valid image, over plain lists (R281). -/
theorem eventsValid_iff {img : Engine} : eventsValid img = true ↔
    (img.borderEv.Pairwise (fun a b => a.t ≤ b.t) ∧ ∀ ev ∈ img.borderEv, ev.t ≤ img.ts) ∧
      ∀ sc ∈ img.audio.sources, sc.2.Ordered ∧ sc.2.UpTo img.ts := by
  simp only [eventsValid, Bool.and_eq_true, List.all_eq_true, orderedUpTo_iff, List.pairwise_map, List.forall_mem_map]
  rfl

/-! ## One queue -/

/-- A queue in order that balances (R45, R263). -/
def Channel.Good (c : Channel) : Prop := c.Ordered ∧ c.balanced = true

theorem Channel.balanced_iff {c : Channel} : c.balanced = true ↔ c.endLevel = (c.level : Rat) := decide_eq_true_iff

theorem Channel.push_same {c : Channel} {level : Nat} (h : level = c.level) (t : Nat) : c.push t level = c := if_pos h

theorem Channel.push_change {c : Channel} {level : Nat} (h : level ≠ c.level) (t : Nat) :
    c.push t level = { c with edges := c.edges ++ [{ t := t, level := level }], level := level } := if_neg h

/-- R258: an edge at or after every entry keeps the queue good. -/
theorem Channel.Good.push {c : Channel} (h : c.Good) {t : Nat} (ht : c.UpTo t) (level : Nat) : (c.push t level).Good := by
  by_cases hl : level = c.level
  · rwa [push_same hl]
  · rw [push_change hl]
    refine ⟨?_, ?_⟩
    · refine List.pairwise_append.2 ⟨h.1, List.pairwise_singleton _ _, fun a ha b hb => ?_⟩
      rw [List.mem_singleton.1 hb]
      exact ht a ha
    · rw [balanced_iff, Channel.endLevel, List.getLast?_append]
      rfl

theorem Channel.UpTo.push {c : Channel} {T t : Nat} (h : c.UpTo T) (ht : t ≤ T) (level : Nat) : (c.push t level).UpTo T := by
  by_cases hl : level = c.level
  · rwa [push_same hl]
  · rw [push_change hl]
    intro e he
    obtain he | he := List.mem_append.1 he
    · exact h e he
    · rw [List.mem_singleton.1 he]
      exact ht

/-- In an ordered queue no entry lies after the last. -/
theorem Channel.Ordered.upTo_of_last {c : Channel} (h : c.Ordered) {t : Nat}
    (hl : ∀ e, c.edges.getLast? = some e → e.t ≤ t) : c.UpTo t := by
  intro e he
  obtain ⟨pre, last, hpre⟩ : ∃ pre last, c.edges = pre ++ [last] :=
    ⟨_, _, (List.dropLast_append_getLast (List.ne_nil_of_mem he)).symm⟩
  have hlast := hl last (by rw [hpre, List.getLast?_concat])
  rw [Channel.Ordered, hpre, List.pairwise_append] at h
  rw [hpre] at he
  obtain he | he := List.mem_append.1 he
  · exact (h.2.2 e he last (List.mem_singleton_self _)).trans hlast
  · rw [List.mem_singleton.1 he]
    exact hlast

section BrokenBound

variable {c : Channel} {t : Int} {tnow : Nat}

theorem Channel.brokenBound_of_neg (h : t < 0) : c.brokenBound t tnow = some (.notBefore 0) := if_pos h

theorem Channel.brokenBound_of_before (h0 : 0 ≤ t) {e : Edge} (hl : c.edges.getLast? = some e) (he : t < (e.t : Int)) :
    c.brokenBound t tnow = some (.notBefore e.t) := by
  rw [brokenBound, if_neg (Int.not_lt.2 h0), hl, Option.filter_some, if_pos (decide_eq_true he)]

theorem Channel.brokenBound_of_inOrder (h0 : 0 ≤ t) (hl : ∀ e, c.edges.getLast? = some e → (e.t : Int) ≤ t) :
    c.brokenBound t tnow = if (tnow : Int) < t then some (.notAfter tnow) else none := by
  have hfilter : c.edges.getLast?.filter (fun e => decide (t < (e.t : Int))) = none := by
    rw [Option.filter_eq_none_iff]
    exact fun e he => by simpa using hl e he
  rw [brokenBound, if_neg (Int.not_lt.2 h0), hfilter]

/-- R258: an instant that breaks no bound is not before the last entry and not after the call. -/
theorem Channel.brokenBound_eq_none : c.brokenBound t tnow = none ↔
    0 ≤ t ∧ (∀ e, c.edges.getLast? = some e → (e.t : Int) ≤ t) ∧ t ≤ (tnow : Int) := by
  by_cases h0 : 0 ≤ t
  · by_cases hl : ∀ e, c.edges.getLast? = some e → (e.t : Int) ≤ t
    · rw [brokenBound_of_inOrder h0 hl]
      simpa [h0] using fun _ => hl
    · push Not at hl
      obtain ⟨e, he, hlt⟩ := hl
      rw [brokenBound_of_before h0 he hlt]
      simp [he, hlt]
  · rw [brokenBound_of_neg (Int.not_le.1 h0)]
    simp [h0]

end BrokenBound

/-! ## All queues -/

/-- Every source's queue satisfies `p`. -/
def Audio.All (p : Channel → Prop) (a : Audio) : Prop := p a.ear ∧ p a.mic ∧ ∀ c ∈ a.chans, p c.ch

theorem Audio.all_iff {p : Channel → Prop} {a : Audio} : (∀ sc ∈ a.sources, p sc.2) ↔ a.All p := by
  simp [Audio.sources, Audio.All]

/-- `p` is kept by every edge that a call at `tnow` may report (R258). -/
def KeptByEdges (tnow : Nat) (p : Channel → Prop) : Prop :=
  ∀ (c : Channel) (t : Int) (level : Nat), p c → c.brokenBound t tnow = none → p (c.push t.toNat level)

theorem good_keptByEdges (tnow : Nat) : KeptByEdges tnow Channel.Good := by
  intro c t level h hb
  obtain ⟨h0, hlast, -⟩ := Channel.brokenBound_eq_none.1 hb
  exact h.push (h.1.upTo_of_last fun e he => by have := hlast e he; omega) level

theorem upTo_keptByEdges {tnow T : Nat} (hT : tnow ≤ T) : KeptByEdges tnow (fun c => c.UpTo T) := by
  intro c t level h hb
  obtain ⟨-, -, hnow⟩ := Channel.brokenBound_eq_none.1 hb
  exact h.push (by omega) level

section Edges

variable {p : Channel → Prop} {tnow : Nat} (hp : KeptByEdges tnow p)
include hp

theorem chanEdge_all {cs ds : List DevChannel} {id : Addr} {k level : Nat} {t : Int} (h : ∀ c ∈ cs, p c.ch)
    (e : chanEdge id k t level tnow cs = .ok ds) : ∀ c ∈ ds, p c.ch := by
  induction cs generalizing ds with
  | nil => cases e; exact h
  | cons c rest ih =>
    obtain ⟨hc, hrest⟩ := List.forall_mem_cons.1 h
    unfold chanEdge at e
    split at e
    · cases hb : c.ch.brokenBound t tnow with
      | some b => rw [hb] at e; cases e
      | none =>
        rw [hb] at e
        cases e
        exact List.forall_mem_cons.2 ⟨hp c.ch t level hc hb, hrest⟩
    · cases hr : chanEdge id k t level tnow rest with
      | error r => rw [hr] at e; cases e
      | ok ds' =>
        rw [hr] at e
        cases e
        exact List.forall_mem_cons.2 ⟨hc, ih hrest hr⟩

theorem audioEdge_all {a b : Audio} {id : Addr} {k level : Nat} {t : Int} (h : a.All p)
    (e : audioEdge id k t level tnow a = .ok b) : b.All p := by
  unfold audioEdge at e
  cases hr : chanEdge id k t level tnow a.chans with
  | error r => rw [hr] at e; cases e
  | ok cs =>
    rw [hr] at e
    cases e
    exact ⟨h.1, h.2.1, chanEdge_all hp h.2.2 hr⟩

theorem deviceEdges_all (P : Params) (f : Tick) (id : Addr) (es : List DevEdge) (a : Audio) (h : a.All p) :
    (deviceEdges P f id tnow es a).state.All p := by
  induction es generalizing a with
  | nil => exact h
  | cons x rest ih =>
    unfold deviceEdges
    cases hr : audioEdge id x.chan (linInstant P f x.time) x.level tnow a with
    | error r => exact h
    | ok b => exact ih b (audioEdge_all hp h hr)

theorem fallEdges_all (id : Addr) (ks : List Nat) (a : Audio) (h : a.All p) : (fallEdges id tnow ks a).state.All p := by
  induction ks generalizing a with
  | nil => exact h
  | cons k rest ih =>
    unfold fallEdges
    cases hr : audioEdge id k tnow 0 tnow a with
    | error r => exact h
    | ok b => exact ih b (audioEdge_all hp h hr)

end Edges

theorem closeChannels_all {p : Channel → Prop} {a : Audio} (h : a.All p) (id : Addr) : (closeChannels id a).All p := by
  refine ⟨h.1, h.2.1, fun c hc => ?_⟩
  obtain ⟨d, hd, rfl⟩ := List.mem_map.1 (List.mem_of_mem_filter hc)
  split <;> exact h.2.2 d hd

/-- R273: what a detach does to the queues. -/
theorem detachDevice_all {p : Channel → Prop} {s : State} (hp : KeptByEdges s.ts p) (h : s.audio.All p) (a : Addr) :
    (detachDevice a s).state.audio.All p := by
  unfold detachDevice
  split
  · exact h
  · next n _ =>
    have hf := fallEdges_all hp a (List.range n.nch) s.audio h
    cases hr : fallEdges a s.ts (List.range n.nch) s.audio <;> rw [hr] at hf
    · exact closeChannels_all hf a
    · exact hf

theorem newChannels_all {p : Channel → Prop} (hp : p (quietChannel 0)) (h : Addr) (n : Nat) :
    ∀ c ∈ newChannels h n, p c.ch := by
  intro c hc
  obtain ⟨k, -, rfl⟩ := List.mem_map.1 hc
  exact hp

theorem attachDevice_all {p : Channel → Prop} (hp : p (quietChannel 0)) {s : State} (hs : s.audio.All p) (h : Addr)
    (pos : BitVec 8) (impl : DevImpl) : (attachDevice h pos impl s).audio.All p := by
  refine ⟨hs.1, hs.2.1, fun c hc => ?_⟩
  obtain hc | hc := List.mem_append.1 hc
  · exact hs.2.2 c hc
  · exact newChannels_all hp h _ c hc

theorem quietChannel_good (level : Nat) : (quietChannel level).Good := by
  refine ⟨List.Pairwise.nil, ?_⟩
  rw [Channel.balanced_iff]
  simp [Channel.endLevel, Channel.startLevel, quietChannel, ratSum]

theorem quietChannel_upTo (level T : Nat) : (quietChannel level).UpTo T := fun _ h => absurd h List.not_mem_nil

/-! ## The roll-over of a queue (R262, R263) -/

/-- The level after a list of edges that starts at `l`. -/
def levelAfter (l : Rat) (es : List Edge) : Rat := (es.getLast?.map (fun e => (e.level : Rat))).getD l

theorem levelAfter_append (l : Rat) (a b : List Edge) : levelAfter l (a ++ b) = levelAfter (levelAfter l a) b := by
  unfold levelAfter
  rw [List.getLast?_append]
  cases b.getLast? <;> rfl

theorem levelAfter_carryEdges (l : Rat) (eof : Nat) (es : List Edge) :
    levelAfter l (carryEdges eof es) = levelAfter l (es.filter fun e => decide (eof ≤ e.t)) := by
  rw [levelAfter, carryEdges, List.getLast?_map, Option.map_map]
  rfl

/-- R263: after the roll-over the level at the start of the frame is that after the edges of the old frame. -/
theorem Channel.roll_startLevel (P : Params) (f : Nat) (c : Channel) :
    (c.roll P f).startLevel = levelAfter c.startLevel (c.edges.filter fun e => decide (e.t < P.eof)) := by
  have hsteps := ratSum_filter (settled P f) (·.delta) (c.steps P f)
  have hedges := edgeSteps_sum P f c.startLevel (c.edges.filter fun e => decide (e.t < P.eof))
  rw [Channel.steps, List.map_append, ratSum_append] at hsteps
  calc (c.roll P f).startLevel
    _ = c.base + (ratSum (((c.steps P f).filter (settled P f)).map (·.delta)) +
          ratSum (((c.steps P f).filter fun p => !settled P f p).map (·.delta))) := by
      rw [← add_assoc]; rfl
    _ = c.startLevel + ratSum ((edgeSteps P f c.startLevel (c.edges.filter fun e => decide (e.t < P.eof))).map (·.delta)) := by
      rw [Channel.steps, ← hsteps, Channel.startLevel, add_assoc]
    _ = _ := hedges

/-- The roll-over of an ordered queue leaves its last level. -/
theorem Channel.roll_endLevel (P : Params) (f : Nat) {c : Channel} (h : c.Ordered) : (c.roll P f).endLevel = c.endLevel := by
  calc levelAfter (c.roll P f).startLevel (carryEdges P.eof c.edges)
    _ = levelAfter c.startLevel (c.edges.filter (fun e => decide (e.t < P.eof)) ++
          c.edges.filter fun e => decide (P.eof ≤ e.t)) := by
      rw [levelAfter_carryEdges, roll_startLevel, levelAfter_append]
    _ = levelAfter c.startLevel c.edges := by rw [← ordered_split_at h P.eof]

theorem Channel.Good.roll {c : Channel} (h : c.Good) (P : Params) (f : Nat) : (c.roll P f).Good := by
  refine ⟨?_, ?_⟩
  · exact (h.1.sublist List.filter_sublist).map _ fun a b hab => Nat.sub_le_sub_right hab P.eof
  · rw [balanced_iff, roll_endLevel P f h.1]
    exact balanced_iff.1 h.2

theorem Channel.UpTo.roll {c : Channel} {T : Nat} (h : c.UpTo T) (P : Params) (f : Nat) : (c.roll P f).UpTo (T - P.eof) := by
  intro e he
  obtain ⟨e0, he0, rfl⟩ := List.mem_map.1 he
  exact Nat.sub_le_sub_right (h e0 (List.mem_of_mem_filter he0)) P.eof

theorem Audio.All.roll {p q : Channel → Prop} {a : Audio} (P : Params) (f : Nat) (hpq : ∀ c, p c → q (c.roll P f))
    (h : a.All p) : (a.roll P f).All q := by
  refine ⟨hpq _ h.1, hpq _ h.2.1, fun c hc => ?_⟩
  obtain ⟨d, hd, rfl⟩ := List.mem_map.1 (List.mem_of_mem_filter hc)
  exact hpq _ (h.2.2 d hd)

/-! ## The audio invariant -/

theorem upTo_mono {a : Audio} {T T' : Nat} (h : a.All fun c => c.UpTo T) (hT : T ≤ T') : a.All fun c => c.UpTo T' :=
  ⟨fun e he => (h.1 e he).trans hT, fun e he => (h.2.1 e he).trans hT, fun c hc e he => (h.2.2 c hc e he).trans hT⟩

theorem ulaWrite_audio (v : Byte) (te : Nat) (s : State) : (ulaWrite v te s).audio =
    { s.audio with ear := s.audio.ear.push te (earLevel v), mic := s.audio.mic.push te (micLevel v) } := by
  unfold ulaWrite
  dsimp only
  split <;> rfl

/-- R258, R262, R263: every phase of a step keeps the queues good and within their bound. -/
theorem audio_instants : Instants (fun e => e.audio.All Channel.Good) (fun T e => e.audio.All fun c => c.UpTo T) where
  ext ha _ _ _ _ := by rw [ha]; exact ⟨id, id⟩
  mono h hT := upTo_mono h hT
  ula v te h hW := by
    rw [ulaWrite_audio]
    exact ⟨⟨h.1.push hW.1 _, h.2.1.push hW.2.1 _, h.2.2⟩,
      ⟨hW.1.push (Nat.le_refl _) _, hW.2.1.push (Nat.le_refl _) _, hW.2.2⟩⟩
  walk hT h hW hwalk :=
    ⟨hwalk.audio _ (fun P f id es a => deviceEdges_all (good_keptByEdges _) P f id es a) h, fun v u e => by
      have hu := hwalk.audio _ (fun P f id es a => deviceEdges_all (upTo_keptByEdges hT) P f id es a) hW
      rwa [e] at hu⟩
  roll {u} _ h hW _ _ := by
    obtain ⟨-, -, -, -, -, -, -, -, -, haudio, -⟩ := frameTail_clock u
    rw [haudio]
    exact ⟨h.roll u.P _ fun c hc => hc.roll _ _, hW.roll u.P _ fun c hc => hc.roll _ _⟩
  attach h pos impl hB := ⟨attachDevice_all (quietChannel_good 0) hB h pos impl,
    fun hW => attachDevice_all (quietChannel_upTo 0 _) hW h pos impl⟩
  detach {s} h hB := ⟨detachDevice_all (good_keptByEdges _) hB h, fun v u e hW => by
    have hu := detachDevice_all (upTo_keptByEdges (Nat.le_add_right s.ts _)) hW h
    rwa [e] at hu⟩
  construct args := ⟨⟨quietChannel_good _, quietChannel_good _, fun c hc => absurd hc List.not_mem_nil⟩,
    ⟨quietChannel_upTo _ _, quietChannel_upTo _ _, fun c hc => absurd hc List.not_mem_nil⟩⟩

theorem audioOk_iff {e : Engine} : e.AudioOk ↔
    InstantsOk (fun e => e.audio.All Channel.Good) (fun T e => e.audio.All fun c => c.UpTo T) e :=
  and_congr (Audio.all_iff (p := Channel.Good)) (imp_congr_right fun _ => Audio.all_iff (p := fun c => c.UpTo e.horizon))

/-- A valid image keeps the invariant (R281): its queues are in order up to its clock, and they balance. -/
theorem audioOk_of_valid {img : Engine} {sp : State} (h : invalid (.load img) sp = none) : img.AudioOk := by
  obtain ⟨-, -, -, -, -, -, -, hev, hbal, -⟩ := snapFailure_none (snapFailure_of_valid h)
  obtain ⟨-, hsrc⟩ := eventsValid_iff.1 hev
  refine ⟨fun sc hsc => ⟨(hsrc sc hsc).1, List.all_eq_true.1 hbal sc hsc⟩, fun _ sc hsc e he => ?_⟩
  exact ((hsrc sc hsc).2 e he).trans (Nat.le_add_right ..)

theorem everyEngine_congr {Q R : Engine → Prop} (h : ∀ e, Q e ↔ R e) (s : State) : EveryEngine Q s ↔ EveryEngine R s :=
  and_congr (h _) (forall₂_congr fun img _ => h img)

/-- Settles O57: the queues keep their order, balance and bound through each phase of a step. -/
theorem audioBalanceKept : Obligations.AudioBalanceKept := by
  intro s t e h
  have hiff := fun u => everyEngine_congr (fun e => audioOk_iff (e := e)) u
  exact (hiff t).2 (audio_instants.step (fun x img sp _ _ hv => audioOk_iff.1 (audioOk_of_valid hv)) e ((hiff s).1 h))

end Sys2Proof.Machine
end

section
/-! PROOFS of what every step keeps, fourth part: the border events (R43), the node clocks (R200), the clock with mode and fault
latch (R28, R29, R36), the boundary (R271) and the handles (R197). -/

namespace Sys2Proof.Machine

open Sys2Proof.Claims

/-! ## Border events -/

/-- The border events are in order (R43). -/
def Engine.BorderOrdered (e : Engine) : Prop := e.borderEv.Pairwise fun a b => a.t ≤ b.t

/-- No border event lies after `T`. -/
def Engine.BorderUpTo (T : Nat) (e : Engine) : Prop := ∀ ev ∈ e.borderEv, ev.t ≤ T

theorem ulaWrite_borderEv (v : Byte) (te : Nat) (s : State) : (ulaWrite v te s).borderEv = s.borderEv ∨
    (ulaWrite v te s).borderEv = s.borderEv ++ [{ t := te, colour := borderBits v }] := by
  unfold ulaWrite
  dsimp only
  split
  · exact .inl rfl
  · exact .inr rfl

theorem WalkKeeps.borderEv {s t : State} (h : WalkKeeps s t) : t.borderEv = s.borderEv := by rw [h.state]; rfl

theorem detachDevice_borderEv (h : Addr) (s : State) : (detachDevice h s).state.borderEv = s.borderEv := by
  obtain ⟨chain, audio, e⟩ := detachDevice_state h s
  rw [e]
  rfl

/-- R43, R244: every phase of a step keeps the border events in order and within their bound. -/
theorem border_instants : Instants Engine.BorderOrdered Engine.BorderUpTo where
  ext _ hb _ _ _ := by unfold Engine.BorderOrdered Engine.BorderUpTo; rw [hb]; exact ⟨id, id⟩
  mono h hT ev hev := (h ev hev).trans hT
  ula {s} v te h hW := by
    unfold Engine.BorderOrdered Engine.BorderUpTo
    rcases ulaWrite_borderEv v te s with e | e <;> rw [e]
    · exact ⟨h, hW⟩
    · refine ⟨List.pairwise_append.2 ⟨h, List.pairwise_singleton .., fun a ha b hb => ?_⟩, fun ev hev => ?_⟩
      · rw [List.mem_singleton.1 hb]; exact hW a ha
      · obtain hev | hev := List.mem_append.1 hev
        · exact hW ev hev
        · rw [List.mem_singleton.1 hev]
  walk {α td T s r} _ h hW hwalk := by
    have hb := hwalk.keeps.borderEv
    unfold Engine.BorderOrdered Engine.BorderUpTo
    exact ⟨by rw [hb]; exact h, fun v u e => by rw [e, Res.state_ok] at hb; rw [hb]; exact hW⟩
  roll {u T} h hW _ _ := by
    obtain ⟨-, -, -, -, -, -, -, -, -, -, hb⟩ := frameTail_clock u
    unfold Engine.BorderOrdered Engine.BorderUpTo
    rw [hb]
    refine ⟨(h.sublist List.filter_sublist).map _ fun a b hab => Nat.sub_le_sub_right hab u.P.eof, fun ev hev => ?_⟩
    obtain ⟨ev0, hev0, rfl⟩ := List.mem_map.1 hev
    exact Nat.sub_le_sub_right (hW ev0 (List.mem_of_mem_filter hev0)) u.P.eof
  attach _ _ _ h := ⟨h, id⟩
  detach {s} a h := by
    have hb := detachDevice_borderEv a s
    unfold Engine.BorderOrdered Engine.BorderUpTo
    exact ⟨by rw [hb]; exact h, fun v u e hW => by rw [e, Res.state_ok] at hb; rw [hb]; exact hW⟩
  construct _ := ⟨List.Pairwise.nil, fun _ h => absurd h List.not_mem_nil⟩

theorem borderOk_of_valid {img : Engine} {sp : State} (h : invalid (.load img) sp = none) : img.BorderOk := by
  obtain ⟨-, -, -, -, -, -, -, hev, -⟩ := snapFailure_none (snapFailure_of_valid h)
  obtain ⟨⟨hord, hle⟩, -⟩ := eventsValid_iff.1 hev
  exact ⟨hord, fun _ ev hm => (hle ev hm).trans (Nat.le_add_right ..)⟩

/-! ## Node clocks -/

/-- No node's clock lies after instant `T` of the frame, or before the frame's start. -/
def Engine.NodesUpTo (T : Nat) (e : Engine) : Prop :=
  ∀ n ∈ e.chain, (absTick e.cfg.params e.frame T - n.last).toNat ≤ T

/-- R145: a later instant of a frame is as many ticks later. -/
theorem absTick_add (P : Params) (f : Tick) (t d : Nat) : absTick P f (t + d) = absTick P f t + BitVec.ofNat 64 d := by
  rw [absTick, absTick, BitVec.ofNat_add, BitVec.add_assoc]

/-- R145: the end of a frame is the start of the next. -/
theorem absTick_next (P : Params) (f : Tick) (t : Nat) : absTick P (f + 1) t = absTick P f (P.eof + t) := by
  rw [absTick, absTick, BitVec.ofNat_add]
  ring

/-- R144, R145: the tick of an instant does not depend on how it is told from its frame. -/
theorem tickAt_eq_absTick (P : Params) (f : Tick) (t : Nat) : tickAt P f t = absTick P f t := by
  have ht : BitVec.ofNat 64 (t / P.eof * P.eof + t % P.eof) = BitVec.ofNat 64 t := by rw [Nat.div_add_mod']
  rw [BitVec.ofNat_add, BitVec.ofNat_mul] at ht
  rw [tickAt, normInstant, absTick, absTick, BitVec.add_mul, BitVec.add_assoc, ht]

theorem toNat_sub_le_of_later {P : Params} {f : Tick} {t d b : Nat} {l : Tick} (h : (absTick P f t - l).toNat ≤ b) :
    (absTick P f (t + d) - l).toNat ≤ b + d := by
  have hsplit : absTick P f (t + d) - l = (absTick P f t - l) + BitVec.ofNat 64 d := by
    rw [absTick_add]
    ring
  rw [hsplit, BitVec.toNat_add, BitVec.toNat_ofNat]
  have := Nat.mod_le ((absTick P f t - l).toNat + d % 2 ^ 64) (2 ^ 64)
  have := Nat.mod_le d (2 ^ 64)
  omega

theorem toNat_absTick_sub_le {P : Params} {f : Tick} {t T : Nat} (h : t ≤ T) :
    (absTick P f T - absTick P f t).toNat ≤ T - t := by
  obtain ⟨d, rfl⟩ := Nat.exists_eq_add_of_le h
  have := toNat_sub_le_of_later (P := P) (f := f) (t := t) (d := d) (b := 0) (l := absTick P f t) (by simp)
  omega

theorem mem_attachDevice_chain {h : Addr} {pos : BitVec 8} {impl : DevImpl} {s : State} {n : Node}
    (hn : n ∈ (attachDevice h pos impl s).chain) : n ∈ s.chain ∨ n = newNode h impl (absTick s.P s.frame s.ts) := by
  obtain hn | hn := List.mem_append.1 hn
  · exact .inl (List.mem_of_mem_take hn)
  · obtain hn | hn := List.mem_cons.1 hn
    · exact .inr hn
    · exact .inl (List.mem_of_mem_drop hn)

/-- R200, R222 step 3: every phase of a step keeps the node clocks within the bound. -/
theorem nodes_instants : Instants (fun _ => True) Engine.NodesUpTo where
  ext _ _ hc hf hg := by unfold Engine.NodesUpTo; rw [hc, hf, hg]; exact ⟨id, id⟩
  mono {e T T'} h hT n hn := by
    obtain ⟨d, rfl⟩ := Nat.exists_eq_add_of_le hT
    exact toNat_sub_le_of_later (h n hn)
  ula {s} v te _ hW := by
    obtain ⟨evs, ear, mic, e⟩ := ulaWrite_keeps v te s
    rw [e]
    exact ⟨trivial, hW⟩
  walk {α td T s r} hT _ _ hwalk := by
    refine ⟨trivial, fun v u e n hn => ?_⟩
    have hk := hwalk.keeps
    rw [e, Res.state_ok] at hk
    rw [hk.cfg, hk.frame, hwalk.last v u e n hn, tickAt_eq_absTick]
    exact (toNat_absTick_sub_le hT).trans (Nat.sub_le ..)
  roll {u T} _ _ hT hlast := by
    obtain ⟨-, hcfg, -, -, hframe, -, -, -, hchain, -⟩ := frameTail_clock u
    refine ⟨trivial, fun n hn => ?_⟩
    rw [hchain] at hn
    have hadd : u.cfg.params.eof + (T - u.cfg.params.eof) = T := Nat.add_sub_cancel' hT
    rw [hcfg, hframe, hlast n hn, tickAt_eq_absTick, absTick_next, hadd]
    exact toNat_absTick_sub_le hT
  attach {s} h pos impl _ := by
    refine ⟨trivial, fun hW n hn => ?_⟩
    obtain hn | rfl := mem_attachDevice_chain hn
    · exact hW n hn
    · exact (toNat_absTick_sub_le (Nat.le_add_right ..)).trans (Nat.sub_le ..)
  detach {s} h _ := by
    refine ⟨trivial, fun v u e hW n hn => ?_⟩
    have hk : ClockKept s (detachDevice h s).state := applyMutation_clockKept (m := .detach h) ⟨by simp, by simp⟩ s
    rw [e, Res.state_ok] at hk
    rw [(detachDevice_chain h s).1 v u e] at hn
    rw [hk.cfg, hk.frame]
    exact hW n (List.mem_of_mem_eraseP hn)
  construct _ := ⟨trivial, fun _ h => absurd h List.not_mem_nil⟩

theorem nodeClocksOk_iff {e : Engine} : e.NodeClocksOk ↔ InstantsOk (fun _ => True) Engine.NodesUpTo e :=
  ⟨fun h => ⟨trivial, h⟩, fun h => h.2⟩

/-! ## Clock, mode and fault latch -/

theorem clockOk_takeFault (f : FaultRec) (u : State) : (takeFault f u).toEngine.ClockOk := by
  rw [takeFault_eq]
  exact ⟨by simp, by simp, by simp⟩

theorem clockOk_of_kept {s u : State} (h : s.toEngine.ClockOk) (hk : ClockKept s u) : u.toEngine.ClockOk := by
  unfold Engine.ClockOk
  rw [hk.mode, hk.fault, hk.cfg, hk.ts]
  exact h

theorem clockOk_construct (args : SwitchArgs) : (construct args).ClockOk := by
  refine ⟨by simp [construct], by simp [construct], fun hs _ => ?_⟩
  have hs : 15 * args.params.maxWait + 15 < args.params.eof := by simpa [Params.shortRequests, construct] using hs
  exact Nat.zero_lt_of_lt hs

theorem clockOk_of_valid {img : Engine} {sp : State} (h : invalid (.load img) sp = none) : img.ClockOk := by
  obtain ⟨-, hm, hf, hts, -⟩ := snapFailure_none (snapFailure_of_valid h)
  exact ⟨by simp [hm], by simp [hm, hf], fun _ _ => hts⟩

/-- R28, R29, R36: no application of a mutation parts clock, mode and fault latch. -/
theorem clockOk_keptByMutations : KeptByMutations Engine.ClockOk := by
  intro s m h hload
  refine ⟨fun v u e => ?_, fun f u _ => clockOk_takeFault f u⟩
  rcases m.replaces_or_leaves with ⟨img, rfl⟩ | ⟨args, rfl⟩ | hl
  · cases e; exact hload img rfl
  · cases e; exact clockOk_construct args
  · have hk := applyMutation_clockKept hl s
    rw [e, Res.state_ok] at hk
    exact clockOk_of_kept h hk

/-- R119, R165, R155, R174: a request has at most 15 phases and waits at most as long as 15 contended phases can. -/
theorem request_short {i : Instr} (h : WellFormed i = true) (s : State) :
    requestPhases i ≤ 15 ∧ requestWait i s ≤ 15 * s.P.maxWait := by
  have hmem : ∀ a, s.memWait a s.ts ≤ 15 * s.P.maxWait := fun a => by
    have := contentionWrap_le_maxWait s.P s.ts
    unfold Engine.memWait
    split
    · exact this.trans (by omega)
    · exact Nat.zero_le _
  have hio : ∀ p, s.ioWait s.ts p ≤ 15 * s.P.maxWait := fun p =>
    (ioWaitRow_le ..).trans (Nat.mul_le_mul_right _ (by omega))
  have hphases : ∀ n : BitVec 8, phasesOk n = true → n.toNat ≤ 15 := fun n hn => (of_decide_eq_true hn).2
  cases i with
  | mfetch a n | mread a n | mwrite a d n => exact ⟨hphases n h, hmem a⟩
  | minternal a n =>
    have hn := hphases n h
    refine ⟨hn, ?_⟩
    have hle := contendedPhases_le s.P n.toNat s.ts
    have hmul : n.toNat * s.P.maxWait ≤ 15 * s.P.maxWait := Nat.mul_le_mul_right _ hn
    rw [Nat.mul_add, Nat.mul_one] at hle
    show s.internalWait a n.toNat s.ts ≤ _
    unfold Engine.internalWait
    split
    · simp only [State.P] at *; omega
    · exact Nat.zero_le _
  | iord p | iowr p d => exact ⟨by simp [requestPhases], hio p⟩
  | _ => exact ⟨Nat.zero_le _, Nat.zero_le _⟩

theorem clockOk_of_running {e : Engine} (hm : e.mode = .running) (hf : e.fault = none)
    (ht : e.cfg.params.shortRequests = true → e.ts < e.cfg.params.eof) : e.ClockOk :=
  ⟨by simp [hm], by simp [hm, hf], fun hs _ => ht hs⟩

/-- R226: a request that is shorter than a frame leaves the clock in the frame. -/
theorem clockOk_request {i : Instr} {s t : State} (hb : busRequest i = true) (hwf : WellFormed i = true)
    (hm : s.mode ≠ .faulted) (h : EveryEngine Engine.ClockOk s) (e : exec i s = .next t) : EveryEngine Engine.ClockOk t := by
  obtain ⟨⟨hnot, hlatch, -⟩, himg⟩ := h
  have hrun : s.mode = .running := by cases hmode : s.mode <;> simp_all
  have hfault : s.fault = none := by simpa [hrun] using hlatch
  cases busRequest_ends hb e with
  | faulted f u hd _ _ _ eq =>
    subst eq
    refine ⟨clockOk_takeFault .., fun img hi => himg img ?_⟩
    rwa [takeFault_deferred, hd] at hi
  | within r u hk _ _ hin eq =>
    subst eq
    have hcfg : u.cfg = s.cfg := hk.cfg.trans (intCheck_cfg s)
    refine ⟨clockOk_of_running ((hk.mode.trans (intCheck_mode s)).trans hrun)
      ((hk.fault.trans (intCheck_fault s)).trans hfault) fun _ => ?_, fun img hi => himg img ?_⟩
    · show requestEnd i s < u.cfg.params.eof
      rwa [hcfg]
    · exact (hk.deferred.trans (intCheck_deferred s)) ▸ hi
  | past r u v hk _ hts hpast hv e =>
    have hcfg : v.cfg = s.cfg := hv.cfg.trans (hk.cfg.trans (intCheck_cfg s))
    obtain ⟨htail, htcfg, htmode, htfault, -⟩ := frameTail_clock v
    refine clockOk_keptByMutations.applyAll (clockOk_of_running htmode ?_ fun hs => ?_) (fun img hi => himg img ?_) e
    · exact htfault.trans (hv.fault.trans (hk.fault.trans ((intCheck_fault s).trans hfault)))
    · rw [htail, htcfg, State.P, hcfg, hv.ts, setTs_ts]
      rw [htcfg, hcfg] at hs
      obtain ⟨hphases, hwait⟩ := request_short hwf s
      have hs : 15 * s.P.maxWait + 15 < s.P.eof := of_decide_eq_true hs
      unfold requestEnd
      simp only [State.P] at *
      omega
    · exact (hv.deferred.trans (hk.deferred.trans (intCheck_deferred s))) ▸ hi

theorem wellFormed_of_decode {w : CmdWord} {i : Instr} (h : decode w = .ok i) : WellFormed i = true :=
  (encodeFields_of_decodeFields h).1

theorem clockOk_step {s t : State} (e : step s = .next t) (h : EveryEngine Engine.ClockOk s) :
    EveryEngine Engine.ClockOk t := by
  cases hi : s.inbox with
  | nil =>
    unfold step at e
    rw [hi] at e
    cases e
    exact h
  | cons x rest =>
    have h' : EveryEngine Engine.ClockOk (takeIssue x rest s) := h
    obtain ⟨r, rfl⟩ | ⟨hm, i, hd, hb, e⟩ | ⟨-, ⟨f, r, rfl⟩ | ⟨r, rfl⟩⟩ | ⟨m, e, -, -⟩ := step_performs hi e
    · exact h'
    · exact clockOk_request hb (wellFormed_of_decode hd) (s := takeIssue x rest s) hm h' e
    · refine ⟨clockOk_takeFault f _, fun img hi => h'.2 img ?_⟩
      rwa [respond_deferred, takeFault_deferred] at hi
    · exact h'
    · exact clockOk_keptByMutations.hostMutation h' (fun img hm hv => clockOk_of_valid (hm ▸ hv)) e

/-! ## The boundary -/

/-- After the deferred mutations nothing is deferred, unless a fault stopped them. -/
theorem boundaryInv_applyAll {l : List Mutation} {s t : State} (e : endRequest (applyAll l s) = .next t) : BoundaryInv t := by
  refine applyAll_induct (fun _ _ => True) BoundaryInv (fun s _ _ _ => rfl) (fun _ _ _ _ _ _ _ => trivial) ?_ l s t trivial e
  intro m rest s f u _ _ hm
  exact absurd (takeFault_mode f u) hm

theorem boundaryInv_takeFault (f : FaultRec) (s : State) : BoundaryInv (takeFault f s) :=
  fun hm => absurd (takeFault_mode f s) hm

theorem boundaryInv_request {i : Instr} {s t : State} (hb : busRequest i = true) (e : exec i s = .next t) :
    BoundaryInv t := by
  cases busRequest_ends hb e with
  | faulted f u _ _ _ _ eq => rw [eq]; exact boundaryInv_takeFault f u
  | within r u hk _ _ _ eq =>
    intro _ hat
    have hu : t.atBoundary = false := by rw [eq, setTs_atBoundary, respond_atBoundary, hk.atBoundary, intCheck_atBoundary]
    rw [hu] at hat
    cases hat
  | past r u v _ _ _ _ _ e => exact boundaryInv_applyAll e

/-- R271: unless a mutation is a switch it acts at once at a boundary only. -/
theorem actsNow_eq_atBoundary {m : Mutation} (hm : ∀ args, m ≠ .switch args) (s : State) : actsNow m s = s.atBoundary := by
  cases m with
  | switch args => exact absurd rfl (hm args)
  | _ => simp [actsNow]

theorem deferredAfter_of_not_switch {m : Mutation} (hm : ∀ args, m ≠ .switch args) (s : State) : deferredAfter m s = s := by
  cases m with
  | switch args => exact absurd rfl (hm args)
  | _ => rfl

theorem actsNow_of_boundary {s : State} (h : s.atBoundary = true) (m : Mutation) : actsNow m s = true := by
  unfold actsNow
  rw [h, Bool.true_or]

/-- R271, R283: a mutation that acts at once leaves nothing deferred. -/
theorem deferredAfter_deferred {m : Mutation} {s : State} (hm : s.mode ≠ .faulted ∨ ∃ args, m = .switch args)
    (h : BoundaryInv s) (hnow : actsNow m s = true) : (deferredAfter m s).deferred = [] := by
  by_cases hs : ∃ args, m = .switch args
  · obtain ⟨args, rfl⟩ := hs
    rfl
  · have hns : ∀ args, m ≠ .switch args := fun args e => hs ⟨args, e⟩
    rw [actsNow_eq_atBoundary hns] at hnow
    rw [deferredAfter_of_not_switch hns]
    exact h (hm.resolve_right hs) hnow

theorem boundaryInv_hostMutation {s t : State} {m : Mutation} (hm : s.mode ≠ .faulted ∨ ∃ args, m = .switch args)
    (h : BoundaryInv s) (e : endCommand (hostMutation m s) = .next t) : BoundaryInv t := by
  rcases hostMutation_cases e with ⟨r, rfl⟩ | ⟨-, ⟨hnow, rfl⟩ | ⟨hnow, ⟨v, u, hok, rfl⟩ | ⟨f, u, -, rfl⟩⟩⟩
  · exact h
  · intro _ hat
    have hat : s.atBoundary = true := hat
    rw [actsNow_of_boundary hat] at hnow
    cases hnow
  · have hd := applyMutation_deferred m (deferredAfter m s)
    rw [hok, deferredAfter_deferred hm h hnow] at hd
    exact fun _ _ => hd
  · exact boundaryInv_takeFault f u

theorem boundaryInv_step {s t : State} (e : step s = .next t) (h : BoundaryInv s) : BoundaryInv t := by
  cases hi : s.inbox with
  | nil =>
    unfold step at e
    rw [hi] at e
    cases e
    exact h
  | cons x rest =>
    have h' : BoundaryInv (takeIssue x rest s) := h
    obtain ⟨r, rfl⟩ | ⟨-, i, -, hb, e⟩ | ⟨-, ⟨f, r, rfl⟩ | ⟨r, rfl⟩⟩ | ⟨m, e, hm, -⟩ := step_performs hi e
    · exact h'
    · exact boundaryInv_request hb e
    · exact boundaryInv_takeFault f (takeIssue x rest s)
    · exact h'
    · exact boundaryInv_hostMutation (s := takeIssue x rest s) hm h' e

/-! ## Handles -/

/-- The handles `hs` stay unique while the mutations of `l` are applied (R197, R271). -/
def UniqueThrough (hs : List Addr) (l : List Mutation) : Prop := ∀ k, ((l.take k).foldl handlesAfter hs).Nodup

theorem handlesInv_iff {s : State} : HandlesInv s ↔
    (handles s.chain).Nodup ∧ (s.mode ≠ .faulted → UniqueThrough (handles s.chain) s.deferred) := Iff.rfl

theorem uniqueThrough_nil {hs : List Addr} : UniqueThrough hs [] ↔ hs.Nodup := by simp [UniqueThrough]

theorem uniqueThrough_cons {hs : List Addr} {m : Mutation} {l : List Mutation} :
    UniqueThrough hs (m :: l) ↔ hs.Nodup ∧ UniqueThrough (handlesAfter hs m) l :=
  ⟨fun h => ⟨h 0, fun k => h (k + 1)⟩, fun h k => k.casesOn h.1 h.2⟩

theorem UniqueThrough.nodup {hs : List Addr} {l : List Mutation} (h : UniqueThrough hs l) : hs.Nodup := h 0

theorem uniqueThrough_append_one {l : List Mutation} {hs : List Addr} {m : Mutation} :
    UniqueThrough hs (l ++ [m]) ↔ UniqueThrough hs l ∧ (handlesAfter (l.foldl handlesAfter hs) m).Nodup := by
  induction l generalizing hs with
  | nil =>
    rw [List.nil_append, uniqueThrough_cons, uniqueThrough_nil, uniqueThrough_nil]
    exact Iff.rfl
  | cons m' l ih => rw [List.cons_append, uniqueThrough_cons, uniqueThrough_cons, ih, and_assoc, List.foldl_cons]

theorem handlesAfter_perm {hs hs' : List Addr} (h : hs.Perm hs') (m : Mutation) : (handlesAfter hs m).Perm (handlesAfter hs' m) := by
  cases m with
  | attach a pos impl => exact h.cons a
  | detach a => exact h.erase a
  | page | wrap | custom => exact h
  | load | switch => exact .refl _

theorem UniqueThrough.of_perm {l : List Mutation} {hs hs' : List Addr} (h : UniqueThrough hs l) (hp : hs.Perm hs') :
    UniqueThrough hs' l := by
  induction l generalizing hs hs' with
  | nil => exact uniqueThrough_nil.2 (hp.nodup_iff.1 h.nodup)
  | cons m l ih =>
    obtain ⟨h1, h2⟩ := uniqueThrough_cons.1 h
    exact uniqueThrough_cons.2 ⟨hp.nodup_iff.1 h1, ih h2 (handlesAfter_perm hp m)⟩

theorem handles_eraseP (chain : List Node) (h : Addr) :
    handles (chain.eraseP fun n => n.id == h) = (handles chain).erase h := by
  rw [handles, handles, List.erase_eq_eraseP', List.eraseP_map]
  rfl

/-- R272, R273, R278, R283: the handles after an application that completes. -/
theorem handles_applyMutation {m : Mutation} {s u : State} {v : Value} (e : applyMutation m s = .ok v u) :
    (handles u.chain).Perm (handlesAfter (handles s.chain) m) := by
  cases m with
  | attach a pos impl =>
    cases e
    have := (List.perm_middle (a := a) (l₁ := handles (s.chain.take (attachIndex pos s.chain)))
      (l₂ := handles (s.chain.drop (attachIndex pos s.chain))))
    rw [handles, handles, ← List.map_append, List.take_append_drop] at this
    simpa [attachDevice, handles, newNode, handlesAfter] using this
  | detach a =>
    rw [(detachDevice_chain a s).1 v u e, handles_eraseP]
    exact .refl _
  | page b =>
    cases e
    obtain ⟨q, e⟩ := pagingWrite_keeps b (catchUp s.ts s)
    rw [e]
    exact .refl _
  | load | wrap | switch | custom => cases e; exact .refl _

theorem chain_of_raised {m : Mutation} {s u : State} {f : FaultRec} (e : applyMutation m s = .raised f u) :
    u.chain = s.chain := by
  cases m with
  | detach a => exact (detachDevice_chain a s).2 f u e
  | _ => cases e

theorem handlesAfter_subset {hs hs' : List Addr} (hnd : hs.Nodup) (hsub : ∀ h ∈ hs, h ∈ hs') (m : Mutation) :
    ∀ h ∈ handlesAfter hs m, h ∈ handlesAfter hs' m := by
  cases m with
  | attach a pos impl => exact fun h hm => List.mem_cons.2 ((List.mem_cons.1 hm).imp_right (hsub h))
  | detach a =>
    intro h hm
    obtain ⟨hne, hmem⟩ := hnd.mem_erase_iff.1 hm
    exact (List.mem_erase_of_ne hne).2 (hsub h hmem)
  | page | wrap | custom => exact hsub
  | load | switch => exact fun _ => id

/-- R271: the projected state has at least the handles that completed applications leave (where one raises its node stays). -/
theorem mem_handles_projected {l : List Mutation} {s : State} {hs : List Addr} (hsub : ∀ h ∈ hs, h ∈ handles s.chain)
    (hu : UniqueThrough hs l) :
    ∀ h ∈ l.foldl handlesAfter hs, h ∈ handles (l.foldl (fun t m => (applyMutation m t).state) s).chain := by
  induction l generalizing s hs with
  | nil => exact hsub
  | cons m l ih =>
    obtain ⟨hnd, hu⟩ := uniqueThrough_cons.1 hu
    refine ih (fun h hmem => ?_) hu
    show h ∈ handles (applyMutation m s).state.chain
    cases e : applyMutation m s with
    | ok v u => exact (handles_applyMutation e).mem_iff.2 (handlesAfter_subset hnd hsub m h hmem)
    | raised f u =>
      rw [Res.state_raised, chain_of_raised e]
      cases m with
      | detach a => exact hsub h (List.mem_of_mem_erase hmem)
      | _ => cases e

theorem handlesUnique_iff {chain : List Node} : handlesUnique chain = true ↔ (handles chain).Nodup := by
  induction chain with
  | nil => simp [handlesUnique, handles]
  | cons n rest ih =>
    have hmem : (∀ m ∈ rest, m.id ≠ n.id) ↔ n.id ∉ handles rest := by simp [handles]
    rw [handlesUnique, Bool.and_eq_true, ih, show handles (n :: rest) = n.id :: handles rest from rfl, List.nodup_cons, ← hmem]
    simp

/-- R272, R278: a mutation that is valid keeps the handles unique behind those that wait. -/
theorem nodup_handlesAfter_of_valid {m : Mutation} {sp : State} {hs : List Addr} (h : invalid m sp = none) (hnd : hs.Nodup)
    (hsub : ∀ h ∈ hs, h ∈ handles sp.chain) : (handlesAfter hs m).Nodup := by
  cases m with
  | attach a pos impl =>
    have hnew : a ∉ handles sp.chain := by
      intro hmem
      simp [invalid, hmem] at h
    exact List.nodup_cons.2 ⟨fun hmem => hnew (hsub a hmem), hnd⟩
  | detach a => exact hnd.erase a
  | page | wrap | custom => exact hnd
  | load img =>
    obtain ⟨-, -, -, -, -, -, hchain, -⟩ := snapFailure_none (snapFailure_of_valid h)
    rw [Bool.and_eq_true] at hchain
    exact handlesUnique_iff.1 hchain.1
  | switch args => exact List.nodup_nil

theorem handlesInv_takeFault {s : State} (h : (handles s.chain).Nodup) (f : FaultRec) : HandlesInv (takeFault f s) :=
  ⟨by rwa [takeFault_chain], fun hm => absurd (takeFault_mode f s) hm⟩

theorem handlesInv_applyAll {l : List Mutation} {s t : State} (h : UniqueThrough (handles s.chain) l)
    (e : endRequest (applyAll l s) = .next t) : HandlesInv t := by
  refine applyAll_induct (fun l s => UniqueThrough (handles s.chain) l) HandlesInv ?_ ?_ ?_ l s t h e
  · exact fun s hs => ⟨hs.nodup, fun _ => hs⟩
  · intro m rest s v u hs hm
    exact (uniqueThrough_cons.1 hs).2.of_perm (handles_applyMutation hm).symm
  · intro m rest s f u hs hm
    refine handlesInv_takeFault ?_ f
    rw [chain_of_raised hm]
    exact hs.nodup

theorem handlesInv_request {i : Instr} {s t : State} (hb : busRequest i = true) (hm : s.mode ≠ .faulted) (h : HandlesInv s)
    (e : exec i s = .next t) : HandlesInv t := by
  obtain ⟨hnd, hu⟩ := h
  cases busRequest_ends hb e with
  | faulted f u _ _ hh _ eq => rw [eq]; exact handlesInv_takeFault (hh ▸ hnd) f
  | within r u hk hh _ _ eq =>
    have hd : u.deferred = s.deferred := hk.deferred.trans (intCheck_deferred s)
    subst eq
    refine ⟨hh ▸ hnd, fun _ => ?_⟩
    show UniqueThrough (handles u.chain) u.deferred
    rw [hh, hd]
    exact hu hm
  | past r u v hk hh _ _ hv e =>
    refine handlesInv_applyAll ?_ e
    have hd : v.deferred = s.deferred := hv.deferred.trans (hk.deferred.trans (intCheck_deferred s))
    have hc : handles v.chain = handles s.chain := hv.handles.trans hh
    obtain ⟨-, -, -, -, -, -, -, -, htail, -⟩ := frameTail_clock v
    rw [htail, hc, hd]
    exact hu hm

theorem projected_eq_self {s : State} (h : s.deferred = []) : projected s = s := by
  rw [projected, h]
  rfl

theorem nodup_handlesAfter_of_acting {s : State} {m : Mutation} (hm : s.mode ≠ .faulted ∨ ∃ args, m = .switch args)
    (hb : BoundaryInv s) (hnd : (handles s.chain).Nodup) (hv : invalid m (projected s) = none) (hnow : actsNow m s = true) :
    (handlesAfter (handles s.chain) m).Nodup := by
  by_cases hs : ∃ args, m = .switch args
  · obtain ⟨args, rfl⟩ := hs
    exact List.nodup_nil
  · rw [actsNow_eq_atBoundary fun args e => hs ⟨args, e⟩] at hnow
    rw [projected_eq_self (hb (hm.resolve_right hs) hnow)] at hv
    exact nodup_handlesAfter_of_valid hv hnd fun _ => id

theorem handlesInv_hostMutation {s t : State} {m : Mutation} (hm : s.mode ≠ .faulted ∨ ∃ args, m = .switch args)
    (hb : BoundaryInv s) (h : HandlesInv s) (e : endCommand (hostMutation m s) = .next t) : HandlesInv t := by
  rcases hostMutation_cases e with ⟨r, rfl⟩ | ⟨hv, ⟨-, rfl⟩ | ⟨hnow, hact⟩⟩
  · exact h
  · refine ⟨h.1, fun hrun => uniqueThrough_append_one.2 ⟨h.2 hrun, ?_⟩⟩
    refine nodup_handlesAfter_of_valid hv (by simpa using h.2 hrun s.deferred.length) ?_
    exact mem_handles_projected (fun _ => id) (h.2 hrun)
  · have hchain : handles (deferredAfter m s).chain = handles s.chain := by rw [deferredAfter_engine]
    have hd := deferredAfter_deferred hm hb hnow
    rcases hact with ⟨v, u, hok, rfl⟩ | ⟨f, u, hraised, rfl⟩
    · have hdu := applyMutation_deferred m (deferredAfter m s)
      rw [hok, Res.state_ok, hd] at hdu
      have hperm := handles_applyMutation hok
      rw [hchain] at hperm
      have hnd : (handles u.chain).Nodup := hperm.nodup_iff.2 (nodup_handlesAfter_of_acting hm hb h.1 hv hnow)
      refine ⟨hnd, fun _ => ?_⟩
      show UniqueThrough (handles u.chain) u.deferred
      rwa [hdu, uniqueThrough_nil]
    · refine handlesInv_takeFault (s := u) ?_ f
      rw [chain_of_raised hraised, hchain]
      exact h.1

theorem handlesInv_step {s t : State} (e : step s = .next t) (hb : BoundaryInv s) (h : HandlesInv s) : HandlesInv t := by
  cases hi : s.inbox with
  | nil =>
    unfold step at e
    rw [hi] at e
    cases e
    exact h
  | cons x rest =>
    have h' : HandlesInv (takeIssue x rest s) := h
    have hb' : BoundaryInv (takeIssue x rest s) := hb
    obtain ⟨r, rfl⟩ | ⟨hm, i, -, hr, e⟩ | ⟨-, ⟨f, r, rfl⟩ | ⟨r, rfl⟩⟩ | ⟨m, e, hm, -⟩ := step_performs hi e
    · exact h'
    · exact handlesInv_request hr (s := takeIssue x rest s) hm h' e
    · exact handlesInv_takeFault (s := takeIssue x rest s) h.1 f
    · exact h'
    · exact handlesInv_hostMutation (s := takeIssue x rest s) hm hb' h' e

/-- Settles O56: the clock by how long a request is (R226); the boundary and the handles by what a request, a mutation and the
frame end leave; border events and node clocks as invariants with a bound that each phase moves on. -/
theorem clockAndQueueKept : Obligations.ClockAndQueueKept := by
  intro s t e
  refine ⟨fun h => ⟨clockOk_step e h.1, ?_⟩, boundaryInv_step e, ?_, handlesInv_step e, fun himg h => ?_⟩
  · exact (storeAndShapeKept s t e).2.1 h.2
  · exact border_instants.step (fun _ _ _ _ _ hv => borderOk_of_valid hv) e
  · have hiff := fun u => everyEngine_congr (fun e => nodeClocksOk_iff (e := e)) u
    exact (hiff t).2 (nodes_instants.step (fun x img _ hx ho _ => nodeClocksOk_iff.1 (himg x img hx ho)) e ((hiff s).1 h))

end Sys2Proof.Machine
end

section
/-! PROOFS of the step, fault and custom-command families: which words are performed (R298, R307), the custom commands (R289), the
check of R226, and the edges of device channels (R256, R258). -/

namespace Sys2Proof.Machine

open Sys2Proof.Claims

/-! ## Which words are performed -/

/-- R298, R307: a decoded word that is admitted and comes through its interface is executed. -/
theorem step_of_admitted {s : State} {x : Issue} {rest : List Issue} {i : Instr} (hin : s.inbox = x :: rest)
    (hdec : decode x.word = .ok i) (hacc : accepts x.iface i = true) (hadm : admitted x.word s = true) :
    step s = exec i (takeIssue x rest s) := by
  obtain ⟨ha, -⟩ | ⟨-, k, hk, -⟩ | ⟨-, -, r, hr, -⟩ | ⟨-, j, hj, ⟨-, hstep⟩ | ⟨hrej, -⟩⟩ := step_cases hin
  · rw [hadm] at ha; cases ha
  · rw [customOf_of_decode hdec] at hk; cases hk
  · rw [hdec] at hr; cases hr
  · rw [hdec] at hj; cases hj; exact hstep
  · rw [hdec] at hj; cases hj; rw [hacc] at hrej; cases hrej

/-- R298: the three commands of mode Faulted are admitted in every mode. -/
theorem admitted_of_three {w : CmdWord} {i : Instr} (hdec : decode w = .ok i)
    (hi : i = .hflags ∨ i = .hsnapsave ∨ i = .hswitch) (s : State) : admitted w s = true := by
  have hop : admittedFaulted (fieldsOf w).op = true := by
    rw [decode_op hdec]
    rcases hi with rfl | rfl | rfl <;> decide
  rw [admitted, hop, Bool.or_true]

/-- Settles O6: an admitted word of the right interface is executed, in mode Faulted where it is one of the three. -/
theorem stepRunsTheDecodedWord : Obligations.StepRunsTheDecodedWord := by
  refine ⟨fun s x rest i hin hdec hacc hmode => ⟨step_of_admitted hin hdec hacc ?_, rfl⟩, fun s hin => ?_⟩
  · rcases hmode with hm | hi
    · exact admitted_of_running hm _
    · exact admitted_of_three hdec hi s
  · unfold step
    rw [hin]

theorem not_admitted {s : State} (hf : s.mode = .faulted) {w : CmdWord} (hop : (fieldsOf w).op ∉ [0x24#8, 0x25#8, 0x29#8]) :
    admitted w s = false := by
  simp only [List.mem_cons, List.not_mem_nil, or_false, not_or] at hop
  simp [admitted, admittedFaulted, hf, hop]

/-- R298, R283: a host mutation leaves mode Faulted only as a switch that constructs the engine anew. -/
theorem leaves_faulted {s t : State} {args : SwitchArgs} (hf : s.mode = .faulted)
    (e : endCommand (hostMutation (.switch args) s) = .next t) (ht : t.mode ≠ .faulted) :
    t.toEngine = construct args ∧ t.deferred = [] := by
  rcases hostMutation_cases e with ⟨r, rfl⟩ | ⟨-, ⟨-, rfl⟩ | ⟨-, ⟨v, u, hok, rfl⟩ | ⟨f, u, -, rfl⟩⟩⟩
  · exact absurd hf ht
  · exact absurd hf ht
  · cases hok
    exact ⟨rfl, rfl⟩
  · exact absurd (takeFault_mode f u) ht

/-- Settles O8: admission looks at the opcode alone; and of what a step performs in mode Faulted, only a switch leaves the mode. -/
theorem faultedAdmitsThree : Obligations.FaultedAdmitsThree := by
  refine fun s hf => ⟨fun x rest hin hop => ?_, fun x rest i hin hface hi hdec => ?_, fun t e ht => ?_⟩
  · have hadm := not_admitted hf hop
    obtain ⟨-, hstep⟩ | ⟨ha, -⟩ | ⟨ha, -⟩ | ⟨ha, -⟩ := step_cases hin
    · exact ⟨_, hstep, rfl, rfl, rfl, rfl, rfl⟩
    all_goals rw [hadm] at ha; cases ha
  · have hthree : i = .hflags ∨ i = .hsnapsave ∨ i = .hswitch := by simpa using hi
    refine step_of_admitted hin hdec ?_ (admitted_of_three hdec hthree s)
    rw [hface]
    rcases hthree with rfl | rfl | rfl <;> rfl
  · cases hin : s.inbox with
    | nil =>
      unfold step at e
      rw [hin] at e
      cases e
      exact absurd hf ht
    | cons x rest =>
      obtain ⟨r, rfl⟩ | ⟨hm, -⟩ | ⟨hm, -⟩ | ⟨m, e, hm, hiss⟩ := step_performs hin e
      · exact absurd hf ht
      · exact absurd hf hm
      · exact absurd hf hm
      · obtain ⟨args, rfl⟩ := hm.resolve_left (not_not.2 hf)
        obtain ⟨hdec, hoob⟩ := hiss.2 args rfl
        obtain ⟨heng, hdef⟩ := leaves_faulted (s := takeIssue x rest s) hf e ht
        exact ⟨x, rest, args, rfl, hdec, hoob, heng, hdef⟩

/-- Settles O12: the check of R226 comes right after the interrupt check. -/
theorem requestOutsideFrameFaults : Obligations.RequestOutsideFrameFaults := by
  intro i op s hop hts
  cases i with
  | mfetch a n | mread a n | mwrite a d n | minternal a n | iord p | iowr p d =>
    cases hop
    exact endRequest_late _ hts _
  | _ => cases hop

/-! ## Host mutations, case by case (R271) -/

theorem hostMutation_of_invalid {m : Mutation} {s : State} {r : Response} (h : invalid m (projected s) = some r) :
    hostMutation m s = .ok () (respond r s) := by
  unfold hostMutation
  rw [h]

theorem hostMutation_deferred {m : Mutation} {s : State} (h : invalid m (projected s) = none) (hnow : actsNow m s = false) :
    hostMutation m s = .ok () (respond .deferred (s.setDeferred (s.deferred ++ [m]))) := by
  unfold hostMutation
  rw [h, hnow]
  rfl

theorem hostMutation_now {m : Mutation} {s : State} (h : invalid m (projected s) = none) (hnow : actsNow m s = true) :
    hostMutation m s = (applyMutation m (deferredAfter m s)).bind fun v s1 => .ok () (respond (.done v) s1) := by
  unfold hostMutation
  rw [h, hnow]
  rfl

/-! ## Custom commands -/

theorem customKind_of_first {pre post : List WrapNode} {n : WrapNode} {op : BitVec 8} {k : CustomKind}
    (hpre : ∀ m ∈ pre, wrapCustom m.impl op = none) (hn : wrapCustom n.impl op = some k) :
    customKind (pre ++ n :: post) op = some k := by
  rw [customKind, List.findSome?_append, List.findSome?_eq_none_iff.2 hpre, Option.none_or, List.findSome?_cons, hn]

/-- R289: what a custom command makes of the wrapper that it runs on. -/
def afterCustom (k : CustomKind) (w : CmdWord) (n : WrapNode) : WrapNode :=
  match k with
  | .reads => n
  | .writes => { n with st := (wrapCustomRun n.impl n.st w).1 }

theorem runCustom_of_first {w : CmdWord} {pre post : List WrapNode} {n : WrapNode} {k : CustomKind}
    (hpre : ∀ m ∈ pre, wrapCustom m.impl (fieldsOf w).op = none) (hn : wrapCustom n.impl (fieldsOf w).op = some k) :
    runCustom w (pre ++ n :: post) = (pre ++ afterCustom k w n :: post, (wrapCustomRun n.impl n.st w).2) := by
  induction pre with
  | nil => rw [List.nil_append, runCustom, hn]; cases k <;> rfl
  | cons m pre ih =>
    rw [List.cons_append, runCustom, hpre m List.mem_cons_self, ih fun m hm => hpre m (List.mem_cons_of_mem _ hm)]
    rfl

/-- Settles O10: a custom command that writes is a host mutation, and `runCustom` finds the outermost wrapper that defines it. -/
theorem customCommandsTouchOnlyWrap : Obligations.CustomCommandsTouchOnlyWrap := by
  refine fun s w => ⟨rfl, fun hdef => ?_, fun hnone => ?_, fun pre n post k hs hpre hn => ?_⟩
  · have hv : invalid (.custom w) (projected s) = none := if_pos hdef
    have hnow : actsNow (.custom w) s = s.atBoundary := actsNow_eq_atBoundary (fun _ h => by cases h) s
    constructor <;> intro hat
    · rw [customCommand, hostMutation_now hv (hnow.trans hat)]
      rfl
    · rw [customCommand, hostMutation_deferred hv (hnow.trans hat)]
      rfl
  · have hv : invalid (.custom w) (projected s) = some (.refused .unknownOpcode) :=
      if_neg (by simp [hnone])
    rw [customCommand, hostMutation_of_invalid hv]
    rfl
  · rw [hs, customKind_of_first hpre hn, runCustom_of_first hpre hn]
    cases k <;> exact ⟨rfl, rfl⟩

/-! ## Edges of device channels -/

section Edges

variable {id : Addr} {k : Nat} {t : Int} {level tnow : Nat} {pre post : List DevChannel} {c : DevChannel}

/-- R258: `audio_edge` acts on the first open channel (id, k), which the earlier channels leave to be found. -/
theorem chanEdge_of_first (hpre : ∀ d ∈ pre, ¬(d.id = id ∧ d.k = k ∧ d.closing = false))
    (hc : c.id = id ∧ c.k = k ∧ c.closing = false) :
    chanEdge id k t level tnow (pre ++ c :: post) =
      match c.ch.brokenBound t tnow with
      | some b => .error { code := .e1, info := .edge (.dev id k) t b }
      | none => .ok (pre ++ { c with ch := c.ch.push t.toNat level } :: post) := by
  induction pre with
  | nil =>
    rw [List.nil_append, chanEdge, if_pos hc]
    cases c.ch.brokenBound t tnow <;> rfl
  | cons d pre ih =>
    rw [List.cons_append, chanEdge, if_neg (hpre d List.mem_cons_self), ih fun d hd => hpre d (List.mem_cons_of_mem _ hd)]
    cases c.ch.brokenBound t tnow <;> rfl

end Edges

theorem deviceEdges_cons_ok {P : Params} {f : Tick} {id : Addr} {tnow : Nat} {e : DevEdge} {a : Audio} {cs : List DevChannel}
    (h : chanEdge id e.chan (linInstant P f e.time) e.level tnow a.chans = .ok cs) (rest : List DevEdge) :
    deviceEdges P f id tnow (e :: rest) a = deviceEdges P f id tnow rest { a with chans := cs } := by
  rw [deviceEdges, audioEdge, h]
  rfl

theorem deviceEdges_cons_error {P : Params} {f : Tick} {id : Addr} {tnow : Nat} {e : DevEdge} {a : Audio} {r : FaultRec}
    (h : chanEdge id e.chan (linInstant P f e.time) e.level tnow a.chans = .error r) (rest : List DevEdge) :
    deviceEdges P f id tnow (e :: rest) a = .raised r a := by
  rw [deviceEdges, audioEdge, h]
  rfl

/-- Settles O15: the edge goes to the first open channel (id, k), whose `brokenBound` decides. -/
theorem audioEdgesAreOrderedChanges : Obligations.AudioEdgesAreOrderedChanges := by
  refine ⟨fun P f => ⟨fun _ _ _ => rfl, fun _ => rfl, fun _ => rfl⟩,
    fun P f id tnow e rest a => ⟨rfl, fun cs h => deviceEdges_cons_ok h rest, fun r h => deviceEdges_cons_error h rest⟩,
    fun id k t level tnow pre post c hid hk hopen hpre => ?_⟩
  rw [chanEdge_of_first hpre ⟨hid, hk, hopen⟩]
  refine ⟨fun hneg => ?_, fun e h0 hl hlt => ?_, fun h0 hl hafter => ?_, fun h0 hl hle => ?_⟩
  · rw [Channel.brokenBound_of_neg hneg]
  · rw [Channel.brokenBound_of_before h0 hl hlt]
  · rw [Channel.brokenBound_of_inOrder h0 hl, if_pos hafter]
  · rw [Channel.brokenBound_of_inOrder h0 hl, if_neg (Int.not_lt.2 hle)]
    constructor <;> intro hlev
    · rw [Channel.push_same hlev]
    · rw [Channel.push_change hlev]

end Sys2Proof.Machine
end

section
/-! PROOFS of the interrupt and frame family: one interrupt a frame (R218, R225), the frame end (R221, R222), the absolute clock
(R145), and the split of internal cycles (R174). -/

namespace Sys2Proof.Machine

open Sys2Proof.Claims

/-! ## What the deferred mutations leave alone -/

theorem applyMutation_out (m : Mutation) (s : State) : (applyMutation m s).state.out = s.out := by
  rcases m.replaces_or_leaves with ⟨img, rfl⟩ | ⟨args, rfl⟩ | hl
  · rfl
  · rfl
  · exact (applyMutation_clockKept hl s).out

theorem interrupts_eq_of_out {s t : State} (h : t.out = s.out) : interrupts t = interrupts s := by
  rw [interrupts, interrupts, h]

/-- R222 step 7: no application signals the interrupt. -/
theorem interrupts_applyAll (l : List Mutation) (s : State) : interrupts (applyAll l s).state = interrupts s := by
  induction l generalizing s with
  | nil => rfl
  | cons m l ih =>
    have hm := interrupts_eq_of_out (applyMutation_out m (s.setDeferred l))
    unfold applyAll
    cases e : applyMutation m (s.setDeferred l) with
    | ok v u =>
      rw [e] at hm
      refine (ih _).trans (Eq.trans ?_ hm)
      simp [interrupts, List.count_append]
    | raised f u => rw [e] at hm; exact hm

theorem interrupts_frameTail (u : State) : interrupts (frameWrap (rollOver (renderFrame u))) = interrupts u := by
  rw [frameWrap_rollOver_renderFrame]
  simp [interrupts, List.count_append]

theorem interrupts_endRequest {r : Res State Unit} {t : State} (e : endRequest r = .next t) :
    interrupts t = interrupts r.state := by
  cases r with
  | ok v u => cases e; rfl
  | raised f u => cases e; exact interrupts_eq_of_out (takeFault_out f u)

/-- R271: mutations that leave the engine keep its clock, also where one of them raises a fault. -/
theorem applyAll_clock {l : List Mutation} {s t : State} (hl : ∀ m ∈ l, m.LeavesEngine)
    (e : endRequest (applyAll l s) = .next t) :
    t.ts = s.ts ∧ t.cfg = s.cfg ∧ t.frame = s.frame ∧ t.intDone = s.intDone := by
  refine applyAll_induct
    (fun l u => (∀ m ∈ l, m.LeavesEngine) ∧ u.ts = s.ts ∧ u.cfg = s.cfg ∧ u.frame = s.frame ∧ u.intDone = s.intDone)
    (fun u => u.ts = s.ts ∧ u.cfg = s.cfg ∧ u.frame = s.frame ∧ u.intDone = s.intDone) ?_ ?_ ?_ l s t
    ⟨hl, rfl, rfl, rfl, rfl⟩ e
  · exact fun u h => h.2
  · intro m rest u v w ⟨hl, hts, hcfg, hframe, hint⟩ hm
    have hk := applyMutation_clockKept (hl m List.mem_cons_self) (u.setDeferred rest)
    rw [hm] at hk
    exact ⟨fun m h => hl m (List.mem_cons_of_mem _ h), hk.ts.trans hts, hk.cfg.trans hcfg, hk.frame.trans hframe,
      hk.intDone.trans hint⟩
  · intro m rest u f w ⟨hl, hts, hcfg, hframe, hint⟩ hm
    have hk := applyMutation_clockKept (hl m List.mem_cons_self) (u.setDeferred rest)
    rw [hm, Res.state_raised] at hk
    rw [takeFault_eq]
    exact ⟨hk.ts.trans hts, hk.cfg.trans hcfg, hk.frame.trans hframe, hk.intDone.trans hint⟩

/-! ## One interrupt a frame -/

/-- R222 step 2: the frame end has signalled exactly where the frame had not. -/
theorem Called.interrupts_of_signals {s g v : State} (h : Called g v) (hs : Signals s g) :
    Claims.interrupts v = Claims.interrupts s + if s.intDone then 0 else 1 := by
  rw [h.interrupts]
  rcases hs with ⟨hd, hi⟩ | ⟨hd, hg, hi⟩
  · rw [hd, hi]
  · rw [hd, hg, hi]
    rfl

theorem interrupts_frameEnd {s t : State} (e : frameEnd s = .ok () t) :
    interrupts t = interrupts s + if s.intDone then 0 else 1 := by
  have hc := boundaryCalls_called s
  cases hb : boundaryCalls (finaliseInterrupt s) with
  | raised f v => rw [frameEnd_of_raise hb] at e; cases e
  | ok a v =>
    rw [hb] at hc
    have ha := interrupts_applyAll v.deferred (frameWrap (rollOver (renderFrame v)))
    rw [← frameEnd_of_calls hb, e, interrupts_frameTail] at ha
    exact ha.trans hc.interrupts

/-- R218, R222, R225: what a bus request does with the interrupt: within the frame as one check does; past it the frame has
signalled. -/
theorem signals_of_request {i : Instr} {s t : State} (hb : busRequest i = true) (e : exec i s = .next t) :
    (t.frame = s.frame ∧ (t.mode = .faulted ∨ requestEnd i s < s.P.eof) ∧ Signals s t) ∨
      s.P.eof ≤ requestEnd i s ∧ (interrupts t = interrupts s + if s.intDone then 0 else 1) ∧
        (noReplacement s → t.frame = s.frame + 1 ∧ t.intDone = false) := by
  cases busRequest_ends hb e with
  | faulted f u _ hf _ hs eq =>
    refine .inl ⟨?_, .inl (eq ▸ takeFault_mode f u), eq ▸ hs.trans (signals_takeFault f u)⟩
    rw [eq, takeFault_eq]
    exact hf
  | within r u hk _ _ hin eq =>
    subst eq
    exact .inl ⟨hk.frame.trans (intCheck_frame s), .inr hin, ((signals_intCheck s).trans hk.signals).trans (signals_respond r u)⟩
  | past r u v hk _ _ hpast hv e =>
    have hs : Signals s ((respond r u).setTs (requestEnd i s)) :=
      ((signals_intCheck s).trans hk.signals).trans (signals_respond r u)
    refine .inr ⟨hpast, ?_, fun hno => ?_⟩
    · rw [interrupts_endRequest e, interrupts_applyAll, interrupts_frameTail]
      exact hv.interrupts_of_signals hs
    · have hd : v.deferred = s.deferred := hv.deferred.trans (hk.deferred.trans (intCheck_deferred s))
      obtain ⟨-, -, hframe, hint⟩ := applyAll_clock (hd ▸ hno) e
      obtain ⟨-, -, -, -, htf, hti, -⟩ := frameTail_clock v
      exact ⟨hframe.trans (htf.trans (by rw [hv.frame]; exact congrArg (· + 1) (hk.frame.trans (intCheck_frame s)))),
        hint.trans hti⟩

theorem interrupts_hostMutation {m : Mutation} {s t : State} (e : endCommand (hostMutation m s) = .next t) :
    interrupts t = interrupts s ∧ (m.LeavesEngine → t.intDone = s.intDone ∧ t.frame = s.frame) := by
  rcases hostMutation_cases e with ⟨r, rfl⟩ | ⟨-, ⟨-, rfl⟩ | ⟨-, hact⟩⟩
  · exact ⟨interrupts_respond r s, fun _ => ⟨rfl, rfl⟩⟩
  · exact ⟨interrupts_respond .deferred _, fun _ => ⟨rfl, rfl⟩⟩
  · have ho := applyMutation_out m (deferredAfter m s)
    have hk := fun hl : m.LeavesEngine =>
      And.intro (applyMutation_clockKept hl (deferredAfter m s)).intDone (applyMutation_clockKept hl (deferredAfter m s)).frame
    rw [deferredAfter_out] at ho
    rw [deferredAfter_engine] at hk
    rcases hact with ⟨v, u, hm, rfl⟩ | ⟨f, u, hm, rfl⟩ <;> rw [hm] at ho hk
    · exact ⟨(interrupts_respond _ u).trans (interrupts_eq_of_out ho), hk⟩
    · refine ⟨(interrupts_respond _ _).trans (interrupts_eq_of_out ((takeFault_out f u).trans ho)), fun hl => ?_⟩
      rw [respond_intDone, respond_frame, takeFault_eq]
      exact hk hl

/-- Queries and host commands do not signal. -/
theorem interrupts_command {i : Instr} {s t : State} (hb : busRequest i = false) (e : exec i s = .next t) :
    interrupts t = interrupts s ∧ (i ≠ .hsnapload → i ≠ .hswitch → t.intDone = s.intDone) := by
  obtain ⟨r, rfl⟩ | ⟨f, r, rfl⟩ | ⟨r, rfl⟩ | ⟨m, e, hl, hw⟩ := exec_command hb e
  · exact ⟨interrupts_respond r s, fun _ _ => rfl⟩
  · exact ⟨(interrupts_respond r _).trans (interrupts_eq_of_out (takeFault_out f s)), fun _ _ => takeFault_intDone f s⟩
  · exact ⟨interrupts_respond r _, fun _ _ => rfl⟩
  · obtain ⟨hi, hd⟩ := interrupts_hostMutation e
    exact ⟨hi, fun h1 h2 => (hd ⟨fun img h => h1 (hl img h).1, fun args h => h2 (hw args h).1⟩).1⟩

theorem interrupts_custom {k : CustomKind} {w : CmdWord} {s t : State} (e : customCommand k w s = .next t) :
    interrupts t = interrupts s ∧ t.intDone = s.intDone := by
  cases k with
  | reads => cases e; exact ⟨interrupts_respond _ s, rfl⟩
  | writes =>
    obtain ⟨hi, hd⟩ := interrupts_hostMutation e
    exact ⟨hi, (hd ⟨fun _ h => (by cases h), fun _ h => by cases h⟩).1⟩

/-- What a step does with the interrupt, counted from the taken issue, whose outputs are empty. -/
theorem signals_of_step {s t : State} {x : Issue} {rest : List Issue} (hin : s.inbox = x :: rest) (e : step s = .next t) :
    (interrupts t = 0 ∧ (keepsEngine s → t.intDone = s.intDone ∧ t.frame = s.frame)) ∨
      ∃ i, busRequest i = true ∧ exec i (takeIssue x rest s) = .next t := by
  obtain ⟨r, rfl⟩ | ⟨-, i, -, hb, e⟩ | ⟨-, ⟨f, r, rfl⟩ | ⟨r, rfl⟩⟩ | ⟨m, e, -, hiss⟩ := step_performs hin e
  · exact .inl ⟨interrupts_respond r (takeIssue x rest s), fun _ => ⟨rfl, rfl⟩⟩
  · exact .inr ⟨i, hb, e⟩
  · refine .inl ⟨(interrupts_respond r _).trans (interrupts_eq_of_out (takeFault_out f (takeIssue x rest s))), fun _ => ?_⟩
    rw [respond_intDone, respond_frame, takeFault_eq]
    exact ⟨rfl, rfl⟩
  · exact .inl ⟨interrupts_respond r _, fun _ => ⟨rfl, rfl⟩⟩
  · obtain ⟨hi, hd⟩ := interrupts_hostMutation e
    exact .inl ⟨hi, fun hk => hd (leavesEngine_of_issued hk hin hiss)⟩

theorem ne_add_one (f : Tick) : f ≠ f + 1 := by simp

theorem exists_issue {s : State} (h : s.inbox ≠ []) : ∃ x rest, s.inbox = x :: rest := List.exists_cons_of_ne_nil h

theorem interrupts_step {s t : State} (hin : s.inbox ≠ []) (e : step s = .next t) :
    interrupts t ≤ 1 ∧ (s.intDone = true → interrupts t = 0) := by
  obtain ⟨x, rest, hin⟩ := exists_issue hin
  have hzero : interrupts (takeIssue x rest s) = 0 := rfl
  have hdone : (takeIssue x rest s).intDone = s.intDone := rfl
  rcases signals_of_step hin e with ⟨hi, -⟩ | ⟨i, hb, e⟩
  · exact ⟨by omega, fun _ => hi⟩
  · rcases signals_of_request hb e with ⟨-, -, ⟨-, hi⟩ | ⟨hd, -, hi⟩⟩ | ⟨-, hi, -⟩ <;> rw [hzero] at hi
    · exact ⟨by omega, fun _ => hi⟩
    · exact ⟨by omega, fun hs => by rw [hdone, hs] at hd; cases hd⟩
    · rw [hdone] at hi
      exact ⟨by rw [hi]; split <;> simp, fun hs => by rw [hi, hs]; rfl⟩

/-- The steps of a run within one frame: none that ends the frame. -/
theorem signals_of_step_within {s t : State} (hin : s.inbox ≠ []) (hk : keepsEngine s) (e : step s = .next t)
    (hf : t.frame = s.frame) :
    t.intDone = s.intDone ∧ interrupts t = 0 ∨ s.intDone = false ∧ t.intDone = true ∧ interrupts t = 1 := by
  obtain ⟨x, rest, hin⟩ := exists_issue hin
  rcases signals_of_step hin e with ⟨hi, hd⟩ | ⟨i, hb, e⟩
  · exact .inl ⟨(hd hk).1, hi⟩
  · rcases signals_of_request hb e with ⟨-, -, hs⟩ | ⟨-, -, hend⟩
    · exact hs
    · exact absurd (hf.symm.trans (hend hk.1).1) (ne_add_one s.frame)

/-- The step that ends the frame: it has signalled where the frame had not. -/
theorem interrupts_of_step_past {s t : State} (hin : s.inbox ≠ []) (hk : keepsEngine s) (e : step s = .next t)
    (hf : t.frame = s.frame + 1) : interrupts t = if s.intDone then 0 else 1 := by
  obtain ⟨x, rest, hin⟩ := exists_issue hin
  rcases signals_of_step hin e with ⟨-, hd⟩ | ⟨i, hb, e⟩
  · exact absurd ((hd hk).2.symm.trans hf) (ne_add_one s.frame)
  · rcases signals_of_request hb e with ⟨hsame, -⟩ | ⟨-, hi, -⟩
    · exact absurd (hsame.symm.trans hf) (ne_add_one s.frame)
    · have hzero : interrupts (takeIssue x rest s) = 0 := rfl
      rw [hi, hzero, Nat.zero_add]
      rfl

/-- R225: a run within one frame has signalled once, leaving the mark set, or not at all, leaving it as it was. -/
theorem frameRun_signals {s t : State} {k : Nat} (h : FrameRun s k t) :
    t.intDone = s.intDone ∧ k = 0 ∨ s.intDone = false ∧ t.intDone = true ∧ k = 1 := by
  induction h with
  | start => exact .inl ⟨rfl, rfl⟩
  | step _ hin hk e hf ih =>
    rcases signals_of_step_within hin hk e hf with ⟨hd, hi⟩ | ⟨hd, hu, hi⟩ <;> rcases ih with ⟨hd', hi'⟩ | ⟨hs, hd', hi'⟩
    · exact .inl ⟨hd.trans hd', by omega⟩
    · exact .inr ⟨hs, hd.trans hd', by omega⟩
    · exact .inr ⟨hd'.symm.trans hd, hu, by omega⟩
    · rw [hd] at hd'; cases hd'

/-- Settles O17: each phase of a step signals at most once and then sets the mark, and the frame end signals where the mark is
not set; so does a run, by induction. -/
theorem oneInterruptPerFrame : Obligations.OneInterruptPerFrame := by
  refine ⟨fun s t => interrupts_step, fun s t => interrupts_frameEnd, fun i s t hb hin e => ?_,
    fun i s t hb hts hpast hno e hm => ?_, fun i s t => interrupts_command, fun k w s t => interrupts_custom,
    fun s t k hrun => ?_⟩
  · rcases signals_of_request hb e with ⟨-, -, hs⟩ | ⟨hpast, -⟩
    · exact hs
    · exact absurd hin (Nat.not_lt.2 hpast)
  · rcases signals_of_request hb e with ⟨-, hf | hin, -⟩ | ⟨-, hi, hend⟩
    · exact absurd hf hm
    · exact absurd hin (Nat.not_lt.2 hpast)
    · exact ⟨(hend hno).1, (hend hno).2, hi⟩
  · have hs := frameRun_signals hrun
    refine ⟨by omega, fun hd => ?_, fun u hd hin hk e hf => ?_⟩
    · rcases hs with ⟨-, hk⟩ | ⟨hd', -⟩
      · exact hk
      · rw [hd] at hd'; cases hd'
    · have hi := interrupts_of_step_past hin hk e hf
      rcases hs with ⟨hd', hk0⟩ | ⟨-, hd', hk1⟩
      · rw [hd', hd] at hi
        rw [hk0, hi]
        rfl
      · rw [hd'] at hi
        rw [hk1, hi]
        rfl

/-! ## The absolute clock -/

/-- Settles O19: within the frame S.ts alone moves; past it the wrap moves EOF cycles into the frame counter. -/
theorem absoluteClockCountsEveryCycle : Obligations.AbsoluteClockCountsEveryCycle := by
  intro i s t hb hno e hm
  rw [← absTick_add, ← Nat.add_assoc]
  show absTick t.P t.frame t.ts = absTick s.P s.frame (requestEnd i s)
  cases busRequest_ends hb e with
  | faulted f u _ _ _ _ eq => rw [eq] at hm; exact absurd (takeFault_mode f u) hm
  | within r u hk _ _ _ eq =>
    have hcfg : u.cfg = s.cfg := hk.cfg.trans (intCheck_cfg s)
    have hframe : u.frame = s.frame := hk.frame.trans (intCheck_frame s)
    subst eq
    show absTick u.cfg.params u.frame (requestEnd i s) = _
    rw [hcfg, hframe]
  | past r u v hk _ _ hpast hv e =>
    have hd : v.deferred = s.deferred := hv.deferred.trans (hk.deferred.trans (intCheck_deferred s))
    have hcfg : v.cfg = s.cfg := hv.cfg.trans (hk.cfg.trans (intCheck_cfg s))
    have hframe : v.frame = s.frame := hv.frame.trans (hk.frame.trans (intCheck_frame s))
    obtain ⟨hts, htc, htf, -⟩ := applyAll_clock (hd ▸ hno) e
    obtain ⟨hts', htc', -, -, htf', -⟩ := frameTail_clock v
    have hsplit : s.P.eof + (requestEnd i s - s.P.eof) = requestEnd i s := Nat.add_sub_cancel' hpast
    rw [State.P, htc, hts, htf, htc', hts', htf', State.P, hcfg, hframe, hv.ts, setTs_ts, absTick_next, hsplit]

/-! ## The frame end -/

theorem attachIndex_eq (pos : BitVec 8) (chain : List Node) :
    attachIndex pos chain = if pos = 0xFF#8 ∨ chain.length ≤ pos.toNat then chain.length else pos.toNat := by
  unfold attachIndex
  by_cases hpos : pos = 0xFF#8
  · rw [if_pos hpos, if_pos (.inl hpos)]
  · rw [if_neg hpos]
    by_cases hle : chain.length ≤ pos.toNat
    · rw [if_pos (.inr hle), Nat.min_eq_right hle]
    · rw [if_neg (not_or.2 ⟨hpos, hle⟩), Nat.min_eq_left (Nat.le_of_not_le hle)]

theorem applyAll_cons_ok {m : Mutation} {rest : List Mutation} {s u : State} {v : Value}
    (h : applyMutation m (s.setDeferred rest) = .ok v u) : applyAll (m :: rest) s = applyAll rest (emit (.applied v) u) := by
  rw [applyAll, h]
  rfl

theorem applyAll_cons_raised {m : Mutation} {rest : List Mutation} {s u : State} {f : FaultRec}
    (h : applyMutation m (s.setDeferred rest) = .raised f u) : applyAll (m :: rest) s = .raised f u := by
  rw [applyAll, h]
  rfl

/-- R271, R273: with nothing deferred, a detach of a node of the chain is valid and acts at a boundary. -/
theorem exec_hdetach_now {s : State} {h : Addr} (hd : s.deferred = []) (hat : s.atBoundary = true) (hh : h ∈ handles s.chain) :
    exec (.hdetach h) s = endCommand ((applyMutation (.detach h) s).bind fun v u => .ok () (respond (.done v) u)) := by
  have hv : invalid (.detach h) (projected s) = none := by
    rw [projected_eq_self hd]
    exact if_pos (by simpa using hh)
  rw [exec, execHdetach, hostMutation_now hv (actsNow_of_boundary hat _)]
  rfl

/-- R221, R222: steps 4 to 6 of the frame end as one update. -/
theorem frameTail_eq (u : State) : frameWrap (rollOver (renderFrame u)) = { u with
    ts := u.ts - u.P.eof, frame := u.frame + 1, intDone := false, mode := .running, atBoundary := true
    border0 := u.borderAt ((u.P.eof : Int) - 1), borderEv := carryEvents u.P.eof u.borderEv
    audio := u.audio.roll u.P u.frame.toNat, vcache := (renderVideo u).vcache.map clearLine
    out := u.out ++ [.frame (renderVideo u).frameBuffer
      (audioRender u.P u.frame.toNat (u.args.gainVal u.frame) (u.args.synthVal u.frame) u.audio)] } := by
  rw [frameWrap_rollOver_renderFrame]
  simp only [State.setVcache, State.setOut, State.setBorder0, State.setBorderEv, State.setAudio, State.setTs,
    State.setFrame, State.setIntDone, State.setMode, State.setAtBoundary]

/-- Settles O18: the frame end field by field, and the deferred mutations in order. -/
theorem frameEndRunsItsSteps : Obligations.FrameEndRunsItsSteps := by
  refine ⟨fun s => finaliseInterrupt_eq s, fun s u h => ?_, fun s => rfl, fun m rest s u v => applyAll_cons_ok,
    fun m rest s u f => applyAll_cons_raised, fun s => ⟨fun h pos impl => ?_, fun h => exec_hdetach_now, fun v => rfl,
      fun img => rfl, fun e n rest hw => ?_, fun args => rfl, fun w => rfl⟩, fun s hchain hdef => ?_⟩
  · rw [frameEnd_of_calls h, frameTail_eq, carryEvents]
  · rw [← attachIndex_eq]
    rfl
  · rw [applyMutation, hw]
    rfl
  · have hb : boundaryCalls (finaliseInterrupt s) = .ok () (finaliseInterrupt s) := by
      unfold boundaryCalls
      rw [finaliseInterrupt_eq]
      simp [hchain, boundaryFrom]
    obtain ⟨-, -, -, -, hd, -⟩ := finaliseInterrupt_clock s
    rw [frameEnd_of_calls hb, hd, hdef]
    exact ⟨_, rfl, rfl⟩

/-! ## Internal cycles -/

/-- R174: the phases of an internal cycle are contended one after the other. -/
theorem internalWait_add (e : Engine) (a : Addr) (j k ts : Nat) :
    e.internalWait a (j + k) ts = e.internalWait a j ts + e.internalWait a k (ts + e.internalWait a j ts + j) := by
  cases hc : e.contendedAddr a with
  | false => simp [internalWait_of_not_contended hc]
  | true =>
    induction j generalizing ts with
    | zero => simp [internalWait_zero]
    | succ j ih =>
      have hstart : ts + contentionWrap e.cfg.params ts + 1 + e.internalWait a j (ts + contentionWrap e.cfg.params ts + 1) + j =
          ts + (contentionWrap e.cfg.params ts + e.internalWait a j (ts + contentionWrap e.cfg.params ts + 1)) + (j + 1) := by
        omega
      rw [Nat.add_right_comm, internalWait_succ hc, internalWait_succ hc, ih, hstart]
      exact (Nat.add_assoc ..).symm

/-- R174: an internal cycle that ends within the frame. -/
theorem minternal_within {s t : State} {a : Addr} {n : BitVec 8} (hts : s.ts < s.P.eof)
    (hend : requestEnd (.minternal a n) s < s.P.eof) (e : exec (.minternal a n) s = .next t) :
    t = answered (.wait (s.internalWait a n.toNat s.ts)) (s.internalWait a n.toNat s.ts) n.toNat (intCheck s) := by
  have hin : (intCheck s).ts + s.internalWait a n.toNat s.ts + n.toNat < (intCheck s).P.eof := by
    rw [State.P, intCheck_cfg, intCheck_ts]
    exact hend
  have he := (internalCyclesWaitPerPhase.1 s a n hts).1 hin
  rw [e] at he
  exact Host.Outcome.next.inj he

/-- Settles O22: the waits add up phase by phase, and the first of two internal cycles leaves only the clock for the second. -/
theorem internalCyclesSplit : Obligations.InternalCyclesSplit := by
  refine ⟨internalWait_add, fun s t u v a j k hjk hts hend et eu ev => ?_⟩
  have hsum : (j + k).toNat = j.toNat + k.toNat := by
    rw [BitVec.toNat_add]
    exact Nat.mod_eq_of_lt (by omega)
  have hwait := internalWait_add s.toEngine a j.toNat k.toNat s.ts
  have hends : requestEnd (.minternal a (j + k)) s = s.ts + s.internalWait a j.toNat s.ts + j.toNat +
      s.internalWait a k.toNat (s.ts + s.internalWait a j.toNat s.ts + j.toNat) + k.toNat := by
    show s.ts + s.internalWait a (j + k).toNat s.ts + (j + k).toNat = _
    rw [hsum, hwait]
    omega
  have hj : s.ts + s.internalWait a j.toNat s.ts + j.toNat < s.P.eof := by omega
  have ht := minternal_within hts hend et
  have hu := minternal_within hts hj eu
  have huts : u.ts = s.ts + s.internalWait a j.toNat s.ts + j.toNat := by
    rw [hu, answered, setTs_ts, intCheck_ts]
  have hucfg : u.cfg = s.cfg := by
    rw [hu, answered, setTs_cfg, respond_cfg, intCheck_cfg]
  have huwait : ∀ n t, u.internalWait a n t = s.internalWait a n t := fun n t => by
    rw [hu]
    exact intCheck_internalWait s a n t
  have huend : requestEnd (.minternal a k) u = requestEnd (.minternal a (j + k)) s := by
    rw [hends]
    show u.ts + u.internalWait a k.toNat u.ts + k.toNat = _
    rw [huwait, huts]
  have hv := minternal_within (by rw [State.P, hucfg, huts]; exact hj) (by rw [huend, State.P, hucfg]; exact hend) ev
  have hvts : v.ts = requestEnd (.minternal a k) u := by rw [hv, answered, setTs_ts, intCheck_ts]; rfl
  have htts : t.ts = requestEnd (.minternal a (j + k)) s := by rw [ht, answered, setTs_ts, intCheck_ts]; rfl
  rw [hvts, htts, huend]

end Sys2Proof.Machine
end

section
/-! PROOFS of the device-chain and port families: the walks of the chain (R197 to R200, R223), the answerer of a read (R186), and
where a write goes (R187). -/

namespace Sys2Proof.Machine

open Sys2Proof.Claims

/-! ## What a walk leaves alone -/

theorem WalkKeeps.eq {s t : State} (h : WalkKeeps s t) :
    t = { s with chain := t.chain, audio := t.audio, devConflict := t.devConflict } := by
  rw [h.state]
  rfl

/-- A walk that leaves the conflict flag changes the devices and the audio state alone. -/
theorem WalkKeeps.eq_of_conflict {s t : State} (h : WalkKeeps s t) (hc : t.devConflict = s.devConflict) :
    t = { s with chain := t.chain, audio := t.audio } := by
  have e := h.eq
  rw [hc] at e
  exact e

/-! ## One access of a node -/

section OneAccess

variable {P : Params} {f : Tick} {t : Nat} {n : Node} {a : Audio} {c : NodeCtx}

/-- R256: a device operation that completes has handled its edges. -/
theorem settleReply_eq_ok {α : Type} {r : DevReply α} {v : α} (h : settleReply P f t n a r = .ok v c) :
    v = r.ret ∧ c.1 = { n with dev := r.dev } ∧ deviceEdges P f n.id t r.edges a = .ok () c.2 := by
  unfold settleReply at h
  cases hd : deviceEdges P f n.id t r.edges a with
  | ok u a' => rw [hd] at h; cases h; exact ⟨rfl, rfl, rfl⟩
  | raised e a' => rw [hd] at h; cases h

/-- R200: a sync that completes has converted the instant, advanced the device and handled its edges. -/
theorem syncNode_eq_ok {x : DevTime} {g : Tick} {u : Nat} (hi : normInstant P f t = (g, u)) (h : syncNode P f t n a = .ok x c) :
    convInstant P n.clock g u = some x ∧ ∃ a', deviceEdges P f n.id t (advanceTo n.ops n.dev x).edges a = .ok () a' ∧
      c = ({ n with dev := (advanceTo n.ops n.dev x).dev, last := absTick P g u }, a') := by
  unfold syncNode at h
  rw [hi] at h
  dsimp only at h
  split at h
  · cases h
  · split at h
    · cases h
    · next y hy =>
      obtain ⟨_, d, hs, h⟩ := Res.bind_eq_ok h
      obtain ⟨-, hd, hedges⟩ := settleReply_eq_ok hs
      cases h
      exact ⟨hy, d.2, hedges, by rw [hd]⟩

/-- R198, R199, R222 step 3: whatever is asked of a node after its sync, one access brings it to the instant and asks once. -/
theorem accessed_of_bind {α : Type} {g : Tick} {u : Nat} {r : α} (reply : DevOps → DevState → DevTime → DevReply α)
    (hi : normInstant P f t = (g, u))
    (h : (syncNode P f t n a).bind (fun x c => settleReply P f t c.1 c.2 (reply c.1.ops c.1.dev x)) = .ok r c) :
    ∃ x a', convInstant P n.clock g u = some x ∧
      Accessed P f t n a x a' (absTick P g u) (reply n.ops (advanceTo n.ops n.dev x).dev x) r c := by
  obtain ⟨x, d, hs, h⟩ := Res.bind_eq_ok h
  obtain ⟨hconv, a', hadv, rfl⟩ := syncNode_eq_ok hi hs
  obtain ⟨hr, hc, hedges⟩ := settleReply_eq_ok h
  exact ⟨x, a', hconv, hadv, hr, hc, hedges⟩

theorem readNode_accessed {p : Addr} {g : Tick} {u : Nat} {r : Option Byte} (hi : normInstant P f t = (g, u))
    (h : readNode P f p t n a = .ok r c) : ∃ x a', convInstant P n.clock g u = some x ∧
      Accessed P f t n a x a' (absTick P g u) (answerRead n.ops (advanceTo n.ops n.dev x).dev p x) r c :=
  accessed_of_bind (fun o d x => answerRead o d p x) hi h

theorem writeNode_accessed {p : Addr} {v r : Byte} {g : Tick} {u : Nat} (hi : normInstant P f t = (g, u))
    (h : writeNode P f p t v n a = .ok r c) : ∃ x a', convInstant P n.clock g u = some x ∧
      Accessed P f t n a x a' (absTick P g u) (answerWrite n.ops (advanceTo n.ops n.dev x).dev p v x) r c :=
  accessed_of_bind (fun o d x => answerWrite o d p v x) hi h

theorem boundaryNode_accessed {g : Tick} {u : Nat} (hi : normInstant P f P.eof = (g, u))
    (h : boundaryNode P f n a = .ok () c) : ∃ x a', convInstant P n.clock g u = some x ∧
      Accessed P f P.eof n a x a' (absTick P g u) (onFrameBoundary n.ops (advanceTo n.ops n.dev x).dev x) () c :=
  accessed_of_bind (fun o d x => onFrameBoundary o d x) hi h

/-- R198: what a node answers to a read depends on its own state alone. -/
theorem claimOf_of_readNode {p : Addr} {r : Option Byte} (h : readNode P f p t n a = .ok r c) : claimOf P f p t n = r := by
  obtain ⟨x, a', hconv, -, hr, -⟩ := readNode_accessed (g := (normInstant P f t).1) (u := (normInstant P f t).2) rfl h
  rw [claimOf, hconv, hr]
  rfl

end OneAccess

/-! ## Walks node by node -/

section Walks

variable {P : Params} {f : Tick} {p : Addr} {td : Nat}

/-- R198: a read walk that completes has made one access of every node, and its value is the first claim. -/
theorem chainReadFrom_eq_ok {post pre : List Node} {r v : Option Byte} {s u : State} (hP : s.P = P) (hf : s.frame = f)
    (hs : s.chain = pre ++ post) (h : chainReadFrom p td pre post r s = .ok v u) :
    v = r.or (post.findSome? (claimOf P f p td)) ∧ ∃ post' : List Node, u.chain = pre ++ post' ∧
      ∀ (i : Nat) n, post[i]? = some n → ∃ a r' c, readNode P f p td n a = .ok r' c ∧ post'[i]? = some c.1 := by
  induction post generalizing pre r s with
  | nil =>
    cases h
    exact ⟨by simp, [], hs, fun i n hn => by simp at hn⟩
  | cons m post ih =>
    unfold chainReadFrom at h
    rw [hP, hf] at h
    cases hm : readNode P f p td m s.audio with
    | raised e c => rw [hm] at h; cases h
    | ok w c =>
      rw [hm] at h
      have hclaim := claimOf_of_readNode hm
      obtain ⟨r', s', hP', hf', hs', hor, hrest⟩ : ∃ r' s', s'.P = P ∧ s'.frame = f ∧ s'.chain = (pre ++ [c.1]) ++ post ∧
          r' = r.or w ∧ chainReadFrom p td (pre ++ [c.1]) post r' s' = .ok v u := by
        cases w with
        | none => exact ⟨r, putNode pre post s c, hP, hf, putNode_chain .., by simp, h⟩
        | some b =>
          cases r with
          | none => exact ⟨some b, putNode pre post s c, hP, hf, putNode_chain .., rfl, h⟩
          | some b0 =>
            obtain ⟨_, x, hx, h⟩ := Res.bind_eq_ok h
            rw [(doubleClaim_eq_ok hx).2] at h
            exact ⟨some b0, (putNode pre post s c).setDevConflict true, hP, hf, putNode_chain pre post s c, rfl, h⟩
      obtain ⟨hv, post', hchain, hall⟩ := ih hP' hf' hs' hrest
      refine ⟨?_, c.1 :: post', by simp [hchain], fun i n hn => ?_⟩
      · rw [hv, hor, List.findSome?_cons, hclaim]
        cases r <;> cases w <;> rfl
      · cases i with
        | zero => cases hn; exact ⟨_, w, c, hm, rfl⟩
        | succ i => exact hall i n hn

theorem boundaryFrom_eq_ok {post pre : List Node} {s u : State} (hP : s.P = P) (hf : s.frame = f) (hs : s.chain = pre ++ post)
    (h : boundaryFrom pre post s = .ok () u) : ∃ post' : List Node, u.chain = pre ++ post' ∧
      ∀ (i : Nat) n, post[i]? = some n → ∃ a c, boundaryNode P f n a = .ok () c ∧ post'[i]? = some c.1 := by
  induction post generalizing pre s with
  | nil =>
    cases h
    exact ⟨[], hs, fun i n hn => by simp at hn⟩
  | cons m post ih =>
    unfold boundaryFrom at h
    rw [hP, hf] at h
    cases hm : boundaryNode P f m s.audio with
    | raised e c => rw [hm] at h; cases h
    | ok w c =>
      rw [hm] at h
      obtain ⟨post', hchain, hall⟩ := ih (s := putNode pre post s c) hP hf (putNode_chain ..) h
      refine ⟨c.1 :: post', by simp [hchain], fun i n hn => ?_⟩
      cases i with
      | zero => cases hn; exact ⟨_, c, hm, rfl⟩
      | succ i => exact hall i n hn

/-- R199: a write walk that completes has offered each node the value that the node before it forwards. -/
theorem chainWriteFrom_eq_ok {post pre : List Node} {v : Byte} {s u : State} (hP : s.P = P) (hf : s.frame = f)
    (hs : s.chain = pre ++ post) (h : chainWriteFrom p td pre post v s = .ok () u) :
    ∃ (post' : List Node) (vs : List Byte), u.chain = pre ++ post' ∧ vs[0]? = some v ∧ ∀ (i : Nat) n, post[i]? = some n → ∃ w w' a c,
      vs[i]? = some w ∧ writeNode P f p td w n a = .ok w' c ∧ vs[i + 1]? = some w' ∧ post'[i]? = some c.1 := by
  induction post generalizing pre v s with
  | nil =>
    cases h
    exact ⟨[], [v], hs, rfl, fun i n hn => by simp at hn⟩
  | cons m post ih =>
    unfold chainWriteFrom at h
    rw [hP, hf] at h
    cases hm : writeNode P f p td v m s.audio with
    | raised e c => rw [hm] at h; cases h
    | ok w c =>
      rw [hm] at h
      obtain ⟨post', vs, hchain, hw, hall⟩ := ih (s := putNode pre post s c) hP hf (putNode_chain ..) h
      refine ⟨c.1 :: post', v :: vs, by simp [hchain], rfl, fun i n hn => ?_⟩
      cases i with
      | zero => cases hn; exact ⟨v, w, _, c, rfl, hm, hw, rfl⟩
      | succ i => exact hall i n hn

end Walks

/-- R198, R199, R222 step 3: the walks one node at a time. -/
theorem walks_cons (p : Addr) (v : Byte) (te : Nat) (pre post : List Node) (n : Node) (s : State) :
    (∀ v' c, writeNode s.P s.frame p te v n s.audio = .ok v' c →
      chainWriteFrom p te pre (n :: post) v s = chainWriteFrom p te (pre ++ [c.1]) post v' (putNode pre post s c)) ∧
    (∀ f c, writeNode s.P s.frame p te v n s.audio = .raised f c →
      chainWriteFrom p te pre (n :: post) v s = .raised f (putNode pre post s c)) ∧
    (∀ r c, readNode s.P s.frame p te n s.audio = .ok none c →
      chainReadFrom p te pre (n :: post) r s = chainReadFrom p te (pre ++ [c.1]) post r (putNode pre post s c)) ∧
    (∀ r f c, readNode s.P s.frame p te n s.audio = .raised f c →
      chainReadFrom p te pre (n :: post) r s = .raised f (putNode pre post s c)) ∧
    (∀ c, boundaryNode s.P s.frame n s.audio = .ok () c →
      boundaryFrom pre (n :: post) s = boundaryFrom (pre ++ [c.1]) post (putNode pre post s c)) ∧
    (∀ f c, boundaryNode s.P s.frame n s.audio = .raised f c →
      boundaryFrom pre (n :: post) s = .raised f (putNode pre post s c)) := by
  refine ⟨fun v' c h => ?_, fun f c h => ?_, fun r c h => ?_, fun r f c h => ?_, fun c h => ?_, fun f c h => ?_⟩
  · rw [chainWriteFrom, h]
  · rw [chainWriteFrom, h]
  · rw [chainReadFrom, h]
  · rw [chainReadFrom, h]
  · rw [boundaryFrom, h]
  · rw [boundaryFrom, h]

/-- Settles O34: the frame from what a walk keeps, the accesses by induction along the chain. -/
theorem chainCallsKeepTheChain : Obligations.ChainCallsKeepTheChain := by
  refine ⟨fun p td s => ⟨(chainRead_keeps p td s).eq, (chainRead_keeps p td s).wiring, fun r u h => ?_⟩,
    fun p v te s => ⟨(chainWrite_keeps p v te s).eq_of_conflict (chainWrite_conflict p v te s),
      (chainWrite_keeps p v te s).wiring, fun u h => ?_⟩,
    fun s => ⟨(boundaryCalls_keeps s).eq_of_conflict (boundaryCalls_conflict s), (boundaryCalls_keeps s).wiring,
      fun u h heof n hn => ?_⟩,
    fun P f t n a g u hi => ⟨fun p r c h => readNode_accessed hi h, fun p v r c h => writeNode_accessed hi h⟩,
    fun P f n a c g u hi h => boundaryNode_accessed hi h, fun p td s u r h => ?_, fun s u h => ?_, fun p v te s u h => ?_,
    walks_cons⟩
  · exact (chainRead_walkedTo p td s).last r u h
  · exact (chainWrite_walkedTo p v te s).last () u h
  · rw [(boundaryCalls_walkedTo s).last () u h n hn, tickAt, normInstant_of_next s.frame (Nat.le_refl _) (by omega),
      Nat.sub_self]
  · obtain ⟨-, post', hchain, hall⟩ := chainReadFrom_eq_ok rfl rfl rfl h
    rw [hchain]
    exact hall
  · obtain ⟨post', hchain, hall⟩ := boundaryFrom_eq_ok rfl rfl rfl h
    rw [hchain]
    exact hall
  · obtain ⟨post', vs, hchain, hv, hall⟩ := chainWriteFrom_eq_ok rfl rfl rfl h
    rw [hchain]
    exact ⟨vs, hv, hall⟩

/-! ## Port reads -/

section PortRead

variable {s : State} {p : Addr}

theorem readWrapper_of_first {wrap pre post : List WrapNode} {n : WrapNode} (hw : wrap = pre ++ n :: post)
    (hpre : ∀ m ∈ pre, (m.enabled && wrapSelR m.impl p) = false) (hn : (n.enabled && wrapSelR n.impl p) = true) :
    readWrapper wrap p = some n := by
  have hnone : pre.find? (fun n => n.enabled && wrapSelR n.impl p) = none :=
    List.find?_eq_none.2 fun m hm => by rw [hpre m hm]; exact Bool.false_ne_true
  rw [readWrapper, hw, List.find?_append, hnone, Option.none_or]
  exact List.find?_cons_of_pos hn

theorem readWrapper_eq_none {wrap : List WrapNode} (h : ∀ n ∈ wrap, (n.enabled && wrapSelR n.impl p) = false) :
    readWrapper wrap p = none :=
  List.find?_eq_none.2 fun n hn => by rw [h n hn]; exact Bool.false_ne_true

theorem ulaSel_eq (p : Addr) : ulaSel p = !p.getLsbD 0 := rfl

theorem portRead_of_wrapper {n : WrapNode} (h : readWrapper s.wrap p = some n) (td : Nat) :
    portRead p td s = .ok (wrapRead n.impl n.st p td) s := by
  unfold portRead
  rw [h]

theorem portRead_of_ula (hw : readWrapper s.wrap p = none) (hu : ulaSel p = true) (td : Nat) :
    portRead p td s = .ok (ulaRead p td s) s := by
  unfold portRead
  rw [hw, hu]
  rfl

/-- The floating bus does not see the devices. -/
theorem WalkKeeps.floatingBus {s t : State} (h : WalkKeeps s t) (x : Nat) : t.floatingBus x = s.floatingBus x := by
  rw [h.state]
  rfl

/-- R186: a read whose access completes responds with the byte. -/
theorem iord_endsWith {v : Byte} {u : State} (hts : s.ts < s.P.eof)
    (h : portRead p (dataInstant s.P s.ts (s.ioWait s.ts p)) (intCheck s) = .ok v u) :
    endsWith (.data v (s.ioWait s.ts p)) (s.ioWait s.ts p) 4 u (exec (.iord p) s) := by
  rw [exec_iord hts, h]
  exact endsWith_sequencerStep ..

end PortRead

/-- Settles O30: each branch of `portRead` is one answerer; the chain's value is the first claim. -/
theorem portReadsHaveOneAnswerer : Obligations.PortReadsHaveOneAnswerer := by
  intro s p hts w td
  have hwrap : readWrapper (intCheck s).wrap p = readWrapper s.wrap p := by rw [intCheck_wrap]
  have hula : ∀ {b}, p.getLsbD 0 = b → ulaSel p = !b := fun h => by rw [ulaSel_eq, h]
  have hchain : ∀ r u, readWrapper s.wrap p = none → p.getLsbD 0 = true → chainRead p td (intCheck s) = .ok r u →
      r = s.chain.findSome? (claimOf s.P s.frame p td) ∧
        endsWith (.data (r.getD (s.floatingBus td)) w) w 4 u (exec (.iord p) s) := by
    intro r u hw hp h
    have hk := chainRead_keeps p td (intCheck s)
    rw [h] at hk
    obtain ⟨hr, -⟩ := chainReadFrom_eq_ok (P := s.P) (f := s.frame) (by rw [State.P, intCheck_cfg]) (intCheck_frame s) rfl h
    rw [Option.none_or, intCheck_chain] at hr
    refine ⟨hr, iord_endsWith hts ?_⟩
    have hbus : u.floatingBus td = s.floatingBus td := (hk.floatingBus td).trans (intCheck_floatingBus s td)
    rw [portRead_of_chain (hwrap.trans hw) (hula hp), ← hbus]
    show (chainRead p td (intCheck s)).bind _ = _
    rw [h]
    rfl
  refine ⟨fun pre n post hw hpre hen hsel => readWrapper_of_first hw hpre (by rw [hen, hsel]; rfl), readWrapper_eq_none,
    fun n hw => iord_endsWith hts (portRead_of_wrapper (hwrap.trans hw) td), fun hw hp => ?_, fun hw hp hc => ?_,
    fun r u hw hp h => ?_, fun f u hw hp h => ?_⟩
  · refine ⟨_, _, rfl, iord_endsWith hts ?_⟩
    rw [portRead_of_ula (hwrap.trans hw) (hula hp), ulaRead, intCheck_frame, intCheck_args, State.P, intCheck_cfg]
    rfl
  · have h : chainRead p td (intCheck s) = .ok none (intCheck s) := by
      rw [chainRead, intCheck_chain, hc]
      rfl
    exact (hchain none _ hw hp h).2
  · obtain ⟨hr, hend⟩ := hchain r u hw hp h
    exact ⟨hr, hr ▸ hend⟩
  · rw [exec_iord hts, portRead_of_chain (hwrap.trans hw) (hula hp)]
    show endRequest (((chainRead p td (intCheck s)).bind _).bind _) = _
    rw [h]
    rfl

/-! ## Port writes -/

section PortWrite

variable {s : State} {p : Addr} {d : Byte} {te : Nat}

theorem wrapTakesWrite_eq_false {wrap : List WrapNode} (h : ∀ n ∈ wrap, (n.enabled && wrapSelW n.impl p) = false) :
    wrapTakesWrite wrap p = false :=
  List.any_eq_false.2 fun n hn => by rw [h n hn]; exact Bool.false_ne_true

theorem pagSel_iff {P : Params} : pagSel P p = true ↔ P.paging ≠ none ∧ p.getLsbD 15 = false ∧ p.getLsbD 1 = false := by
  rw [pagSel, Bool.and_eq_true, Bool.and_eq_true, Bool.not_eq_true', Bool.not_eq_true', Option.isSome_iff_ne_none, and_assoc]

/-- R285, R291: the outermost enabled wrapper that selects the write takes it. -/
theorem wrapWriteAll_of_first {pre post : List WrapNode} {n : WrapNode}
    (hpre : ∀ m ∈ pre, (m.enabled && wrapSelW m.impl p) = false) (hn : (n.enabled && wrapSelW n.impl p) = true) :
    wrapWriteAll p d te (pre ++ n :: post) = pre ++ { n with st := wrapWrite n.impl n.st p d te } :: post := by
  induction pre with
  | nil => rw [List.nil_append, wrapWriteAll, if_pos hn]; rfl
  | cons m pre ih =>
    rw [List.cons_append, wrapWriteAll, hpre m List.mem_cons_self, if_neg Bool.false_ne_true,
      ih fun m hm => hpre m (List.mem_cons_of_mem _ hm)]
    rfl

theorem decodersWrite_of_chipset (h : wrapTakesWrite s.wrap p = false) : decodersWrite p d te s = chipsetWrite p d te s := by
  rw [decodersWrite, h, if_neg Bool.false_ne_true]

theorem decodersWrite_of_first {pre post : List WrapNode} {n : WrapNode} (hw : s.wrap = pre ++ n :: post)
    (hpre : ∀ m ∈ pre, (m.enabled && wrapSelW m.impl p) = false) (hn : (n.enabled && wrapSelW n.impl p) = true) :
    decodersWrite p d te s = s.setWrap (pre ++ { n with st := wrapWrite n.impl n.st p d te } :: post) := by
  have ht : wrapTakesWrite s.wrap p = true :=
    List.any_eq_true.2 ⟨n, by rw [hw]; simp, hn⟩
  rw [decodersWrite, ht, if_pos rfl, hw, wrapWriteAll_of_first hpre hn]

/-- R187, R191, R193: the chipset's two decoders, each with its own port. -/
theorem chipsetWrite_of_sel {b q : Bool} (hu : ulaSel p = b) (hq : pagSel s.P p = q) : chipsetWrite p d te s =
    (if q then pagingWrite d (catchUp te (if b then ulaWrite d te s else s)) else if b then ulaWrite d te s else s) := by
  have hP : ∀ u : State, u.cfg = s.cfg → pagSel u.P p = q := fun u h => by rw [State.P, h]; exact hq
  have hcfg : (if b then ulaWrite d te s else s).cfg = s.cfg := by
    obtain ⟨evs, ear, mic, e⟩ := ulaWrite_keeps d te s
    cases b
    · rfl
    · rw [if_pos rfl, e]; rfl
  unfold chipsetWrite
  dsimp only
  rw [hu, hP _ hcfg]

/-- R187: a write whose walk completes responds with the wait. -/
theorem iowr_endsWith {v : State} (hts : s.ts < s.P.eof)
    (h : portWrite p d (dataInstant s.P s.ts (s.ioWait s.ts p)) (intCheck s) = .ok () v) :
    endsWith (.wait (s.ioWait s.ts p)) (s.ioWait s.ts p) 4 v (exec (.iowr p d) s) := by
  rw [exec_iowr hts, h]
  exact endsWith_sequencerStep ..

end PortWrite

/-- Settles O31: the decoders of the chipset or the outermost wrapper, and then the walk. -/
theorem portWritesReachDecodersAndChain : Obligations.PortWritesReachDecodersAndChain := by
  intro s p d hts w te s1
  have hwrap : s1.wrap = s.wrap := intCheck_wrap s
  have hpag : ∀ {q}, pagSel s.P p = q → pagSel s1.P p = q := fun h => by rw [State.P, intCheck_cfg]; exact h
  have hula : ∀ {b}, p.getLsbD 0 = b → ulaSel p = !b := fun h => by rw [ulaSel_eq, h]
  have hdec : ∀ {b q}, wrapTakesWrite s.wrap p = false → p.getLsbD 0 = b → pagSel s.P p = q → decodersWrite p d te s1 = _ :=
    fun ht hb hq => (decodersWrite_of_chipset (by rw [hwrap]; exact ht)).trans (chipsetWrite_of_sel (hula hb) (hpag hq))
  refine ⟨decodersWrite p d te s1, wrapTakesWrite_eq_false, pagSel_iff, hdec, hdec, hdec, hdec,
    fun pre n post hw hpre hen hsel => decodersWrite_of_first (hwrap.trans hw) hpre (by rw [hen, hsel]; rfl),
    fun hc => iowr_endsWith hts ?_, fun v h => iowr_endsWith hts h, fun f v h => ?_⟩
  · have hchain : (decodersWrite p d te s1).chain = [] := by rw [decodersWrite_chain, intCheck_chain, hc]
    rw [portWrite_eq, chainWrite]
    show chainWriteFrom p te [] (decodersWrite p d te s1).chain d (decodersWrite p d te s1) = _
    rw [hchain]
    rfl
  · rw [exec_iowr hts, portWrite_eq]
    show endRequest ((chainWrite p d te (decodersWrite p d te s1)).bind _) = _
    rw [h]
    rfl

end Sys2Proof.Machine
end

section
/-! PROOFS of the query family (R160 to R164, R203), and of what the requests may change: the frame of the I/O requests (R186, R187)
and of the memory requests, with the memory map (R84 to R90, R171 to R174). -/

namespace Sys2Proof.Machine

open Sys2Proof.Claims

/-! ## Queries -/

theorem answerQuery_inFrame {P : Params} {t : Nat} (h : t < P.eof) (op : QueryOp) (v : Value) (s : State) :
    endCommand (answerQuery (inFrame P op t v) s) = .next (respond (.done v) s) := by
  rw [inFrame, if_neg (Nat.not_le.2 h)]
  rfl

theorem answerQuery_outside {P : Params} {t : Nat} (h : P.eof ≤ t) (op : QueryOp) (v : Value) (s : State) :
    endCommand (answerQuery (inFrame P op t v) s) =
      let f : FaultRec := { code := .e1, info := .query op t (.below P.eof) }
      .next (respond (.faulted f) (takeFault f s)) := by
  rw [inFrame, if_pos h]
  rfl

/-- Settles O37: the five queries of a linear timestamp share one check of it; QTSLIN has its own. -/
theorem queriesAnswerOrFault : Obligations.QueriesAnswerOrFault := by
  intro s t line cycle p
  refine ⟨fun hl hc => ?_, fun h => ?_, fun h => ⟨?_, ?_, ?_, ?_, ?_⟩, fun h iq hiq => ?_⟩
  · rw [exec, execQtslin, if_neg (by omega)]
    rfl
  · rw [exec, execQtslin, if_pos h]
    rfl
  · exact answerQuery_inFrame h ..
  · exact answerQuery_inFrame h ..
  · exact answerQuery_inFrame h ..
  · exact answerQuery_inFrame h ..
  · exact answerQuery_inFrame h ..
  · simp only [List.mem_cons, List.not_mem_nil, or_false] at hiq
    rcases hiq with rfl | rfl | rfl | rfl | rfl <;> exact answerQuery_outside h ..

/-! ## What a request keeps -/

theorem intCheck_eq (s : State) :
    intCheck s = { s with atBoundary := false, intDone := (intCheck s).intDone, out := (intCheck s).out } := by
  rcases intCheck_cases s with h | h <;> rw [h] <;> rfl

theorem WalkKeeps.kept {s u : State} (h : WalkKeeps s u) : Kept (s.setDevConflict u.devConflict) u := by
  have hw := h.wiring
  rw [h.eq] at hw ⊢
  exact ⟨rfl, rfl, rfl, rfl, rfl, rfl, rfl, rfl, rfl, rfl, hw⟩

/-- R216: the end of a request with nothing deferred: whatever its access left is kept. -/
theorem Finishes.kept {w n : Nat} {acc : Res State Unit} {t : State} (h : Finishes w n acc t) (hd : acc.state.deferred = []) :
    Kept acc.state t := by
  rcases h with ⟨f, u, rfl, rfl⟩ | ⟨u, r, rfl, e⟩
  · exact takeFault_kept f u
  · exact (respond_kept r u).trans (endRequest_kept (sequencerStep_kept w n (respond r u) hd) e)

/-- R216: the end of a request within the frame. -/
theorem Finishes.within {w n : Nat} {acc : Res State Unit} {t : State} (h : Finishes w n acc t)
    (hin : acc.state.ts + w + n < acc.state.P.eof) :
    (∃ f, t = takeFault f acc.state) ∨ ∃ r, t = (respond r acc.state).setTs (acc.state.ts + w + n) := by
  rcases h with ⟨f, u, rfl, rfl⟩ | ⟨u, r, rfl, e⟩
  · exact .inl ⟨f, rfl⟩
  · have e : endRequest (sequencerStep w n (respond r u)) = .next t := e
    rw [sequencerStep_within (s := respond r u) hin] at e
    exact .inr ⟨r, (Host.Outcome.next.inj e).symm⟩

/-! ## The frame of the I/O requests -/

section IoFrame

variable {s t : State} {p : Addr} {d : Byte}

/-- The state after the access of an I/O read. -/
theorem portRead_state (p : Addr) (td : Nat) (s : State) : let u := (portRead p td (intCheck s)).state
    u = { s with
      intDone := u.intDone, atBoundary := false, out := u.out, chain := u.chain, devConflict := u.devConflict
      audio := { s.audio with chans := u.audio.chans } } := by
  intro u
  have hk : WalkKeeps (intCheck s) u := portRead_walk p td (intCheck s)
  rw [hk.state, intCheck_eq]
  rfl

theorem iord_finishes (hts : s.ts < s.P.eof) (e : exec (.iord p) s = .next t) :
    Finishes (s.ioWait s.ts p) 4 ((portRead p (dataInstant s.P s.ts (s.ioWait s.ts p)) (intCheck s)).bind fun _ u => .ok () u) t := by
  rw [exec_iord hts] at e
  exact bind_finishes e

theorem bind_ok_state {α : Type} (r : Res State α) : (r.bind fun _ u => (.ok () u : Res State Unit)).state = r.state := by
  cases r <;> rfl

theorem iowr_finishes (hts : s.ts < s.P.eof) (e : exec (.iowr p d) s = .next t) :
    Finishes (s.ioWait s.ts p) 4 (portWrite p d (dataInstant s.P s.ts (s.ioWait s.ts p)) (intCheck s)) t := by
  rw [exec_iowr hts] at e
  have hf := bind_finishes (resp := fun _ => .wait _) e
  rwa [Res.bind_ok_unit] at hf

/-- R187, R285: what the decoders or the wrapper change. -/
theorem decodersWrite_eq (p : Addr) (d : Byte) (te : Nat) (s : State) : let u := decodersWrite p d te s
    u = { s with ula := u.ula, paging := u.paging, borderEv := u.borderEv, audio := u.audio, vcache := u.vcache, wrap := u.wrap } := by
  intro u
  show decodersWrite p d te s = { s with
    ula := (decodersWrite p d te s).ula, paging := (decodersWrite p d te s).paging, borderEv := (decodersWrite p d te s).borderEv
    audio := (decodersWrite p d te s).audio, vcache := (decodersWrite p d te s).vcache, wrap := (decodersWrite p d te s).wrap }
  unfold decodersWrite
  split
  · rfl
  · obtain ⟨vc, q, evs, ear, mic, b, h⟩ := chipsetWrite_keeps p d te s
    rw [h]
    rfl

theorem portWrite_walk (p : Addr) (d : Byte) (te : Nat) (s : State) :
    WalkKeeps (decodersWrite p d te s) (portWrite p d te s).state ∧ (portWrite p d te s).state.devConflict = s.devConflict := by
  rw [portWrite_eq]
  refine ⟨chainWrite_keeps p d te _, (chainWrite_conflict p d te _).trans ?_⟩
  rw [decodersWrite_eq]

theorem Kept.setDevConflict {s t : State} (h : Kept s t) (b : Bool) : Kept (s.setDevConflict b) (t.setDevConflict b) :=
  ⟨h.cfg, h.ula, h.paging, rfl, h.pages, h.wrap, h.defd, h.args, h.inbox, h.oob, h.wir⟩

/-- An I/O read with nothing deferred, whole. -/
theorem iord_kept (hd : s.deferred = []) (e : exec (.iord p) s = .next t) : Kept (s.setDevConflict t.devConflict) t := by
  suffices h : ∃ b, Kept (s.setDevConflict b) t by
    obtain ⟨b, h⟩ := h
    have hb : t.devConflict = b := h.conf
    rwa [hb]
  by_cases hts : s.P.eof ≤ s.ts
  · rw [requestOutsideFrameFaults (.iord p) .iord s rfl hts] at e
    cases e
    exact ⟨s.devConflict, (intCheck_kept s).trans (takeFault_kept _ _)⟩
  · have hf := iord_finishes (Nat.lt_of_not_le hts) e
    have hk := portRead_walk p (dataInstant s.P s.ts (s.ioWait s.ts p)) (intCheck s)
    have hdef := hk.clockKept.deferred
    rw [← bind_ok_state] at hk hdef
    exact ⟨_, ((intCheck_kept s).setDevConflict _).trans (hk.kept.trans (hf.kept (hdef.trans ((intCheck_deferred s).trans hd))))⟩

/-- The state `s` with the registers and the wrappers that a port write of `t` has written. -/
def State.withPorts (s t : State) : State := ((s.setUla t.ula).setPaging t.paging).setWrap t.wrap

theorem Kept.withPorts {s t : State} (h : Kept s t) : Kept (s.withPorts t) t :=
  ⟨h.cfg, rfl, rfl, h.conf, h.pages, rfl, h.defd, h.args, h.inbox, h.oob, h.wir⟩

/-- An I/O write with nothing deferred, whole. -/
theorem iowr_kept (hd : s.deferred = []) (e : exec (.iowr p d) s = .next t) : Kept (s.withPorts t) t := by
  by_cases hts : s.P.eof ≤ s.ts
  · rw [requestOutsideFrameFaults (.iowr p d) .iowr s rfl hts] at e
    cases e
    exact ((intCheck_kept s).trans (takeFault_kept _ _)).withPorts
  · have hf := iowr_finishes (Nat.lt_of_not_le hts) e
    have hdef := (portWrite_clockKept p d (dataInstant s.P s.ts (s.ioWait s.ts p)) (intCheck s)).deferred
    obtain ⟨hk, hc⟩ := portWrite_walk p d (dataInstant s.P s.ts (s.ioWait s.ts p)) (intCheck s)
    have hkept := hk.kept.trans (hf.kept (hdef.trans ((intCheck_deferred s).trans hd)))
    rw [hc, decodersWrite_eq] at hkept
    have h0 := intCheck_kept s
    exact ⟨hkept.cfg.trans h0.cfg, rfl, rfl, hkept.conf.trans h0.conf, hkept.pages.trans h0.pages, rfl,
      hkept.defd.trans h0.defd, hkept.args.trans h0.args, hkept.inbox.trans h0.inbox, hkept.oob.trans h0.oob,
      hkept.wir.trans h0.wir⟩

/-- The state after the access of an I/O write. -/
theorem portWrite_state (p : Addr) (d : Byte) (te : Nat) (s : State) : let u := (portWrite p d te (intCheck s)).state
    u = { s with
      intDone := u.intDone, atBoundary := false, out := u.out, chain := u.chain, ula := u.ula, paging := u.paging
      borderEv := u.borderEv, audio := u.audio, vcache := u.vcache, wrap := u.wrap } ∧ wiring u.chain = wiring s.chain := by
  intro u
  obtain ⟨hk, hc⟩ := portWrite_walk p d te (intCheck s)
  have h1 := intCheck_eq s
  have h2 := decodersWrite_eq p d te (intCheck s)
  have hchain := decodersWrite_chain p d te (intCheck s)
  have h3 : u = { decodersWrite p d te (intCheck s) with chain := u.chain, audio := u.audio } :=
    hk.eq_of_conflict (hc.trans (by rw [h2]))
  refine ⟨?_, hk.wiring.trans (by rw [hchain, intCheck_chain]; rfl)⟩
  generalize decodersWrite p d te (intCheck s) = v at h2 h3
  generalize intCheck s = s1 at h1 h2
  rw [h3, h2, h1]

end IoFrame

/-- A fault or the response and the advance of S.ts, after the access (R216, R296). -/
theorem finished_eq {u t : State} {x : Nat} (h : (∃ f, t = takeFault f u) ∨ ∃ r, t = (respond r u).setTs x) :
    t = { u with ts := t.ts, out := t.out, mode := t.mode, fault := t.fault } := by
  rcases h with ⟨f, rfl⟩ | ⟨r, rfl⟩
  · rw [takeFault_eq]
  · rfl

/-- Settles O35: the access changes what the check, the decoders and the walk change; what follows keeps the rest. -/
theorem ioRequestFrame : Obligations.IoRequestFrame := by
  refine fun s t p d => ⟨fun e => ⟨fun hts hin => ?_, fun hd => ?_⟩, fun e => ⟨fun hts hin => ?_, fun hd => ?_⟩⟩
  · have hf := iord_finishes hts e
    have hk := portRead_walk p (dataInstant s.P s.ts (s.ioWait s.ts p)) (intCheck s)
    have hu := portRead_state p (dataInstant s.P s.ts (s.ioWait s.ts p)) s
    have hw := hk.wiring
    rw [← bind_ok_state] at hu hw hk
    have ht := finished_eq (hf.within (by rw [hk.clockKept.ts, State.P, hk.cfg, intCheck_ts, intCheck_cfg]; exact hin))
    rw [intCheck_chain] at hw
    generalize ((portRead p (dataInstant s.P s.ts (s.ioWait s.ts p)) (intCheck s)).bind _).state = u at *
    rw [ht]
    exact ⟨by rw [hu], hw⟩
  · exact ⟨(iord_kept hd e).eq, (iord_kept hd e).wir⟩
  · have hf := iowr_finishes hts e
    have hk := portWrite_clockKept p d (dataInstant s.P s.ts (s.ioWait s.ts p)) (intCheck s)
    obtain ⟨hu, hw⟩ := portWrite_state p d (dataInstant s.P s.ts (s.ioWait s.ts p)) s
    have ht := finished_eq (hf.within (by rw [hk.ts, State.P, hk.cfg, intCheck_ts, intCheck_cfg]; exact hin))
    generalize (portWrite p d (dataInstant s.P s.ts (s.ioWait s.ts p)) (intCheck s)).state = u at *
    rw [ht]
    exact ⟨by rw [hu], hw⟩
  · exact ⟨(iowr_kept hd e).eq, (iowr_kept hd e).wir⟩

/-! ## The memory map -/

section Map

variable {e : Engine}

theorem page_of_disabled (h : ∀ n ∈ e.wrap, n.enabled = false) (w : Nat) :
    e.page w = mapPage e.cfg.params e.pagingByte w := by
  have hnone : wrapMapPage e.cfg.params e.wrap e.pagingByte w = none :=
    List.findSome?_eq_none_iff.2 fun n hn => by rw [h n hn, if_neg Bool.false_ne_true]
  rw [Engine.page, hnone, Option.getD_none]

theorem page_of_override {w id : Nat} {pre post : List WrapNode} {n : WrapNode} (hw : e.wrap = pre ++ n :: post)
    (hn : n.enabled = true) (hpre : ∀ m ∈ pre, m.enabled = false)
    (ho : overridePage n.impl n.st (e.paging.getD 0) w = some id) (hok : e.cfg.params.pageOk id = true) : e.page w = id := by
  have hnone : pre.findSome? (fun n => if n.enabled then
      (overridePage n.impl n.st e.pagingByte w).filter e.cfg.params.pageOk else none) = none :=
    List.findSome?_eq_none_iff.2 fun m hm => by rw [hpre m hm, if_neg Bool.false_ne_true]
  have hone : (if n.enabled then (overridePage n.impl n.st e.pagingByte w).filter e.cfg.params.pageOk else none) = some id := by
    rw [if_pos hn, show overridePage n.impl n.st e.pagingByte w = some id from ho, Option.filter_some, if_pos hok]
  rw [Engine.page, wrapMapPage, hw, List.findSome?_append, hnone, Option.none_or, List.findSome?_cons, hone]
  rfl

theorem pick_const (id : Nat) (q : Byte) : (PageSel.const id).pick q = id := by
  simp [PageSel.const, PageSel.pick, Nat.mod_one]

/-- R86: a selector of one bit. -/
theorem pick_bit (lo x y : Nat) (q : Byte) :
    PageSel.pick { lo := lo, width := 1, pages := [x, y] } q = if q.getLsbD lo then y else x := by
  have hbit : q.getLsbD lo = decide (q.toNat / 2 ^ lo % 2 = 1) := Nat.testBit_eq_decide_div_mod_eq
  rw [PageSel.pick, hbit, Nat.pow_one]
  rcases Nat.mod_two_eq_zero_or_one (q.toNat / 2 ^ lo) with h | h <;> rw [h] <;> rfl

theorem mapPage_zx48 (q : Byte) : ∀ w, w < 4 → mapPage zx48 q w = w
  | 0, _ => pick_const 0 q
  | 1, _ => pick_const 1 q
  | 2, _ => pick_const 2 q
  | 3, _ => pick_const 3 q

theorem tags_zx48 : ∀ id, id < 4 → contendedPage zx48 id = decide (id = 1) ∧ writablePage zx48 id = decide (1 ≤ id) := by decide

theorem getD_banks (k : Nat) (h : k < 8) :
    [bank 0, bank 1, bank 2, bank 3, bank 4, bank 5, bank 6, bank 7].getD k 0 = bank k := by
  interval_cases k <;> rfl

theorem mapPage_zx128 (q : Byte) : mapPage zx128 q 0 = (if q.getLsbD 4 then 1 else 0) ∧ mapPage zx128 q 1 = bank 5 ∧
    mapPage zx128 q 2 = bank 2 ∧ mapPage zx128 q 3 = bank (q.toNat % 8) := by
  refine ⟨pick_bit 4 0 1 q, pick_const _ q, pick_const _ q, ?_⟩
  have hk := getD_banks (q.toNat % 8) (Nat.mod_lt _ (by decide))
  rw [← hk]
  show List.getD _ (q.toNat / 2 ^ 0 % 2 ^ 3) 0 = _
  rw [Nat.pow_zero, Nat.div_one]
  rfl

theorem tags_zx128 : ∀ k, k < 8 → writablePage zx128 (bank k) = true ∧ contendedPage zx128 (bank k) = decide (k % 2 = 1) := by
  decide

theorem rom_tags_zx128 (b : Bool) :
    writablePage zx128 (if b then 1 else 0) = false ∧ contendedPage zx128 (if b then 1 else 0) = false := by
  cases b <;> decide

theorem pageOf_zx48 (h : ∀ n ∈ e.wrap, n.enabled = false) (hP : e.cfg.params = zx48) (a : Addr) :
    e.pageOf a = a.toNat / 16384 := by
  have hw : a.toNat / 16384 < 4 := by omega
  rw [Engine.pageOf, page_of_disabled h, hP]
  exact mapPage_zx48 _ _ hw

/-- R84, R86: the page of an address on ZX128, by its window. -/
theorem pageOf_zx128 (h : ∀ n ∈ e.wrap, n.enabled = false) (hP : e.cfg.params = zx128) {w : Nat} {a : Addr}
    (hlo : w * 16384 ≤ a.toNat) (hhi : a.toNat < (w + 1) * 16384) : e.pageOf a = mapPage zx128 e.pagingByte w := by
  have hw : winOf zx128 a = w := Nat.div_eq_of_lt_le hlo hhi
  rw [Engine.pageOf, page_of_disabled h, hP, hw]

end Map

/-! ## The frame of the memory requests -/

/-- The state after the access of a memory request (R171 to R174). -/
def memoryAccess (i : Instr) (s : State) : State :=
  match i with
  | .mwrite a d _ => storeByte a d (s.ts + s.memWait a s.ts) (intCheck s)
  | _ => intCheck s

/-- The bus requests without ports. -/
def memoryRequest : Instr → Bool
  | .mfetch _ _ | .mread _ _ | .mwrite _ _ _ | .minternal _ _ => true
  | _ => false

section MemoryFrame

variable {i : Instr} {s t : State}

theorem memoryRequest_finishes (hi : memoryRequest i = true) (hts : s.ts < s.P.eof) (e : exec i s = .next t) :
    Finishes (requestWait i s) (requestPhases i) (.ok () (memoryAccess i s)) t := by
  cases i with
  | mfetch a n => rw [exec_mfetch hts] at e; exact finishes_ok e
  | mread a n => rw [exec_mread hts] at e; exact finishes_ok e
  | mwrite a d n => rw [exec_mwrite hts] at e; exact finishes_ok e
  | minternal a n => rw [exec_minternal hts] at e; exact finishes_ok e
  | _ => cases hi

theorem memoryAccess_of_not_write (h : ∀ a d n, i ≠ .mwrite a d n) (s : State) : memoryAccess i s = intCheck s := by
  cases i with
  | mwrite a d n => exact absurd rfl (h a d n)
  | _ => rfl

theorem storeByte_eq (a : Addr) (d : Byte) (tw : Nat) (s : State) :
    storeByte a d tw s = { s with pages := (storeByte a d tw s).pages, vcache := (storeByte a d tw s).vcache } := by
  rcases storeByte_cases a d tw s with ⟨-, e⟩ | ⟨-, -, e⟩ | ⟨-, -, e⟩ <;> rw [e] <;> rfl

theorem memoryAccess_eq (i : Instr) (s : State) : let u := memoryAccess i s
    u = { s with intDone := u.intDone, atBoundary := false, out := u.out, pages := u.pages, vcache := u.vcache } := by
  intro u
  by_cases h : ∃ a d n, i = .mwrite a d n
  · obtain ⟨a, d, n, rfl⟩ := h
    have h1 := intCheck_eq s
    have h2 : u = { intCheck s with pages := u.pages, vcache := u.vcache } := storeByte_eq a d _ (intCheck s)
    generalize intCheck s = s1 at h1 h2
    rw [h2, h1]
  · have hu : u = intCheck s := memoryAccess_of_not_write (fun a d n e => h ⟨a, d, n, e⟩) s
    have h1 := intCheck_eq s
    generalize intCheck s = s1 at hu h1
    rw [hu, h1]

theorem memoryAccess_kept (i : Instr) (s : State) : Kept (s.setPages (memoryAccess i s).pages) (memoryAccess i s) := by
  have h := memoryAccess_eq i s
  dsimp only at h
  generalize memoryAccess i s = u at h
  rw [h]
  exact ⟨rfl, rfl, rfl, rfl, rfl, rfl, rfl, rfl, rfl, rfl, rfl⟩

/-- R173: a store leaves every other byte. -/
theorem read_storeByte_other {a : Addr} {key : Nat} (hwf : s.pages.wf = true) (hk : key ≠ s.addrKey a) (d : Byte) (tw : Nat) :
    (storeByte a d tw s).pages.read key = s.pages.read key := by
  have hwrite : (s.pages.write (s.addrKey a) d).read key = s.pages.read key := by
    rw [Memory.read_write hwf, if_neg hk]
  rcases storeByte_cases a d tw s with ⟨-, e⟩ | ⟨-, -, e⟩ | ⟨-, -, e⟩ <;> rw [e]
  · exact hwrite
  · exact hwrite

theorem memoryAccess_pages (i : Instr) (s : State) :
    ((∀ a d n, i ≠ .mwrite a d n) → (memoryAccess i s).pages = s.pages) ∧
      (s.pages.wf = true → ∀ a d n, i = .mwrite a d n → ∀ key, key ≠ s.addrKey a →
        (memoryAccess i s).pages.read key = s.pages.read key) := by
  refine ⟨fun h => by rw [memoryAccess_of_not_write h, intCheck_pages], fun hwf a d n hi key hk => ?_⟩
  subst hi
  have hother := read_storeByte_other (s := intCheck s) (by rw [intCheck_pages]; exact hwf)
    (by rw [intCheck_addrKey]; exact hk) d (s.ts + s.memWait a s.ts)
  rwa [intCheck_pages] at hother

/-- A memory request with nothing deferred: what the access leaves is kept, or the check of R226 raised. -/
theorem memoryRequest_kept (hi : memoryRequest i = true) (hd : s.deferred = []) (e : exec i s = .next t) :
    Kept s t ∨ Kept (memoryAccess i s) t := by
  by_cases hts : s.P.eof ≤ s.ts
  · obtain ⟨op, hop⟩ : ∃ op, requestOp i = some op := by
      cases i with
      | mfetch | mread | mwrite | minternal => exact ⟨_, rfl⟩
      | _ => cases hi
    rw [requestOutsideFrameFaults i op s hop hts] at e
    cases e
    exact .inl ((intCheck_kept s).trans (takeFault_kept _ _))
  · refine .inr ((memoryRequest_finishes hi (Nat.lt_of_not_le hts) e).kept ?_)
    exact (memoryAccess_kept i s).defd.trans hd

theorem memoryRequest_within (hi : memoryRequest i = true) (hts : s.ts < s.P.eof) (hin : requestEnd i s < s.P.eof)
    (e : exec i s = .next t) : ∃ r, t = (respond r (memoryAccess i s)).setTs (requestEnd i s) := by
  have hk := memoryAccess_eq i s
  have hend : (memoryAccess i s).ts + requestWait i s + requestPhases i = requestEnd i s := by rw [hk]; rfl
  have heof : (memoryAccess i s).P.eof = s.P.eof := by rw [hk]
  rcases memoryRequest_finishes hi hts e with ⟨f, u, hu, -⟩ | ⟨u, r, hu, e⟩
  · cases hu
  · cases hu
    rw [sequencerStep_within (by rw [respond_ts, hend, State.P, respond_cfg]; exact heof ▸ hin)] at e
    refine ⟨r, ?_⟩
    rw [← Host.Outcome.next.inj e, respond_ts, hend]

end MemoryFrame

/-- Settles O28: the map window by window, and the frame from what the access and the frame end keep. -/
theorem memoryRequestFrame : Obligations.MemoryRequestFrame := by
  refine ⟨fun e a => ⟨rfl, rfl, rfl, rfl⟩, fun e w id pre post n hw hn hpre => page_of_override hw hn hpre,
    fun e a hdis hP => ?_, fun e a q hdis hP hq => ?_, tags_zx128, fun i s t hi e => ?_⟩
  · have hpage := pageOf_zx48 hdis hP a
    have hw : a.toNat / 16384 < 4 := by omega
    obtain ⟨hcont, hwrite⟩ := tags_zx48 _ hw
    refine ⟨hpage, ?_, ?_, ?_, ?_⟩
    · rw [Engine.addrKey, hpage, hP]
      exact Nat.div_add_mod' _ _
    · rw [Engine.contendedAddr, hpage, hP, hcont, decide_eq_true_iff]
      omega
    · rw [hpage, hwrite, decide_eq_true_iff]
      omega
    · rw [pageOf_zx48 hdis hP, Engine.screenPage, hP]
      exact pick_const 1 _
  · have hbyte : e.pagingByte = q := by rw [Engine.pagingByte, hq]; rfl
    obtain ⟨h0, h1, h2, h3⟩ := mapPage_zx128 q
    refine ⟨fun hlt => ?_, fun hge hlt => ?_, fun hge hlt => ?_, fun hge => ?_, ?_⟩
    · have hp : e.pageOf a = if q.getLsbD 4 then 1 else 0 := by
        rw [pageOf_zx128 hdis hP (w := 0) (by omega) (by omega), hbyte, h0]
      obtain ⟨hwrite, hcont⟩ := rom_tags_zx128 (q.getLsbD 4)
      refine ⟨hp, by rw [hp]; exact hwrite, ?_⟩
      rw [Engine.contendedAddr, hp, hP]
      exact hcont
    · rw [pageOf_zx128 hdis hP (w := 1) (by omega) (by omega), hbyte, h1]
    · rw [pageOf_zx128 hdis hP (w := 2) (by omega) (by omega), hbyte, h2]
    · rw [pageOf_zx128 hdis hP (w := 3) (by omega) (by omega), hbyte, h3]
    · rw [Engine.screenPage, hP, hbyte]
      exact pick_bit 3 (bank 5) (bank 7) q
  · have hi : memoryRequest i = true := by
      obtain ⟨a, n, rfl | rfl | rfl | ⟨d, rfl⟩⟩ := hi <;> rfl
    have hu := memoryAccess_eq i s
    obtain ⟨hpages, hother⟩ := memoryAccess_pages i s
    have hend : ∀ hin : s.ts < s.P.eof ∧ requestEnd i s < s.P.eof ∨ s.deferred = [],
        t.pages = s.pages ∨ t.pages = (memoryAccess i s).pages := by
      rintro (⟨hts, hin⟩ | hd)
      · obtain ⟨r, rfl⟩ := memoryRequest_within hi hts hin e
        exact .inr rfl
      · exact (memoryRequest_kept hi hd e).imp Kept.pages Kept.pages
    refine ⟨fun hts hin => ?_, fun hd => ?_, fun h => ⟨fun hno => ?_, fun hwf a d n hi key hk => ?_⟩⟩
    · obtain ⟨r, rfl⟩ := memoryRequest_within hi hts hin e
      refine ⟨?_, fun hno => ?_⟩
      · generalize memoryAccess i s = u at hu
        rw [hu]
        rfl
      · show (memoryAccess i s).vcache = s.vcache
        rw [memoryAccess_of_not_write hno, intCheck_vcache]
    · have hk : Kept (s.setPages t.pages) t := by
        rcases memoryRequest_kept hi hd e with h | h
        · rw [h.pages]; exact h
        · have h' := (memoryAccess_kept i s).trans h
          rw [← h.pages] at h'
          exact h'
      exact ⟨hk.eq, hk.wir⟩
    · rcases hend h with hp | hp <;> rw [hp]
      exact hpages hno
    · rcases hend h with hp | hp <;> rw [hp]
      exact hother hwf a d n hi key hk

end Sys2Proof.Machine
end

section
/-! PROOFS of the host-command family: the mutations at a boundary and within a frame (R271 to R283), and what a valid image
satisfies (R281, R282). -/

namespace Sys2Proof.Machine

open Sys2Proof.Claims

/-! ## Commands at a boundary and within a frame (R271) -/

section Commands

variable {m : Mutation} {s : State}

theorem command_of_invalid {r : Response} (h : invalid m (projected s) = some r) :
    endCommand (hostMutation m s) = .next (respond r s) := by
  rw [hostMutation_of_invalid h]
  rfl

theorem command_deferred (h : invalid m (projected s) = none) (hnow : actsNow m s = false) :
    endCommand (hostMutation m s) = .next (respond .deferred (s.setDeferred (s.deferred ++ [m]))) := by
  rw [hostMutation_deferred h hnow]
  rfl

theorem command_now {v : Value} {u : State} (h : invalid m (projected s) = none) (hnow : actsNow m s = true)
    (hm : applyMutation m (deferredAfter m s) = .ok v u) :
    endCommand (hostMutation m s) = .next (respond (.done v) u) := by
  rw [hostMutation_now h hnow, hm]
  rfl

theorem actsNow_within (hat : s.atBoundary = false) (hm : ∀ args, m ≠ .switch args) : actsNow m s = false :=
  (actsNow_eq_atBoundary hm s).trans hat

end Commands

/-! ## HATTACH -/

theorem invalid_attach_known {h : Addr} {pos : BitVec 8} {impl : DevImpl} {sp : State} (hh : h ∈ handles sp.chain) :
    invalid (.attach h pos impl) sp = some (.refused .badField) :=
  if_pos (by simpa using hh)

theorem invalid_attach_new {h : Addr} {pos : BitVec 8} {impl : DevImpl} {sp : State} (hh : h ∉ handles sp.chain) :
    invalid (.attach h pos impl) sp = none :=
  if_neg (by simpa using hh)

theorem exec_hattach {s : State} {impl : DevImpl} (ho : s.oob = .device impl) (h : Addr) (pos : BitVec 8) :
    exec (.hattach h pos) s = endCommand (hostMutation (.attach h pos impl) s) := by
  rw [exec, execHattach, ho]
  rfl

/-- Settles O38: an unknown handle is valid, and the application is that of R272. -/
theorem attachInsertsTheNode : Obligations.AttachInsertsTheNode := by
  intro s h pos impl ho
  rw [exec_hattach ho]
  refine ⟨fun hh => command_of_invalid (invalid_attach_known hh), fun hh hat => ⟨_, rfl, ?_⟩, fun hh hat =>
    command_deferred (invalid_attach_new hh) (actsNow_within hat (by simp))⟩
  rw [command_now (invalid_attach_new hh) (actsNow_of_boundary hat _) rfl, ← attachIndex_eq]
  rfl

/-! ## HPAGE and HWRAP -/

/-- Settles O41: each is valid where its unit is there, and the application is that of R275 or R280. -/
theorem pageAndWrapCommands : Obligations.PageAndWrapCommands := by
  intro s v e
  have hpage : (projected s).P.paging ≠ none → invalid (.page v) (projected s) = none :=
    fun h => if_pos (Option.isSome_iff_ne_none.2 h)
  have hwrap : (projected s).wrap ≠ [] → invalid (.wrap e) (projected s) = none :=
    fun h => if_neg (by simpa using h)
  refine ⟨fun h => command_of_invalid (if_neg (by simp [h])),
    fun h hat => command_now (hpage h) (actsNow_of_boundary hat _) rfl,
    fun h hat => command_deferred (hpage h) (actsNow_within hat (by simp)), fun h => command_of_invalid (if_pos (by simp [h])),
    fun n rest h hat hw => ?_, fun h hat => command_deferred (hwrap h) (actsNow_within hat (by simp))⟩
  have hset : setEnabled e s.wrap = { n with enabled := e } :: rest := by rw [hw]; rfl
  rw [← hset]
  exact command_now (hwrap h) (actsNow_of_boundary hat _) rfl

/-! ## HSNAPLOAD -/

theorem exec_hsnapload {s : State} {img : Engine} (ho : s.oob = .image img) :
    exec .hsnapload s = endCommand (hostMutation (.load img) s) := by
  rw [exec, execHsnapload, loadCommand, ho]
  rfl

theorem invalid_load {img : Engine} {sp : State} : invalid (.load img) sp =
    (snapFailure sp.toEngine img).map fun c => .error (.e4 c) := rfl

/-- R278: a valid image at a boundary. -/
theorem exec_hsnapload_now {s : State} {img : Engine} (ho : s.oob = .image img)
    (hv : snapFailure (projected s).toEngine img = none) (hat : s.atBoundary = true) :
    exec .hsnapload s = .next (respond (.done .unit) { s with toEngine := { img with atBoundary := true } }) := by
  rw [exec_hsnapload ho, command_now (by rw [invalid_load, hv]; rfl) (actsNow_of_boundary hat _) rfl]
  rfl

/-- Settles O42: the checks of R281 decide, before anything is changed. -/
theorem snapshotLoadIsAllOrNothing : Obligations.SnapshotLoadIsAllOrNothing := by
  refine fun s => ⟨fun ho => ?_, fun img ho => ⟨fun c hc => ?_, exec_hsnapload_now ho, fun hv hat => ?_⟩⟩
  · rw [exec, execHsnapload, loadCommand, ho]
    rfl
  · rw [exec_hsnapload ho]
    exact command_of_invalid (by rw [invalid_load, hc]; rfl)
  · rw [exec_hsnapload ho]
    exact command_deferred (by rw [invalid_load, hv]; rfl) (actsNow_within hat (by simp))

/-! ## HSWITCH -/

theorem exec_hswitch {s : State} {args : SwitchArgs} (ho : s.oob = .model args) :
    exec .hswitch s = endCommand (hostMutation (.switch args) s) := by
  rw [exec, execHswitch, ho]
  rfl

theorem constructible_eq_true {args : SwitchArgs} :
    constructible args = true ↔ args.params.wellFormed = true ∧ args.params.intTs? args.scheme ≠ none := by
  rw [constructible, Bool.and_eq_true, Option.isSome_iff_ne_none]

theorem actsNow_switch (args : SwitchArgs) (s : State) : actsNow (.switch args) s = (s.atBoundary || decide (s.mode = .faulted)) :=
  rfl

/-- Settles O46: a record is valid where construction accepts it, and construction is its application. -/
theorem modelSwitchConstructsAnew : Obligations.ModelSwitchConstructsAnew := by
  intro s args ho
  rw [exec_hswitch ho]
  refine ⟨fun h => command_of_invalid (if_neg ?_), fun hwf hts => ?_⟩
  · rw [constructible_eq_true]
    rintro ⟨hwf, hts⟩
    rcases h with h | h
    · rw [h] at hwf; cases hwf
    · exact hts h
  · have hv : invalid (.switch args) (projected s) = none := if_pos (constructible_eq_true.2 ⟨hwf, hts⟩)
    refine ⟨fun h => ?_, fun hat hm => ?_⟩
    · rw [command_now hv (by rw [actsNow_switch]; simpa using h) rfl]
      rfl
    · exact command_deferred hv (by rw [actsNow_switch]; simp [hat, hm])

/-! ## Mutations within a frame (R271) -/

/-- A mutation that fails its validation is refused or reported as an error. -/
theorem invalid_ne_deferred (m : Mutation) (sp : State) : invalid m sp ≠ some .deferred := by
  intro h
  cases m with
  | load img =>
    rw [invalid_load] at h
    cases hc : snapFailure sp.toEngine img <;> rw [hc] at h <;> cases h
  | _ =>
    unfold invalid at h
    dsimp only at h
    split at h <;> cases h

/-- R271: a mutation within a frame waits, or is turned away. -/
theorem command_within {m : Mutation} {s t : State} (hat : s.atBoundary = false) (hm : s.mode ≠ .faulted)
    (e : endCommand (hostMutation m s) = .next t) :
    (∃ r, r ≠ .deferred ∧ t = respond r s) ∨ t = respond .deferred (s.setDeferred (s.deferred ++ [m])) := by
  have hnow : actsNow m s = false := by
    unfold actsNow
    rw [hat, Bool.false_or]
    cases m with
    | switch args => exact decide_eq_false hm
    | _ => rfl
  cases hv : invalid m (projected s) with
  | none =>
    rw [command_deferred hv hnow] at e
    exact .inr (Host.Outcome.next.inj e).symm
  | some r =>
    rw [command_of_invalid hv] at e
    refine .inl ⟨r, ?_, (Host.Outcome.next.inj e).symm⟩
    rintro rfl
    exact invalid_ne_deferred m _ hv

/-- R271: every mutation instruction, within a frame. -/
theorem mutation_within {i : Instr} {s t : State} (hi : mutation i = true) (hat : s.atBoundary = false)
    (hm : s.mode ≠ .faulted) (e : exec i s = .next t) :
    (∃ r, r ≠ .deferred ∧ t = respond r s) ∨ ∃ m, t = respond .deferred (s.setDeferred (s.deferred ++ [m])) := by
  have hcommand : ∀ m, endCommand (hostMutation m s) = .next t → _ := fun m e =>
    (command_within hat hm e).imp_right fun h => (⟨m, h⟩ : ∃ m, t = respond .deferred (s.setDeferred (s.deferred ++ [m])))
  cases i with
  | hattach h pos =>
    cases ho : s.oob with
    | device d => rw [exec_hattach ho] at e; exact hcommand _ e
    | _ => rw [exec, execHattach, ho] at e; cases e; exact .inl ⟨_, by simp, rfl⟩
  | hdetach h => exact hcommand _ e
  | hpage v => exact hcommand _ e
  | hwrap b => exact hcommand _ e
  | hsnapload =>
    cases ho : s.oob with
    | image img => rw [exec_hsnapload ho] at e; exact hcommand _ e
    | _ => rw [exec, execHsnapload, loadCommand, ho] at e; cases e; exact .inl ⟨_, by simp, rfl⟩
  | hswitch =>
    cases ho : s.oob with
    | model args => rw [exec_hswitch ho] at e; exact hcommand _ e
    | _ => rw [exec, execHswitch, ho] at e; cases e; exact .inl ⟨_, by simp, rfl⟩
  | _ => cases hi

theorem projected_append_one {s : State} {l : List Mutation} {m : Mutation} (h : s.deferred = l ++ [m]) :
    projected s = (applyMutation m (l.foldl (fun t m => (applyMutation m t).state) s)).state := by
  rw [projected, h, List.foldl_append]
  rfl

/-- What no application of a mutation reads: the entries that wait. -/
theorem applyMutation_setDeferred (m : Mutation) (s : State) (l : List Mutation) :
    (applyMutation m (s.setDeferred l)).state = (applyMutation m s).state.setDeferred l := by
  cases m with
  | detach h =>
    show (detachDevice h (s.setDeferred l)).state = (detachDevice h s).state.setDeferred l
    cases hf : s.chain.find? (fun n => n.id == h) with
    | none =>
      rw [detachDevice_of_not_found hf, detachDevice_of_not_found (s := s.setDeferred l) hf]
      rfl
    | some n =>
      cases hr : fallEdges h s.ts (List.range n.nch) s.audio with
      | ok a b =>
        rw [detachDevice_of_fall hf hr, detachDevice_of_fall (s := s.setDeferred l) hf hr]
        rfl
      | raised g b =>
        rw [detachDevice_of_raise hf hr, detachDevice_of_raise (s := s.setDeferred l) hf hr]
        rfl
  | page v =>
    show pagingWrite v (catchUp s.ts (s.setDeferred l)) = (pagingWrite v (catchUp s.ts s)).setDeferred l
    unfold pagingWrite
    show (match s.paging with | none => _ | some p => _) = State.setDeferred (match s.paging with | none => _ | some p => _) l
    cases s.paging with
    | none => rfl
    | some p => cases hp : p.getLsbD 5 <;> simp only [hp] <;> rfl
  | attach | load | wrap | switch | custom => rfl

theorem foldl_applyMutation_setDeferred (k : List Mutation) (s : State) (l : List Mutation) :
    k.foldl (fun t m => (applyMutation m t).state) (s.setDeferred l) =
      (k.foldl (fun t m => (applyMutation m t).state) s).setDeferred l := by
  induction k generalizing s with
  | nil => rfl
  | cons m k ih => rw [List.foldl_cons, List.foldl_cons, applyMutation_setDeferred, ih]

/-- Settles O47: S.deferred alone changes, and the projected state is the fold over it. -/
theorem mutationsWaitForTheBoundary : Obligations.MutationsWaitForTheBoundary := by
  refine ⟨fun s => ⟨projected_eq_self, fun l m h => ?_⟩, fun s t i hi hat hm e => ?_⟩
  · rw [projected_append_one h]
    show _ = (applyMutation m (l.foldl (fun t m => (applyMutation m t).state) (s.setDeferred l))).state.toEngine
    rw [foldl_applyMutation_setDeferred, applyMutation_setDeferred]
    rfl
  · rcases mutation_within hi hat hm e with ⟨r, hr, rfl⟩ | ⟨m, rfl⟩
    · exact ⟨rfl, rfl, rfl, .inr ⟨rfl, r, rfl, hr⟩⟩
    · exact ⟨rfl, rfl, rfl, .inl ⟨m, rfl, rfl⟩⟩

/-! ## Valid images (R281, R282) -/

theorem snapFailure_eq_none {mine img : Engine} (h : img.cfg = mine.cfg ∧ img.mode = .running ∧ img.fault = none ∧
    img.ts < img.cfg.params.eof ∧ pagesValid img.cfg.params img.pages = true ∧ pagingValid img.cfg.params img.paging = true ∧
    (handlesUnique img.chain && lastsValid img) = true ∧ eventsValid img = true ∧ img.audio.balanced = true ∧
    vcacheValid img.cfg.params img.vcache = true ∧ wrapValid mine.wrap img.wrap = true) : snapFailure mine img = none := by
  obtain ⟨h1, h2, h3, h4, h5, h6, h7, h8, h9, h10, h11⟩ := h
  unfold snapFailure
  rw [if_neg (not_not.2 h1), if_neg (not_not.2 h2), if_neg (not_not.2 h3), if_neg (Nat.not_le.2 h4), h5, h6, h7, h8, h9, h10,
    h11]
  rfl

theorem snapFailure_eq_none_iff {mine img : Engine} : snapFailure mine img = none ↔
    img.cfg = mine.cfg ∧ img.mode = .running ∧ img.fault = none ∧ img.ts < img.cfg.params.eof ∧
    pagesValid img.cfg.params img.pages = true ∧ pagingValid img.cfg.params img.paging = true ∧
    (handlesUnique img.chain && lastsValid img) = true ∧ eventsValid img = true ∧ img.audio.balanced = true ∧
    vcacheValid img.cfg.params img.vcache = true ∧ wrapValid mine.wrap img.wrap = true :=
  ⟨snapFailure_none, snapFailure_eq_none⟩

theorem extractLsb_two_eq_zero_iff (v : Byte) :
    (v.extractLsb' 6 2 == 0) = true ↔ v.getLsbD 6 = false ∧ v.getLsbD 7 = false := by
  revert v
  decide

theorem pagingValid_iff {P : Params} {p : Option Byte} : pagingValid P p = true ↔
    match p with
    | some v => P.paging.isSome = true ∧ v.getLsbD 6 = false ∧ v.getLsbD 7 = false
    | none => P.paging = none := by
  cases p with
  | none => rw [pagingValid, Option.isNone_iff_eq_none]
  | some v => rw [pagingValid, Bool.and_eq_true, extractLsb_two_eq_zero_iff]

theorem lastsValid_iff {img : Engine} : lastsValid img = true ↔
    ∀ n ∈ img.chain, before (absTick img.cfg.params img.frame img.ts) n.last = false := by
  simp [lastsValid]

theorem balanced_iff {a : Audio} : a.balanced = true ↔ ∀ sc ∈ a.sources, sc.2.balanced = true := List.all_eq_true

theorem wrapValid_iff {mine img : List WrapNode} : wrapValid mine img = true ↔ img.map (·.impl) = mine.map (·.impl) :=
  decide_eq_true_iff

/-- Settles O43: each check of R281 in turn, the audio checks gathered by source. -/
theorem validImagesPassEveryCheck : Obligations.ValidImagesPassEveryCheck := by
  intro mine img
  rw [snapFailure_eq_none_iff, pagesValid_iff, pagingValid_iff, Bool.and_eq_true, handlesUnique_iff, lastsValid_iff,
    eventsValid_iff, balanced_iff, vcacheValid_iff, wrapValid_iff]
  constructor
  · rintro ⟨h1, h2, h3, h4, h5, h6, ⟨h7, h8⟩, ⟨h9, h10⟩, h11, h12, h13⟩
    exact ⟨h1, h2, h3, h4, h5, h6, h7, h8, h9, fun sc hsc => ⟨(h10 sc hsc).1, (h10 sc hsc).2, h11 sc hsc⟩, h12, h13⟩
  · rintro ⟨h1, h2, h3, h4, h5, h6, h7, h8, h9, h10, h12, h13⟩
    exact ⟨h1, h2, h3, h4, h5, h6, ⟨h7, h8⟩, ⟨h9, fun sc hsc => ⟨(h10 sc hsc).1, (h10 sc hsc).2.1⟩⟩,
      fun sc hsc => (h10 sc hsc).2.2, h12, h13⟩

/-- R146: a tick that is at most 2^63 cycles ahead is not before. -/
theorem before_eq_false {a b : Tick} (h : (a - b).toNat < 2 ^ 63) : before a b = false := by
  rw [← Bool.not_eq_true, before_iff]
  rintro ⟨hpos, hlt⟩
  have hneg : (b - a).toNat = (2 ^ 64 - (a - b).toNat) % 2 ^ 64 := by
    rw [← neg_sub a b, BitVec.toNat_neg]
  rw [hneg] at hpos hlt
  rcases Nat.eq_zero_or_pos (a - b).toNat with h0 | h0
  · rw [h0] at hpos; simp at hpos
  · rw [Nat.mod_eq_of_lt (by omega)] at hlt
    omega

/-- Settles O44: with the horizon at S.ts, the invariants are the checks of R281. -/
theorem snapshotRoundTrip : Obligations.SnapshotRoundTrip := by
  have hload : ∀ s u : State, snapFailure u.toEngine s.toEngine = none → u.deferred = [] → u.atBoundary = true →
      u.oob = .image s.toEngine →
      ∃ t, exec .hsnapload u = .next t ∧ t.toEngine = { s.toEngine with atBoundary := true } ∧ t.deferred = [] :=
    fun s u hv hd hat ho => ⟨_, exec_hsnapload_now ho (by rw [projected_eq_self hd]; exact hv) hat, rfl, hd⟩
  refine ⟨fun s u hv hd hat ho => ?_, fun s u hm hshort hoff heof hstore hcells hshape hclock haudio hborder hclocks hnd hcfg
    hwrap hd hat ho => ?_⟩
  · obtain ⟨t, e, ht, hdt⟩ := hload s u hv hd hat ho
    exact ⟨t, e, ht, hdt, fun h => by rw [ht, ← h]⟩
  · have hhor : s.horizon = s.ts := by
      rw [Engine.horizon, Nat.sub_eq_zero_of_le hoff, Nat.add_zero]
    have hrun : s.mode = .running := by
      cases hmode : s.mode <;> simp_all [Engine.ClockOk]
    have hts : s.ts < s.P.eof := hclock.2.2 hshort hrun
    have hv : snapFailure u.toEngine s.toEngine = none := by
      refine (validImagesPassEveryCheck u.toEngine s.toEngine).2 ⟨hcfg.symm, hrun, ?_, hts, ⟨hstore, hcells⟩,
        pagingValid_iff.1 hshape.1, hnd, fun n hn => ?_, ⟨hborder.1, fun ev hev => hhor ▸ hborder.2 hm ev hev⟩,
        fun sc hsc => ⟨(haudio.1 sc hsc).1, hhor ▸ haudio.2 hm sc hsc, (haudio.1 sc hsc).2⟩, vcacheValid_iff.1 hshape.2,
        hwrap.symm⟩
      · have hlatch := hclock.2.1
        simpa [hrun] using hlatch
      · have hn := hclocks hm n hn
        rw [hhor] at hn
        exact before_eq_false (by simp only [State.P] at *; omega)
    exact ⟨hv, hload s u hv hd hat ho⟩

end Sys2Proof.Machine
end

section
/-! PROOFS of the host-command family, second part: the detach (R270, R273). -/

namespace Sys2Proof.Machine

open Sys2Proof.Claims

/-! ## The fall of a detached device's channels -/

/-- The channel `d` is open as (h, k) (R256). -/
def OpenAs (h : Addr) (k : Nat) (d : DevChannel) : Prop := d.id = h ∧ d.k = k ∧ d.closing = false

/-- The channel after its fall to 0 at `t` (R273). -/
def DevChannel.fallAt (t : Nat) (c : DevChannel) : DevChannel := { c with ch := c.ch.push t 0 }

/-- No edge of a channel of `h` lies after `t`. -/
def EdgesUpTo (h : Addr) (t : Nat) (cs : List DevChannel) : Prop := ∀ c ∈ cs, c.id = h → c.ch.UpTo t

theorem DevChannel.fallAt_fallAt (t : Nat) (c : DevChannel) : (c.fallAt t).fallAt t = c.fallAt t := by
  have hlevel : (c.ch.push t 0).level = 0 := by
    by_cases hl : 0 = c.ch.level
    · rw [Channel.push_same hl, hl]
    · rw [Channel.push_change hl]
  unfold fallAt
  rw [Channel.push_same hlevel.symm]

section Fall

variable {h : Addr} {t k : Nat}

theorem brokenBound_fall {c : Channel} (hc : c.UpTo t) : c.brokenBound (t : Int) t = none :=
  Channel.brokenBound_eq_none.2
    ⟨Int.natCast_nonneg t, fun e he => Int.ofNat_le.2 (hc e (List.mem_of_getLast? he)), Int.le_refl _⟩

theorem chanEdge_cons_open {c : DevChannel} {cs : List DevChannel} (hc : OpenAs h k c) (hu : c.ch.UpTo t) :
    chanEdge h k t 0 t (c :: cs) = .ok (c.fallAt t :: cs) := by
  have hfirst := chanEdge_of_first (t := (t : Int)) (level := 0) (tnow := t) (pre := []) (post := cs) (by simp) hc
  rw [List.nil_append, brokenBound_fall hu] at hfirst
  exact hfirst

theorem chanEdge_cons_other {c : DevChannel} {cs cs' : List DevChannel} (hc : ¬OpenAs h k c)
    (hr : chanEdge h k t 0 t cs = .ok cs') : chanEdge h k t 0 t (c :: cs) = .ok (c :: cs') := by
  rw [chanEdge, if_neg (show ¬(c.id = h ∧ c.k = k ∧ c.closing = false) from hc), hr]
  rfl

/-- R273: a fall at or after every edge raises nothing and leaves the channels of other handles. -/
theorem chanEdge_fall {cs : List DevChannel} (hb : EdgesUpTo h t cs) : ∃ cs', chanEdge h k t 0 t cs = .ok cs' ∧
    EdgesUpTo h t cs' ∧ cs'.filter (fun c => decide (c.id ≠ h)) = cs.filter (fun c => decide (c.id ≠ h)) := by
  induction cs with
  | nil => exact ⟨[], rfl, hb, rfl⟩
  | cons c cs ih =>
    obtain ⟨hc, hcs⟩ := List.forall_mem_cons.1 hb
    by_cases ho : OpenAs h k c
    · refine ⟨_, chanEdge_cons_open ho (hc ho.1), List.forall_mem_cons.2 ⟨fun _ => (hc ho.1).push (Nat.le_refl t) 0, hcs⟩, ?_⟩
      have hid : c.id = h := ho.1
      simp [DevChannel.fallAt, hid]
    · obtain ⟨cs', hr, hb', hf⟩ := ih hcs
      refine ⟨_, chanEdge_cons_other ho hr, List.forall_mem_cons.2 ⟨hc, hb'⟩, ?_⟩
      rw [List.filter_cons, List.filter_cons, hf]

/-- R256, R273: the first open channel (h, c.k) falls in the fall of its own number and stays in that of another. -/
theorem chanEdge_fall_at {pre post : List DevChannel} {c : DevChannel} (hb : EdgesUpTo h t (pre ++ c :: post))
    (hpre : ∀ d ∈ pre, ¬OpenAs h c.k d) (hc : OpenAs h c.k c) : ∃ pre' post',
      chanEdge h k t 0 t (pre ++ c :: post) = .ok (pre' ++ (if k = c.k then c.fallAt t else c) :: post') ∧
        ∀ d ∈ pre', ¬OpenAs h c.k d := by
  induction pre with
  | nil =>
    obtain ⟨hcu, hcs⟩ := List.forall_mem_cons.1 hb
    by_cases hk : k = c.k
    · rw [if_pos hk]
      exact ⟨[], post, chanEdge_cons_open (hk ▸ hc) (hcu hc.1), by simp⟩
    · obtain ⟨post', hr, -⟩ := chanEdge_fall (k := k) hcs
      rw [if_neg hk]
      exact ⟨[], post', chanEdge_cons_other (fun ho => hk ho.2.1.symm) hr, by simp⟩
  | cons d pre ih =>
    obtain ⟨hdu, hcs⟩ := List.forall_mem_cons.1 hb
    obtain ⟨hd, hpre⟩ := List.forall_mem_cons.1 hpre
    by_cases ho : OpenAs h k d
    · have hk : k ≠ c.k := fun hk => hd (hk ▸ ho)
      rw [if_neg hk]
      exact ⟨d.fallAt t :: pre, post, chanEdge_cons_open ho (hdu ho.1), List.forall_mem_cons.2 ⟨hd, hpre⟩⟩
    · obtain ⟨pre', post', hr, hpre'⟩ := ih hcs hpre
      exact ⟨d :: pre', post', chanEdge_cons_other ho hr, List.forall_mem_cons.2 ⟨hd, hpre'⟩⟩

theorem fallEdges_cons {a : Audio} {cs : List DevChannel} (hr : chanEdge h k t 0 t a.chans = .ok cs) (ks : List Nat) :
    fallEdges h t (k :: ks) a = fallEdges h t ks (a.withChans cs) := by
  rw [fallEdges, audioEdge, hr]
  rfl

/-- R273: the falls of all channels of a device whose edges are in the past: none raises, channels of other handles stay, and the
first open channel of each number that is named falls. -/
theorem fallEdges_ok (ks : List Nat) (a : Audio) (hb : EdgesUpTo h t a.chans) : ∃ cs,
    fallEdges h t ks a = .ok () (a.withChans cs) ∧
    cs.filter (fun c => decide (c.id ≠ h)) = a.chans.filter (fun c => decide (c.id ≠ h)) ∧
    ∀ pre c post, a.chans = pre ++ c :: post → (∀ d ∈ pre, ¬OpenAs h c.k d) → OpenAs h c.k c →
      (if c.k ∈ ks then c.fallAt t else c) ∈ cs := by
  induction ks generalizing a with
  | nil => exact ⟨a.chans, rfl, rfl, fun pre c post ha _ _ => by rw [ha]; simp⟩
  | cons k ks ih =>
    obtain ⟨cs1, hr1, hb1, hf1⟩ := chanEdge_fall (k := k) hb
    obtain ⟨cs, hr, hf, hat⟩ := ih (a.withChans cs1) hb1
    refine ⟨cs, by rw [fallEdges_cons hr1, hr]; rfl, hf.trans hf1, fun pre c post ha hpre hc => ?_⟩
    obtain ⟨pre', post', hr', hpre'⟩ := chanEdge_fall_at (k := k) (ha ▸ hb) hpre hc
    rw [ha, hr'] at hr1
    have hcs1 : (a.withChans cs1).chans = pre' ++ (if k = c.k then c.fallAt t else c) :: post' := (Except.ok.inj hr1).symm
    by_cases hk : k = c.k
    · rw [if_pos hk] at hcs1
      have hmem := hat pre' (c.fallAt t) post' hcs1 hpre' hc
      rw [DevChannel.fallAt_fallAt] at hmem
      rw [if_pos (by simp [hk])]
      split at hmem <;> exact hmem
    · rw [if_neg hk] at hcs1
      have hmem := hat pre' c post' hcs1 hpre' hc
      have hiff : (c.k ∈ k :: ks) = (c.k ∈ ks) := by
        rw [List.mem_cons, propext (or_iff_right (fun e => hk e.symm))]
      simpa only [hiff] using hmem

end Fall

/-! ## The channels close -/

/-- R270: a channel once its device is detached. -/
def DevChannel.closedFor (h : Addr) (c : DevChannel) : DevChannel := if c.id = h then { c with closing := true } else c

theorem closeChannels_eq (h : Addr) (a : Audio) :
    closeChannels h a = a.withChans (dropGone (a.chans.map (DevChannel.closedFor h))) := rfl

theorem DevChannel.closedFor_of_ne {h : Addr} {c : DevChannel} (hc : c.id ≠ h) : c.closedFor h = c := if_neg hc

theorem DevChannel.closedFor_of_eq {h : Addr} {c : DevChannel} (hc : c.id = h) : c.closedFor h = { c with closing := true } :=
  if_pos hc

theorem DevChannel.closedFor_id (h : Addr) (c : DevChannel) : (c.closedFor h).id = c.id := by
  by_cases hc : c.id = h
  · rw [closedFor_of_eq hc]
  · rw [closedFor_of_ne hc]

/-- R270: the channels of other handles stay, unless they have ended. -/
theorem filter_closedFor (h : Addr) (cs : List DevChannel) :
    (dropGone (cs.map (DevChannel.closedFor h))).filter (fun c => decide (c.id ≠ h)) =
      (cs.filter (fun c => decide (c.id ≠ h))).filter (fun c => !c.gone) := by
  have hid : (fun c : DevChannel => decide (c.id ≠ h)) ∘ DevChannel.closedFor h = fun c => decide (c.id ≠ h) :=
    funext fun c => by rw [Function.comp_apply, DevChannel.closedFor_id]
  have hmap : (cs.filter fun c => decide (c.id ≠ h)).map (DevChannel.closedFor h) = cs.filter fun c => decide (c.id ≠ h) :=
    (List.map_congr_left fun c hc => DevChannel.closedFor_of_ne (by simpa using (List.mem_filter.1 hc).2)).trans (List.map_id _)
  rw [dropGone, List.filter_comm, List.filter_map, hid, hmap]

theorem closing_of_mem_closedFor {h : Addr} {cs : List DevChannel} {c : DevChannel}
    (hc : c ∈ dropGone (cs.map (DevChannel.closedFor h))) (hid : c.id = h) : c.closing = true := by
  obtain ⟨d, -, rfl⟩ := List.mem_map.1 (List.mem_filter.1 hc).1
  rw [DevChannel.closedFor_id] at hid
  rw [DevChannel.closedFor_of_eq hid]

/-! ## HDETACH -/

theorem invalid_detach_known {h : Addr} {sp : State} (hh : h ∈ handles sp.chain) : invalid (.detach h) sp = none :=
  if_pos (by simpa using hh)

theorem invalid_detach_unknown {h : Addr} {sp : State} (hh : h ∉ handles sp.chain) :
    invalid (.detach h) sp = some (.error (.e5 h)) :=
  if_neg (by simpa using hh)

/-- R273: the node that a detach finds and takes out. -/
theorem chain_of_first {pre post chain : List Node} {n : Node} {h : Addr} (hc : chain = pre ++ n :: post) (hn : n.id = h)
    (hpre : ∀ m ∈ pre, m.id ≠ h) :
    chain.find? (fun n => n.id == h) = some n ∧ chain.eraseP (fun n => n.id == h) = pre ++ post := by
  have hnone : ∀ m ∈ pre, ¬(m.id == h) = true := fun m hm => by simpa using hpre m hm
  subst hc
  constructor
  · rw [List.find?_append, List.find?_eq_none.2 hnone, Option.none_or]
    exact List.find?_cons_of_pos (by simp [hn])
  · rw [List.eraseP_append_right _ hnone, List.eraseP_cons_of_pos (by simp [hn])]

/-- Settles O39: the falls raise nothing where every edge is in the past, and closing touches the detached channels alone. -/
theorem detachRemovesTheNode : Obligations.DetachRemovesTheNode := by
  refine fun s h => ⟨fun hh => command_of_invalid (invalid_detach_unknown hh),
    fun hh hat => command_deferred (invalid_detach_known hh) (actsNow_within hat (by simp)),
    fun pre n post hd hat hchain hn hpre hedges => ?_⟩
  obtain ⟨hfind, herase⟩ := chain_of_first hchain hn hpre
  obtain ⟨cs, hfall, hfilter, hat'⟩ := fallEdges_ok (List.range n.nch) s.audio hedges
  have hmem : h ∈ handles s.chain := by rw [hchain, ← hn]; simp [handles]
  have happly : applyMutation (.detach h) s = .ok (.device n.dev)
      ((s.setAudio (closeChannels h (s.audio.withChans cs))).setChain (pre ++ post)) := by
    rw [← herase]
    exact detachDevice_of_fall hfind hfall
  have hexec : exec (.hdetach h) s = .next (respond (.done (.device n.dev))
      ((s.setAudio (closeChannels h (s.audio.withChans cs))).setChain (pre ++ post))) := by
    rw [exec_hdetach_now hd hat hmem, happly]
    rfl
  refine ⟨_, hexec, rfl, ?_, fun c hc hid => closing_of_mem_closedFor hc hid,
    fun pre' c post' hcs hid hopen hk hfirst hgone => ?_⟩
  · exact (filter_closedFor h cs).trans (by rw [hfilter])
  · have hc := hat' pre' c post' hcs hfirst ⟨hid, rfl, hopen⟩
    rw [if_pos (List.mem_range.2 hk)] at hc
    have hfallen : (c.fallAt s.ts).closedFor h = { c with
        closing := true
        ch := if c.ch.level = 0 then c.ch
          else { c.ch with edges := c.ch.edges ++ [{ t := s.ts, level := 0 }], level := 0 } } := by
      rw [DevChannel.closedFor_of_eq (show (c.fallAt s.ts).id = h from hid), DevChannel.fallAt]
      by_cases hl : c.ch.level = 0
      · rw [if_pos hl, Channel.push_same hl.symm]
      · rw [if_neg hl, Channel.push_change (Ne.symm hl)]
    exact List.mem_filter.2 ⟨List.mem_map.2 ⟨_, hc, hfallen⟩, by rw [hgone]; rfl⟩

end Sys2Proof.Machine
end

section
/-! PROOFS of the video family: which stores a fetch sees (R101, R238 to R240), the pixel buffer (R245 to R247), and the border
roll-over (R243, R244). -/

namespace Sys2Proof.Machine

open Sys2Proof.Claims

/-! ## Places in display memory (R236) -/

/-- R236: the four fields of a bitmap offset do not overlap. -/
theorem bmpOff_eq {y x : Nat} (hy : y < 192) (hx : x < 32) :
    bmpOff y x = 2048 * (y / 64) + 256 * (y % 8) + 32 * (y / 8 % 8) + x := by
  have h1 : (y / 64 % 4) <<< 11 ||| (y % 8) <<< 8 = 2 ^ 8 * (8 * (y / 64) + y % 8) := by
    rw [Nat.shiftLeft_eq, Nat.shiftLeft_eq, Nat.mul_comm, ← Nat.two_pow_add_eq_or_of_lt (by omega)]
    omega
  have h2 : 2 ^ 8 * (8 * (y / 64) + y % 8) ||| (y / 8 % 8) <<< 5 = 2 ^ 5 * (8 * (8 * (y / 64) + y % 8) + y / 8 % 8) := by
    rw [Nat.shiftLeft_eq, ← Nat.two_pow_add_eq_or_of_lt (by omega)]
    omega
  rw [bmpOff, h1, h2, ← Nat.two_pow_add_eq_or_of_lt (by omega)]
  omega

theorem screenRead_eq {e : Engine} {off : Nat} (h : off < e.cfg.params.windowSize) :
    e.screenRead off = e.pages.read (pageKey e.cfg.params e.screenPage off) := by
  rw [Engine.screenRead, pageRead, if_pos h]

/-! ## What a catch-up fetches (R238) -/

section CatchUp

variable {e : Engine} {T y x : Nat} {c : VCell}

theorem catchCell_bmp_due (hs : c.seenBmp = false) (hF : fetchBmp e.cfg.params y x ≤ T) :
    (catchCell e T y x c).bmp = e.screenRead (bmpOff y x) ∧ (catchCell e T y x c).seenBmp = true := by
  rw [catchCell_bmp, catchCell_seenBmp, if_pos ⟨hs, hF⟩, if_pos ⟨hs, hF⟩]
  exact ⟨rfl, rfl⟩

theorem catchCell_bmp_kept (h : c.seenBmp = true ∨ T < fetchBmp e.cfg.params y x) :
    (catchCell e T y x c).bmp = c.bmp ∧ (catchCell e T y x c).seenBmp = c.seenBmp := by
  have hno : ¬(c.seenBmp = false ∧ fetchBmp e.cfg.params y x ≤ T) := by
    rintro ⟨hs, hF⟩
    rcases h with h | h
    · rw [hs] at h; cases h
    · omega
  rw [catchCell_bmp, catchCell_seenBmp, if_neg hno, if_neg hno]
  exact ⟨rfl, rfl⟩

theorem catchCell_att_due (hs : c.seenAtt = false) (hF : fetchAtt e.cfg.params y x ≤ T) :
    (catchCell e T y x c).att = e.screenRead (attOff y x) ∧ (catchCell e T y x c).seenAtt = true := by
  rw [catchCell_att, catchCell_seenAtt, if_pos ⟨hs, hF⟩, if_pos ⟨hs, hF⟩]
  exact ⟨rfl, rfl⟩

theorem catchCell_att_kept (h : c.seenAtt = true ∨ T < fetchAtt e.cfg.params y x) :
    (catchCell e T y x c).att = c.att ∧ (catchCell e T y x c).seenAtt = c.seenAtt := by
  have hno : ¬(c.seenAtt = false ∧ fetchAtt e.cfg.params y x ≤ T) := by
    rintro ⟨hs, hF⟩
    rcases h with h | h
    · rw [hs] at h; cases h
    · omega
  rw [catchCell_att, catchCell_seenAtt, if_neg hno, if_neg hno]
  exact ⟨rfl, rfl⟩

end CatchUp

/-- R238: a line after a catch-up. -/
theorem catchUp_line {s : State} {y : Nat} {l : VLine} (hl : s.vcache[y]? = some l) (T : Nat) :
    (catchUp T s).vcache[y]? = some { l with cells := mapFrom (catchCell s.toEngine T y) 0 l.cells } := by
  show (mapFrom (catchLine s.toEngine T) 0 s.vcache)[y]? = _
  rw [mapFrom_getElem?, hl, Nat.zero_add]
  rfl

/-! ## A store into the screen page (R173, R240) -/

section ScreenStore

variable {s : State} {a : Addr} {d : Byte} {tw : Nat}

/-- R89: what display memory shows after a store into it. -/
theorem screenRead_after_store {u : State} (hcfg : u.cfg = s.cfg) (hpaging : u.paging = s.paging)
    (hpages : u.pages = s.pages.write (s.addrKey a) d) (hwf : s.pages.wf = true) (hpage : s.pageOf a = s.screenPage)
    {off : Nat} (hoff : offOf s.P a = off) (hlt : off < s.P.windowSize) : u.screenRead off = d := by
  have hscreen : u.screenPage = s.screenPage := by
    rw [Engine.screenPage, Engine.screenPage, Engine.pagingByte, Engine.pagingByte, hcfg, hpaging]
  have hkey : s.addrKey a = pageKey s.cfg.params s.screenPage off := by rw [Engine.addrKey, hpage, ← hoff]
  rw [screenRead_eq (by rw [hcfg]; exact hlt), hpages, hscreen, hcfg, Memory.read_write hwf, hkey, if_pos rfl]

/-- R240: a cell of the cache after a store at `tw` and a later catch-up. -/
theorem storeByte_screen_cell (hw : writablePage s.P (s.pageOf a) = true) (hpage : s.pageOf a = s.screenPage) {y x : Nat}
    {l : VLine} {c : VCell} (hl : s.vcache[y]? = some l) (hc : l.cells[x]? = some c) : ∃ l',
      (storeByte a d tw s).vcache[y]? = some l' ∧ l'.cells[x]? = some (catchCell s.toEngine tw y x c) := by
  rw [storeByte_of_screen hw hpage]
  exact catchUp_cell tw s y x l c hl hc

end ScreenStore

/-- R101: the bitmap byte that a fetch at `T` or before gives: as before the store exactly where it came not later than the
store. -/
theorem catchCell_bmp_twice {e f : Engine} {tw T y x : Nat} {c : VCell} (hP : f.cfg = e.cfg) (hs : c.seenBmp = false)
    (hF : fetchBmp e.cfg.params y x ≤ T) : (catchCell f T y x (catchCell e tw y x c)).bmp =
      if tw < fetchBmp e.cfg.params y x then f.screenRead (bmpOff y x) else e.screenRead (bmpOff y x) := by
  by_cases hlt : tw < fetchBmp e.cfg.params y x
  · obtain ⟨-, hseen⟩ := catchCell_bmp_kept (e := e) (c := c) (.inr hlt)
    rw [if_pos hlt]
    exact (catchCell_bmp_due (hseen.trans hs) (by rw [hP]; exact hF)).1
  · obtain ⟨hbmp, hseen⟩ := catchCell_bmp_due (e := e) (c := c) hs (Nat.le_of_not_lt hlt)
    rw [if_neg hlt, (catchCell_bmp_kept (.inl hseen)).1, hbmp]

/-- R101: likewise the colour byte. -/
theorem catchCell_att_twice {e f : Engine} {tw T y x : Nat} {c : VCell} (hP : f.cfg = e.cfg) (hs : c.seenAtt = false)
    (hF : fetchAtt e.cfg.params y x ≤ T) : (catchCell f T y x (catchCell e tw y x c)).att =
      if tw < fetchAtt e.cfg.params y x then f.screenRead (attOff y x) else e.screenRead (attOff y x) := by
  by_cases hlt : tw < fetchAtt e.cfg.params y x
  · obtain ⟨-, hseen⟩ := catchCell_att_kept (e := e) (c := c) (.inr hlt)
    rw [if_pos hlt]
    exact (catchCell_att_due (hseen.trans hs) (by rw [hP]; exact hF)).1
  · obtain ⟨hatt, hseen⟩ := catchCell_att_due (e := e) (c := c) hs (Nat.le_of_not_lt hlt)
    rw [if_neg hlt, (catchCell_att_kept (.inl hseen)).1, hatt]

/-- Settles O48: a catch-up cell by cell; and a store into the screen page is a catch-up to its instant before the write. -/
theorem fetchSeesEarlierWritesOnly : Obligations.FetchSeesEarlierWritesOnly := by
  refine ⟨fun y x hy hx => ⟨bmpOff_eq hy hx, rfl⟩, fun P y x => ⟨rfl, rfl⟩, fun e off h => screenRead_eq h,
    fun s T => ⟨rfl, mapFrom_length .., fun y l hl => ⟨_, catchUp_line hl T, mapFrom_length .., fun x c hc => ?_⟩⟩,
    fun s t a d n T y x l c hts hin e hwf hw hpage hl hc => ?_⟩
  · refine ⟨catchCell s.toEngine T y x c, ?_, catchCell_bmp_due, catchCell_bmp_kept, catchCell_att_due, catchCell_att_kept⟩
    rw [mapFrom_getElem?, hc, Nat.zero_add]
    rfl
  · obtain ⟨r, ht⟩ := memoryRequest_within rfl hts hin e
    have hstore : t.vcache = (storeByte a d (s.ts + s.memWait a s.ts) (intCheck s)).vcache ∧
        t.cfg = s.cfg ∧ t.paging = s.paging ∧ t.pages = s.pages.write (s.addrKey a) d := by
      have hu := memoryAccess_eq (.mwrite a d n) s
      refine ⟨by rw [ht]; rfl, ?_, ?_, ?_⟩
      · rw [ht, setTs_cfg, respond_cfg, hu]
      · rw [ht, setTs_paging, respond_paging, hu]
      · rw [ht, setTs_pages, respond_pages]
        show (storeByte a d _ (intCheck s)).pages = _
        rw [storeByte_of_screen (by rw [State.P, intCheck_cfg, intCheck_pageOf]; exact hw)
          (by rw [intCheck_pageOf, intCheck_screenPage]; exact hpage), setPages_pages, intCheck_pages, intCheck_addrKey]
    obtain ⟨hv, hcfg, hpaging, hpages⟩ := hstore
    obtain ⟨l1, hl1, hc1⟩ := storeByte_screen_cell (s := intCheck s) (a := a) (d := d) (tw := s.ts + s.memWait a s.ts)
      (by rw [State.P, intCheck_cfg, intCheck_pageOf]; exact hw) (by rw [intCheck_pageOf, intCheck_screenPage]; exact hpage)
      (by rw [intCheck_vcache]; exact hl) hc
    obtain ⟨l', hl', hc'⟩ := catchUp_cell T t y x l1 _ (by rw [hv]; exact hl1) hc1
    have hread : ∀ off, offOf s.P a = off → off < s.P.windowSize → t.screenRead off = d := fun off hoff hlt =>
      screenRead_after_store hcfg hpaging hpages hwf hpage hoff hlt
    have hold : ∀ off, (intCheck s).screenRead off = s.screenRead off := fun off => by rw [intCheck_engine]; rfl
    have hP : t.cfg = (intCheck s).cfg := hcfg.trans (intCheck_cfg s).symm
    refine ⟨l', _, hl', hc', fun hs hoff hlt hF => ?_, fun hs hoff hlt hF => ?_⟩
    · rw [catchCell_bmp_twice hP hs (by rw [intCheck_cfg]; exact hF), hread _ hoff hlt, hold, intCheck_cfg]
    · rw [catchCell_att_twice hP hs (by rw [intCheck_cfg]; exact hF), hread _ hoff hlt, hold, intCheck_cfg]

/-! ## Pixels (R246, R247) -/

theorem ink_paper_eq (a : Byte) : inkOf a = a.toNat % 8 + 8 * (a.toNat / 64 % 2) ∧
    paperOf a = a.toNat / 8 % 8 + 8 * (a.toNat / 64 % 2) := by
  revert a
  decide

theorem pixelIndex_plain {x : PixelIn} (h : ¬(x.att.getLsbD 7 = true ∧ x.phase = 1)) :
    pixelIndex x = if x.bmp.getLsbD (7 - x.px % 8) then inkOf x.att else paperOf x.att := by
  have hswap : (x.att.getLsbD 7 && x.phase == 1) = false := by simpa using h
  unfold pixelIndex
  dsimp only
  rw [hswap, Bool.bne_false]

theorem pixelIndex_flashed {x : PixelIn} (ha : x.att.getLsbD 7 = true) (hp : x.phase = 1) :
    pixelIndex x = if x.bmp.getLsbD (7 - x.px % 8) then paperOf x.att else inkOf x.att := by
  have hswap : (x.att.getLsbD 7 && x.phase == 1) = true := by simp [ha, hp]
  unfold pixelIndex
  dsimp only
  rw [hswap, Bool.bne_true]
  cases x.bmp.getLsbD (7 - x.px % 8) <;> rfl

/-- R246: the flash phase matters only where the colour byte flashes. -/
theorem pixelIndex_seenPhase (y px : Nat) (bmp att : Byte) (phase : Nat) :
    pixelIndex ⟨y, px, bmp, att, seenPhase att phase⟩ = pixelIndex ⟨y, px, bmp, att, phase⟩ := by
  unfold pixelIndex seenPhase
  cases att.getLsbD 7 <;> rfl

/-- The entries of a concatenation of lists of one length. -/
theorem getElem?_flatten {α : Type} {m k : Nat} (hk : k < m) (l : List (List α)) (hl : ∀ r ∈ l, r.length = m) (x : Nat) :
    l.flatten[m * x + k]? = l[x]?.bind fun r => r[k]? := by
  induction l generalizing x with
  | nil => simp
  | cons r l ih =>
    obtain ⟨hr, hl⟩ := List.forall_mem_cons.1 hl
    rw [List.flatten_cons]
    cases x with
    | zero => rw [List.getElem?_append_left (by omega)]; simp
    | succ x =>
      rw [List.getElem?_append_right (by rw [hr, Nat.mul_succ]; omega), hr,
        show m * (x + 1) + k - m = m * x + k by rw [Nat.mul_succ]; omega, ih hl, List.getElem?_cons_succ]

theorem length_of_mem_mapFrom {α β : Type} {f : Nat → α → List β} {m i : Nat} {l : List α} (hf : ∀ j a, (f j a).length = m) :
    ∀ r ∈ mapFrom f i l, r.length = m := by
  induction l generalizing i with
  | nil => intro r hr; cases hr
  | cons a l ih =>
    intro r hr
    rcases List.mem_cons.1 hr with rfl | hr
    · exact hf i a
    · exact ih r hr

theorem linePixels_getElem? {e : Engine} {y x k : Nat} {l : VLine} {c : VCell} (hc : l.cells[x]? = some c) (hk : k < 8) :
    (linePixels e y l)[8 * x + k]? = some (wrappedPixel e.wrap ⟨y, 8 * x + k, c.bmp, c.att, seenPhase c.att e.flashPhase⟩
      (pixelIndex ⟨y, 8 * x + k, c.bmp, c.att, e.flashPhase⟩)) := by
  rw [linePixels, getElem?_flatten hk _ (length_of_mem_mapFrom fun j a => by simp [cellPixels]), mapFrom_getElem?, hc, Nat.zero_add,
    ← pixelIndex_seenPhase]
  simp [cellPixels, hk]

theorem wrappedPixel_of_disabled {wrap : List WrapNode} (h : ∀ n ∈ wrap, n.enabled = false) (x : PixelIn) (base : Nat) :
    wrappedPixel wrap x base = base := by
  have hkey : wrapKey wrap = wrapKey [] := by
    rw [wrapKey, List.filter_eq_nil_iff.2 fun n hn => by rw [h n hn]; exact Bool.false_ne_true]
    rfl
  exact wrappedPixel_key wrap [] hkey x base

theorem wrappedPixel_cons {n : WrapNode} (h : n.enabled = true) (wrap : List WrapNode) (x : PixelIn) (base : Nat) :
    wrappedPixel (n :: wrap) x base = (wrapPixel n.impl n.st x (wrappedPixel wrap x base)).getD (wrappedPixel wrap x base) := by
  rw [wrappedPixel, h, if_pos rfl]

theorem geometry_of_disabled {e : Engine} (h : ∀ n ∈ e.wrap, n.enabled = false) : e.geometry = e.cfg.params.vis := by
  rw [Engine.geometry, List.findSome?_eq_none_iff.2 fun n hn => by rw [h n hn, if_neg Bool.false_ne_true], Option.getD_none]

theorem geometry_of_first {e : Engine} {pre post : List WrapNode} {n : WrapNode} {g : Geometry} (hw : e.wrap = pre ++ n :: post)
    (hpre : ∀ m ∈ pre, m.enabled = false ∨ wrapGeometry m.impl m.st = none) (hn : n.enabled = true)
    (hg : wrapGeometry n.impl n.st = some g) : e.geometry = g := by
  have hnone : pre.findSome? (fun n => if n.enabled then wrapGeometry n.impl n.st else none) = none := by
    refine List.findSome?_eq_none_iff.2 fun m hm => ?_
    rcases hpre m hm with h | h <;> rw [h]
    · exact if_neg Bool.false_ne_true
    · exact ite_self none
  rw [Engine.geometry, hw, List.findSome?_append, hnone, Option.none_or, List.findSome?_cons, if_pos hn, hg]
  rfl

/-! ## The buffer (R245) -/

section Buffer

variable {P : Params} {g : Geometry} {rows : List (List Nat)} {border : Int → BitVec 3}

/-- The two pixels of column `j` of row `r` of the buffer. -/
def bufferPair (P : Params) (g : Geometry) (rows : List (List Nat)) (border : Int → BitVec 3) (r j : Nat) : List Nat :=
  let L := g.lineFirst + r
  let h : Int := g.hFirst + j
  if P.displayLine0 ≤ L ∧ L < P.displayLine0 + P.contLines ∧ 0 ≤ h ∧ h < P.contCycles then
    [(rows.getD (L - P.displayLine0) []).getD (2 * h.toNat) 0, (rows.getD (L - P.displayLine0) []).getD (2 * h.toNat + 1) 0]
  else [(border (L * P.cpl + P.pixCycle0 + h)).toNat, (border (L * P.cpl + P.pixCycle0 + h)).toNat]

theorem bufferRow_eq (r : Nat) :
    bufferRow P g rows border r = ((List.range g.hCount).map (bufferPair P g rows border r)).flatten := by
  rw [bufferRow, List.flatMap_def]
  rfl

theorem bufferPair_length (r j : Nat) : (bufferPair P g rows border r j).length = 2 := by
  unfold bufferPair
  dsimp only
  split <;> rfl

theorem bufferRow_length (r : Nat) : (bufferRow P g rows border r).length = 2 * g.hCount := by
  rw [bufferRow_eq, List.length_flatten, List.map_map,
    show List.length ∘ bufferPair P g rows border r = fun _ => 2 from funext fun j => bufferPair_length r j]
  simp [Nat.mul_comm]

theorem pixelBuffer_pair {r j k : Nat} (hr : r < g.lines) (hj : j < g.hCount) (hk : k < 2) :
    ((pixelBuffer P g rows border).getD r []).getD (2 * j + k) 0 = (bufferPair P g rows border r j).getD k 0 := by
  have hrow : (pixelBuffer P g rows border).getD r [] = bufferRow P g rows border r := by
    simp [pixelBuffer, hr]
  have hpair : ∀ p ∈ (List.range g.hCount).map (bufferPair P g rows border r), p.length = 2 := by
    simpa using fun j _ => bufferPair_length r j
  rw [hrow, bufferRow_eq, List.getD_eq_getElem?_getD, getElem?_flatten hk _ hpair]
  simp [hj]

end Buffer

/-- Settles O49: pixels by ink and paper, lines by their cells, the buffer by its pairs of columns. -/
theorem bufferShowsPixelsAndBorder : Obligations.BufferShowsPixelsAndBorder := by
  refine ⟨fun x => ?_, fun e h => ?_, fun e y x k l c => linePixels_getElem?,
    fun wrap x base h => wrappedPixel_of_disabled h x base, fun n wrap x base h => wrappedPixel_cons h wrap x base,
    fun e => ⟨geometry_of_disabled, fun pre n post g => geometry_of_first⟩,
    fun P g rows border => ⟨by simp [pixelBuffer], fun row hrow => ?_, fun r j hr hj => ?_⟩⟩
  · intro bright ink paper bit
    obtain ⟨hink, hpaper⟩ := ink_paper_eq x.att
    have hplain : ¬(x.att.getLsbD 7 = true ∧ x.phase = 1) → pixelIndex x = if bit then ink else paper :=
      fun h => (pixelIndex_plain h).trans (by rw [hink, hpaper])
    have hflash : x.att.getLsbD 7 = true → x.phase = 1 → pixelIndex x = if bit then paper else ink :=
      fun ha hp => (pixelIndex_flashed ha hp).trans (by rw [hink, hpaper])
    have hlt : ink < 16 ∧ paper < 16 := by omega
    refine ⟨hplain, hflash, ?_⟩
    by_cases h : x.att.getLsbD 7 = true ∧ x.phase = 1
    · rw [hflash h.1 h.2]
      split
      · exact hlt.2
      · exact hlt.1
    · rw [hplain h]
      split
      · exact hlt.1
      · exact hlt.2
  · show divOpen e.frame.toNat e.cfg.params.flashPeriod % 2 = _
    rw [divOpen, if_neg (by omega)]
  · obtain ⟨r, -, rfl⟩ := List.mem_map.1 hrow
    exact bufferRow_length r
  · intro L h pair
    refine ⟨fun h1 h2 h3 h4 k hk => ?_, fun hout k hk => ?_⟩
    · refine (pixelBuffer_pair hr hj hk).trans ?_
      rw [bufferPair, if_pos ⟨h1, h2, h3, h4⟩]
      interval_cases k <;> rfl
    · refine (pixelBuffer_pair hr hj hk).trans ?_
      rw [bufferPair, if_neg hout]
      interval_cases k <;> rfl

/-! ## The border (R243, R244) -/

theorem borderFrom_append (c0 : BitVec 3) (a b : List BorderEvent) (T : Int) :
    borderFrom c0 (a ++ b) T = borderFrom (borderFrom c0 a T) b T := by
  unfold borderFrom
  rw [List.filter_append, List.getLast?_append]
  cases (b.filter fun ev => decide ((ev.t : Int) ≤ T)).getLast? <;> rfl

theorem borderFrom_of_after {c0 : BitVec 3} {evs : List BorderEvent} {T : Int} (h : ∀ ev ∈ evs, T < (ev.t : Int)) :
    borderFrom c0 evs T = c0 := by
  rw [borderFrom, List.filter_eq_nil_iff.2 fun ev hev => by simpa using h ev hev]
  rfl

theorem borderFrom_singleton {c0 : BitVec 3} {ev : BorderEvent} {T : Int} (h : (ev.t : Int) ≤ T) :
    borderFrom c0 [ev] T = ev.colour := by
  rw [borderFrom, List.filter_cons_of_pos (by simpa using h)]
  rfl

/-- Two instants that no event of the list parts show the same colour. -/
theorem borderFrom_congr {c0 : BitVec 3} {evs : List BorderEvent} {T T' : Int}
    (h : ∀ ev ∈ evs, (ev.t : Int) ≤ T ↔ (ev.t : Int) ≤ T') : borderFrom c0 evs T = borderFrom c0 evs T' := by
  unfold borderFrom
  rw [List.filter_congr fun ev hev => decide_eq_decide.2 (h ev hev)]

/-- Ordered events are those before an instant, then those at or past it. -/
theorem events_split_at {evs : List BorderEvent} (h : evs.Pairwise fun a b => a.t ≤ b.t) (E : Nat) :
    evs = evs.filter (fun ev => decide (ev.t < E)) ++ evs.filter (fun ev => decide (E ≤ ev.t)) := by
  induction evs with
  | nil => rfl
  | cons ev evs ih =>
    obtain ⟨hev, h⟩ := List.pairwise_cons.1 h
    by_cases hlt : ev.t < E
    · rw [List.filter_cons_of_pos (by simpa using hlt), List.filter_cons_of_neg (by simpa using hlt), List.cons_append, ← ih h]
    · have hnone : evs.filter (fun ev => decide (ev.t < E)) = [] :=
        List.filter_eq_nil_iff.2 fun d hd => by have := hev d hd; simp; omega
      have hall : evs.filter (fun ev => decide (E ≤ ev.t)) = evs :=
        List.filter_eq_self.2 fun d hd => by have := hev d hd; simp; omega
      rw [List.filter_cons_of_neg (by simpa using hlt), List.filter_cons_of_pos (by simp; omega), hnone, hall, List.nil_append]

/-- R244: a carried event stands `EOF` earlier. -/
theorem borderFrom_carry (c0 : BitVec 3) (eof : Nat) (evs : List BorderEvent) (T : Int) :
    borderFrom c0 (carryEvents eof evs) T = borderFrom c0 (evs.filter fun ev => decide (eof ≤ ev.t)) (T + eof) := by
  unfold borderFrom carryEvents
  rw [List.filter_map, List.getLast?_map, Option.map_map]
  have hfilter : (evs.filter fun ev => decide (eof ≤ ev.t)).filter
      ((fun ev : BorderEvent => decide ((ev.t : Int) ≤ T)) ∘ fun ev => { ev with t := ev.t - eof }) =
      (evs.filter fun ev => decide (eof ≤ ev.t)).filter fun ev => decide ((ev.t : Int) ≤ T + eof) := by
    refine List.filter_congr fun ev hev => decide_eq_decide.2 ?_
    have hle : eof ≤ ev.t := by simpa using (List.mem_filter.1 hev).2
    show ((ev.t - eof : Nat) : Int) ≤ T ↔ _
    omega
  rw [hfilter]
  rfl

/-- R244: the colour after the roll-over. -/
theorem borderRoll_borderAt {s : State} (h : s.borderEv.Pairwise fun a b => a.t ≤ b.t) (T : Nat) :
    (borderRoll s).borderAt T = s.borderAt ((T + s.P.eof : Nat) : Int) := by
  have hsplit := events_split_at h s.P.eof
  have hpast : ∀ ev ∈ s.borderEv.filter (fun ev => decide (s.P.eof ≤ ev.t)), ((s.P.eof : Int) - 1) < (ev.t : Int) := by
    intro ev hev
    have hle : s.P.eof ≤ ev.t := by simpa using (List.mem_filter.1 hev).2
    omega
  have hbefore : ∀ ev ∈ s.borderEv.filter (fun ev => decide (ev.t < s.P.eof)),
      (ev.t : Int) ≤ (s.P.eof : Int) - 1 ↔ (ev.t : Int) ≤ ((T + s.P.eof : Nat) : Int) := by
    intro ev hev
    have hlt : ev.t < s.P.eof := by simpa using (List.mem_filter.1 hev).2
    omega
  have hcarry : (borderRoll s).borderAt T = borderFrom (s.borderAt ((s.P.eof : Int) - 1))
      (s.borderEv.filter fun ev => decide (s.P.eof ≤ ev.t)) ((T + s.P.eof : Nat) : Int) := by
    rw [Nat.cast_add, ← borderFrom_carry]
    rfl
  generalize s.borderEv.filter (fun ev => decide (ev.t < s.P.eof)) = old at hsplit hbefore
  generalize s.borderEv.filter (fun ev => decide (s.P.eof ≤ ev.t)) = new at hsplit hpast hcarry
  rw [hcarry, Engine.borderAt, Engine.borderAt, hsplit, borderFrom_append, borderFrom_append, borderFrom_of_after hpast,
    borderFrom_congr hbefore]

/-- Settles O50: the last event not after an instant decides, and the roll-over splits the ordered events at EOF. -/
theorem borderRollKeepsTheColour : Obligations.BorderRollKeepsTheColour := by
  refine ⟨fun e T => ⟨fun pre ev post hev hle hpost => ?_, borderFrom_of_after⟩, fun e => ⟨fun h => ?_, fun pre ev h => ?_⟩,
    fun s T h => borderRoll_borderAt h T⟩
  · rw [Engine.borderAt, hev, List.append_cons, borderFrom_append, borderFrom_of_after hpost, borderFrom_append,
      borderFrom_singleton hle]
  · rw [Engine.curBorder, h]
    rfl
  · rw [Engine.curBorder, h, List.getLast?_concat]
    rfl

end Sys2Proof.Machine
end

section
/-! PROOFS of the audio family: sample positions and steps (R259, R260), the PCM buffer (R261), and continuity over the roll-over
(R262 to R264). -/

namespace Sys2Proof.Machine

open Sys2Proof.Claims

/-! ## Positions and steps -/

section Positions

variable {P : Params}

theorem samplePos_eq (h : 0 < P.cpuHz) (A : Nat) : samplePos P A = ((A * P.sampleRateVal : Nat) : Rat) / (P.cpuHz : Rat) :=
  if_neg (by omega)

/-- R259: the first sample of a frame, as a ceiling. -/
theorem firstSample_bounds (h : 0 < P.cpuHz) (f : Nat) : f * P.eof * P.sampleRateVal ≤ firstSample P f * P.cpuHz ∧
    firstSample P f * P.cpuHz < f * P.eof * P.sampleRateVal + P.cpuHz := by
  have hceil : firstSample P f = (f * P.eof * P.sampleRateVal + (P.cpuHz - 1)) / P.cpuHz := if_neg (by omega)
  have hdiv := Nat.div_add_mod' (f * P.eof * P.sampleRateVal + (P.cpuHz - 1)) P.cpuHz
  have hmod := Nat.mod_lt (f * P.eof * P.sampleRateVal + (P.cpuHz - 1)) h
  rw [← hceil] at hdiv
  omega

theorem stepKVal_pos (P : Params) : 1 ≤ P.stepKVal := by
  unfold Params.stepKVal
  split <;> exact Nat.le_add_left 1 _

theorem stepH_of_nonpos {x : Rat} (h : x ≤ 0) : stepH P x = 0 := if_pos h

theorem stepH_of_settled {x : Rat} (h : (P.stepKVal : Rat) ≤ x) : stepH P x = 1 := by
  have hpos : (0 : Rat) < P.stepKVal := Nat.cast_pos.2 (stepKVal_pos P)
  rw [stepH, if_neg (not_le.2 (hpos.trans_le h)), if_pos h]

/-- R259: a sample of the frame does not lie after the frame's end. -/
theorem sample_le_pos (h : 0 < P.cpuHz) {f n A : Nat} (hn : n < firstSample P (f + 1)) (hA : (f + 1) * P.eof ≤ A) :
    (n : Rat) ≤ samplePos P A := by
  have hz : (0 : Rat) < P.cpuHz := Nat.cast_pos.2 h
  rw [samplePos_eq h, le_div_iff₀ hz, ← Nat.cast_mul, Nat.cast_le]
  obtain ⟨-, hlt⟩ := firstSample_bounds h (f + 1)
  have hmul : (n + 1) * P.cpuHz ≤ firstSample P (f + 1) * P.cpuHz := Nat.mul_le_mul_right _ hn
  have hrate : (f + 1) * P.eof * P.sampleRateVal ≤ A * P.sampleRateVal := Nat.mul_le_mul_right _ hA
  rw [Nat.succ_mul] at hmul
  omega

end Positions

/-! ## Levels -/

/-- The contribution of steps at sample `n` (R261). -/
def stepSum (P : Params) (n : Nat) (l : List Pend) : Rat := ratSum (l.map fun p => p.delta * stepH P ((n : Rat) - p.pos))

theorem stepSum_append (P : Params) (n : Nat) (a b : List Pend) : stepSum P n (a ++ b) = stepSum P n a + stepSum P n b := by
  rw [stepSum, List.map_append, ratSum_append]
  rfl

theorem levelAt_eq (P : Params) (f : Nat) (c : Channel) (n : Nat) : c.levelAt P f n = c.base + stepSum P n (c.steps P f) := rfl

theorem fullLevel_eq (P : Params) (f : Nat) (c : Channel) (n : Nat) :
    fullLevel P f c n = c.base + stepSum P n (c.pend ++ edgeSteps P f c.startLevel c.edges) := rfl

section Levels

variable {P : Params} {f : Nat} {c : Channel} {n : Nat}

/-- R264: an ordered queue's steps are those of the frame, then those of later frames. -/
theorem fullLevel_split (h : c.Ordered) : fullLevel P f c n = c.levelAt P f n + stepSum P n (edgeSteps P f
    (levelAfter c.startLevel (c.edges.filter fun e => decide (e.t < P.eof))) (c.edges.filter fun e => decide (P.eof ≤ e.t))) := by
  have hsplit := ordered_split_at h P.eof
  have hsteps := edgeSteps_append P f c.startLevel (c.edges.filter fun e => decide (e.t < P.eof))
    (c.edges.filter fun e => decide (P.eof ≤ e.t))
  rw [← hsplit] at hsteps
  rw [fullLevel_eq, levelAt_eq, hsteps, ← List.append_assoc, stepSum_append, ← add_assoc]
  rfl

/-- A step past the frame's end has not begun at the frame's samples. -/
theorem stepSum_later (hz : 0 < P.cpuHz) (hn : n < firstSample P (f + 1)) (l : Rat) {es : List Edge} (hes : ∀ e ∈ es, P.eof ≤ e.t) :
    stepSum P n (edgeSteps P f l es) = 0 := by
  refine ratSum_zero fun x hx => ?_
  obtain ⟨p, hp, rfl⟩ := List.mem_map.1 hx
  obtain ⟨e, he, hpos⟩ := edgeSteps_mem hp
  have hle : (n : Rat) ≤ p.pos := by
    rw [hpos]
    refine sample_le_pos hz hn ?_
    have := hes e he
    rw [Nat.succ_mul]
    omega
  rw [stepH_of_nonpos (sub_nonpos.2 hle), mul_zero]

theorem levelAt_eq_fullLevel (hz : 0 < P.cpuHz) (h : c.Ordered) (hn : n < firstSample P (f + 1)) :
    c.levelAt P f n = fullLevel P f c n := by
  rw [fullLevel_split h, stepSum_later hz hn _ fun e he => by simpa using (List.mem_filter.1 he).2, add_zero]

/-- R263: a settled step is whole at every later sample. -/
theorem stepSum_settled (hn : firstSample P (f + 1) ≤ n) (l : List Pend) :
    stepSum P n (l.filter (settled P f)) = ratSum ((l.filter (settled P f)).map (·.delta)) := by
  refine ratSum_map_congr fun p hp => ?_
  have hs : p.pos + (P.stepKVal : Rat) ≤ (firstSample P (f + 1) : Rat) := by simpa [settled] using (List.mem_filter.1 hp).2
  have hle : (P.stepKVal : Rat) ≤ (n : Rat) - p.pos := by
    have hcast : (firstSample P (f + 1) : Rat) ≤ n := Nat.cast_le.2 hn
    linarith
  rw [stepH_of_settled hle, mul_one]

/-- R262: carried edges that lie in the next frame give their steps there as they did here. -/
theorem roll_steps (hes : ∀ e ∈ c.edges, e.t < 2 * P.eof) : (c.roll P f).steps P (f + 1) =
    ((c.steps P f).filter fun p => !settled P f p) ++ edgeSteps P f
      (levelAfter c.startLevel (c.edges.filter fun e => decide (e.t < P.eof))) (c.edges.filter fun e => decide (P.eof ≤ e.t)) := by
  have hall : (carryEdges P.eof c.edges).filter (fun e => decide (e.t < P.eof)) = carryEdges P.eof c.edges := by
    refine List.filter_eq_self.2 fun e he => ?_
    obtain ⟨e0, he0, rfl⟩ := List.mem_map.1 he
    have hlt := hes e0 (List.mem_of_mem_filter he0)
    have hge : P.eof ≤ e0.t := by simpa using (List.mem_filter.1 he0).2
    simp only [decide_eq_true_eq]
    omega
  rw [Channel.steps, Channel.roll_startLevel]
  show _ ++ edgeSteps P (f + 1) _ ((carryEdges P.eof c.edges).filter _) = _
  rw [hall, carryEdges, edgeSteps_carry P f _ _ fun e he => by simpa using (List.mem_filter.1 he).2]
  rfl

theorem roll_levelAt (h : c.Ordered) (hn : firstSample P (f + 1) ≤ n) (hes : ∀ e ∈ c.edges, e.t < 2 * P.eof) :
    (c.roll P f).levelAt P (f + 1) n = fullLevel P f c n := by
  have hbase : (c.roll P f).base = c.base + stepSum P n ((c.steps P f).filter (settled P f)) := by
    rw [stepSum_settled hn]
    rfl
  have hsum : stepSum P n (c.steps P f) = stepSum P n ((c.steps P f).filter (settled P f)) +
      stepSum P n ((c.steps P f).filter fun p => !settled P f p) := ratSum_filter ..
  rw [levelAt_eq, roll_steps hes, stepSum_append, hbase, fullLevel_split h, levelAt_eq, hsum]
  ring

end Levels

/-- Settles O52: steps past the frame's end have not begun in it, and those that settled are whole after it. -/
theorem audioFramesJoin : Obligations.AudioFramesJoin := by
  refine ⟨fun P hz => ⟨samplePos_eq hz, firstSample_bounds hz⟩, fun P => ⟨stepKVal_pos P, fun x => ⟨stepH_of_nonpos, stepH_of_settled⟩⟩,
    fun P f l e rest => ⟨rfl, rfl⟩, fun c => rfl, fun P f gain a => ⟨by simp [audioRender], fun i hi => ?_⟩,
    fun P f c n hz h => ⟨levelAt_eq_fullLevel hz h, roll_levelAt h⟩, fun P f c n he hp => ?_⟩
  · rw [audioRender, if_pos rfl, List.getElem?_map, List.getElem?_range hi]
    simp only [Option.map_some, Audio.sample, Audio.sources, List.map_cons, List.map_map, ratSum]
    rfl
  · rw [levelAt_eq, Channel.steps, he, hp]
    simp [edgeSteps, stepSum, ratSum]

end Sys2Proof.Machine
end

section
/-! PROOFS of the construction family: the reset values (R48), the loaded images (R39, R321), and the invariants at reset. -/

namespace Sys2Proof.Machine

open Sys2Proof.Claims

/-- Settles O58: the fields of `construct`, one by one. -/
theorem constructionResetsEveryField : Obligations.ConstructionResetsEveryField := by
  refine ⟨fun args => ?_, rfl, rfl⟩
  have hpaging : (construct args).paging = if args.params.paging = none then none else some 0x00 := by
    show (if args.params.paging.isSome then some 0x00 else none) = _
    cases args.params.paging <;> rfl
  rw [← hpaging]
  rfl

/-! ## The images -/

theorem not_writable_and_not {d : Option PageDesc} (h : d.any (fun d => !d.writable) = true) :
    d.any (fun d => d.writable) = false := by
  cases d with
  | none => rfl
  | some d => simpa using h

/-- R321: a key lies in a ROM page or in a RAM page, so the listed bytes of both images have keys of their own. -/
theorem pageImage_keys_nodup {P : Params} {roms ram : List Host.Cell} (hroms : (roms.map (·.1)).Nodup)
    (hram : (ram.map (·.1)).Nodup) : ((roms.filter (fun c => (keyPage P c.1).any (fun d => !d.writable)) ++
      ram.filter (fun c => (keyPage P c.1).any (fun d => d.writable))).map (·.1)).Nodup := by
  rw [List.map_append]
  refine List.nodup_append.2 ⟨hroms.sublist (List.filter_sublist.map _), hram.sublist (List.filter_sublist.map _), ?_⟩
  intro k hk k' hk' heq
  obtain ⟨c, hc, rfl⟩ := List.mem_map.1 hk
  obtain ⟨d, hd, rfl⟩ := List.mem_map.1 hk'
  have hrom := not_writable_and_not (List.mem_filter.1 hc).2
  have hram := (List.mem_filter.1 hd).2
  rw [← heq, hrom] at hram
  cases hram

/-- Settles O59: cells with distinct keys are read back. -/
theorem constructionLoadsTheImages : Obligations.ConstructionLoadsTheImages := by
  intro args c hroms hram
  have hnd := pageImage_keys_nodup (P := args.params) hroms hram
  exact ⟨fun hc hp => Memory.read_ofCells hnd (List.mem_append_left _ (List.mem_filter.2 ⟨hc, hp⟩)),
    fun hc hp => Memory.read_ofCells hnd (List.mem_append_right _ (List.mem_filter.2 ⟨hc, hp⟩))⟩

/-! ## The invariants at reset -/

theorem instantsOk_construct {B : Engine → Prop} {W : Nat → Engine → Prop} (H : Instants B W) (args : SwitchArgs) :
    InstantsOk B W (construct args) :=
  ⟨(H.construct args).1, fun _ => H.mono (H.construct args).2 (Nat.zero_le _)⟩

/-- At reset nothing is deferred, so a property of the constructed engine holds of every engine. -/
theorem everyEngine_reset {Q : Engine → Prop} (h : Q (construct resetArgs)) : EveryEngine Q State.reset :=
  ⟨h, fun _ hm => absurd hm List.not_mem_nil⟩

/-- Settles O60: each invariant holds of every constructed engine. -/
theorem resetMeetsTheInvariants : Obligations.ResetMeetsTheInvariants := by
  have hcfg : CfgInv State.reset :=
    ⟨everyEngine_reset (constructible_iff.1 (by decide)), fun _ hm => absurd hm List.not_mem_nil⟩
  exact ⟨everyEngine_reset (Memory.ofCells_wf _), hcfg, everyEngine_reset (shapeOk_construct _),
    ⟨everyEngine_reset (clockOk_construct _), hcfg⟩,
    everyEngine_reset (audioOk_iff.2 (instantsOk_construct audio_instants _)), fun _ _ => rfl,
    everyEngine_reset (cellsOk_construct _), everyEngine_reset (instantsOk_construct border_instants _),
    ⟨List.nodup_nil, fun _ => uniqueThrough_nil.2 List.nodup_nil⟩,
    everyEngine_reset (nodeClocksOk_iff.2 (instantsOk_construct nodes_instants _))⟩

end Sys2Proof.Machine
end

section
/-! SUPPORT for two noninterference claims (R267, R290): two states that differ in the wrappers, the host's parameters and the outputs
alone, and in these only as no operation can see, stay such a pair. -/

namespace Sys2Proof.Machine

open Sys2Proof.Claims

/-! ## The pair -/

/-- The state with another list of wrappers, other parameters of the host and other outputs. -/
def State.withEnv (s : State) (w : List WrapNode) (a : HostArgs) (o : List Output) : State :=
  { s with wrap := w, args := a, out := o }

/-- Every wrapper's feature is disabled. -/
def Off (w : List WrapNode) : Prop := ∀ n ∈ w, n.enabled = false

/-- `s` and `t` differ in wrappers, parameters and outputs alone. Where `p` holds, the wrappers of both are disabled and the rest is
the same; else the wrappers are the same, and so is HOST_IN. -/
structure Alike (p : Prop) (s t : State) : Prop where
  rest : t = s.withEnv t.wrap t.args t.out
  input : t.args.input = s.args.input
  off : p → Off s.wrap ∧ Off t.wrap ∧ t.args = s.args ∧ t.out = s.out
  same : ¬p → t.wrap = s.wrap

/-- An update that neither reads nor writes wrappers, parameters and outputs. -/
def EnvFree (g : State → State) : Prop := ∀ s w a o, g (s.withEnv w a o) = (g s).withEnv w a o

/-- An operation that neither reads nor writes wrappers, parameters and outputs. -/
def EnvFreeOp {α : Type} (g : State → Res State α) : Prop :=
  ∀ s w a o, g (s.withEnv w a o) = (g s).lift fun x => x.withEnv w a o

/-- Two results of the same kind, with the same value or fault, of two such states. -/
def ResAlike {α : Type} (p : Prop) : Res State α → Res State α → Prop
  | .ok v s, .ok w t => w = v ∧ Alike p s t
  | .raised f s, .raised g t => g = f ∧ Alike p s t
  | _, _ => False

section Pair

variable {p : Prop} {s t : State} (h : Alike p s t)

include h

theorem Alike.cfg : t.cfg = s.cfg := by rw [h.rest]; rfl
theorem Alike.ts : t.ts = s.ts := by rw [h.rest]; rfl
theorem Alike.mode : t.mode = s.mode := by rw [h.rest]; rfl
theorem Alike.frame : t.frame = s.frame := by rw [h.rest]; rfl
theorem Alike.intDone : t.intDone = s.intDone := by rw [h.rest]; rfl
theorem Alike.atBoundary : t.atBoundary = s.atBoundary := by rw [h.rest]; rfl
theorem Alike.paging : t.paging = s.paging := by rw [h.rest]; rfl
theorem Alike.pages : t.pages = s.pages := by rw [h.rest]; rfl
theorem Alike.chain : t.chain = s.chain := by rw [h.rest]; rfl
theorem Alike.vcache : t.vcache = s.vcache := by rw [h.rest]; rfl
theorem Alike.audio : t.audio = s.audio := by rw [h.rest]; rfl
theorem Alike.deferred : t.deferred = s.deferred := by rw [h.rest]; rfl
theorem Alike.oob : t.oob = s.oob := by rw [h.rest]; rfl

theorem Alike.engine_of_not (hp : ¬p) : t.toEngine = s.toEngine := by
  have hw := h.same hp
  rw [h.rest, hw]
  rfl

/-- What the wrappers of the two states have in common for every operation that reads them. -/
theorem Alike.wrap_cases : t.wrap = s.wrap ∨ Off s.wrap ∧ Off t.wrap := by
  by_cases hp : p
  · exact .inr ⟨(h.off hp).1, (h.off hp).2.1⟩
  · exact .inl (h.same hp)

theorem Alike.update {g : State → State} (hg : EnvFree g) : Alike p (g s) (g t) := by
  have hs : g s = (g s).withEnv s.wrap s.args s.out := hg s s.wrap s.args s.out
  have ht : g t = (g s).withEnv t.wrap t.args t.out := by
    conv_lhs => rw [h.rest]
    exact hg s t.wrap t.args t.out
  have hsw : (g s).wrap = s.wrap ∧ (g s).args = s.args ∧ (g s).out = s.out := by
    rw [hs]
    exact ⟨rfl, rfl, rfl⟩
  obtain ⟨hw, ha, ho⟩ := hsw
  rw [ht]
  exact ⟨rfl, by rw [ha]; exact h.input, fun hp => by rw [hw, ha, ho]; exact h.off hp, fun hp => by rw [hw]; exact h.same hp⟩

theorem Alike.op {α : Type} {g : State → Res State α} (hg : EnvFreeOp g) : ResAlike p (g s) (g t) := by
  have hs : g s = (g s).lift fun x => x.withEnv s.wrap s.args s.out := hg s s.wrap s.args s.out
  have ht : g t = (g s).lift fun x => x.withEnv t.wrap t.args t.out := by
    conv_lhs => rw [h.rest]
    exact hg s t.wrap t.args t.out
  have hpair : ∀ x : State, x = x.withEnv s.wrap s.args s.out → Alike p x (x.withEnv t.wrap t.args t.out) := by
    intro x hx
    rw [hx]
    exact ⟨rfl, h.input, h.off, h.same⟩
  rw [ht]
  cases hr : g s with
  | ok v x => rw [hr] at hs; exact ⟨rfl, hpair x (Res.ok.inj hs).2⟩
  | raised f x => rw [hr] at hs; exact ⟨rfl, hpair x (Res.raised.inj hs).2⟩

theorem Alike.emit {o o' : Output} (ho : p → o' = o) : Alike p (emit o s) (Machine.emit o' t) := by
  refine ⟨?_, h.input, fun hp => ?_, h.same⟩
  · conv_lhs => rw [h.rest]
    rfl
  · obtain ⟨h1, h2, h3, h4⟩ := h.off hp
    refine ⟨h1, h2, h3, ?_⟩
    rw [emit_out, emit_out, h4, ho hp]

theorem Alike.respond (r : Response) : Alike p (respond r s) (Machine.respond r t) := h.emit fun _ => rfl

/-- Both states take the same engine. -/
theorem Alike.setEngine {e : Engine} (he : p → Off e.wrap) : Alike p (s.setEngine e) (t.setEngine e) := by
  refine ⟨?_, h.input, fun hp => ⟨he hp, he hp, (h.off hp).2.2⟩, fun _ => rfl⟩
  conv_lhs => rw [h.rest]
  rfl

theorem Alike.setWrap {w : List WrapNode} (hw : p → Off w) : Alike p (s.setWrap w) (t.setWrap w) := by
  refine ⟨?_, h.input, fun hp => ⟨hw hp, hw hp, (h.off hp).2.2⟩, fun _ => rfl⟩
  conv_lhs => rw [h.rest]
  rfl

end Pair

/-! ## Results -/

section Results

variable {p : Prop} {α β : Type}

theorem ResAlike.bind {r r' : Res State α} {k k' : α → State → Res State β} (h : ResAlike p r r')
    (hk : ∀ v s t, r = .ok v s → Alike p s t → ResAlike p (k v s) (k' v t)) : ResAlike p (r.bind k) (r'.bind k') := by
  cases r with
  | ok v s =>
    cases r' with
    | ok w t =>
      obtain ⟨hv, ha⟩ := h
      rw [hv]
      exact hk v s t rfl ha
    | raised g t => exact h.elim
  | raised f s =>
    cases r' with
    | ok w t => exact h.elim
    | raised g t => exact h

theorem ResAlike.state {r r' : Res State α} (h : ResAlike p r r') : Alike p r.state r'.state := by
  cases r with
  | ok v s =>
    cases r' with
    | ok w t => exact h.2
    | raised g t => exact h.elim
  | raised f s =>
    cases r' with
    | ok w t => exact h.elim
    | raised g t => exact h.2

theorem takeFault_envFree (f : FaultRec) : EnvFree (takeFault f) := by
  intro s w a o
  rw [takeFault_eq, takeFault_eq]
  rfl

theorem ResAlike.endRequest {r r' : Res State Unit} {t : State} (h : ResAlike p r r') (e : endRequest r = .next t) :
    ∃ u, Machine.endRequest r' = .next u ∧ Alike p t u := by
  cases r with
  | ok v s =>
    cases r' with
    | ok w u => cases e; exact ⟨u, rfl, h.2⟩
    | raised g u => exact h.elim
  | raised f s =>
    cases r' with
    | ok w u => exact h.elim
    | raised g u =>
      obtain ⟨rfl, ha⟩ := h
      cases e
      exact ⟨_, rfl, ha.update (takeFault_envFree g)⟩

theorem ResAlike.endCommand {r r' : Res State Unit} {t : State} (h : ResAlike p r r') (e : endCommand r = .next t) :
    ∃ u, Machine.endCommand r' = .next u ∧ Alike p t u := by
  cases r with
  | ok v s =>
    cases r' with
    | ok w u => cases e; exact ⟨u, rfl, h.2⟩
    | raised g u => exact h.elim
  | raised f s =>
    cases r' with
    | ok w u => exact h.elim
    | raised g u =>
      obtain ⟨rfl, ha⟩ := h
      cases e
      exact ⟨_, rfl, (ha.update (takeFault_envFree g)).respond _⟩

end Results

/-! ## Operations that see neither wrappers nor parameters nor outputs -/

theorem catchUp_envFree (T : Nat) : EnvFree (catchUp T) := fun _ _ _ _ => rfl

theorem pagingWrite_envFree (v : Byte) : EnvFree (pagingWrite v) := by
  intro s w a o
  cases hq : s.paging with
  | none => rw [pagingWrite_of_none hq, pagingWrite_of_none (s := s.withEnv w a o) hq]
  | some q =>
    cases hl : q.getLsbD 5 with
    | true => rw [pagingWrite_of_locked hq hl, pagingWrite_of_locked (s := s.withEnv w a o) hq hl]
    | false =>
      rw [pagingWrite_of_unlocked hq hl, pagingWrite_of_unlocked (s := s.withEnv w a o) hq hl]
      rfl

theorem ulaWrite_envFree (v : Byte) (te : Nat) : EnvFree (ulaWrite v te) := by
  intro s w a o
  by_cases hb : borderBits v = s.curBorder
  · rw [ulaWrite_of_same_border hb, ulaWrite_of_same_border (s := s.withEnv w a o) hb]
    rfl
  · rw [ulaWrite_of_new_border hb, ulaWrite_of_new_border (s := s.withEnv w a o) hb]
    rfl

theorem frameTail_envFree : EnvFree fun s => frameWrap (rollOver s) := fun _ _ _ _ => rfl

theorem attachDevice_envFree (h : Addr) (pos : BitVec 8) (impl : DevImpl) : EnvFree (attachDevice h pos impl) := fun _ _ _ _ => rfl

theorem detachDevice_envFree (h : Addr) : EnvFreeOp (detachDevice h) := by
  intro s w a o
  cases hf : s.chain.find? (fun n => n.id == h) with
  | none => rw [detachDevice_of_not_found hf, detachDevice_of_not_found (s := s.withEnv w a o) hf]; rfl
  | some n =>
    cases hr : fallEdges h s.ts (List.range n.nch) s.audio with
    | ok u b => rw [detachDevice_of_fall hf hr, detachDevice_of_fall (s := s.withEnv w a o) hf hr]; rfl
    | raised g b => rw [detachDevice_of_raise hf hr, detachDevice_of_raise (s := s.withEnv w a o) hf hr]; rfl

theorem chainReadFrom_withEnv (p : Addr) (td : Nat) (post pre : List Node) (r : Option Byte) (s : State) (w : List WrapNode)
    (a : HostArgs) (o : List Output) :
    chainReadFrom p td pre post r (s.withEnv w a o) = (chainReadFrom p td pre post r s).lift fun x => x.withEnv w a o := by
  induction post generalizing pre r s with
  | nil => rfl
  | cons n post ih =>
    have hput : ∀ c, putNode pre post (s.withEnv w a o) c = (putNode pre post s c).withEnv w a o := fun _ => rfl
    unfold chainReadFrom
    show (match readNode s.P s.frame p td n s.audio with | .raised f c => _ | .ok none c => _ | .ok (some b) c => _) = _
    cases readNode s.P s.frame p td n s.audio with
    | raised f c => rfl
    | ok v c =>
      cases v with
      | none => exact ih (pre ++ [c.1]) r (putNode pre post s c)
      | some b =>
        cases r with
        | none => exact ih (pre ++ [c.1]) (some b) (putNode pre post s c)
        | some b0 =>
          dsimp only
          cases hs : s.cfg.strict with
          | true =>
            rw [doubleClaim_of_strict (s := putNode pre post s c) hs,
              doubleClaim_of_strict (s := putNode pre post (s.withEnv w a o) c) hs]
            rfl
          | false =>
            rw [doubleClaim_of_not_strict (s := putNode pre post s c) hs,
              doubleClaim_of_not_strict (s := putNode pre post (s.withEnv w a o) c) hs]
            exact ih (pre ++ [c.1]) (some b0) ((putNode pre post s c).setDevConflict true)

theorem chainRead_envFree (p : Addr) (td : Nat) : EnvFreeOp (chainRead p td) :=
  fun s w a o => chainReadFrom_withEnv p td s.chain [] none s w a o

theorem chainWriteFrom_withEnv (p : Addr) (te : Nat) (post pre : List Node) (v : Byte) (s : State) (w : List WrapNode)
    (a : HostArgs) (o : List Output) :
    chainWriteFrom p te pre post v (s.withEnv w a o) = (chainWriteFrom p te pre post v s).lift fun x => x.withEnv w a o := by
  induction post generalizing pre v s with
  | nil => rfl
  | cons n post ih =>
    unfold chainWriteFrom
    show (match writeNode s.P s.frame p te v n s.audio with | .raised f c => _ | .ok v' c => _) = _
    cases writeNode s.P s.frame p te v n s.audio with
    | raised f c => rfl
    | ok v' c => exact ih (pre ++ [c.1]) v' (putNode pre post s c)

theorem chainWrite_envFree (p : Addr) (v : Byte) (te : Nat) : EnvFreeOp (chainWrite p v te) :=
  fun s w a o => chainWriteFrom_withEnv p te s.chain [] v s w a o

theorem boundaryFrom_withEnv (post pre : List Node) (s : State) (w : List WrapNode) (a : HostArgs) (o : List Output) :
    boundaryFrom pre post (s.withEnv w a o) = (boundaryFrom pre post s).lift fun x => x.withEnv w a o := by
  induction post generalizing pre s with
  | nil => rfl
  | cons n post ih =>
    unfold boundaryFrom
    show (match boundaryNode s.P s.frame n s.audio with | .raised f c => _ | .ok _ c => _) = _
    cases boundaryNode s.P s.frame n s.audio with
    | raised f c => rfl
    | ok v c => exact ih (pre ++ [c.1]) (putNode pre post s c)

theorem boundaryCalls_envFree : EnvFreeOp boundaryCalls := fun s w a o => boundaryFrom_withEnv s.chain [] s w a o

end Sys2Proof.Machine
end

section
/-! SUPPORT for the two noninterference claims: what an operation reads of the wrappers, and the accesses and renders on such a
pair. -/

namespace Sys2Proof.Machine

open Sys2Proof.Claims

/-! ## Functions of the engine that see no disabled wrapper -/

/-- A function of the engine that is the same for every list of disabled wrappers. -/
def OffFree {α : Type} (f : Engine → α) : Prop :=
  ∀ (e : Engine) (w : List WrapNode), Off e.wrap → Off w → f { e with wrap := w } = f e

theorem Alike.engine {p : Prop} {s t : State} (h : Alike p s t) : t.toEngine = { s.toEngine with wrap := t.wrap } := by
  rw [h.rest]
  rfl

theorem Alike.observe {α : Type} {f : Engine → α} {p : Prop} {s t : State} (h : Alike p s t) (hf : OffFree f) :
    f t.toEngine = f s.toEngine := by
  rw [h.engine]
  rcases h.wrap_cases with hw | ⟨hs, ht⟩
  · rw [hw]
  · exact hf s.toEngine t.wrap hs ht

theorem page_offFree (w : Nat) : OffFree fun e => e.page w := by
  intro e v he hv
  exact (page_of_disabled (e := { e with wrap := v }) hv w).trans (page_of_disabled he w).symm

theorem pageOf_offFree (a : Addr) : OffFree fun e => e.pageOf a := fun e v he hv => page_offFree (winOf e.cfg.params a) e v he hv

theorem contendedAddr_offFree (a : Addr) : OffFree fun e => e.contendedAddr a :=
  fun e v he hv => congrArg (contendedPage e.cfg.params) (pageOf_offFree a e v he hv)

theorem addrKey_offFree (a : Addr) : OffFree fun e => e.addrKey a :=
  fun e v he hv => congrArg (pageKey e.cfg.params · (offOf e.cfg.params a)) (pageOf_offFree a e v he hv)

theorem memRead_offFree (a : Addr) : OffFree fun e => e.memRead a :=
  fun e v he hv => congrArg e.pages.read (addrKey_offFree a e v he hv)

theorem memWait_offFree (a : Addr) (ts : Nat) : OffFree fun e => e.memWait a ts :=
  fun e v he hv => congrArg (fun c => if c then contentionWrap e.cfg.params ts else 0) (contendedAddr_offFree a e v he hv)

theorem internalWait_offFree (a : Addr) (n ts : Nat) : OffFree fun e => e.internalWait a n ts :=
  fun e v he hv => congrArg (fun c => if c then contendedPhases e.cfg.params n ts - ts - n else 0) (contendedAddr_offFree a e v he hv)

theorem ioWait_offFree (ts : Nat) (p : Addr) : OffFree fun e => e.ioWait ts p :=
  fun e v he hv => congrArg (ioWaitRow e.cfg.params · (ulaSel p) ts) (contendedAddr_offFree p e v he hv)

theorem screenPage_offFree : OffFree Engine.screenPage := fun _ _ _ _ => rfl

theorem floatingBus_offFree (t : Nat) : OffFree fun e => e.floatingBus t := fun _ _ _ _ => rfl

theorem readWrapper_of_off {w : List WrapNode} (h : Off w) (p : Addr) : readWrapper w p = none :=
  readWrapper_eq_none fun n hn => by rw [h n hn, Bool.false_and]

theorem readWrapper_offFree (p : Addr) : OffFree fun e => readWrapper e.wrap p :=
  fun _ _ he hv => (readWrapper_of_off hv p).trans (readWrapper_of_off he p).symm

theorem wrapTakesWrite_of_off {w : List WrapNode} (h : Off w) (p : Addr) : wrapTakesWrite w p = false :=
  wrapTakesWrite_eq_false fun n hn => by rw [h n hn, Bool.false_and]

theorem wrapTakesWrite_offFree (p : Addr) : OffFree fun e => wrapTakesWrite e.wrap p :=
  fun _ _ he hv => (wrapTakesWrite_of_off hv p).trans (wrapTakesWrite_of_off he p).symm

theorem wrapKey_of_off {w : List WrapNode} (h : Off w) : wrapKey w = [] := by
  rw [wrapKey, List.filter_eq_nil_iff.2 fun n hn => by rw [h n hn]; exact Bool.false_ne_true, List.map_nil]

theorem geometry_offFree : OffFree Engine.geometry :=
  fun e v he hv => (geometry_of_disabled (e := { e with wrap := v }) hv).trans (geometry_of_disabled he).symm

theorem linePixels_offFree : OffFree linePixels := by
  intro e v he hv
  funext y l
  exact rowPixels_congr y ((wrapKey_of_off hv).trans (wrapKey_of_off he).symm) rfl (.inl rfl)

theorem rowStale_offFree : OffFree rowStale := by
  intro e v he hv
  funext l
  unfold rowStale
  rw [wrapKey_of_off hv, wrapKey_of_off he]
  rfl

theorem renderLine_offFree : OffFree renderLine := by
  intro e v he hv
  funext y l
  unfold renderLine
  rw [rowStale_offFree e v he hv, linePixels_offFree e v he hv, wrapKey_of_off hv, wrapKey_of_off he]
  rfl

theorem frameBuffer_offFree : OffFree Engine.frameBuffer := by
  intro e v he hv
  unfold Engine.frameBuffer
  rw [geometry_offFree e v he hv]
  rfl

theorem midBuffer_offFree : OffFree Engine.midBuffer := by
  intro e v he hv
  unfold Engine.midBuffer
  rw [geometry_offFree e v he hv, linePixels_offFree e v he hv]

/-! ## The accesses -/

section Access

variable {p : Prop} {s t : State} (h : Alike p s t)

include h

theorem Alike.setTs (x : Nat) : Alike p (s.setTs x) (t.setTs x) := h.update (g := fun u => u.setTs x) fun _ _ _ _ => rfl
theorem Alike.setMode (m : Mode) : Alike p (s.setMode m) (t.setMode m) := h.update (g := fun u => u.setMode m) fun _ _ _ _ => rfl
theorem Alike.setIntDone (b : Bool) : Alike p (s.setIntDone b) (t.setIntDone b) :=
  h.update (g := fun u => u.setIntDone b) fun _ _ _ _ => rfl
theorem Alike.setAtBoundary (b : Bool) : Alike p (s.setAtBoundary b) (t.setAtBoundary b) :=
  h.update (g := fun u => u.setAtBoundary b) fun _ _ _ _ => rfl
theorem Alike.setPages (m : Memory) : Alike p (s.setPages m) (t.setPages m) :=
  h.update (g := fun u => u.setPages m) fun _ _ _ _ => rfl
theorem Alike.setVcache (v : List VLine) : Alike p (s.setVcache v) (t.setVcache v) :=
  h.update (g := fun u => u.setVcache v) fun _ _ _ _ => rfl
theorem Alike.setDeferred (l : List Mutation) : Alike p (s.setDeferred l) (t.setDeferred l) :=
  h.update (g := fun u => u.setDeferred l) fun _ _ _ _ => rfl

theorem Alike.catchUp (T : Nat) : Alike p (catchUp T s) (Machine.catchUp T t) := h.update (catchUp_envFree T)

theorem Alike.intCheck : Alike p (intCheck s) (Machine.intCheck t) := by
  have hb := h.setAtBoundary false
  unfold Machine.intCheck signalIfDue
  rw [hb.mode, hb.intDone, hb.cfg, hb.ts]
  split
  · exact (hb.emit fun _ => rfl).setIntDone true
  · exact hb

theorem Alike.storeByte (a : Addr) (v : Byte) (tw : Nat) : Alike p (storeByte a v tw s) (Machine.storeByte a v tw t) := by
  have hpage : t.pageOf a = s.pageOf a := h.observe (pageOf_offFree a)
  have hkey : t.addrKey a = s.addrKey a := h.observe (addrKey_offFree a)
  have hscreen : t.screenPage = s.screenPage := h.observe screenPage_offFree
  have hwrite : writablePage t.P (t.pageOf a) = writablePage s.P (s.pageOf a) := by rw [State.P, h.cfg, hpage]
  cases hw : writablePage s.P (s.pageOf a) with
  | false => rwa [storeByte_of_not_writable hw, storeByte_of_not_writable (hwrite.trans hw)]
  | true =>
    by_cases hs : s.pageOf a = s.screenPage
    · rw [storeByte_of_screen hw hs, storeByte_of_screen (hwrite.trans hw) (by rw [hpage, hscreen, hs]), h.pages, hkey]
      exact (h.catchUp tw).setPages _
    · rw [storeByte_of_not_screen hw hs, storeByte_of_not_screen (hwrite.trans hw) (by rwa [hpage, hscreen]), h.pages, hkey]
      exact h.setPages _

theorem Alike.ulaRead (a : Addr) (td : Nat) : ulaRead a td t = Machine.ulaRead a td s := by
  unfold Machine.ulaRead
  rw [State.P, State.P, h.cfg, h.frame, h.input]

theorem Alike.portRead (a : Addr) (td : Nat) : ResAlike p (portRead a td s) (Machine.portRead a td t) := by
  have hr : readWrapper t.wrap a = readWrapper s.wrap a := h.observe (readWrapper_offFree a)
  unfold Machine.portRead
  rw [hr]
  cases readWrapper s.wrap a with
  | some n => exact ⟨rfl, h⟩
  | none =>
    dsimp only
    split
    · exact ⟨h.ulaRead a td, h⟩
    · exact (h.op (chainRead_envFree a td)).bind fun r u v _ hu => ⟨congrArg r.getD (hu.observe (floatingBus_offFree td)), hu⟩

theorem Alike.chipsetWrite (a : Addr) (v : Byte) (te : Nat) : Alike p (chipsetWrite a v te s) (Machine.chipsetWrite a v te t) := by
  have hu : ∀ b : Bool, Alike p (if b then ulaWrite v te s else s) (if b then ulaWrite v te t else t) := by
    intro b
    cases b
    · exact h
    · exact h.update (ulaWrite_envFree v te)
  rw [chipsetWrite_of_sel (s := s) rfl rfl, chipsetWrite_of_sel (s := t) rfl (by rw [State.P, h.cfg])]
  split
  · exact ((hu (ulaSel a)).catchUp te).update (pagingWrite_envFree v)
  · exact hu (ulaSel a)

/-- A wrapper takes the write only where the wrappers of the two are the same. -/
theorem Alike.decodersWrite (a : Addr) (v : Byte) (te : Nat) : Alike p (decodersWrite a v te s) (Machine.decodersWrite a v te t) := by
  have ht : wrapTakesWrite t.wrap a = wrapTakesWrite s.wrap a := h.observe (wrapTakesWrite_offFree a)
  cases hs : wrapTakesWrite s.wrap a with
  | false =>
    rw [decodersWrite_of_chipset hs, decodersWrite_of_chipset (ht.trans hs)]
    exact h.chipsetWrite a v te
  | true =>
    have hp : ¬p := fun hp => by rw [wrapTakesWrite_of_off (h.off hp).1] at hs; cases hs
    unfold Machine.decodersWrite
    rw [ht, hs, if_pos rfl, if_pos rfl, h.same hp]
    exact h.setWrap fun h => absurd h hp

theorem Alike.portWrite (a : Addr) (v : Byte) (te : Nat) : ResAlike p (portWrite a v te s) (Machine.portWrite a v te t) := by
  rw [portWrite_eq, portWrite_eq]
  exact (h.decodersWrite a v te).op (chainWrite_envFree a v te)

/-! ## The renders and the frame end up to the waiting mutations -/

theorem Alike.renderRows : Alike p (renderRows s) (Machine.renderRows t) := by
  unfold Machine.renderRows
  rw [h.observe renderLine_offFree, h.vcache]
  exact h.setVcache _

theorem Alike.renderVideo : Alike p (renderVideo s) (Machine.renderVideo t) := by
  unfold Machine.renderVideo
  rw [State.P, State.P, h.cfg]
  exact (h.catchUp _).renderRows

theorem Alike.renderFrame : Alike p (renderFrame s) (Machine.renderFrame t) := by
  have hv := h.renderVideo
  refine hv.emit fun hp => ?_
  obtain ⟨-, -, hargs, -⟩ := hv.off hp
  rw [hv.observe frameBuffer_offFree, State.P, State.P, hv.cfg, hv.frame, hv.audio, hargs]

theorem Alike.frameTail :
    Alike p (frameWrap (rollOver (Machine.renderFrame s))) (frameWrap (rollOver (Machine.renderFrame t))) :=
  h.renderFrame.update (g := fun x => frameWrap (rollOver x)) frameTail_envFree

theorem Alike.finaliseInterrupt : Alike p (finaliseInterrupt s) (Machine.finaliseInterrupt t) := by
  have hm := h.setMode .frameComplete
  unfold Machine.finaliseInterrupt
  dsimp only
  rw [hm.intDone]
  split
  · exact hm
  · exact (hm.emit fun _ => rfl).setIntDone true

end Access

/-! ## Host mutations -/

/-- A mutation that neither brings nor changes wrappers in use: no snapshot, no HWRAP, no custom command. -/
structure Mutation.KeepsOff (m : Mutation) : Prop where
  load : ∀ img, m ≠ .load img
  wrap : ∀ e, m ≠ .wrap e
  custom : ∀ w, m ≠ .custom w

section Mutations

variable {p : Prop} {s t : State} {m : Mutation}

theorem Alike.applyMutation (h : Alike p s t) (hm : p → m.KeepsOff) : ResAlike p (applyMutation m s) (Machine.applyMutation m t) := by
  cases m with
  | attach id pos impl => exact ⟨rfl, h.update (attachDevice_envFree id pos impl)⟩
  | detach id => exact h.op (detachDevice_envFree id)
  | page v =>
    refine ⟨rfl, ?_⟩
    rw [h.ts]
    exact (h.catchUp s.ts).update (pagingWrite_envFree v)
  | load img => exact ⟨rfl, (h.setEngine fun hp => absurd rfl ((hm hp).load img)).setAtBoundary true⟩
  | wrap e =>
    have hp : ¬p := fun hp => (hm hp).wrap e rfl
    refine ⟨rfl, ?_⟩
    rw [h.same hp]
    exact h.setWrap fun h => absurd h hp
  | switch args =>
    have hoff : Off (construct args).wrap := by
      intro n hn
      obtain ⟨w, -, rfl⟩ := List.mem_map.1 hn
      rfl
    exact ⟨congrArg Value.nodes h.chain, h.setEngine fun _ => hoff⟩
  | custom w =>
    have hp : ¬p := fun hp => (hm hp).custom w rfl
    unfold Machine.applyMutation
    rw [h.same hp]
    exact ⟨rfl, h.setWrap fun h => absurd h hp⟩

theorem Alike.foldl_applyMutation {l : List Mutation} (hl : ∀ m ∈ l, p → m.KeepsOff) (h : Alike p s t) :
    Alike p (l.foldl (fun u m => (Machine.applyMutation m u).state) s) (l.foldl (fun u m => (Machine.applyMutation m u).state) t) := by
  induction l generalizing s t with
  | nil => exact h
  | cons m l ih =>
    exact ih (fun m hm => hl m (List.mem_cons_of_mem _ hm)) (h.applyMutation (hl m List.mem_cons_self)).state

theorem Alike.projected (h : Alike p s t) (hd : ∀ m ∈ s.deferred, p → m.KeepsOff) : Alike p (projected s) (Machine.projected t) := by
  unfold Machine.projected
  rw [h.deferred]
  exact h.foldl_applyMutation hd

theorem Alike.invalid (h : Alike p s t) (hm : p → m.KeepsOff) : invalid m t = Machine.invalid m s := by
  cases m with
  | attach id pos impl | detach id => unfold Machine.invalid; rw [h.chain]
  | page v => unfold Machine.invalid; rw [State.P, State.P, h.cfg]
  | load img => unfold Machine.invalid; rw [h.engine_of_not fun hp => (hm hp).load img rfl]
  | wrap e => unfold Machine.invalid; rw [h.same fun hp => (hm hp).wrap e rfl]
  | switch args => rfl
  | custom w => unfold Machine.invalid; rw [h.same fun hp => (hm hp).custom w rfl]

theorem Alike.actsNow (h : Alike p s t) : actsNow m t = Machine.actsNow m s := by
  unfold Machine.actsNow
  rw [h.atBoundary, h.mode]

theorem Alike.deferredAfter (h : Alike p s t) : Alike p (deferredAfter m s) (Machine.deferredAfter m t) := by
  cases m with
  | switch args => exact h.setDeferred []
  | _ => exact h

theorem Alike.hostMutation (h : Alike p s t) (hd : ∀ m ∈ s.deferred, p → m.KeepsOff) (hm : p → m.KeepsOff) :
    ResAlike p (hostMutation m s) (Machine.hostMutation m t) := by
  have hinv : Machine.invalid m (Machine.projected t) = Machine.invalid m (Machine.projected s) := (h.projected hd).invalid hm
  cases hi : Machine.invalid m (Machine.projected s) with
  | some r =>
    rw [hostMutation_of_invalid hi, hostMutation_of_invalid (hinv.trans hi)]
    exact ⟨rfl, h.respond r⟩
  | none =>
    cases hn : Machine.actsNow m s with
    | false =>
      rw [hostMutation_deferred hi hn, hostMutation_deferred (hinv.trans hi) (h.actsNow.trans hn), h.deferred]
      exact ⟨rfl, (h.setDeferred _).respond _⟩
    | true =>
      rw [hostMutation_now hi hn, hostMutation_now (hinv.trans hi) (h.actsNow.trans hn)]
      exact (h.deferredAfter.applyMutation hm).bind fun v u w _ hu => ⟨rfl, hu.respond _⟩

/-- R222 step 7 on such a pair. -/
theorem Alike.applyAll {l : List Mutation} (hl : ∀ m ∈ l, p → m.KeepsOff) (h : Alike p s t) :
    ResAlike p (applyAll l s) (Machine.applyAll l t) := by
  induction l generalizing s t with
  | nil => exact ⟨rfl, h.setDeferred []⟩
  | cons m l ih =>
    exact ((h.setDeferred l).applyMutation (hl m List.mem_cons_self)).bind fun v u w _ hu =>
      ih (fun m hm => hl m (List.mem_cons_of_mem _ hm)) (hu.emit fun _ => rfl)

end Mutations

/-! ## The frame end and the sequencer -/

section Sequencer

variable {p : Prop} {s t : State} (h : Alike p s t) (hd : ∀ m ∈ s.deferred, p → m.KeepsOff)

include h hd

theorem Alike.frameEnd : ResAlike p (frameEnd s) (Machine.frameEnd t) := by
  refine (h.finaliseInterrupt.op boundaryCalls_envFree).bind fun _ u v hu hv => ?_
  have hwaits : u.deferred = s.deferred := by
    have hk := (boundaryCalls_keeps (Machine.finaliseInterrupt s)).clockKept.deferred
    rw [hu, Res.state_ok] at hk
    obtain ⟨-, -, -, -, hdef, -⟩ := finaliseInterrupt_clock s
    exact hk.trans hdef
  obtain ⟨-, -, -, -, -, -, -, hu, -⟩ := frameTail_clock u
  obtain ⟨-, -, -, -, -, -, -, hv', -⟩ := frameTail_clock v
  dsimp only
  rw [hu, hv', hv.deferred, hwaits]
  exact hv.frameTail.applyAll hd

theorem Alike.sequencerStep (w n : Nat) : ResAlike p (sequencerStep w n s) (Machine.sequencerStep w n t) := by
  have hts := h.setTs (s.ts + w + n)
  unfold Machine.sequencerStep
  dsimp only
  rw [h.ts, State.P, State.P, hts.cfg, setTs_ts, setTs_ts]
  split
  · exact hts.frameEnd hd
  · exact ⟨rfl, hts⟩

end Sequencer

end Sys2Proof.Machine
end

section
/-! PROOFS. The synthesis switch (R267) and disabled wrappers (R288, R290) leave no trace: every instruction takes a pair of states
that differ only where it cannot see to such a pair. -/

namespace Sys2Proof.Machine

open Sys2Proof.Claims

/-! ## Bus requests -/

section Requests

variable {p : Prop} {s t : State} (h : Alike p s t)

include h

theorem Alike.startRequest (op : RequestOp) : ResAlike p (startRequest op s) (Machine.startRequest op t) := by
  have hc := h.intCheck
  unfold Machine.startRequest
  dsimp only
  rw [State.P, State.P, hc.cfg, hc.ts]
  split
  · exact ⟨rfl, hc⟩
  · exact ⟨rfl, hc⟩

variable (hd : ∀ m ∈ s.deferred, p → m.KeepsOff)

include hd

theorem Alike.readCycle (a : Addr) (n : Nat) : ResAlike p (readCycle a n s) (Machine.readCycle a n t) := by
  have hread : t.memRead a = s.memRead a := h.observe (memRead_offFree a)
  have hwait : t.memWait a s.ts = s.memWait a s.ts := h.observe (memWait_offFree a s.ts)
  unfold Machine.readCycle
  rw [h.ts, hread, hwait]
  exact (h.respond _).sequencerStep hd _ n

theorem Alike.writeCycle (a : Addr) (v : Byte) (n : Nat) : ResAlike p (writeCycle a v n s) (Machine.writeCycle a v n t) := by
  have hwait : t.memWait a s.ts = s.memWait a s.ts := h.observe (memWait_offFree a s.ts)
  unfold Machine.writeCycle
  rw [h.ts, hwait]
  refine ((h.storeByte a v _).respond _).sequencerStep (fun m hm => hd m ?_) _ n
  rwa [respond_deferred, storeByte_deferred] at hm

theorem Alike.internalCycle (a : Addr) (n : Nat) : ResAlike p (internalCycle a n s) (Machine.internalCycle a n t) := by
  have hwait : t.internalWait a n s.ts = s.internalWait a n s.ts := h.observe (internalWait_offFree a n s.ts)
  unfold Machine.internalCycle
  rw [h.ts, hwait]
  exact (h.respond _).sequencerStep hd _ n

theorem Alike.ioReadCycle (a : Addr) : ResAlike p (ioReadCycle a s) (Machine.ioReadCycle a t) := by
  have hwait : t.ioWait s.ts a = s.ioWait s.ts a := h.observe (ioWait_offFree s.ts a)
  unfold Machine.ioReadCycle
  rw [h.ts, hwait, State.P, State.P, h.cfg]
  refine (h.portRead a _).bind fun v u w hu hw => (hw.respond _).sequencerStep (fun m hm => hd m ?_) _ ioPhases
  have hk := (portRead_walk a (dataInstant s.cfg.params s.ts (s.ioWait s.ts a)) s).clockKept.deferred
  rw [hu, Res.state_ok] at hk
  rwa [respond_deferred, hk] at hm

theorem Alike.ioWriteCycle (a : Addr) (v : Byte) : ResAlike p (ioWriteCycle a v s) (Machine.ioWriteCycle a v t) := by
  have hwait : t.ioWait s.ts a = s.ioWait s.ts a := h.observe (ioWait_offFree s.ts a)
  unfold Machine.ioWriteCycle
  rw [h.ts, hwait, State.P, State.P, h.cfg]
  refine (h.portWrite a v _).bind fun _ u w hu hw => (hw.respond _).sequencerStep (fun m hm => hd m ?_) _ ioPhases
  have hk := (portWrite_clockKept a v (dataInstant s.cfg.params s.ts (s.ioWait s.ts a)) s).deferred
  rw [hu, Res.state_ok] at hk
  rwa [respond_deferred, hk] at hm

theorem Alike.request (op : RequestOp) {cycle : State → Res State Unit}
    (hc : ∀ {u v : State}, Alike p u v → (∀ m ∈ u.deferred, p → m.KeepsOff) → ResAlike p (cycle u) (cycle v)) {u : State}
    (e : endRequest ((Machine.startRequest op s).bind fun _ x => cycle x) = .next u) :
    ∃ v, endRequest ((Machine.startRequest op t).bind fun _ x => cycle x) = .next v ∧ Alike p u v := by
  refine ((h.startRequest op).bind fun _ x y hx hxy => hc hxy fun m hm => hd m ?_).endRequest e
  have hk := startRequest_state op s
  rw [hx, Res.state_ok] at hk
  rwa [hk, intCheck_deferred] at hm

end Requests

/-! ## Queries and host commands -/

section Commands

variable {p : Prop} {s t : State} (h : Alike p s t)

include h

theorem Alike.answerQuery {r r' : Except FaultRec Value} (hr : r' = r) : ResAlike p (answerQuery r s) (Machine.answerQuery r' t) := by
  rw [hr]
  cases r with
  | ok v => exact ⟨rfl, h.respond _⟩
  | error f => exact ⟨rfl, h⟩

/-- A command that only responds. -/
theorem Alike.answered {r r' : Response} (hr : p → r' = r) {u : State} (e : endCommand (.ok () (Machine.respond r s)) = .next u) :
    ∃ v, endCommand (.ok () (Machine.respond r' t)) = .next v ∧ Alike p u v :=
  ResAlike.endCommand (r := .ok () (Machine.respond r s)) (r' := .ok () (Machine.respond r' t))
    ⟨rfl, h.emit fun hp => congrArg Output.response (hr hp)⟩ e

theorem Alike.statusFlags : statusFlags t = Machine.statusFlags s := by
  rw [h.rest]
  rfl

theorem Alike.renderMid : ResAlike p (renderMid s) (Machine.renderMid t) := by
  have hc := h.catchUp s.ts
  unfold Machine.renderMid
  dsimp only
  rw [State.P, State.P, h.cfg, h.ts, hc.observe midBuffer_offFree]
  split
  · exact ⟨rfl, h⟩
  · exact ⟨rfl, hc.respond _⟩

variable (hd : ∀ m ∈ s.deferred, p → m.KeepsOff)

include hd

theorem Alike.withOperand {α : Type} (x : Option α) {m : α → Mutation} (hm : ∀ v, p → (m v).KeepsOff) :
    ResAlike p (withOperand x m s) (Machine.withOperand x m t) := by
  cases x with
  | none => exact ⟨rfl, h.respond _⟩
  | some v => exact h.hostMutation hd (hm v)

theorem Alike.loadCommand (hp : ¬p) : ResAlike p (loadCommand s) (Machine.loadCommand t) := by
  unfold Machine.loadCommand
  rw [h.oob]
  split
  · exact ⟨rfl, h.respond _⟩
  · exact h.withOperand hd _ fun _ h => absurd h hp

end Commands

/-! ## Every instruction -/

/-- An instruction other than HWRAP and the snapshot commands. -/
structure LeavesWrap (i : Instr) : Prop where
  hwrap : ∀ e, i ≠ .hwrap e
  save : i ≠ .hsnapsave
  load : i ≠ .hsnapload

theorem Alike.exec {p : Prop} {s t u : State} {i : Instr} (h : Alike p s t) (hd : ∀ m ∈ s.deferred, p → m.KeepsOff)
    (hi : p → LeavesWrap i) (e : exec i s = .next u) : ∃ v, Machine.exec i t = .next v ∧ Alike p u v := by
  cases i with
  | mfetch a n => exact h.request hd .mfetch (fun h hd => h.readCycle hd a (phases n)) e
  | mread a n => exact h.request hd .mread (fun h hd => h.readCycle hd a (phases n)) e
  | mwrite a d n => exact h.request hd .mwrite (fun h hd => h.writeCycle hd a d (phases n)) e
  | minternal a n => exact h.request hd .minternal (fun h hd => h.internalCycle hd a (phases n)) e
  | iord a => exact h.request hd .iord (fun h hd => h.ioReadCycle hd a) e
  | iowr a d => exact h.request hd .iowr (fun h hd => h.ioWriteCycle hd a d) e
  | qtslin l c => exact (h.answerQuery (by rw [State.P, State.P, h.cfg])).endCommand e
  | qlints x => exact (h.answerQuery (by rw [State.P, State.P, h.cfg])).endCommand e
  | qtsabs x => exact (h.answerQuery (by rw [State.P, State.P, h.cfg, h.frame])).endCommand e
  | qcont x => exact (h.answerQuery (by rw [State.P, State.P, h.cfg])).endCommand e
  | qcontio x a =>
    have hw : t.ioWait x.toNat a = s.ioWait x.toNat a := h.observe (ioWait_offFree x.toNat a)
    exact (h.answerQuery (by rw [State.P, State.P, h.cfg, hw])).endCommand e
  | qfloat x =>
    have hf : t.floatingBus x.toNat = s.floatingBus x.toNat := h.observe (floatingBus_offFree x.toNat)
    exact (h.answerQuery (by rw [State.P, State.P, h.cfg, hf])).endCommand e
  | hattach id pos =>
    have hm := h.withOperand hd s.oob.device? (m := fun d => .attach id pos d) fun _ _ => ⟨by simp, by simp, by simp⟩
    unfold Machine.exec execHattach
    rw [h.oob]
    exact hm.endCommand e
  | hdetach id => exact (h.hostMutation hd fun _ => ⟨by simp, by simp, by simp⟩).endCommand e
  | hlookup id => exact h.answered (fun _ => congrArg (lookupAnswer id) h.chain) e
  | hpage v => exact (h.hostMutation hd fun _ => ⟨by simp, by simp, by simp⟩).endCommand e
  | hflags => exact h.answered (fun _ => by rw [h.statusFlags]) e
  | hsnapsave => exact h.answered (fun hp => absurd rfl (hi hp).save) e
  | hsnapload => exact (h.loadCommand hd fun hp => (hi hp).load rfl).endCommand e
  | hrenderv => exact h.renderMid.endCommand e
  | hwrap b => exact (h.hostMutation hd fun hp => absurd rfl ((hi hp).hwrap b)).endCommand e
  | hswitch =>
    have hm := h.withOperand hd s.oob.model? (m := fun a => .switch a) fun _ _ => ⟨by simp, by simp, by simp⟩
    unfold Machine.exec execHswitch
    rw [h.oob]
    exact hm.endCommand e

/-! ## The two claims -/

theorem alike_withSynth (v : Setting Bool) (s : State) : Alike False s (withSynth v s) := ⟨rfl, rfl, False.elim, fun _ => rfl⟩

/-- Settles O53: states that differ in the host's parameters alone, HOST_IN apart, and in outputs stay such a pair. -/
theorem synthesisSwitchLeavesNoTrace : Obligations.SynthesisSwitchLeavesNoTrace := by
  refine ⟨fun i s t v e => ?_, fun _ _ _ _ => rfl⟩
  obtain ⟨u, hu, ha⟩ := (alike_withSynth v s).exec (fun _ _ h => h.elim) False.elim e
  refine ⟨u, hu, ha.engine_of_not id, ha.deferred, ?_⟩
  rw [ha.rest]
  rfl

theorem alike_inner {s : State} (h : Off s.wrap) : Alike True s (inner s) :=
  ⟨rfl, rfl, fun _ => ⟨h, fun _ hn => absurd hn List.not_mem_nil, rfl, rfl⟩, fun h => absurd trivial h⟩

/-- Settles O54: states that differ in disabled wrappers alone stay such a pair, with the same outputs. -/
theorem disabledWrapperIsTheInnerChipset : Obligations.DisabledWrapperIsTheInnerChipset := by
  intro i s t hoff hd hwrap hsave hload e
  obtain ⟨u, hu, ha⟩ := (alike_inner hoff).exec (fun m hm => by rw [hd] at hm; cases hm) (fun _ => ⟨hwrap, hsave, hload⟩) e
  obtain ⟨-, -, hargs, hout⟩ := ha.off trivial
  refine ⟨u, hu, ?_, hout⟩
  rw [ha.rest, hargs, hout]
  rfl

end Sys2Proof.Machine
end
